-- ==== Sys2Proof/Word.lean ====
section
/-! DEFINITION. The word types of the vmx86 core (spec 00_scope.md R7, R8). -/

namespace Sys2Proof

/-- One byte of memory or of an instruction. -/
abbrev Byte := BitVec 8

/-- A general register, an address or a program counter: `XLEN = 64` bits (00_scope.md R7). -/
abbrev Word := BitVec 64

/-- A four-bit register number, general or vector (30_encoding.md R128). -/
abbrev Reg := BitVec 4

/-- The contents of one vector register: `VLEN = 512` bits (00_scope.md R7, 10_state.md R40). -/
abbrev Wide := BitVec 512

end Sys2Proof
end

