-- ==== Sys2Proof/Config.lean ====
section
/-! DEFINITION. What is fixed for the life of the model (00_scope.md R7). The values the spec leaves
open are constants without a body: every claim holds whatever they are. -/

namespace Sys2Proof.Config

/-- `PAGE_SIZE`, a power of two, 4096 by 92_eei_decisions.md D3 (20_memory.md R91). DEDUCED, safe, log 12. -/
abbrev pageSize : Nat := 4096

/-- `MAX_ILEN`, the longest instruction in bytes (30_encoding.md R157). -/
abbrev maxIlen : Nat := 15

/-- `FS_BASE` (30_encoding.md R142): OPEN, so a free value. DESIGN CHOICE, safe, log 8. -/
opaque fsBase : Word

/-- `GS_BASE` (30_encoding.md R142): OPEN, so a free value. DESIGN CHOICE, safe, log 8. -/
opaque gsBase : Word

/-- `ALLOC_POLICY` (20_memory.md R92): where the next segment of a given rounded size should go, from
the (start, end) pairs of the table. OPEN, so free; a proposal that is no free range is not followed.
DESIGN CHOICE, safe, log 7. -/
opaque allocPolicy : List (Nat × Nat) → Nat → Nat

/-- `ALLOC_FILL` (20_memory.md R92, R93): the contents of fresh storage, by the running number of the
fill and the address. OPEN, so free. DESIGN CHOICE, safe, log 6. -/
opaque allocFill : Nat → Nat → Byte

end Sys2Proof.Config
end

