-- ==== Sys2Proof/Syntax.lean ====
section
/-! DEFINITION. The decoded instructions (30_encoding.md R144, R145): one constructor per row of
spec/opcode_table.json, over the operand descriptors of R144. Register numbers are the four-bit numbers
of R128; immediates and displacements are the bits of the encoding. -/

namespace Sys2Proof

/-- The segment-override bytes (30_encoding.md R112): `26`, `2E`, `36`, `3E`, `64`, `65`. -/
inductive Seg | es | cs | ss | ds | fs | gs
deriving DecidableEq, Repr

/-- The optional leading bytes of an instruction that its row does not fix (30_encoding.md R110).
`rex` is `none` without a REX byte and `some W` with one; its R, X and B bits are the high bits of the
register numbers (R120, R128). The order of the bytes and unused REX bits are not kept: DESIGN CHOICE, safe,
log 17. -/
structure Pfx where
  /-- the operand-size override `66` is present (R114, R116) -/
  opsize : Bool
  /-- the segment override, if any (R115) -/
  seg : Option Seg
  /-- the REX byte, if any, by its W bit (R120) -/
  rex : Option Bool
deriving DecidableEq, Repr

/-- The operand widths of integer instructions (00_scope.md R8, 30_encoding.md R133). -/
inductive Width | w8 | w16 | w32 | w64
deriving DecidableEq, Repr

/-- The width in bytes. -/
abbrev Width.bytes : Width → Nat
  | .w8 => 1
  | .w16 => 2
  | .w32 => 4
  | .w64 => 8

/-- The width in bits. -/
abbrev Width.bits (w : Width) : Nat := 8 * w.bytes

/-- A displacement as encoded, 1 or 4 bytes (30_encoding.md R131). -/
inductive Disp
  | d8 (v : BitVec 8)
  | d32 (v : BitVec 32)
deriving DecidableEq, Repr

/-- A memory operand (30_encoding.md R127, R130): the address forms, each with the displacement size
that its encoding has. -/
inductive MemOp
  /-- `x[b]` or `x[b] + disp`, no SIB byte -/
  | base (b : Reg) (d : Option Disp)
  /-- the SIB form with a base; `idx = none` is index number 4, "no index" -/
  | sib (b : Reg) (idx : Option Reg) (scale : BitVec 2) (d : Option Disp)
  /-- the SIB form with `mod = 0` and `base = 5`: no base, a 4-byte displacement -/
  | sibNoBase (idx : Option Reg) (scale : BitVec 2) (d : BitVec 32)
  /-- `npc + disp32` (R141) -/
  | npcRel (d : BitVec 32)
deriving DecidableEq, Repr

/-- A register/memory operand (30_encoding.md R125, R126). -/
inductive RM
  | reg (n : Reg)
  | mem (m : MemOp)
deriving DecidableEq, Repr

/-- An `iz` immediate (30_encoding.md R132): 2 bytes at width 16, else 4. -/
inductive Iz
  | i16 (v : BitVec 16)
  | i32 (v : BitVec 32)
deriving DecidableEq, Repr

/-- An `iv` immediate (30_encoding.md R132): 2, 4 or 8 bytes. -/
inductive Iv
  | i16 (v : BitVec 16)
  | i32 (v : BitVec 32)
  | i64 (v : BitVec 64)
deriving DecidableEq, Repr

/-- The sixteen conditions of Jcc, `cc` 0 to 15 in this order (42_control_transfer.md R233). -/
inductive Cond | o | no | b | ae | e | ne | be | a | s | ns | p | np | l | ge | le | g
deriving DecidableEq, Repr

/-- The admitted instructions, one constructor per row of spec/opcode_table.json, in its order. Where a
constructor has two operands the destination (or first operand) comes first. -/
inductive Instr
  /-- 00: ADD r/m8, r8 -/
  | addRm8R8 (p : Pfx) (d : RM) (r : Reg)
  /-- 01: ADD r/m, r -/
  | addRmR (p : Pfx) (d : RM) (r : Reg)
  /-- 02: ADD r8, r/m8 -/
  | addR8Rm8 (p : Pfx) (r : Reg) (x : RM)
  /-- 03: ADD r, r/m -/
  | addRRm (p : Pfx) (r : Reg) (x : RM)
  /-- 04: ADD AL, imm8 -/
  | addAlI8 (p : Pfx) (v : BitVec 8)
  /-- 05: ADD rAX, imm -/
  | addAxIz (p : Pfx) (v : Iz)
  /-- 28: SUB r/m8, r8 -/
  | subRm8R8 (p : Pfx) (d : RM) (r : Reg)
  /-- 29: SUB r/m, r -/
  | subRmR (p : Pfx) (d : RM) (r : Reg)
  /-- 2A: SUB r8, r/m8 -/
  | subR8Rm8 (p : Pfx) (r : Reg) (x : RM)
  /-- 2B: SUB r, r/m -/
  | subRRm (p : Pfx) (r : Reg) (x : RM)
  /-- 2C: SUB AL, imm8 -/
  | subAlI8 (p : Pfx) (v : BitVec 8)
  /-- 2D: SUB rAX, imm -/
  | subAxIz (p : Pfx) (v : Iz)
  /-- 38: CMP r/m8, r8 -/
  | cmpRm8R8 (p : Pfx) (d : RM) (r : Reg)
  /-- 39: CMP r/m, r -/
  | cmpRmR (p : Pfx) (d : RM) (r : Reg)
  /-- 3A: CMP r8, r/m8 -/
  | cmpR8Rm8 (p : Pfx) (r : Reg) (x : RM)
  /-- 3B: CMP r, r/m -/
  | cmpRRm (p : Pfx) (r : Reg) (x : RM)
  /-- 3C: CMP AL, imm8 -/
  | cmpAlI8 (p : Pfx) (v : BitVec 8)
  /-- 3D: CMP rAX, imm -/
  | cmpAxIz (p : Pfx) (v : Iz)
  /-- 8000 mask FF38: ADD r/m8, imm8 -/
  | addRm8I8 (p : Pfx) (d : RM) (v : BitVec 8)
  /-- 8100 mask FF38: ADD r/m, imm -/
  | addRmIz (p : Pfx) (d : RM) (v : Iz)
  /-- 8300 mask FF38: ADD r/m, imm8 -/
  | addRmI8 (p : Pfx) (d : RM) (v : BitVec 8)
  /-- 8028 mask FF38: SUB r/m8, imm8 -/
  | subRm8I8 (p : Pfx) (d : RM) (v : BitVec 8)
  /-- 8128 mask FF38: SUB r/m, imm -/
  | subRmIz (p : Pfx) (d : RM) (v : Iz)
  /-- 8328 mask FF38: SUB r/m, imm8 -/
  | subRmI8 (p : Pfx) (d : RM) (v : BitVec 8)
  /-- 8038 mask FF38: CMP r/m8, imm8 -/
  | cmpRm8I8 (p : Pfx) (d : RM) (v : BitVec 8)
  /-- 8138 mask FF38: CMP r/m, imm -/
  | cmpRmIz (p : Pfx) (d : RM) (v : Iz)
  /-- 8338 mask FF38: CMP r/m, imm8 -/
  | cmpRmI8 (p : Pfx) (d : RM) (v : BitVec 8)
  /-- FE00 mask FF38: INC r/m8 -/
  | incRm8 (p : Pfx) (d : RM)
  /-- FE08 mask FF38: DEC r/m8 -/
  | decRm8 (p : Pfx) (d : RM)
  /-- FF00 mask FF38: INC r/m -/
  | incRm (p : Pfx) (d : RM)
  /-- FF08 mask FF38: DEC r/m -/
  | decRm (p : Pfx) (d : RM)
  /-- 88: MOV r/m8, r8 -/
  | movRm8R8 (p : Pfx) (d : RM) (r : Reg)
  /-- 89: MOV r/m, r -/
  | movRmR (p : Pfx) (d : RM) (r : Reg)
  /-- 8A: MOV r8, r/m8 -/
  | movR8Rm8 (p : Pfx) (r : Reg) (x : RM)
  /-- 8B: MOV r, r/m -/
  | movRRm (p : Pfx) (r : Reg) (x : RM)
  /-- B0 mask F8: MOV r8, imm8 -/
  | movR8I8 (p : Pfx) (r : Reg) (v : BitVec 8)
  /-- B8 mask F8: MOV r, imm -/
  | movRIv (p : Pfx) (r : Reg) (v : Iv)
  /-- C600 mask FF38: MOV r/m8, imm8 -/
  | movRm8I8 (p : Pfx) (d : RM) (v : BitVec 8)
  /-- C700 mask FF38: MOV r/m, imm -/
  | movRmIz (p : Pfx) (d : RM) (v : Iz)
  /-- 90: NOP -/
  | nop (p : Pfx)
  /-- EB: JMP rel8 -/
  | jmpRel8 (p : Pfx) (v : BitVec 8)
  /-- E9: JMP rel32 -/
  | jmpRel32 (p : Pfx) (v : BitVec 32)
  /-- FF20 mask FF38: JMP r/m64 -/
  | jmpRm (p : Pfx) (x : RM)
  /-- 70: JO rel8 -/
  | joRel8 (p : Pfx) (v : BitVec 8)
  /-- 71: JNO rel8 -/
  | jnoRel8 (p : Pfx) (v : BitVec 8)
  /-- 72: JB rel8 -/
  | jbRel8 (p : Pfx) (v : BitVec 8)
  /-- 73: JAE rel8 -/
  | jaeRel8 (p : Pfx) (v : BitVec 8)
  /-- 74: JE rel8 -/
  | jeRel8 (p : Pfx) (v : BitVec 8)
  /-- 75: JNE rel8 -/
  | jneRel8 (p : Pfx) (v : BitVec 8)
  /-- 76: JBE rel8 -/
  | jbeRel8 (p : Pfx) (v : BitVec 8)
  /-- 77: JA rel8 -/
  | jaRel8 (p : Pfx) (v : BitVec 8)
  /-- 78: JS rel8 -/
  | jsRel8 (p : Pfx) (v : BitVec 8)
  /-- 79: JNS rel8 -/
  | jnsRel8 (p : Pfx) (v : BitVec 8)
  /-- 7A: JP rel8 -/
  | jpRel8 (p : Pfx) (v : BitVec 8)
  /-- 7B: JNP rel8 -/
  | jnpRel8 (p : Pfx) (v : BitVec 8)
  /-- 7C: JL rel8 -/
  | jlRel8 (p : Pfx) (v : BitVec 8)
  /-- 7D: JGE rel8 -/
  | jgeRel8 (p : Pfx) (v : BitVec 8)
  /-- 7E: JLE rel8 -/
  | jleRel8 (p : Pfx) (v : BitVec 8)
  /-- 7F: JG rel8 -/
  | jgRel8 (p : Pfx) (v : BitVec 8)
  /-- 0F80: JO rel32 -/
  | joRel32 (p : Pfx) (v : BitVec 32)
  /-- 0F81: JNO rel32 -/
  | jnoRel32 (p : Pfx) (v : BitVec 32)
  /-- 0F82: JB rel32 -/
  | jbRel32 (p : Pfx) (v : BitVec 32)
  /-- 0F83: JAE rel32 -/
  | jaeRel32 (p : Pfx) (v : BitVec 32)
  /-- 0F84: JE rel32 -/
  | jeRel32 (p : Pfx) (v : BitVec 32)
  /-- 0F85: JNE rel32 -/
  | jneRel32 (p : Pfx) (v : BitVec 32)
  /-- 0F86: JBE rel32 -/
  | jbeRel32 (p : Pfx) (v : BitVec 32)
  /-- 0F87: JA rel32 -/
  | jaRel32 (p : Pfx) (v : BitVec 32)
  /-- 0F88: JS rel32 -/
  | jsRel32 (p : Pfx) (v : BitVec 32)
  /-- 0F89: JNS rel32 -/
  | jnsRel32 (p : Pfx) (v : BitVec 32)
  /-- 0F8A: JP rel32 -/
  | jpRel32 (p : Pfx) (v : BitVec 32)
  /-- 0F8B: JNP rel32 -/
  | jnpRel32 (p : Pfx) (v : BitVec 32)
  /-- 0F8C: JL rel32 -/
  | jlRel32 (p : Pfx) (v : BitVec 32)
  /-- 0F8D: JGE rel32 -/
  | jgeRel32 (p : Pfx) (v : BitVec 32)
  /-- 0F8E: JLE rel32 -/
  | jleRel32 (p : Pfx) (v : BitVec 32)
  /-- 0F8F: JG rel32 -/
  | jgRel32 (p : Pfx) (v : BitVec 32)
  /-- E8: CALL rel32 -/
  | callRel32 (p : Pfx) (v : BitVec 32)
  /-- FF10 mask FF38: CALL r/m64 -/
  | callRm (p : Pfx) (x : RM)
  /-- C3: RET -/
  | ret (p : Pfx)
  /-- 0F2F: COMISS xmm, xmm/m32 -/
  | comiss (p : Pfx) (r : Reg) (x : RM)
  /-- F3 0F10: MOVSS xmm, xmm/m32 -/
  | movssLoad (p : Pfx) (r : Reg) (x : RM)
  /-- F3 0F11: MOVSS xmm/m32, xmm -/
  | movssStore (p : Pfx) (d : RM) (r : Reg)
  /-- F2 0F10: MOVSD xmm, xmm/m64 -/
  | movsdLoad (p : Pfx) (r : Reg) (x : RM)
  /-- F2 0F11: MOVSD xmm/m64, xmm -/
  | movsdStore (p : Pfx) (d : RM) (r : Reg)
  /-- F3 0F6F: MOVDQU xmm, xmm/m128 -/
  | movdquLoad (p : Pfx) (r : Reg) (x : RM)
  /-- F3 0F7F: MOVDQU xmm/m128, xmm -/
  | movdquStore (p : Pfx) (d : RM) (r : Reg)
  /-- 66 0FD4: PADDQ xmm, xmm/m128 -/
  | paddq (p : Pfx) (r : Reg) (x : RM)
  /-- 66 0FD1: PSRLW xmm, xmm/m32 -/
  | psrlwRm (p : Pfx) (r : Reg) (x : RM)
  /-- 66 0FD2: PSRLD xmm, xmm/m32 -/
  | psrldRm (p : Pfx) (r : Reg) (x : RM)
  /-- 66 0FD3: PSRLQ xmm, xmm/m32 -/
  | psrlqRm (p : Pfx) (r : Reg) (x : RM)
  /-- 66 0FE1: PSRAW xmm, xmm/m32 -/
  | psrawRm (p : Pfx) (r : Reg) (x : RM)
  /-- 66 0FE2: PSRAD xmm, xmm/m32 -/
  | psradRm (p : Pfx) (r : Reg) (x : RM)
  /-- 66 0FF1: PSLLW xmm, xmm/m32 -/
  | psllwRm (p : Pfx) (r : Reg) (x : RM)
  /-- 66 0FF2: PSLLD xmm, xmm/m32 -/
  | pslldRm (p : Pfx) (r : Reg) (x : RM)
  /-- 66 0FF3: PSLLQ xmm, xmm/m32 -/
  | psllqRm (p : Pfx) (r : Reg) (x : RM)
  /-- 66 0F71D0 mask FFFFF8: PSRLW xmm, imm8 -/
  | psrlwImm (p : Pfx) (r : Reg) (v : BitVec 8)
  /-- 66 0F71E0 mask FFFFF8: PSRAW xmm, imm8 -/
  | psrawImm (p : Pfx) (r : Reg) (v : BitVec 8)
  /-- 66 0F71F0 mask FFFFF8: PSLLW xmm, imm8 -/
  | psllwImm (p : Pfx) (r : Reg) (v : BitVec 8)
  /-- 66 0F72D0 mask FFFFF8: PSRLD xmm, imm8 -/
  | psrldImm (p : Pfx) (r : Reg) (v : BitVec 8)
  /-- 66 0F72E0 mask FFFFF8: PSRAD xmm, imm8 -/
  | psradImm (p : Pfx) (r : Reg) (v : BitVec 8)
  /-- 66 0F72F0 mask FFFFF8: PSLLD xmm, imm8 -/
  | pslldImm (p : Pfx) (r : Reg) (v : BitVec 8)
  /-- 66 0F73D0 mask FFFFF8: PSRLQ xmm, imm8 -/
  | psrlqImm (p : Pfx) (r : Reg) (v : BitVec 8)
  /-- 66 0F73F0 mask FFFFF8: PSLLQ xmm, imm8 -/
  | psllqImm (p : Pfx) (r : Reg) (v : BitVec 8)
deriving DecidableEq, Repr

end Sys2Proof
end

