-- ==== Sys2Proof/Machine/State.lean ====
section
/-! DEFINITION. The state of the block as plain data (10_state.md, 20_memory.md R60 to R66, 60_exceptions.md
R322), the faults (60_exceptions.md R290), and the state after reset (10_state.md R58). -/

namespace Sys2Proof.Machine

/-! ## One context (10_state.md) -/

/-- The seven flag bits (10_state.md R30). -/
structure Flags where
  /-- carry -/
  cf : Bool
  /-- parity -/
  pf : Bool
  /-- adjust -/
  af : Bool
  /-- zero -/
  zf : Bool
  /-- sign -/
  sf : Bool
  /-- overflow -/
  of : Bool
  /-- direction: state only, no admitted instruction reads or writes it (10_state.md R31) -/
  df : Bool
deriving DecidableEq, Repr

/-- The live representation of a vector register (10_state.md R41). -/
inductive Tag | raw | f32 | f64
deriving DecidableEq, Repr

/-- One vector register (10_state.md R41). A cache that the tag does not name is kept and means
nothing: DEDUCED, safe, log 20. -/
structure VReg where
  raw : Wide
  tag : Tag
  c32 : BitVec 32
  c64 : BitVec 64
deriving DecidableEq, Repr

/-- One context: a Register/Flag File with its pc (10_state.md R20, R27, R30, R40). -/
structure Context where
  /-- the general registers `x[0]` to `x[15]` -/
  x : Vector Word 16
  pc : Word
  flags : Flags
  /-- the vector registers `v[0]` to `v[15]` -/
  v : Vector VReg 16
deriving DecidableEq, Repr

/-! ## The memory manager (20_memory.md) -/

/-- The permissions of a segment (20_memory.md R60). -/
structure Perm where
  read : Bool
  write : Bool
  execute : Bool
deriving DecidableEq, Repr

/-- A segment (20_memory.md R60). `offset` and `name` are carried and never read (R65). -/
structure Segment where
  start : Word
  /-- one past the last address -/
  stop : Word
  perm : Perm
  offset : Word
  name : String
deriving DecidableEq, Repr

/-- Storage, by virtual address: since segments never overlap, the byte of a segment at `a` is the byte
listed for `a` (20_memory.md R65). Addresses strictly rise and no listed byte is `Memory.unlisted`. -/
abbrev Memory := List Host.Cell

/-- The Virtual Memory Manager (20_memory.md R60, R65, R66). -/
structure Vmm where
  /-- the segment table, ordered by start (20_memory.md R63). DEDUCED, safe, log 16. -/
  segs : List Segment
  /-- the bytes of all segments -/
  bytes : Memory
  /-- the MODEL's own field: how many fills with free contents were made (`ALLOC_FILL`). DESIGN CHOICE,
  safe, log 6. -/
  fills : Nat
deriving DecidableEq, Repr

/-- The block: the context that steps, the manager, and the other contexts that share the manager
(60_exceptions.md R322). -/
structure State where
  ctx : Context
  vmm : Vmm
  parked : List Context
deriving DecidableEq, Repr

/-! ## Faults -/

/-- The kind of an access, reported with a fault (60_exceptions.md R305). -/
inductive Access | read | write | fetch
deriving DecidableEq, Repr

/-- The faults of a step (60_exceptions.md R290). The state is then the one before the step (R300), and
what follows is the caller's (R310, R311). All three are the spec's own outcomes: safe. -/
inductive Fault
  /-- raised in Fetch: the bytes at `pc` are no admitted instruction (R301). Safe. -/
  | decodeError (address : Word) (bytes : List Byte)
  /-- raised by an access that no single segment covers (R302, 20_memory.md R70). Safe. -/
  | segmentationFault (address : Word) (width : Nat) (kind : Access)
  /-- raised by an access the segment's permissions forbid (R303, 20_memory.md R70). Safe. -/
  | accessViolation (address : Word) (width : Nat) (kind : Access)
deriving DecidableEq, Repr

/-- What a memory-lifecycle command answers when it fails (60_exceptions.md R290, R304); it is returned to
the caller and is never an outcome of a step. Safe. -/
inductive CommandError
  /-- `allocate`, `map`: no free range, or a refused segment (20_memory.md R92, R93) -/
  | outOfAddressSpace
  /-- `unmap`: the address is no segment start (20_memory.md R94) -/
  | notMapped
  /-- `protect`: the range spans an unmapped gap (20_memory.md R95); the command's address and length.
  DEDUCED, unsafe, log 14. -/
  | accessViolation (address : Word) (length : Word)
deriving DecidableEq, Repr

/-- Refusals of a step. No instruction of this model answers one. -/
inductive Refusal
  /-- raised by an arm of `exec` whose instruction has no meaning yet: none is left. Safe. -/
  | notModelled (mnemonic : String)
deriving DecidableEq, Repr

/-! ## Reset (10_state.md R58, 70_reset_and_hazards.md R330) -/

/-- A vector register after reset: the tag is RAW by R58; the contents are "unspecified" there and 0
here. DESIGN CHOICE, unsafe, log 4. -/
def VReg.reset : VReg := { raw := 0, tag := .raw, c32 := 0, c64 := 0 }

/-- A context after reset. R58 leaves registers, pc and flags "unspecified"; they are 0 here.
DESIGN CHOICE, unsafe, log 1, 2, 3. -/
def Context.reset : Context where
  x := Vector.replicate 16 0
  pc := 0
  flags := ⟨false, false, false, false, false, false, false⟩
  v := Vector.replicate 16 VReg.reset

/-- The manager after reset: no address is mapped (R58). -/
def Vmm.reset : Vmm := { segs := [], bytes := [], fills := 0 }

/-- The block after reset with `NCTX = 1 + others` contexts (70_reset_and_hazards.md R330). -/
def State.resetWith (others : Nat) : State :=
  { ctx := Context.reset, vmm := Vmm.reset, parked := List.replicate others Context.reset }

/-- The block right after reset, with one context (`NCTX = 1`, 92_eei_decisions.md D39).
DESIGN CHOICE, log 9. -/
def State.reset : State := State.resetWith 0

end Sys2Proof.Machine
end

