-- ==== Sys2Proof/Machine/Flags.lean ====
section
/-! DEFINITION. The flag-computation engine: one function per flag, parameterised by the width
(40_integer_alu.md R170 to R175, R182), and the sixteen conditions (42_control_transfer.md R233). -/

namespace Sys2Proof.Machine

/-- The two operations the flag functions know (40_integer_alu.md section 2). -/
inductive AluOp | add | sub
deriving DecidableEq, Repr

/-- The result modulo `2^w`. -/
def AluOp.result {w : Nat} (op : AluOp) (a b : BitVec w) : BitVec w :=
  match op with
  | .add => a + b
  | .sub => a - b

/-- CF (R171): unsigned overflow of the sum, or borrow. -/
def AluOp.carry {w : Nat} (op : AluOp) (a b : BitVec w) : Bool :=
  match op with
  | .add => decide (2 ^ w ≤ a.toNat + b.toNat)
  | .sub => decide (a.toNat < b.toNat)

/-- OF (R172): the sign of the result does not match what the operands' signs imply. -/
def AluOp.overflow {w : Nat} (op : AluOp) (a b : BitVec w) : Bool :=
  match op with
  | .add => a.msb == b.msb && (op.result a b).msb != a.msb
  | .sub => a.msb != b.msb && (op.result a b).msb != a.msb

/-- PF (R174): the low eight bits of the result hold an even number of ones. -/
def parity {w : Nat} (r : BitVec w) : Bool :=
  ((List.range 8).filter fun i => r.getLsbD i).length % 2 == 0

/-- AF (R175): the carry out of, or the borrow into, the low nibble. -/
def AluOp.adjust {w : Nat} (op : AluOp) (a b : BitVec w) : Bool :=
  (a ^^^ b ^^^ op.result a b).getLsbD 4

/-- All six status flags of ADD, SUB and CMP (R171 to R175); DF is kept (10_state.md R31). -/
def AluOp.flags {w : Nat} (op : AluOp) (a b : BitVec w) (f : Flags) : Flags :=
  { f with
    cf := op.carry a b
    pf := parity (op.result a b)
    af := op.adjust a b
    zf := op.result a b == 0
    sf := (op.result a b).msb
    of := op.overflow a b }

/-- The flags of INC and DEC: as with `b = 1`, but CF and DF are kept (R180, R181). -/
def AluOp.flagsKeepCarry {w : Nat} (op : AluOp) (a : BitVec w) (f : Flags) : Flags :=
  { op.flags a 1 f with cf := f.cf }

/-- `Cond(cc)` (42_control_transfer.md R233). -/
def Flags.holds (f : Flags) : Cond → Bool
  | .o => f.of
  | .no => !f.of
  | .b => f.cf
  | .ae => !f.cf
  | .e => f.zf
  | .ne => !f.zf
  | .be => f.cf || f.zf
  | .a => !f.cf && !f.zf
  | .s => f.sf
  | .ns => !f.sf
  | .p => f.pf
  | .np => !f.pf
  | .l => f.sf != f.of
  | .ge => f.sf == f.of
  | .le => f.zf || f.sf != f.of
  | .g => !f.zf && f.sf == f.of

end Sys2Proof.Machine
end

