-- ==== Sys2Proof/WellFormed.lean ====
section
/-! DEFINITION. Which terms of `Instr` stand for an encoding of 30_encoding.md: the decoder answers no
other, and the encoder is meant for no other. -/

namespace Sys2Proof

/-- A register number above 7 needs a REX byte to hold its high bit (30_encoding.md R128). -/
def Pfx.reaches (p : Pfx) (n : Reg) : Bool := p.rex.isSome || decide (n.toNat < 8)

/-- Without a displacement, a base whose low three bits are 5 would read as another form (R127, R130). -/
def Disp.fitsBase (d : Option Disp) (b : Reg) : Bool := d.isSome || b.setWidth 3 != 5

/-- An index is reachable and is not number 4, which means "no index" (R130). -/
def Pfx.reachesIndex (p : Pfx) : Option Reg → Bool
  | none => true
  | some i => p.reaches i && i != 4

/-- The conditions under which a memory operand has an encoding of its form (R127, R130). -/
def MemOp.wf (p : Pfx) : MemOp → Bool
  | .base b d => p.reaches b && b.setWidth 3 != 4 && Disp.fitsBase d b
  | .sib b idx _ d => p.reaches b && p.reachesIndex idx && Disp.fitsBase d b
  | .sibNoBase idx _ _ => p.reachesIndex idx
  | .npcRel _ => true

/-- A register/memory operand with an encoding (R126, R127). -/
def RM.wf (p : Pfx) : RM → Bool
  | .reg n => p.reaches n
  | .mem m => m.wf p

/-- The prefixes select width 16: `66` without REX.W (R133). -/
def Pfx.is16 (p : Pfx) : Bool := p.opsize && p.rex != some true

/-- An `iz` immediate of the size the prefixes select (R132, R133). -/
def Iz.fits (p : Pfx) : Iz → Bool
  | .i16 _ => p.is16
  | .i32 _ => !p.is16

/-- An `iv` immediate of the size the prefixes select (R132, R133). -/
def Iv.fits (p : Pfx) : Iv → Bool
  | .i16 _ => p.is16
  | .i32 _ => !p.is16 && p.rex != some true
  | .i64 _ => p.rex == some true

/-- `66` is absent: it is refused on control transfers (R135) and is another prefix class on the vector
rows of class NP, F3 and F2 (R116). -/
def Pfx.no66 (p : Pfx) : Bool := !p.opsize

/-- `66` is present: the mandatory prefix of the vector rows of class 66 (R116). -/
def Pfx.has66 (p : Pfx) : Bool := p.opsize

/-- The well-formed instructions, by the format of each row (R147, R150, R151). -/
def Instr.wf : Instr → Bool
  | .addRm8R8 p d r => d.wf p && p.reaches r
  | .addRmR p d r => d.wf p && p.reaches r
  | .addR8Rm8 p r x => p.reaches r && x.wf p
  | .addRRm p r x => p.reaches r && x.wf p
  | .addAlI8 _ _ => true
  | .addAxIz p v => v.fits p
  | .subRm8R8 p d r => d.wf p && p.reaches r
  | .subRmR p d r => d.wf p && p.reaches r
  | .subR8Rm8 p r x => p.reaches r && x.wf p
  | .subRRm p r x => p.reaches r && x.wf p
  | .subAlI8 _ _ => true
  | .subAxIz p v => v.fits p
  | .cmpRm8R8 p d r => d.wf p && p.reaches r
  | .cmpRmR p d r => d.wf p && p.reaches r
  | .cmpR8Rm8 p r x => p.reaches r && x.wf p
  | .cmpRRm p r x => p.reaches r && x.wf p
  | .cmpAlI8 _ _ => true
  | .cmpAxIz p v => v.fits p
  | .addRm8I8 p d _ => d.wf p
  | .addRmIz p d v => d.wf p && v.fits p
  | .addRmI8 p d _ => d.wf p
  | .subRm8I8 p d _ => d.wf p
  | .subRmIz p d v => d.wf p && v.fits p
  | .subRmI8 p d _ => d.wf p
  | .cmpRm8I8 p d _ => d.wf p
  | .cmpRmIz p d v => d.wf p && v.fits p
  | .cmpRmI8 p d _ => d.wf p
  | .incRm8 p d => d.wf p
  | .decRm8 p d => d.wf p
  | .incRm p d => d.wf p
  | .decRm p d => d.wf p
  | .movRm8R8 p d r => d.wf p && p.reaches r
  | .movRmR p d r => d.wf p && p.reaches r
  | .movR8Rm8 p r x => p.reaches r && x.wf p
  | .movRRm p r x => p.reaches r && x.wf p
  | .movR8I8 p r _ => p.reaches r
  | .movRIv p r v => p.reaches r && v.fits p
  | .movRm8I8 p d _ => d.wf p
  | .movRmIz p d v => d.wf p && v.fits p
  | .nop _ => true
  | .jmpRel8 p _ => p.no66
  | .jmpRel32 p _ => p.no66
  | .jmpRm p x => p.no66 && x.wf p
  | .joRel8 p _ => p.no66
  | .jnoRel8 p _ => p.no66
  | .jbRel8 p _ => p.no66
  | .jaeRel8 p _ => p.no66
  | .jeRel8 p _ => p.no66
  | .jneRel8 p _ => p.no66
  | .jbeRel8 p _ => p.no66
  | .jaRel8 p _ => p.no66
  | .jsRel8 p _ => p.no66
  | .jnsRel8 p _ => p.no66
  | .jpRel8 p _ => p.no66
  | .jnpRel8 p _ => p.no66
  | .jlRel8 p _ => p.no66
  | .jgeRel8 p _ => p.no66
  | .jleRel8 p _ => p.no66
  | .jgRel8 p _ => p.no66
  | .joRel32 p _ => p.no66
  | .jnoRel32 p _ => p.no66
  | .jbRel32 p _ => p.no66
  | .jaeRel32 p _ => p.no66
  | .jeRel32 p _ => p.no66
  | .jneRel32 p _ => p.no66
  | .jbeRel32 p _ => p.no66
  | .jaRel32 p _ => p.no66
  | .jsRel32 p _ => p.no66
  | .jnsRel32 p _ => p.no66
  | .jpRel32 p _ => p.no66
  | .jnpRel32 p _ => p.no66
  | .jlRel32 p _ => p.no66
  | .jgeRel32 p _ => p.no66
  | .jleRel32 p _ => p.no66
  | .jgRel32 p _ => p.no66
  | .callRel32 p _ => p.no66
  | .callRm p x => p.no66 && x.wf p
  | .ret p => p.no66
  | .comiss p r x => p.no66 && p.reaches r && x.wf p
  | .movssLoad p r x => p.no66 && p.reaches r && x.wf p
  | .movssStore p d r => p.no66 && d.wf p && p.reaches r
  | .movsdLoad p r x => p.no66 && p.reaches r && x.wf p
  | .movsdStore p d r => p.no66 && d.wf p && p.reaches r
  | .movdquLoad p r x => p.no66 && p.reaches r && x.wf p
  | .movdquStore p d r => p.no66 && d.wf p && p.reaches r
  | .paddq p r x => p.has66 && p.reaches r && x.wf p
  | .psrlwRm p r x => p.has66 && p.reaches r && x.wf p
  | .psrldRm p r x => p.has66 && p.reaches r && x.wf p
  | .psrlqRm p r x => p.has66 && p.reaches r && x.wf p
  | .psrawRm p r x => p.has66 && p.reaches r && x.wf p
  | .psradRm p r x => p.has66 && p.reaches r && x.wf p
  | .psllwRm p r x => p.has66 && p.reaches r && x.wf p
  | .pslldRm p r x => p.has66 && p.reaches r && x.wf p
  | .psllqRm p r x => p.has66 && p.reaches r && x.wf p
  | .psrlwImm p r _ => p.has66 && p.reaches r
  | .psrawImm p r _ => p.has66 && p.reaches r
  | .psllwImm p r _ => p.has66 && p.reaches r
  | .psrldImm p r _ => p.has66 && p.reaches r
  | .psradImm p r _ => p.has66 && p.reaches r
  | .pslldImm p r _ => p.has66 && p.reaches r
  | .psrlqImm p r _ => p.has66 && p.reaches r
  | .psllqImm p r _ => p.has66 && p.reaches r

end Sys2Proof
end

