-- ==== Sys2Proof/Decode.lean ====
section
/-! DEFINITION. The instruction decoder and, after it, the encoder (30_encoding.md). `decode` is total on
byte lists: it answers an instruction, a refusal (a `DecodeError`, R155) or that the bytes ran out. -/

namespace Sys2Proof

/-! ## Outcomes of the decoder -/

/-- What a part of the decoder answers. The bytes it consumed are those in front of `rest`. -/
inductive Dec (α : Type)
  /-- decoded, with the bytes that follow -/
  | ok (a : α) (rest : List Byte)
  /-- `DecodeError`: the decoder gave up at the byte before `rest` (R158) -/
  | bad (rest : List Byte)
  /-- the next byte is needed and there is none (`Fetch(i)` of R111 decides what that means) -/
  | short
deriving DecidableEq, Repr

/-- Run the next part of the decoder on what is left. -/
def Dec.bind {α β : Type} : Dec α → (α → List Byte → Dec β) → Dec β
  | .ok a rest, f => f a rest
  | .bad rest, _ => .bad rest
  | .short, _ => .short

/-! ## Little-endian fields (20_memory.md R83, 30_encoding.md R132) -/

/-- One byte. -/
def take8 : List Byte → Dec Byte
  | b :: bs => .ok b bs
  | [] => .short

/-- Two bytes, the least significant first. -/
def take16 : List Byte → Dec (BitVec 16)
  | b0 :: b1 :: bs => .ok (b1 ++ b0) bs
  | _ => .short

/-- Four bytes, the least significant first. -/
def take32 : List Byte → Dec (BitVec 32)
  | b0 :: b1 :: b2 :: b3 :: bs => .ok (b3 ++ b2 ++ b1 ++ b0) bs
  | _ => .short

/-- Eight bytes, the least significant first. -/
def take64 : List Byte → Dec (BitVec 64)
  | b0 :: b1 :: b2 :: b3 :: b4 :: b5 :: b6 :: b7 :: bs =>
    .ok (b7 ++ b6 ++ b5 ++ b4 ++ b3 ++ b2 ++ b1 ++ b0) bs
  | _ => .short

/-! ## Legacy bytes and REX (R112 to R121) -/

/-- `F3` or `F2` (R116). -/
inductive Rep | f3 | f2
deriving DecidableEq, Repr

/-- The legacy bytes seen so far (R113). -/
structure Legacy where
  opsize : Bool
  seg : Option Seg
  rep : Option Rep
deriving DecidableEq, Repr

/-- The segment-override bytes (R112). -/
def segOf (b : Byte) : Option Seg :=
  if b = 0x26 then some .es else if b = 0x2E then some .cs else if b = 0x36 then some .ss
  else if b = 0x3E then some .ds else if b = 0x64 then some .fs else if b = 0x65 then some .gs
  else none

/-- The bytes `F3` and `F2` (R112). -/
def repOf (b : Byte) : Option Rep :=
  if b = 0xF3 then some .f3 else if b = 0xF2 then some .f2 else none

/-- The refused legacy bytes: LOCK `F0` (R119) and address size `67` (R117). -/
def refusedLegacy (b : Byte) : Bool := b == 0xF0 || b == 0x67

/-- Any legacy byte (R111 step 2). -/
def isLegacy (b : Byte) : Bool :=
  b == 0x66 || (segOf b).isSome || (repOf b).isSome || refusedLegacy b

/-- R111 step 1: the legacy bytes, each kind at most once (R113), and the first byte after them. -/
def takeLegacy (l : Legacy) : List Byte → Dec (Legacy × Byte)
  | [] => .short
  | b :: bs =>
    if b = 0x66 then
      if l.opsize then .bad bs else takeLegacy { l with opsize := true } bs
    else match segOf b with
      | some g => if l.seg.isSome then .bad bs else takeLegacy { l with seg := some g } bs
      | none =>
        match repOf b with
        | some r => if l.rep.isSome then .bad bs else takeLegacy { l with rep := some r } bs
        | none => if refusedLegacy b then .bad bs else .ok (l, b) bs

/-- The four bits of a REX byte (R120). -/
structure Rex where
  w : Bool
  r : Bool
  x : Bool
  b : Bool
deriving DecidableEq, Repr

/-- The bits that hold when no REX byte is present (R128, R133). -/
def Rex.none : Rex := ⟨false, false, false, false⟩

/-- A REX byte is `40` to `4F` (R120). -/
def rexOf (b : Byte) : Option Rex :=
  if b.extractLsb' 4 4 = 4#4 then
    some ⟨b.getLsbD 3, b.getLsbD 2, b.getLsbD 1, b.getLsbD 0⟩
  else Option.none

/-- R111 step 2: at most one REX byte, directly before the opcode (R121). -/
def takeRex (b : Byte) (bs : List Byte) : Dec (Option Rex × Byte) :=
  match rexOf b with
  | Option.none => .ok (Option.none, b) bs
  | some rx =>
    (take8 bs).bind fun b' rest =>
      if isLegacy b' || (rexOf b').isSome then .bad rest else .ok (some rx, b') rest

/-! ## The opcode (R123, R124, R116) -/

/-- R111 step 3: the opcode byte and whether it is in map 2; VEX and EVEX are refused (R124). -/
def takeOpcode (b : Byte) (bs : List Byte) : Dec (Bool × Byte) :=
  if b = 0xC4 ∨ b = 0xC5 ∨ b = 0x62 then .bad bs
  else if b = 0x0F then (take8 bs).bind fun op rest => .ok (true, op) rest
  else .ok (false, b) bs

/-- The class column of the opcode table (R116, R153): `any` is the table's "-" of map 1. -/
inductive Cls | any | np | p66 | f3 | f2
deriving DecidableEq, Repr

/-- Does a row's class admit these legacy bytes (R116)? `F3` or `F2` together with `66` is refused. -/
def Cls.admits (c : Cls) (l : Legacy) : Bool :=
  match c with
  | .any => l.rep == Option.none
  | .np => l.rep == Option.none && !l.opsize
  | .p66 => l.rep == Option.none && l.opsize
  | .f3 => l.rep == some .f3 && !l.opsize
  | .f2 => l.rep == some .f2 && !l.opsize

/-! ## ModRM, SIB, displacement (R125 to R131) -/

/-- A four-bit register number from a REX bit and three bits (R128). -/
def regNum (hi : Bool) (lo : BitVec 3) : Reg := BitVec.cons hi lo

/-- The ModRM fields (R125). -/
def modOf (m : Byte) : BitVec 2 := m.extractLsb' 6 2
/-- ModRM.reg (R125), also SIB.index (R130). -/
def midOf (m : Byte) : BitVec 3 := m.extractLsb' 3 3
/-- ModRM.rm (R125), also SIB.base (R130). -/
def lowOf (m : Byte) : BitVec 3 := m.extractLsb' 0 3

/-- The displacement that `mod` 0, 1 or 2 calls for after the form is known (R131). -/
def takeDisp (mod : BitVec 2) (bs : List Byte) : Dec (Option Disp) :=
  if mod = 1 then (take8 bs).bind fun d rest => .ok (some (.d8 d)) rest
  else if mod = 2 then (take32 bs).bind fun d rest => .ok (some (.d32 d)) rest
  else .ok Option.none bs

/-- The index of a SIB byte: number 4 is "no index" (R130). -/
def sibIndex (rx : Rex) (sib : Byte) : Option Reg :=
  if regNum rx.x (midOf sib) = 4 then Option.none else some (regNum rx.x (midOf sib))

/-- The SIB form and its displacement (R130, R131). -/
def takeSib (rx : Rex) (mod : BitVec 2) (bs : List Byte) : Dec MemOp :=
  (take8 bs).bind fun sib rest =>
    if mod = 0 ∧ lowOf sib = 5 then
      (take32 rest).bind fun d rest' => .ok (.sibNoBase (sibIndex rx sib) (modOf sib) d) rest'
    else
      (takeDisp mod rest).bind fun d rest' =>
        .ok (.sib (regNum rx.b (lowOf sib)) (sibIndex rx sib) (modOf sib) d) rest'

/-- The r/m operand of a ModRM byte (R126, R127). -/
def takeRM (rx : Rex) (m : Byte) (bs : List Byte) : Dec RM :=
  if modOf m = 3 then .ok (.reg (regNum rx.b (lowOf m))) bs
  else if lowOf m = 4 then (takeSib rx (modOf m) bs).bind fun a rest => .ok (.mem a) rest
  else if modOf m = 0 ∧ lowOf m = 5 then
    (take32 bs).bind fun d rest => .ok (.mem (.npcRel d)) rest
  else
    (takeDisp (modOf m) bs).bind fun d rest => .ok (.mem (.base (regNum rx.b (lowOf m)) d)) rest

/-! ## Widths and immediates (R132, R133) -/

/-- The operand width of a "v" row (R133). -/
def Pfx.width (p : Pfx) : Width :=
  if p.rex = some true then .w64 else if p.opsize then .w16 else .w32

/-- An `iz` immediate (R132). -/
def takeIz (p : Pfx) (bs : List Byte) : Dec Iz :=
  match p.width with
  | .w16 => (take16 bs).bind fun v rest => .ok (.i16 v) rest
  | _ => (take32 bs).bind fun v rest => .ok (.i32 v) rest

/-- An `iv` immediate (R132). -/
def takeIv (p : Pfx) (bs : List Byte) : Dec Iv :=
  match p.width with
  | .w16 => (take16 bs).bind fun v rest => .ok (.i16 v) rest
  | .w64 => (take64 bs).bind fun v rest => .ok (.i64 v) rest
  | _ => (take32 bs).bind fun v rest => .ok (.i32 v) rest

/-! ## The opcode table (R150 to R153) -/

/-- What follows the opcode of a row, with the constructor it ends in (R147). -/
inductive Body
  /-- ModRM with a register and an r/m operand: formats MR, RM, VRM, VMR -/
  | modrm (mk : Pfx → Reg → RM → Instr)
  /-- ModRM with a `/digit`: format M -/
  | rm (mk : Pfx → RM → Instr)
  /-- ModRM with a `/digit` and one immediate byte: format MI -/
  | rmI8 (mk : Pfx → RM → BitVec 8 → Instr)
  /-- ModRM with a `/digit` and an `iz` immediate: format MI -/
  | rmIz (mk : Pfx → RM → Iz → Instr)
  /-- ModRM with a `/digit` and `mod = 3`, and one immediate byte: format VMI -/
  | vmi (mk : Pfx → Reg → BitVec 8 → Instr)
  /-- one immediate byte or an 8-bit offset: formats AI, D -/
  | i8 (mk : Pfx → BitVec 8 → Instr)
  /-- an `iz` immediate: format AI -/
  | iz (mk : Pfx → Iz → Instr)
  /-- a 32-bit offset: format D -/
  | i32 (mk : Pfx → BitVec 32 → Instr)
  /-- a register in the low opcode bits and one immediate byte: format OI -/
  | opI8 (mk : Pfx → Reg → BitVec 8 → Instr)
  /-- a register in the low opcode bits and an `iv` immediate: format OI -/
  | opIv (mk : Pfx → Reg → Iv → Instr)
  /-- nothing: format ZO -/
  | none (mk : Pfx → Instr)

/-- A row of the opcode table. -/
structure Row where
  /-- in map 2, the opcodes after `0F` (R123) -/
  map2 : Bool
  cls : Cls
  op : Byte
  /-- the opcode bits under the row's mask: all, or all but the low three (R153) -/
  opMask : Byte := 0xFF
  /-- the `/digit`, for a group opcode (R152) -/
  digit : Option (BitVec 3) := Option.none
  /-- `66` is refused: a control transfer (R135) -/
  no66 : Bool := false
  /-- REX.B is refused: NOP (R150, R155) -/
  noB : Bool := false
  body : Body

/-- ADD, SUB, CMP, INC, DEC (R150): table rows 0 to 30. -/
def tableArith : List Row := [
  { map2 := false, cls := .any, op := 0x00, body := .modrm fun p r d => .addRm8R8 p d r },
  { map2 := false, cls := .any, op := 0x01, body := .modrm fun p r d => .addRmR p d r },
  { map2 := false, cls := .any, op := 0x02, body := .modrm .addR8Rm8 },
  { map2 := false, cls := .any, op := 0x03, body := .modrm .addRRm },
  { map2 := false, cls := .any, op := 0x04, body := .i8 .addAlI8 },
  { map2 := false, cls := .any, op := 0x05, body := .iz .addAxIz },
  { map2 := false, cls := .any, op := 0x28, body := .modrm fun p r d => .subRm8R8 p d r },
  { map2 := false, cls := .any, op := 0x29, body := .modrm fun p r d => .subRmR p d r },
  { map2 := false, cls := .any, op := 0x2A, body := .modrm .subR8Rm8 },
  { map2 := false, cls := .any, op := 0x2B, body := .modrm .subRRm },
  { map2 := false, cls := .any, op := 0x2C, body := .i8 .subAlI8 },
  { map2 := false, cls := .any, op := 0x2D, body := .iz .subAxIz },
  { map2 := false, cls := .any, op := 0x38, body := .modrm fun p r d => .cmpRm8R8 p d r },
  { map2 := false, cls := .any, op := 0x39, body := .modrm fun p r d => .cmpRmR p d r },
  { map2 := false, cls := .any, op := 0x3A, body := .modrm .cmpR8Rm8 },
  { map2 := false, cls := .any, op := 0x3B, body := .modrm .cmpRRm },
  { map2 := false, cls := .any, op := 0x3C, body := .i8 .cmpAlI8 },
  { map2 := false, cls := .any, op := 0x3D, body := .iz .cmpAxIz },
  { map2 := false, cls := .any, op := 0x80, digit := some 0, body := .rmI8 .addRm8I8 },
  { map2 := false, cls := .any, op := 0x81, digit := some 0, body := .rmIz .addRmIz },
  { map2 := false, cls := .any, op := 0x83, digit := some 0, body := .rmI8 .addRmI8 },
  { map2 := false, cls := .any, op := 0x80, digit := some 5, body := .rmI8 .subRm8I8 },
  { map2 := false, cls := .any, op := 0x81, digit := some 5, body := .rmIz .subRmIz },
  { map2 := false, cls := .any, op := 0x83, digit := some 5, body := .rmI8 .subRmI8 },
  { map2 := false, cls := .any, op := 0x80, digit := some 7, body := .rmI8 .cmpRm8I8 },
  { map2 := false, cls := .any, op := 0x81, digit := some 7, body := .rmIz .cmpRmIz },
  { map2 := false, cls := .any, op := 0x83, digit := some 7, body := .rmI8 .cmpRmI8 },
  { map2 := false, cls := .any, op := 0xFE, digit := some 0, body := .rm .incRm8 },
  { map2 := false, cls := .any, op := 0xFE, digit := some 1, body := .rm .decRm8 },
  { map2 := false, cls := .any, op := 0xFF, digit := some 0, body := .rm .incRm },
  { map2 := false, cls := .any, op := 0xFF, digit := some 1, body := .rm .decRm }]

/-- MOV and NOP (R150): table rows 31 to 39. -/
def tableMove : List Row := [
  { map2 := false, cls := .any, op := 0x88, body := .modrm fun p r d => .movRm8R8 p d r },
  { map2 := false, cls := .any, op := 0x89, body := .modrm fun p r d => .movRmR p d r },
  { map2 := false, cls := .any, op := 0x8A, body := .modrm .movR8Rm8 },
  { map2 := false, cls := .any, op := 0x8B, body := .modrm .movRRm },
  { map2 := false, cls := .any, op := 0xB0, opMask := 0xF8, body := .opI8 .movR8I8 },
  { map2 := false, cls := .any, op := 0xB8, opMask := 0xF8, body := .opIv .movRIv },
  { map2 := false, cls := .any, op := 0xC6, digit := some 0, body := .rmI8 .movRm8I8 },
  { map2 := false, cls := .any, op := 0xC7, digit := some 0, body := .rmIz .movRmIz },
  { map2 := false, cls := .any, op := 0x90, noB := true, body := .none .nop }]

/-- JMP and the 8-bit Jcc (R150): table rows 40 to 58. -/
def tableJump8 : List Row := [
  { map2 := false, cls := .any, op := 0xEB, no66 := true, body := .i8 .jmpRel8 },
  { map2 := false, cls := .any, op := 0xE9, no66 := true, body := .i32 .jmpRel32 },
  { map2 := false, cls := .any, op := 0xFF, digit := some 4, no66 := true, body := .rm .jmpRm },
  { map2 := false, cls := .any, op := 0x70, no66 := true, body := .i8 .joRel8 },
  { map2 := false, cls := .any, op := 0x71, no66 := true, body := .i8 .jnoRel8 },
  { map2 := false, cls := .any, op := 0x72, no66 := true, body := .i8 .jbRel8 },
  { map2 := false, cls := .any, op := 0x73, no66 := true, body := .i8 .jaeRel8 },
  { map2 := false, cls := .any, op := 0x74, no66 := true, body := .i8 .jeRel8 },
  { map2 := false, cls := .any, op := 0x75, no66 := true, body := .i8 .jneRel8 },
  { map2 := false, cls := .any, op := 0x76, no66 := true, body := .i8 .jbeRel8 },
  { map2 := false, cls := .any, op := 0x77, no66 := true, body := .i8 .jaRel8 },
  { map2 := false, cls := .any, op := 0x78, no66 := true, body := .i8 .jsRel8 },
  { map2 := false, cls := .any, op := 0x79, no66 := true, body := .i8 .jnsRel8 },
  { map2 := false, cls := .any, op := 0x7A, no66 := true, body := .i8 .jpRel8 },
  { map2 := false, cls := .any, op := 0x7B, no66 := true, body := .i8 .jnpRel8 },
  { map2 := false, cls := .any, op := 0x7C, no66 := true, body := .i8 .jlRel8 },
  { map2 := false, cls := .any, op := 0x7D, no66 := true, body := .i8 .jgeRel8 },
  { map2 := false, cls := .any, op := 0x7E, no66 := true, body := .i8 .jleRel8 },
  { map2 := false, cls := .any, op := 0x7F, no66 := true, body := .i8 .jgRel8 }]

/-- The 32-bit Jcc, CALL and RET (R150, R151): table rows 59 to 77. -/
def tableJump32 : List Row := [
  { map2 := true, cls := .np, op := 0x80, body := .i32 .joRel32 },
  { map2 := true, cls := .np, op := 0x81, body := .i32 .jnoRel32 },
  { map2 := true, cls := .np, op := 0x82, body := .i32 .jbRel32 },
  { map2 := true, cls := .np, op := 0x83, body := .i32 .jaeRel32 },
  { map2 := true, cls := .np, op := 0x84, body := .i32 .jeRel32 },
  { map2 := true, cls := .np, op := 0x85, body := .i32 .jneRel32 },
  { map2 := true, cls := .np, op := 0x86, body := .i32 .jbeRel32 },
  { map2 := true, cls := .np, op := 0x87, body := .i32 .jaRel32 },
  { map2 := true, cls := .np, op := 0x88, body := .i32 .jsRel32 },
  { map2 := true, cls := .np, op := 0x89, body := .i32 .jnsRel32 },
  { map2 := true, cls := .np, op := 0x8A, body := .i32 .jpRel32 },
  { map2 := true, cls := .np, op := 0x8B, body := .i32 .jnpRel32 },
  { map2 := true, cls := .np, op := 0x8C, body := .i32 .jlRel32 },
  { map2 := true, cls := .np, op := 0x8D, body := .i32 .jgeRel32 },
  { map2 := true, cls := .np, op := 0x8E, body := .i32 .jleRel32 },
  { map2 := true, cls := .np, op := 0x8F, body := .i32 .jgRel32 },
  { map2 := false, cls := .any, op := 0xE8, no66 := true, body := .i32 .callRel32 },
  { map2 := false, cls := .any, op := 0xFF, digit := some 2, no66 := true, body := .rm .callRm },
  { map2 := false, cls := .any, op := 0xC3, no66 := true, body := .none .ret }]

/-- The vector instructions (R151): table rows 78 to 101. -/
def tableVector : List Row := [
  { map2 := true, cls := .np, op := 0x2F, body := .modrm .comiss },
  { map2 := true, cls := .f3, op := 0x10, body := .modrm .movssLoad },
  { map2 := true, cls := .f3, op := 0x11, body := .modrm fun p r d => .movssStore p d r },
  { map2 := true, cls := .f2, op := 0x10, body := .modrm .movsdLoad },
  { map2 := true, cls := .f2, op := 0x11, body := .modrm fun p r d => .movsdStore p d r },
  { map2 := true, cls := .f3, op := 0x6F, body := .modrm .movdquLoad },
  { map2 := true, cls := .f3, op := 0x7F, body := .modrm fun p r d => .movdquStore p d r },
  { map2 := true, cls := .p66, op := 0xD4, body := .modrm .paddq },
  { map2 := true, cls := .p66, op := 0xD1, body := .modrm .psrlwRm },
  { map2 := true, cls := .p66, op := 0xD2, body := .modrm .psrldRm },
  { map2 := true, cls := .p66, op := 0xD3, body := .modrm .psrlqRm },
  { map2 := true, cls := .p66, op := 0xE1, body := .modrm .psrawRm },
  { map2 := true, cls := .p66, op := 0xE2, body := .modrm .psradRm },
  { map2 := true, cls := .p66, op := 0xF1, body := .modrm .psllwRm },
  { map2 := true, cls := .p66, op := 0xF2, body := .modrm .pslldRm },
  { map2 := true, cls := .p66, op := 0xF3, body := .modrm .psllqRm },
  { map2 := true, cls := .p66, op := 0x71, digit := some 2, body := .vmi .psrlwImm },
  { map2 := true, cls := .p66, op := 0x71, digit := some 4, body := .vmi .psrawImm },
  { map2 := true, cls := .p66, op := 0x71, digit := some 6, body := .vmi .psllwImm },
  { map2 := true, cls := .p66, op := 0x72, digit := some 2, body := .vmi .psrldImm },
  { map2 := true, cls := .p66, op := 0x72, digit := some 4, body := .vmi .psradImm },
  { map2 := true, cls := .p66, op := 0x72, digit := some 6, body := .vmi .pslldImm },
  { map2 := true, cls := .p66, op := 0x73, digit := some 2, body := .vmi .psrlqImm },
  { map2 := true, cls := .p66, op := 0x73, digit := some 6, body := .vmi .psllqImm }]

/-- The 102 rows of spec/opcode_table.json, in its order. -/
def opcodeTable : List Row :=
  tableArith ++ (tableMove ++ (tableJump8 ++ (tableJump32 ++ tableVector)))

/-- A row matches a map, an opcode byte and the legacy bytes (R116, R153). -/
def Row.hits (map2 : Bool) (op : Byte) (l : Legacy) (row : Row) : Bool :=
  row.map2 == map2 && row.op == (op &&& row.opMask) && row.cls.admits l

/-- Is this a row of the `mod = 3` groups (R152)? -/
def Body.isVmi : Body → Bool
  | .vmi _ => true
  | _ => false

/-- A group row is chosen by the `/digit` in ModRM.reg; the vector groups need `mod = 3` (R152). -/
def Row.hitsDigit (m : Byte) (row : Row) : Bool :=
  row.digit == some (midOf m) && (!row.body.isVmi || modOf m == 3)

/-- `66` on a control transfer (R135) and REX.B on `90` (R155) are refused. -/
def Row.refuses (row : Row) (p : Pfx) (rx : Rex) : Bool :=
  (row.no66 && p.opsize) || (row.noB && rx.b)

/-- The ModRM byte: the one already fetched to choose a group row, or the next one. -/
def takeModRM (m : Option Byte) (bs : List Byte) : Dec Byte :=
  match m with
  | some b => .ok b bs
  | Option.none => take8 bs

/-- R111 step 6: the operands of a row. -/
def Body.take (body : Body) (p : Pfx) (rx : Rex) (op : Byte) (m : Option Byte) (bs : List Byte) :
    Dec Instr :=
  match body with
  | .modrm mk =>
    (takeModRM m bs).bind fun m bs => (takeRM rx m bs).bind fun x bs =>
      .ok (mk p (regNum rx.r (midOf m)) x) bs
  | .rm mk =>
    (takeModRM m bs).bind fun m bs => (takeRM rx m bs).bind fun x bs => .ok (mk p x) bs
  | .rmI8 mk =>
    (takeModRM m bs).bind fun m bs => (takeRM rx m bs).bind fun x bs =>
      (take8 bs).bind fun v bs => .ok (mk p x v) bs
  | .rmIz mk =>
    (takeModRM m bs).bind fun m bs => (takeRM rx m bs).bind fun x bs =>
      (takeIz p bs).bind fun v bs => .ok (mk p x v) bs
  | .vmi mk =>
    (takeModRM m bs).bind fun m bs => (take8 bs).bind fun v bs =>
      .ok (mk p (regNum rx.b (lowOf m)) v) bs
  | .i8 mk => (take8 bs).bind fun v bs => .ok (mk p v) bs
  | .iz mk => (takeIz p bs).bind fun v bs => .ok (mk p v) bs
  | .i32 mk => (take32 bs).bind fun v bs => .ok (mk p v) bs
  | .opI8 mk => (take8 bs).bind fun v bs => .ok (mk p (regNum rx.b (lowOf op)) v) bs
  | .opIv mk => (takeIv p bs).bind fun v bs => .ok (mk p (regNum rx.b (lowOf op)) v) bs
  | .none mk => .ok (mk p) bs

/-- The rest of a row once it is chosen. -/
def Row.take (row : Row) (p : Pfx) (rx : Rex) (op : Byte) (m : Option Byte) (bs : List Byte) :
    Dec Instr :=
  if row.refuses p rx then .bad bs else row.body.take p rx op m bs

/-- R111 steps 5 and 6: find the row, reading ModRM first where the row is one of a group. So `66` before `FF /2`
or `FF /4` is refused after the ModRM byte: DEDUCED, log 18. -/
def takeRow (rows : List Row) (p : Pfx) (rx : Rex) (op : Byte) (bs : List Byte) : Dec Instr :=
  match rows with
  | [] => .bad bs
  | row :: _ =>
    if row.digit.isSome then
      (take8 bs).bind fun m bs =>
        match rows.find? (Row.hitsDigit m) with
        | Option.none => .bad bs
        | some row => row.take p rx op (some m) bs
    else row.take p rx op Option.none bs

/-- `Decode` of R111, on the bytes at `pc`. -/
def decode (bytes : List Byte) : Dec Instr :=
  (takeLegacy ⟨false, Option.none, Option.none⟩ bytes).bind fun lb bs =>
    (takeRex lb.2 bs).bind fun rb bs =>
      (takeOpcode rb.2 bs).bind fun mo bs =>
        takeRow (opcodeTable.filter (Row.hits mo.1 mo.2 lb.1))
          ⟨lb.1.opsize, lb.1.seg, rb.1.map Rex.w⟩ (rb.1.getD Rex.none) mo.2 bs

/-! ## The encoder (R110, R147, R150 to R153) -/

/-- Two little-endian bytes. -/
def le16 (v : BitVec 16) : List Byte := [v.extractLsb' 0 8, v.extractLsb' 8 8]

/-- Four little-endian bytes. -/
def le32 (v : BitVec 32) : List Byte :=
  [v.extractLsb' 0 8, v.extractLsb' 8 8, v.extractLsb' 16 8, v.extractLsb' 24 8]

/-- Eight little-endian bytes. -/
def le64 (v : BitVec 64) : List Byte :=
  [v.extractLsb' 0 8, v.extractLsb' 8 8, v.extractLsb' 16 8, v.extractLsb' 24 8,
   v.extractLsb' 32 8, v.extractLsb' 40 8, v.extractLsb' 48 8, v.extractLsb' 56 8]

/-- The bytes of an `iz` immediate. -/
def Iz.bytes : Iz → List Byte
  | .i16 v => le16 v
  | .i32 v => le32 v

/-- The bytes of an `iv` immediate. -/
def Iv.bytes : Iv → List Byte
  | .i16 v => le16 v
  | .i32 v => le32 v
  | .i64 v => le64 v

/-- The byte of a segment override (R112). -/
def Seg.byte : Seg → Byte
  | .es => 0x26
  | .cs => 0x2E
  | .ss => 0x36
  | .ds => 0x3E
  | .fs => 0x64
  | .gs => 0x65

/-- The byte `F3` or `F2`. -/
def Rep.byte : Rep → Byte
  | .f3 => 0xF3
  | .f2 => 0xF2

/-- The low three bits of a register number (R128). -/
def lo3 (n : Reg) : BitVec 3 := n.extractLsb' 0 3
/-- The high bit of a register number, which REX holds (R128). -/
def hi1 (n : Reg) : Bool := n.getLsbD 3

/-- A ModRM or SIB byte (R125, R130). -/
def packByte (top : BitVec 2) (mid low : BitVec 3) : Byte := top ++ mid ++ low

/-- The `mod` field that a displacement takes (R131). -/
def dispMod : Option Disp → BitVec 2
  | Option.none => 0
  | some (.d8 _) => 1
  | some (.d32 _) => 2

/-- The bytes of a displacement (R131). -/
def dispBytes : Option Disp → List Byte
  | Option.none => []
  | some (.d8 v) => [v]
  | some (.d32 v) => le32 v

/-- ModRM, SIB and displacement of an r/m operand (R126, R127, R130). -/
def RM.bytes (mid : BitVec 3) : RM → List Byte
  | .reg n => [packByte 3 mid (lo3 n)]
  | .mem (.base b d) => packByte (dispMod d) mid (lo3 b) :: dispBytes d
  | .mem (.sib b idx sc d) =>
    packByte (dispMod d) mid 4 :: packByte sc (lo3 (idx.getD 4)) (lo3 b) :: dispBytes d
  | .mem (.sibNoBase idx sc d) => packByte 0 mid 4 :: packByte sc (lo3 (idx.getD 4)) 5 :: le32 d
  | .mem (.npcRel d) => packByte 0 mid 5 :: le32 d

/-- The REX.X bit of an r/m operand (R120, R130). -/
def RM.rexX : RM → Bool
  | .mem (.sib _ idx _ _) => hi1 (idx.getD 4)
  | .mem (.sibNoBase idx _ _) => hi1 (idx.getD 4)
  | _ => false

/-- The REX.B bit of an r/m operand (R120). -/
def RM.rexB : RM → Bool
  | .reg n => hi1 n
  | .mem (.base b _) => hi1 b
  | .mem (.sib b _ _ _) => hi1 b
  | _ => false

/-- What stands after the opcode, before the immediate (R147). -/
inductive Tail
  | plain
  /-- a register in the low three opcode bits -/
  | inOpcode (r : Reg)
  /-- ModRM with a register -/
  | regRm (r : Reg) (x : RM)
  /-- ModRM with a `/digit` -/
  | digitRm (k : BitVec 3) (x : RM)

/-- The parts of an instruction (R110). -/
structure Layout where
  pfx : Pfx
  rep : Option Rep := Option.none
  opcode : List Byte
  tail : Tail := .plain
  imm : List Byte := []

/-- The R, X and B bits of the REX byte (R120). -/
def Tail.rexBits : Tail → Bool × Bool × Bool
  | .plain => (false, false, false)
  | .inOpcode r => (false, false, hi1 r)
  | .regRm r x => (hi1 r, x.rexX, x.rexB)
  | .digitRm _ x => (false, x.rexX, x.rexB)

/-- The REX byte, if present (R120). -/
def rexBytes (rex : Option Bool) (t : Tail) : List Byte :=
  match rex with
  | Option.none => []
  | some w =>
    [4#4 ++ (BitVec.ofBool w ++ (BitVec.ofBool t.rexBits.1
      ++ (BitVec.ofBool t.rexBits.2.1 ++ BitVec.ofBool t.rexBits.2.2)))]

/-- The opcode bytes with what follows them. -/
def Tail.bytes (opcode : List Byte) : Tail → List Byte
  | .plain => opcode
  | .inOpcode r => opcode.map fun b => b ||| (lo3 r).setWidth 8
  | .regRm r x => opcode ++ x.bytes (lo3 r)
  | .digitRm k x => opcode ++ x.bytes k

/-- The bytes of an instruction, the legacy bytes in the order `66`, segment, `F3`/`F2` (R110). -/
def Layout.bytes (l : Layout) : List Byte :=
  (if l.pfx.opsize then [0x66] else []) ++ ((l.pfx.seg.map Seg.byte).toList
    ++ ((l.rep.map Rep.byte).toList ++ (rexBytes l.pfx.rex l.tail ++ (l.tail.bytes l.opcode ++ l.imm))))

/-- Where the parts of each instruction stand (R150, R151). -/
def Instr.layout : Instr → Layout
  | .addRm8R8 p d r => { pfx := p, opcode := [0x00], tail := .regRm r d }
  | .addRmR p d r => { pfx := p, opcode := [0x01], tail := .regRm r d }
  | .addR8Rm8 p r x => { pfx := p, opcode := [0x02], tail := .regRm r x }
  | .addRRm p r x => { pfx := p, opcode := [0x03], tail := .regRm r x }
  | .addAlI8 p v => { pfx := p, opcode := [0x04], imm := [v] }
  | .addAxIz p v => { pfx := p, opcode := [0x05], imm := v.bytes }
  | .subRm8R8 p d r => { pfx := p, opcode := [0x28], tail := .regRm r d }
  | .subRmR p d r => { pfx := p, opcode := [0x29], tail := .regRm r d }
  | .subR8Rm8 p r x => { pfx := p, opcode := [0x2A], tail := .regRm r x }
  | .subRRm p r x => { pfx := p, opcode := [0x2B], tail := .regRm r x }
  | .subAlI8 p v => { pfx := p, opcode := [0x2C], imm := [v] }
  | .subAxIz p v => { pfx := p, opcode := [0x2D], imm := v.bytes }
  | .cmpRm8R8 p d r => { pfx := p, opcode := [0x38], tail := .regRm r d }
  | .cmpRmR p d r => { pfx := p, opcode := [0x39], tail := .regRm r d }
  | .cmpR8Rm8 p r x => { pfx := p, opcode := [0x3A], tail := .regRm r x }
  | .cmpRRm p r x => { pfx := p, opcode := [0x3B], tail := .regRm r x }
  | .cmpAlI8 p v => { pfx := p, opcode := [0x3C], imm := [v] }
  | .cmpAxIz p v => { pfx := p, opcode := [0x3D], imm := v.bytes }
  | .addRm8I8 p d v => { pfx := p, opcode := [0x80], tail := .digitRm 0 d, imm := [v] }
  | .addRmIz p d v => { pfx := p, opcode := [0x81], tail := .digitRm 0 d, imm := v.bytes }
  | .addRmI8 p d v => { pfx := p, opcode := [0x83], tail := .digitRm 0 d, imm := [v] }
  | .subRm8I8 p d v => { pfx := p, opcode := [0x80], tail := .digitRm 5 d, imm := [v] }
  | .subRmIz p d v => { pfx := p, opcode := [0x81], tail := .digitRm 5 d, imm := v.bytes }
  | .subRmI8 p d v => { pfx := p, opcode := [0x83], tail := .digitRm 5 d, imm := [v] }
  | .cmpRm8I8 p d v => { pfx := p, opcode := [0x80], tail := .digitRm 7 d, imm := [v] }
  | .cmpRmIz p d v => { pfx := p, opcode := [0x81], tail := .digitRm 7 d, imm := v.bytes }
  | .cmpRmI8 p d v => { pfx := p, opcode := [0x83], tail := .digitRm 7 d, imm := [v] }
  | .incRm8 p d => { pfx := p, opcode := [0xFE], tail := .digitRm 0 d }
  | .decRm8 p d => { pfx := p, opcode := [0xFE], tail := .digitRm 1 d }
  | .incRm p d => { pfx := p, opcode := [0xFF], tail := .digitRm 0 d }
  | .decRm p d => { pfx := p, opcode := [0xFF], tail := .digitRm 1 d }
  | .movRm8R8 p d r => { pfx := p, opcode := [0x88], tail := .regRm r d }
  | .movRmR p d r => { pfx := p, opcode := [0x89], tail := .regRm r d }
  | .movR8Rm8 p r x => { pfx := p, opcode := [0x8A], tail := .regRm r x }
  | .movRRm p r x => { pfx := p, opcode := [0x8B], tail := .regRm r x }
  | .movR8I8 p r v => { pfx := p, opcode := [0xB0], tail := .inOpcode r, imm := [v] }
  | .movRIv p r v => { pfx := p, opcode := [0xB8], tail := .inOpcode r, imm := v.bytes }
  | .movRm8I8 p d v => { pfx := p, opcode := [0xC6], tail := .digitRm 0 d, imm := [v] }
  | .movRmIz p d v => { pfx := p, opcode := [0xC7], tail := .digitRm 0 d, imm := v.bytes }
  | .nop p => { pfx := p, opcode := [0x90] }
  | .jmpRel8 p v => { pfx := p, opcode := [0xEB], imm := [v] }
  | .jmpRel32 p v => { pfx := p, opcode := [0xE9], imm := le32 v }
  | .jmpRm p x => { pfx := p, opcode := [0xFF], tail := .digitRm 4 x }
  | .joRel8 p v => { pfx := p, opcode := [0x70], imm := [v] }
  | .jnoRel8 p v => { pfx := p, opcode := [0x71], imm := [v] }
  | .jbRel8 p v => { pfx := p, opcode := [0x72], imm := [v] }
  | .jaeRel8 p v => { pfx := p, opcode := [0x73], imm := [v] }
  | .jeRel8 p v => { pfx := p, opcode := [0x74], imm := [v] }
  | .jneRel8 p v => { pfx := p, opcode := [0x75], imm := [v] }
  | .jbeRel8 p v => { pfx := p, opcode := [0x76], imm := [v] }
  | .jaRel8 p v => { pfx := p, opcode := [0x77], imm := [v] }
  | .jsRel8 p v => { pfx := p, opcode := [0x78], imm := [v] }
  | .jnsRel8 p v => { pfx := p, opcode := [0x79], imm := [v] }
  | .jpRel8 p v => { pfx := p, opcode := [0x7A], imm := [v] }
  | .jnpRel8 p v => { pfx := p, opcode := [0x7B], imm := [v] }
  | .jlRel8 p v => { pfx := p, opcode := [0x7C], imm := [v] }
  | .jgeRel8 p v => { pfx := p, opcode := [0x7D], imm := [v] }
  | .jleRel8 p v => { pfx := p, opcode := [0x7E], imm := [v] }
  | .jgRel8 p v => { pfx := p, opcode := [0x7F], imm := [v] }
  | .joRel32 p v => { pfx := p, opcode := [0x0F, 0x80], imm := le32 v }
  | .jnoRel32 p v => { pfx := p, opcode := [0x0F, 0x81], imm := le32 v }
  | .jbRel32 p v => { pfx := p, opcode := [0x0F, 0x82], imm := le32 v }
  | .jaeRel32 p v => { pfx := p, opcode := [0x0F, 0x83], imm := le32 v }
  | .jeRel32 p v => { pfx := p, opcode := [0x0F, 0x84], imm := le32 v }
  | .jneRel32 p v => { pfx := p, opcode := [0x0F, 0x85], imm := le32 v }
  | .jbeRel32 p v => { pfx := p, opcode := [0x0F, 0x86], imm := le32 v }
  | .jaRel32 p v => { pfx := p, opcode := [0x0F, 0x87], imm := le32 v }
  | .jsRel32 p v => { pfx := p, opcode := [0x0F, 0x88], imm := le32 v }
  | .jnsRel32 p v => { pfx := p, opcode := [0x0F, 0x89], imm := le32 v }
  | .jpRel32 p v => { pfx := p, opcode := [0x0F, 0x8A], imm := le32 v }
  | .jnpRel32 p v => { pfx := p, opcode := [0x0F, 0x8B], imm := le32 v }
  | .jlRel32 p v => { pfx := p, opcode := [0x0F, 0x8C], imm := le32 v }
  | .jgeRel32 p v => { pfx := p, opcode := [0x0F, 0x8D], imm := le32 v }
  | .jleRel32 p v => { pfx := p, opcode := [0x0F, 0x8E], imm := le32 v }
  | .jgRel32 p v => { pfx := p, opcode := [0x0F, 0x8F], imm := le32 v }
  | .callRel32 p v => { pfx := p, opcode := [0xE8], imm := le32 v }
  | .callRm p x => { pfx := p, opcode := [0xFF], tail := .digitRm 2 x }
  | .ret p => { pfx := p, opcode := [0xC3] }
  | .comiss p r x => { pfx := p, opcode := [0x0F, 0x2F], tail := .regRm r x }
  | .movssLoad p r x => { pfx := p, rep := some .f3, opcode := [0x0F, 0x10], tail := .regRm r x }
  | .movssStore p d r => { pfx := p, rep := some .f3, opcode := [0x0F, 0x11], tail := .regRm r d }
  | .movsdLoad p r x => { pfx := p, rep := some .f2, opcode := [0x0F, 0x10], tail := .regRm r x }
  | .movsdStore p d r => { pfx := p, rep := some .f2, opcode := [0x0F, 0x11], tail := .regRm r d }
  | .movdquLoad p r x => { pfx := p, rep := some .f3, opcode := [0x0F, 0x6F], tail := .regRm r x }
  | .movdquStore p d r => { pfx := p, rep := some .f3, opcode := [0x0F, 0x7F], tail := .regRm r d }
  | .paddq p r x => { pfx := p, opcode := [0x0F, 0xD4], tail := .regRm r x }
  | .psrlwRm p r x => { pfx := p, opcode := [0x0F, 0xD1], tail := .regRm r x }
  | .psrldRm p r x => { pfx := p, opcode := [0x0F, 0xD2], tail := .regRm r x }
  | .psrlqRm p r x => { pfx := p, opcode := [0x0F, 0xD3], tail := .regRm r x }
  | .psrawRm p r x => { pfx := p, opcode := [0x0F, 0xE1], tail := .regRm r x }
  | .psradRm p r x => { pfx := p, opcode := [0x0F, 0xE2], tail := .regRm r x }
  | .psllwRm p r x => { pfx := p, opcode := [0x0F, 0xF1], tail := .regRm r x }
  | .pslldRm p r x => { pfx := p, opcode := [0x0F, 0xF2], tail := .regRm r x }
  | .psllqRm p r x => { pfx := p, opcode := [0x0F, 0xF3], tail := .regRm r x }
  | .psrlwImm p r v => { pfx := p, opcode := [0x0F, 0x71], tail := .digitRm 2 (.reg r), imm := [v] }
  | .psrawImm p r v => { pfx := p, opcode := [0x0F, 0x71], tail := .digitRm 4 (.reg r), imm := [v] }
  | .psllwImm p r v => { pfx := p, opcode := [0x0F, 0x71], tail := .digitRm 6 (.reg r), imm := [v] }
  | .psrldImm p r v => { pfx := p, opcode := [0x0F, 0x72], tail := .digitRm 2 (.reg r), imm := [v] }
  | .psradImm p r v => { pfx := p, opcode := [0x0F, 0x72], tail := .digitRm 4 (.reg r), imm := [v] }
  | .pslldImm p r v => { pfx := p, opcode := [0x0F, 0x72], tail := .digitRm 6 (.reg r), imm := [v] }
  | .psrlqImm p r v => { pfx := p, opcode := [0x0F, 0x73], tail := .digitRm 2 (.reg r), imm := [v] }
  | .psllqImm p r v => { pfx := p, opcode := [0x0F, 0x73], tail := .digitRm 6 (.reg r), imm := [v] }

/-- The bytes of an instruction. -/
def encode (i : Instr) : List Byte := i.layout.bytes

/-- `ilen`: the number of bytes of all parts (R110). -/
def Instr.length (i : Instr) : Nat := (encode i).length

/-! ## The host's reading of the opcode table -/

/-- The bytes of a number, least significant first. -/
def bytesOfNat : Nat → Nat → List Byte
  | 0, _ => []
  | n + 1, w => BitVec.ofNat 8 w :: bytesOfNat n (w / 256)

/-- The bytes a table word stands for, zeros above its `nbits`. The table's rows begin at the first
opcode byte (R153), so the mandatory `66`, `F3` or `F2` of a map-2 row (R116) is not in the word: where
the word as it stands is refused, the first of the three that makes it an instruction is put in front.
DESIGN CHOICE, safe, log 11. -/
def tableBytes (nbits w : Nat) : List Byte :=
  let raw := bytesOfNat 15 (w % 2 ^ nbits)
  let reads (bs : List Byte) : Bool := match decode bs with
    | .ok _ _ => true
    | _ => false
  if reads raw then raw
  else if reads (0x66 :: raw) then 0x66 :: raw
  else if reads (0xF3 :: raw) then 0xF3 :: raw
  else if reads (0xF2 :: raw) then 0xF2 :: raw
  else raw

/-- The instruction the decoder reads from a word of spec/opcode_table.json (`none` where it refuses). -/
def decodeTableWord (nbits w : Nat) : Option Instr :=
  match decode (tableBytes nbits w) with
  | .ok i _ => some i
  | _ => Option.none

end Sys2Proof
end

