-- ==== Sys2Proof/Machine/Memory.lean ====
section
/-! DEFINITION. Storage, translation and protection, data access and fetch (20_memory.md R62 to R87). -/

namespace Sys2Proof.Machine

/-! ## Storage -/

/-- What an address that is not listed reads as. DESIGN CHOICE, unsafe, log 5. -/
def Memory.unlisted : Byte := 0

/-- The one canonical form: addresses strictly rise and no listed byte is `unlisted`. -/
abbrev Memory.wf (m : Memory) : Prop :=
  m.Pairwise (fun c d => c.1 < d.1) ∧ ∀ c ∈ m, c.2 ≠ Memory.unlisted

/-- The byte at an address. -/
def Memory.read : Memory → Nat → Byte
  | [], _ => Memory.unlisted
  | (k, b) :: m, a => if k = a then b else Memory.read m a

/-- Put a cell where its address belongs. -/
def Memory.insert : Memory → Nat → Byte → Memory
  | [], a, b => [(a, b)]
  | (k, c) :: m, a, b => if a < k then (a, b) :: (k, c) :: m else (k, c) :: Memory.insert m a b

/-- Set the byte at an address, in canonical form: the old cell goes, and a new one comes unless the byte
is what an unlisted address reads as. -/
def Memory.write (m : Memory) (a : Nat) (b : Byte) : Memory :=
  if b = Memory.unlisted then m.filter (fun c => c.1 != a)
  else Memory.insert (m.filter (fun c => c.1 != a)) a b

/-- Set the `n` bytes from `a` up to `f 0`, `f 1`, … -/
def Memory.writeBytes (m : Memory) (a : Nat) (f : Nat → Byte) : Nat → Memory
  | 0 => m
  | n + 1 => Memory.write (Memory.writeBytes m a f n) (a + n) (f n)

/-- Drop the bytes of `[lo, hi)` (20_memory.md R94: "its bytes are lost"). -/
def Memory.erase (m : Memory) (lo hi : Nat) : Memory :=
  m.filter fun c => decide (c.1 < lo) || decide (hi ≤ c.1)

/-- Give the `n` addresses from `lo` up the contents `f` (by address): new storage (20_memory.md R92, R93). -/
def Memory.fill (m : Memory) (lo n : Nat) (f : Nat → Byte) : Memory :=
  m.filter (fun c => decide (c.1 < lo))
    ++ ((List.range' lo n).filterMap fun a => if f a = Memory.unlisted then none else some (a, f a))
    ++ m.filter (fun c => decide (lo + n ≤ c.1))

/-- The little-endian number whose byte `j` is `f j` (20_memory.md R80, R83). -/
def littleEndian (f : Nat → Byte) : (n : Nat) → BitVec (8 * n)
  | 0 => 0
  | n + 1 => (f n ++ littleEndian f n).cast (by omega)

/-- Byte `j` of a value, `v[8j+7:8j]` (20_memory.md R81). -/
def byteOf {n : Nat} (v : BitVec n) (j : Nat) : Byte := v.extractLsb' (8 * j) 8

/-! ## Translation (20_memory.md R62, R63, R70) -/

/-- `contains(s, a)`: unsigned `start <= a < end` (R62). -/
def Segment.contains (s : Segment) (a : Word) : Bool :=
  decide (s.start.toNat ≤ a.toNat) && decide (a.toNat < s.stop.toNat)

/-- `Lookup(a)` (R63). -/
def Vmm.lookup (m : Vmm) (a : Word) : Option Segment := m.segs.find? fun s => s.contains a

/-- The permission bit an access needs: its own and no other (R71). -/
def Perm.allows (p : Perm) : Access → Bool
  | .read => p.read
  | .write => p.write
  | .fetch => p.execute

/-- `Translate(a, n, k)` (R70): the covering segment and the place in its storage. The mapping check comes
first (R74); `a + n` is taken in the integers (R73); a fault carries the access's own address and width
(R75). -/
def Vmm.translate (m : Vmm) (a : Word) (n : Nat) (k : Access) : Except Fault (Segment × Nat) :=
  match m.lookup a with
  | none => .error (.segmentationFault a n k)
  | some s =>
    if s.stop.toNat < a.toNat + n then .error (.segmentationFault a n k)
    else if s.perm.allows k then .ok (s, a.toNat - s.start.toNat)
    else .error (.accessViolation a n k)

/-- Byte number `o` of the storage of a segment (R65). -/
def Vmm.storage (m : Vmm) (s : Segment) (o : Nat) : Byte := Memory.read m.bytes (s.start.toNat + o)

/-! ## Data access and fetch (20_memory.md R80 to R82)

R80 and R81 have `n` in 1, 2, 4, 8, 16, and no instruction uses another. That the two functions are also given for every
other `n`, 0 among them, by the same words: DESIGN CHOICE, safe, log 23. -/

/-- `MemRead(a, n)` (R80). -/
def Vmm.memRead (m : Vmm) (a : Word) (n : Nat) : Except Fault (BitVec (8 * n)) :=
  match m.translate a n .read with
  | .error f => .error f
  | .ok (s, o) => .ok (littleEndian (fun j => m.storage s (o + j)) n)

/-- `MemWrite(a, n, v)` (R81): all `n` bytes, or none on a fault. -/
def Vmm.memWrite (m : Vmm) (a : Word) (n : Nat) (v : BitVec (8 * n)) : Except Fault Vmm :=
  match m.translate a n .write with
  | .error f => .error f
  | .ok (s, o) => .ok { m with bytes := Memory.writeBytes m.bytes (s.start.toNat + o) (byteOf v) n }

/-- `MemFetch(a)` (R82). -/
def Vmm.memFetch (m : Vmm) (a : Word) : Except Fault Byte :=
  match m.translate a 1 .fetch with
  | .error f => .error f
  | .ok (s, o) => .ok (m.storage s o)

end Sys2Proof.Machine
end

