-- ==== Sys2Proof/Machine/VRegs.lean ====
section
/-! DEFINITION. The representations of a vector register and the transition table of the tag (10_state.md
R42 to R54). A read answers the value and the register as the read leaves it. -/

namespace Sys2Proof.Machine

/-- Replace the low `k` bits of a 512-bit value by a narrower one. -/
def setLow {k : Nat} (old : Wide) (v : BitVec k) : Wide :=
  ((old >>> k) <<< k) ||| v.setWidth 512

/-- `Val(i)` (R42). -/
def VReg.val (r : VReg) : Wide :=
  match r.tag with
  | .raw => r.raw
  | .f32 => setLow r.raw r.c32
  | .f64 => setLow r.raw r.c64

/-- `Materialize(i)` (R43). -/
def VReg.materialize (r : VReg) : VReg := { r with raw := r.val, tag := .raw }

/-- `VRaw(i)` read (R45). -/
def VReg.readRaw (r : VReg) : BitVec 128 × VReg :=
  let r' := if r.tag = .raw then r else r.materialize
  (r'.raw.setWidth 128, r')

/-- `VRaw(i) <- v` (R46): bits 511:128 of `raw` stay; a cached scalar is dropped. -/
def VReg.writeRaw (r : VReg) (v : BitVec 128) : VReg := { r with raw := setLow r.raw v, tag := .raw }

/-- `VF32(i)` read (R47). -/
def VReg.readF32 (r : VReg) : BitVec 32 × VReg :=
  if r.tag = .f32 then (r.c32, r) else (r.materialize.raw.setWidth 32, r.materialize)

/-- `VF32(i) <- v` (R48). -/
def VReg.writeF32 (r : VReg) (v : BitVec 32) : VReg :=
  let r' := if r.tag = .f64 then r.materialize else r
  { r' with c32 := v, tag := .f32 }

/-- `VF64(i)` read (R49). -/
def VReg.readF64 (r : VReg) : BitVec 64 × VReg :=
  if r.tag = .f64 then (r.c64, r) else (r.materialize.raw.setWidth 64, r.materialize)

/-- `VF64(i) <- v` (R50). -/
def VReg.writeF64 (r : VReg) (v : BitVec 64) : VReg :=
  let r' := if r.tag = .f32 then r.materialize else r
  { r' with c64 := v, tag := .f64 }

/-- `VWide(i)` read (R51). -/
def VReg.readWide (r : VReg) : Wide × VReg :=
  let r' := if r.tag = .raw then r else r.materialize
  (r'.raw, r')

/-- `VWide(i) <- v` (R52). -/
def VReg.writeWide (r : VReg) (v : Wide) : VReg := { r with raw := v, tag := .raw }

end Sys2Proof.Machine
end

