-- ==== Sys2Proof/Machine/Ops.lean ====
section
/-! DEFINITION. The named operations over a state: registers, pc, flags, vector registers, memory; fetch
and decode; and how a step ends, by an advance or by a fault. -/

namespace Sys2Proof.Machine

/-! ## Registers (10_state.md) -/

/-- `x[n]` (R20). No register is hard-wired. -/
def Context.reg (c : Context) (n : Reg) : Word := c.x[n.toNat]'(n.isLt)

/-- `x[n] <- v` (R20). -/
def Context.setReg (c : Context) (n : Reg) (v : Word) : Context :=
  { c with x := c.x.set n.toNat v n.isLt }

/-- Vector register `v[n]` (R40). -/
def Context.vreg (c : Context) (n : Reg) : VReg := c.v[n.toNat]'(n.isLt)

/-- Replace vector register `v[n]`. -/
def Context.setVreg (c : Context) (n : Reg) (r : VReg) : Context :=
  { c with v := c.v.set n.toNat r n.isLt }

/-- `pc <- t` (R27). -/
def Context.setPc (c : Context) (t : Word) : Context := { c with pc := t }

/-- Replace the flags (R30). -/
def Context.setFlags (c : Context) (f : Flags) : Context := { c with flags := f }

/-- Read `v[n]` in a representation; the register is left as the read leaves it (R44). -/
def Context.vread {α : Type} (c : Context) (f : VReg → α × VReg) (n : Reg) : α × Context :=
  ((f (c.vreg n)).1, c.setVreg n (f (c.vreg n)).2)

/-- `npc` of an instruction at the current pc (42_control_transfer.md R222). -/
def Context.npc (c : Context) (i : Instr) : Word := c.pc + BitVec.ofNat 64 i.length

/-- Replace the context that steps. -/
def State.setCtx (s : State) (c : Context) : State := { s with ctx := c }

/-- Replace the memory manager. -/
def State.setVmm (s : State) (m : Vmm) : State := { s with vmm := m }

/-- `x[n]` of the context that steps. -/
def State.reg (s : State) (n : Reg) : Word := s.ctx.reg n

/-- `x[n] <- v` in the context that steps. -/
def State.setReg (s : State) (n : Reg) (v : Word) : State := s.setCtx (s.ctx.setReg n v)

/-- `v[n]` of the context that steps. -/
def State.vreg (s : State) (n : Reg) : VReg := s.ctx.vreg n

/-- Replace `v[n]` in the context that steps. -/
def State.setVreg (s : State) (n : Reg) (r : VReg) : State := s.setCtx (s.ctx.setVreg n r)

/-- `Val(n)` of the context that steps (R42). -/
def State.val (s : State) (n : Reg) : Wide := (s.vreg n).val

/-- `pc <- t` (R27). -/
def State.setPc (s : State) (t : Word) : State := s.setCtx (s.ctx.setPc t)

/-- Replace the flags (R30). -/
def State.setFlags (s : State) (f : Flags) : State := s.setCtx (s.ctx.setFlags f)

/-- Read `v[n]` in a representation; the register is left as the read leaves it (R44). -/
def State.vread {α : Type} (s : State) (f : VReg → α × VReg) (n : Reg) : α × State :=
  ((f (s.vreg n)).1, s.setVreg n (f (s.vreg n)).2)

/-- The register RSP, number 4 (R26). -/
abbrev rsp : Reg := 4

/-- The register RAX, number 0 (R26). -/
abbrev rax : Reg := 0

/-! ## Memory of the state (20_memory.md R80, R81) -/

/-- `MemRead(a, n)`, for the widths of R80 and any other (log 23). -/
def State.memRead (s : State) (a : Word) (n : Nat) : Except Fault (BitVec (8 * n)) := s.vmm.memRead a n

/-- `MemWrite(a, n, v)`, for the widths of R81 and any other (log 23). -/
def State.memWrite (s : State) (a : Word) (n : Nat) (v : BitVec (8 * n)) : Except Fault State :=
  match s.vmm.memWrite a n v with
  | .error f => .error f
  | .ok m => .ok (s.setVmm m)

/-- The byte stored for an address, mapped or not: how statements read memory. -/
def State.byteAt (s : State) (a : Word) : Byte := Memory.read s.vmm.bytes a.toNat

/-! ## Fetch and decode (30_encoding.md R111, 20_memory.md R82) -/

/-- The bytes that can be fetched from `a` up, at most `n`, and the fault of the first that cannot. -/
def Vmm.fetchWindow (m : Vmm) : Nat → Word → List Byte × Option Fault
  | 0, _ => ([], none)
  | n + 1, a =>
    match m.memFetch a with
    | .error f => ([], some f)
    | .ok b => (b :: (m.fetchWindow n (a + 1)).1, (m.fetchWindow n (a + 1)).2)

/-- A decoded instruction (30_encoding.md R145): the original pc, the raw bytes, and the row with its
operands. -/
structure Decoded where
  pc : Word
  raw : List Byte
  instr : Instr
deriving DecidableEq, Repr

/-- `Decode(pc)` (R111) on the bytes of the window. Bytes are needed in address order, so a fetch fault
is reported exactly when the decoder needs the byte it belongs to (60_exceptions.md R309), a sixteenth
byte is a `DecodeError` (R157), and a `DecodeError` carries the bytes up to the one that decided (R158). -/
def decodeWindow (pc : Word) (w : List Byte × Option Fault) : Except Fault Decoded :=
  match decode w.1 with
  | .ok i rest => .ok { pc := pc, raw := w.1.take (w.1.length - rest.length), instr := i }
  | .bad rest => .error (.decodeError pc (w.1.take (w.1.length - rest.length)))
  | .short => .error (w.2.getD (.decodeError pc w.1))

/-- Fetch (42_control_transfer.md R220): bytes and table as they stand now (20_memory.md R90, R106). -/
def State.fetchDecode (s : State) : Except Fault Decoded :=
  decodeWindow s.ctx.pc (s.vmm.fetchWindow Config.maxIlen s.ctx.pc)

/-! ## The end of a step (42_control_transfer.md R220, 60_exceptions.md R300, R310) -/

/-- What a step or an instruction answers. -/
abbrev Result := Host.Outcome State Fault Refusal

/-- Taking a fault. The spec's fault entry saves nothing, enters no mode and goes nowhere: the step hands
the fault to its caller, and every pending write is discarded (60_exceptions.md R300, R310; that a
materialization is not kept is DEDUCED, log 13). There is no return from it (R311). An instruction that
raises none has advanced. -/
def finish : Except Fault State → Result
  | .ok s => .next s
  | .error f => .fault f

/-- `npc` of an instruction at the current pc (42_control_transfer.md R222). -/
def State.npc (s : State) (i : Instr) : Word := s.ctx.npc i

end Sys2Proof.Machine
end

