-- ==== Sys2Proof/Machine/Act.lean ====
section
/-! DEFINITION. The meaning of an instruction as what its context does (00_scope.md R9, R11): memory accesses in
the order of the rule's pseudocode, each one indivisible event (20_memory.md R101, R105), and at the end the
registers, flags and pc, which no other context sees (60_exceptions.md R322). A whole step performs the accesses
with nothing in between; Machine/Among.lean lets other contexts act between them. -/

namespace Sys2Proof.Machine

/-- What is left to do of an instruction: nothing but the writes of its registers, or a `MemRead` or `MemWrite`
and then the rest. A fault of an access drops the rest with every pending write (60_exceptions.md R300). -/
inductive Act
  /-- no access is left: the context as the instruction leaves it -/
  | done (c : Context)
  /-- `MemRead(a, n)`, and the rest from the value read -/
  | read (a : Word) (n : Nat) (rest : BitVec (8 * n) → Act)
  /-- `MemWrite(a, n, v)`, and the rest -/
  | write (a : Word) (n : Nat) (v : BitVec (8 * n)) (rest : Act)

/-- All accesses with nothing in between: the context and the manager afterwards, or the fault of the first
access that is not permitted. -/
def Act.run : Act → Vmm → Except Fault (Context × Vmm)
  | .done c, m => .ok (c, m)
  | .read a n rest, m =>
    match m.memRead a n with
    | .error f => .error f
    | .ok v => (rest v).run m
  | .write a n v rest, m =>
    match m.memWrite a n v with
    | .error f => .error f
    | .ok m' => rest.run m'

/-- The state after all accesses, or the fault. -/
def State.attempt (s : State) (x : Act) : Except Fault State :=
  match x.run s.vmm with
  | .error f => .error f
  | .ok (c, m) => .ok { s with ctx := c, vmm := m }

/-- Execute and Advance of a whole step (42_control_transfer.md R220). -/
def State.perform (s : State) (x : Act) : Result := finish (s.attempt x)

end Sys2Proof.Machine
end

