-- ==== Sys2Proof/Machine/Operands.lean ====
section
/-! DEFINITION. The Operand Resolver: register views (10_state.md R22 to R25), effective addresses
(30_encoding.md R140 to R143), operand reads and writes (R146, R147). -/

namespace Sys2Proof

/-- An `iz` immediate at width `w` (30_encoding.md R132): at 64 bits the 4 bytes are sign-extended. -/
def Iz.value (w : Width) : Iz → BitVec w.bits
  | .i16 v => v.signExtend w.bits
  | .i32 v => v.signExtend w.bits

/-- An `iv` immediate at width `w` (R132): the bits as they are. -/
def Iv.value (w : Width) : Iv → BitVec w.bits
  | .i16 v => v.setWidth w.bits
  | .i32 v => v.setWidth w.bits
  | .i64 v => v.setWidth w.bits

/-- `segbase` (R142): only FS and GS have one. -/
def Pfx.segBase (p : Pfx) : Word :=
  match p.seg with
  | some .fs => Config.fsBase
  | some .gs => Config.gsBase
  | _ => 0

end Sys2Proof

namespace Sys2Proof.Machine

/-! ## Register views (10_state.md R22 to R25) -/

/-- Without REX the 8-bit numbers 4 to 7 are AH, CH, DH, BH (R25). -/
def isHighByte (n : Reg) (rex : Bool) : Bool := !rex && decide (4 ≤ n.toNat) && decide (n.toNat ≤ 7)

/-- `G(w, n, rex)` (R22 to R25). -/
def Context.view (c : Context) (w : Width) (n : Reg) (rex : Bool) : BitVec w.bits :=
  match w with
  | .w64 => c.reg n
  | .w32 => (c.reg n).extractLsb' 0 32
  | .w16 => (c.reg n).extractLsb' 0 16
  | .w8 => if isHighByte n rex then (c.reg (n - 4)).extractLsb' 8 8 else (c.reg n).extractLsb' 0 8

/-- Replace bits 15:0 (R24). -/
def mergeLow16 (old : Word) (v : BitVec 16) : Word := old.extractLsb' 16 48 ++ v

/-- Replace bits 7:0 (R25). -/
def mergeLow8 (old : Word) (v : BitVec 8) : Word := old.extractLsb' 8 56 ++ v

/-- Replace bits 15:8 (R25). -/
def mergeHigh8 (old : Word) (v : BitVec 8) : Word := old.extractLsb' 16 48 ++ (v ++ old.extractLsb' 0 8)

/-- `G(w, n, rex) <- v` (R22 to R25): a 32-bit write clears bits 63:32, 8- and 16-bit writes keep the
rest of the register. -/
def Context.setView (c : Context) (w : Width) (n : Reg) (rex : Bool) (v : BitVec w.bits) : Context :=
  match w, v with
  | .w64, v => c.setReg n v
  | .w32, v => c.setReg n (BitVec.setWidth 64 v)
  | .w16, v => c.setReg n (mergeLow16 (c.reg n) v)
  | .w8, v =>
    if isHighByte n rex then c.setReg (n - 4) (mergeHigh8 (c.reg (n - 4)) v)
    else c.setReg n (mergeLow8 (c.reg n) v)

/-! ## Effective address (30_encoding.md R127, R130, R140 to R142) -/

/-- A displacement sign-extended to 64 bits (R131). -/
def dispWord : Option Disp → Word
  | none => 0
  | some (.d8 v) => v.signExtend 64
  | some (.d32 v) => v.signExtend 64

/-- `index_term` (R130). -/
def indexTerm (c : Context) (idx : Option Reg) (scale : BitVec 2) : Word :=
  match idx with
  | none => 0
  | some i => c.reg i <<< scale.toNat

/-- The address expression of a memory form (R127, R130, R141). -/
def addressExpr (c : Context) (npc : Word) : MemOp → Word
  | .base b d => c.reg b + dispWord d
  | .sib b idx sc d => c.reg b + indexTerm c idx sc + dispWord d
  | .sibNoBase idx sc d => indexTerm c idx sc + d.signExtend 64
  | .npcRel d => npc + d.signExtend 64

/-- `EA` (R140): from the register values of this moment (R143). -/
def effectiveAddress (c : Context) (npc : Word) (p : Pfx) (m : MemOp) : Word :=
  p.segBase + addressExpr c npc m

/-! ## Bound operands (30_encoding.md R146) -/

/-- An r/m operand once its address is computed (R143): a register, or memory at `EA`. -/
inductive Loc
  | reg (n : Reg)
  | mem (ea : Word)
deriving DecidableEq, Repr

/-- Resolve (42_control_transfer.md R220): bind an r/m operand of instruction `i`. -/
def Context.bind (c : Context) (i : Instr) (p : Pfx) : RM → Loc
  | .reg n => .reg n
  | .mem m => .mem (effectiveAddress c (c.npc i) p m)

/-- Resolve in the context that steps. -/
def State.bind (s : State) (i : Instr) (p : Pfx) (x : RM) : Loc := s.ctx.bind i p x

/-- `Rd(op)` of an r/m operand (R146), and the rest from its value. -/
def Context.rd (c : Context) (w : Width) (p : Pfx) (l : Loc) (rest : BitVec w.bits → Act) : Act :=
  match l with
  | .reg n => rest (c.view w n p.rex.isSome)
  | .mem ea => .read ea w.bytes rest

/-- `Wr(op, v)` (R146), and the rest from the context after it. -/
def Context.wr (c : Context) (w : Width) (p : Pfx) (l : Loc) (v : BitVec w.bits) (rest : Context → Act) : Act :=
  match l with
  | .reg n => rest (c.setView w n p.rex.isSome v)
  | .mem ea => .write ea w.bytes v (rest c)

/-- A source operand: an r/m operand or an immediate already extended to the width (R144, R147). -/
inductive Source (w : Width)
  | rm (x : RM)
  | imm (v : BitVec w.bits)

/-- `Rd(s)` of a source (R146), and the rest from its value. -/
def Context.rdSource (c : Context) (i : Instr) (w : Width) (p : Pfx) (src : Source w)
    (rest : BitVec w.bits → Act) : Act :=
  match src with
  | .rm x => c.rd w p (c.bind i p x) rest
  | .imm v => rest v

end Sys2Proof.Machine
end

