-- ==== Sys2Proof/Machine/Arith.lean ====
section
/-! DEFINITION. ADD, SUB, CMP, INC, DEC (40_integer_alu.md R170 to R181). -/

namespace Sys2Proof.Machine

/-! ## Shared operations -/

/-- ADD and SUB (R176, R177): read, compute, write the result, six flags, advance. -/
def Context.aluStore (c : Context) (i : Instr) (p : Pfx) (op : AluOp) (w : Width) (d : RM) (src : Source w) :
    Act :=
  c.rd w p (c.bind i p d) fun a =>
  c.rdSource i w p src fun b =>
  c.wr w p (c.bind i p d) (op.result a b) fun c' =>
  .done ((c'.setFlags (op.flags a b c.flags)).setPc (c.npc i))

/-- CMP (R178): the flags of the subtraction, and no operand is written. -/
def Context.aluCompare (c : Context) (i : Instr) (p : Pfx) (w : Width) (d : RM) (src : Source w) : Act :=
  c.rd w p (c.bind i p d) fun a =>
  c.rdSource i w p src fun b =>
  .done ((c.setFlags (AluOp.sub.flags a b c.flags)).setPc (c.npc i))

/-- INC and DEC (R180, R181): as adding or subtracting 1, but CF is not written. -/
def Context.aluStep (c : Context) (i : Instr) (p : Pfx) (op : AluOp) (w : Width) (d : RM) : Act :=
  c.rd w p (c.bind i p d) fun a =>
  c.wr w p (c.bind i p d) (op.result a 1) fun c' =>
  .done ((c'.setFlags (op.flagsKeepCarry a c.flags)).setPc (c.npc i))

/-! ## Meanings

Of each row: the accesses and register writes (`act…`), and the whole instruction (`exec…`). -/

/-- ADD r/m8, r8 (00; R176). -/
def actAddRm8R8 (p : Pfx) (d : RM) (r : Reg) (c : Context) : Act :=
  c.aluStore (.addRm8R8 p d r) p .add .w8 d (.rm (.reg r))

/-- ADD r/m8, r8 (00; R176). -/
def execAddRm8R8 (p : Pfx) (d : RM) (r : Reg) (s : State) : Result := s.perform (actAddRm8R8 p d r s.ctx)

/-- ADD r/m, r (01; R176). -/
def actAddRmR (p : Pfx) (d : RM) (r : Reg) (c : Context) : Act :=
  c.aluStore (.addRmR p d r) p .add p.width d (.rm (.reg r))

/-- ADD r/m, r (01; R176). -/
def execAddRmR (p : Pfx) (d : RM) (r : Reg) (s : State) : Result := s.perform (actAddRmR p d r s.ctx)

/-- ADD r8, r/m8 (02; R176). -/
def actAddR8Rm8 (p : Pfx) (r : Reg) (x : RM) (c : Context) : Act :=
  c.aluStore (.addR8Rm8 p r x) p .add .w8 (.reg r) (.rm x)

/-- ADD r8, r/m8 (02; R176). -/
def execAddR8Rm8 (p : Pfx) (r : Reg) (x : RM) (s : State) : Result := s.perform (actAddR8Rm8 p r x s.ctx)

/-- ADD r, r/m (03; R176). -/
def actAddRRm (p : Pfx) (r : Reg) (x : RM) (c : Context) : Act :=
  c.aluStore (.addRRm p r x) p .add p.width (.reg r) (.rm x)

/-- ADD r, r/m (03; R176). -/
def execAddRRm (p : Pfx) (r : Reg) (x : RM) (s : State) : Result := s.perform (actAddRRm p r x s.ctx)

/-- ADD AL, imm8 (04; R176). -/
def actAddAlI8 (p : Pfx) (v : BitVec 8) (c : Context) : Act :=
  c.aluStore (.addAlI8 p v) p .add .w8 (.reg rax) (.imm v)

/-- ADD AL, imm8 (04; R176). -/
def execAddAlI8 (p : Pfx) (v : BitVec 8) (s : State) : Result := s.perform (actAddAlI8 p v s.ctx)

/-- ADD rAX, imm (05; R176). -/
def actAddAxIz (p : Pfx) (v : Iz) (c : Context) : Act :=
  c.aluStore (.addAxIz p v) p .add p.width (.reg rax) (.imm (v.value p.width))

/-- ADD rAX, imm (05; R176). -/
def execAddAxIz (p : Pfx) (v : Iz) (s : State) : Result := s.perform (actAddAxIz p v s.ctx)

/-- SUB r/m8, r8 (28; R177). -/
def actSubRm8R8 (p : Pfx) (d : RM) (r : Reg) (c : Context) : Act :=
  c.aluStore (.subRm8R8 p d r) p .sub .w8 d (.rm (.reg r))

/-- SUB r/m8, r8 (28; R177). -/
def execSubRm8R8 (p : Pfx) (d : RM) (r : Reg) (s : State) : Result := s.perform (actSubRm8R8 p d r s.ctx)

/-- SUB r/m, r (29; R177). -/
def actSubRmR (p : Pfx) (d : RM) (r : Reg) (c : Context) : Act :=
  c.aluStore (.subRmR p d r) p .sub p.width d (.rm (.reg r))

/-- SUB r/m, r (29; R177). -/
def execSubRmR (p : Pfx) (d : RM) (r : Reg) (s : State) : Result := s.perform (actSubRmR p d r s.ctx)

/-- SUB r8, r/m8 (2A; R177). -/
def actSubR8Rm8 (p : Pfx) (r : Reg) (x : RM) (c : Context) : Act :=
  c.aluStore (.subR8Rm8 p r x) p .sub .w8 (.reg r) (.rm x)

/-- SUB r8, r/m8 (2A; R177). -/
def execSubR8Rm8 (p : Pfx) (r : Reg) (x : RM) (s : State) : Result := s.perform (actSubR8Rm8 p r x s.ctx)

/-- SUB r, r/m (2B; R177). -/
def actSubRRm (p : Pfx) (r : Reg) (x : RM) (c : Context) : Act :=
  c.aluStore (.subRRm p r x) p .sub p.width (.reg r) (.rm x)

/-- SUB r, r/m (2B; R177). -/
def execSubRRm (p : Pfx) (r : Reg) (x : RM) (s : State) : Result := s.perform (actSubRRm p r x s.ctx)

/-- SUB AL, imm8 (2C; R177). -/
def actSubAlI8 (p : Pfx) (v : BitVec 8) (c : Context) : Act :=
  c.aluStore (.subAlI8 p v) p .sub .w8 (.reg rax) (.imm v)

/-- SUB AL, imm8 (2C; R177). -/
def execSubAlI8 (p : Pfx) (v : BitVec 8) (s : State) : Result := s.perform (actSubAlI8 p v s.ctx)

/-- SUB rAX, imm (2D; R177). -/
def actSubAxIz (p : Pfx) (v : Iz) (c : Context) : Act :=
  c.aluStore (.subAxIz p v) p .sub p.width (.reg rax) (.imm (v.value p.width))

/-- SUB rAX, imm (2D; R177). -/
def execSubAxIz (p : Pfx) (v : Iz) (s : State) : Result := s.perform (actSubAxIz p v s.ctx)

/-- CMP r/m8, r8 (38; R178). -/
def actCmpRm8R8 (p : Pfx) (d : RM) (r : Reg) (c : Context) : Act :=
  c.aluCompare (.cmpRm8R8 p d r) p .w8 d (.rm (.reg r))

/-- CMP r/m8, r8 (38; R178). -/
def execCmpRm8R8 (p : Pfx) (d : RM) (r : Reg) (s : State) : Result := s.perform (actCmpRm8R8 p d r s.ctx)

/-- CMP r/m, r (39; R178). -/
def actCmpRmR (p : Pfx) (d : RM) (r : Reg) (c : Context) : Act :=
  c.aluCompare (.cmpRmR p d r) p p.width d (.rm (.reg r))

/-- CMP r/m, r (39; R178). -/
def execCmpRmR (p : Pfx) (d : RM) (r : Reg) (s : State) : Result := s.perform (actCmpRmR p d r s.ctx)

/-- CMP r8, r/m8 (3A; R178). -/
def actCmpR8Rm8 (p : Pfx) (r : Reg) (x : RM) (c : Context) : Act :=
  c.aluCompare (.cmpR8Rm8 p r x) p .w8 (.reg r) (.rm x)

/-- CMP r8, r/m8 (3A; R178). -/
def execCmpR8Rm8 (p : Pfx) (r : Reg) (x : RM) (s : State) : Result := s.perform (actCmpR8Rm8 p r x s.ctx)

/-- CMP r, r/m (3B; R178). -/
def actCmpRRm (p : Pfx) (r : Reg) (x : RM) (c : Context) : Act :=
  c.aluCompare (.cmpRRm p r x) p p.width (.reg r) (.rm x)

/-- CMP r, r/m (3B; R178). -/
def execCmpRRm (p : Pfx) (r : Reg) (x : RM) (s : State) : Result := s.perform (actCmpRRm p r x s.ctx)

/-- CMP AL, imm8 (3C; R178). -/
def actCmpAlI8 (p : Pfx) (v : BitVec 8) (c : Context) : Act :=
  c.aluCompare (.cmpAlI8 p v) p .w8 (.reg rax) (.imm v)

/-- CMP AL, imm8 (3C; R178). -/
def execCmpAlI8 (p : Pfx) (v : BitVec 8) (s : State) : Result := s.perform (actCmpAlI8 p v s.ctx)

/-- CMP rAX, imm (3D; R178). -/
def actCmpAxIz (p : Pfx) (v : Iz) (c : Context) : Act :=
  c.aluCompare (.cmpAxIz p v) p p.width (.reg rax) (.imm (v.value p.width))

/-- CMP rAX, imm (3D; R178). -/
def execCmpAxIz (p : Pfx) (v : Iz) (s : State) : Result := s.perform (actCmpAxIz p v s.ctx)

/-- ADD r/m8, imm8 (8000; R176). -/
def actAddRm8I8 (p : Pfx) (d : RM) (v : BitVec 8) (c : Context) : Act :=
  c.aluStore (.addRm8I8 p d v) p .add .w8 d (.imm v)

/-- ADD r/m8, imm8 (8000; R176). -/
def execAddRm8I8 (p : Pfx) (d : RM) (v : BitVec 8) (s : State) : Result := s.perform (actAddRm8I8 p d v s.ctx)

/-- ADD r/m, imm (8100; R176). -/
def actAddRmIz (p : Pfx) (d : RM) (v : Iz) (c : Context) : Act :=
  c.aluStore (.addRmIz p d v) p .add p.width d (.imm (v.value p.width))

/-- ADD r/m, imm (8100; R176). -/
def execAddRmIz (p : Pfx) (d : RM) (v : Iz) (s : State) : Result := s.perform (actAddRmIz p d v s.ctx)

/-- ADD r/m, imm8 (8300; R176). -/
def actAddRmI8 (p : Pfx) (d : RM) (v : BitVec 8) (c : Context) : Act :=
  c.aluStore (.addRmI8 p d v) p .add p.width d (.imm (v.signExtend p.width.bits))

/-- ADD r/m, imm8 (8300; R176). -/
def execAddRmI8 (p : Pfx) (d : RM) (v : BitVec 8) (s : State) : Result := s.perform (actAddRmI8 p d v s.ctx)

/-- SUB r/m8, imm8 (8028; R177). -/
def actSubRm8I8 (p : Pfx) (d : RM) (v : BitVec 8) (c : Context) : Act :=
  c.aluStore (.subRm8I8 p d v) p .sub .w8 d (.imm v)

/-- SUB r/m8, imm8 (8028; R177). -/
def execSubRm8I8 (p : Pfx) (d : RM) (v : BitVec 8) (s : State) : Result := s.perform (actSubRm8I8 p d v s.ctx)

/-- SUB r/m, imm (8128; R177). -/
def actSubRmIz (p : Pfx) (d : RM) (v : Iz) (c : Context) : Act :=
  c.aluStore (.subRmIz p d v) p .sub p.width d (.imm (v.value p.width))

/-- SUB r/m, imm (8128; R177). -/
def execSubRmIz (p : Pfx) (d : RM) (v : Iz) (s : State) : Result := s.perform (actSubRmIz p d v s.ctx)

/-- SUB r/m, imm8 (8328; R177). -/
def actSubRmI8 (p : Pfx) (d : RM) (v : BitVec 8) (c : Context) : Act :=
  c.aluStore (.subRmI8 p d v) p .sub p.width d (.imm (v.signExtend p.width.bits))

/-- SUB r/m, imm8 (8328; R177). -/
def execSubRmI8 (p : Pfx) (d : RM) (v : BitVec 8) (s : State) : Result := s.perform (actSubRmI8 p d v s.ctx)

/-- CMP r/m8, imm8 (8038; R178). -/
def actCmpRm8I8 (p : Pfx) (d : RM) (v : BitVec 8) (c : Context) : Act :=
  c.aluCompare (.cmpRm8I8 p d v) p .w8 d (.imm v)

/-- CMP r/m8, imm8 (8038; R178). -/
def execCmpRm8I8 (p : Pfx) (d : RM) (v : BitVec 8) (s : State) : Result := s.perform (actCmpRm8I8 p d v s.ctx)

/-- CMP r/m, imm (8138; R178). -/
def actCmpRmIz (p : Pfx) (d : RM) (v : Iz) (c : Context) : Act :=
  c.aluCompare (.cmpRmIz p d v) p p.width d (.imm (v.value p.width))

/-- CMP r/m, imm (8138; R178). -/
def execCmpRmIz (p : Pfx) (d : RM) (v : Iz) (s : State) : Result := s.perform (actCmpRmIz p d v s.ctx)

/-- CMP r/m, imm8 (8338; R178). -/
def actCmpRmI8 (p : Pfx) (d : RM) (v : BitVec 8) (c : Context) : Act :=
  c.aluCompare (.cmpRmI8 p d v) p p.width d (.imm (v.signExtend p.width.bits))

/-- CMP r/m, imm8 (8338; R178). -/
def execCmpRmI8 (p : Pfx) (d : RM) (v : BitVec 8) (s : State) : Result := s.perform (actCmpRmI8 p d v s.ctx)

/-- INC r/m8 (FE00; R180). -/
def actIncRm8 (p : Pfx) (d : RM) (c : Context) : Act :=
  c.aluStep (.incRm8 p d) p .add .w8 d

/-- INC r/m8 (FE00; R180). -/
def execIncRm8 (p : Pfx) (d : RM) (s : State) : Result := s.perform (actIncRm8 p d s.ctx)

/-- DEC r/m8 (FE08; R181). -/
def actDecRm8 (p : Pfx) (d : RM) (c : Context) : Act :=
  c.aluStep (.decRm8 p d) p .sub .w8 d

/-- DEC r/m8 (FE08; R181). -/
def execDecRm8 (p : Pfx) (d : RM) (s : State) : Result := s.perform (actDecRm8 p d s.ctx)

/-- INC r/m (FF00; R180). -/
def actIncRm (p : Pfx) (d : RM) (c : Context) : Act :=
  c.aluStep (.incRm p d) p .add p.width d

/-- INC r/m (FF00; R180). -/
def execIncRm (p : Pfx) (d : RM) (s : State) : Result := s.perform (actIncRm p d s.ctx)

/-- DEC r/m (FF08; R181). -/
def actDecRm (p : Pfx) (d : RM) (c : Context) : Act :=
  c.aluStep (.decRm p d) p .sub p.width d

/-- DEC r/m (FF08; R181). -/
def execDecRm (p : Pfx) (d : RM) (s : State) : Result := s.perform (actDecRm p d s.ctx)

end Sys2Proof.Machine
end

