-- ==== Sys2Proof/Machine/Control.lean ====
section
/-! DEFINITION. JMP, Jcc, CALL, RET (42_control_transfer.md R225 to R238). -/

namespace Sys2Proof.Machine

/-! ## Shared operations -/

/-- A relative jump (R230): the offset counts from `npc`, modulo `2^64`; the target is not checked (R226). -/
def Context.jumpRel (c : Context) (i : Instr) (off : Word) : Act :=
  .done (c.setPc (c.npc i + off))

/-- A conditional jump (R232). -/
def Context.jumpIf (c : Context) (i : Instr) (cc : Cond) (off : Word) : Act :=
  .done (c.setPc (if c.flags.holds cc then c.npc i + off else c.npc i))

/-- An indirect jump (R231): the operand has 64 bits whatever REX.W is. -/
def Context.jumpTo (c : Context) (i : Instr) (p : Pfx) (x : RM) : Act :=
  c.rd .w64 p (c.bind i p x) fun t => .done (c.setPc t)

/-- The push of a call (R236, R237): store `npc` below the stack, then move RSP, then go. -/
def Context.pushAndGo (c : Context) (i : Instr) (target : Word) : Act :=
  .write (c.reg rsp - 8) 8 (c.npc i) (.done ((c.setReg rsp (c.reg rsp - 8)).setPc target))

/-- A relative call (R236). -/
def Context.callRel (c : Context) (i : Instr) (off : Word) : Act := c.pushAndGo i (c.npc i + off)

/-- An indirect call (R237): the target is read, with the old RSP, before the push. -/
def Context.callTo (c : Context) (i : Instr) (p : Pfx) (x : RM) : Act :=
  c.rd .w64 p (c.bind i p x) fun t => c.pushAndGo i t

/-- The return (R238): read 8 bytes at RSP, add 8 to RSP, go. -/
def Context.popAndGo (c : Context) : Act :=
  .read (c.reg rsp) 8 fun t => .done ((c.setReg rsp (c.reg rsp + 8)).setPc t)

/-! ## Meanings

Of each row: the accesses and register writes (`act…`), and the whole instruction (`exec…`). -/

/-- JMP rel8 (EB; R230). -/
def actJmpRel8 (p : Pfx) (v : BitVec 8) (c : Context) : Act :=
  c.jumpRel (.jmpRel8 p v) (v.signExtend 64)

/-- JMP rel8 (EB; R230). -/
def execJmpRel8 (p : Pfx) (v : BitVec 8) (s : State) : Result := s.perform (actJmpRel8 p v s.ctx)

/-- JMP rel32 (E9; R230). -/
def actJmpRel32 (p : Pfx) (v : BitVec 32) (c : Context) : Act :=
  c.jumpRel (.jmpRel32 p v) (v.signExtend 64)

/-- JMP rel32 (E9; R230). -/
def execJmpRel32 (p : Pfx) (v : BitVec 32) (s : State) : Result := s.perform (actJmpRel32 p v s.ctx)

/-- JMP r/m64 (FF20; R231). -/
def actJmpRm (p : Pfx) (x : RM) (c : Context) : Act :=
  c.jumpTo (.jmpRm p x) p x

/-- JMP r/m64 (FF20; R231). -/
def execJmpRm (p : Pfx) (x : RM) (s : State) : Result := s.perform (actJmpRm p x s.ctx)

/-- JO rel8 (70; R232). -/
def actJoRel8 (p : Pfx) (v : BitVec 8) (c : Context) : Act :=
  c.jumpIf (.joRel8 p v) .o (v.signExtend 64)

/-- JO rel8 (70; R232). -/
def execJoRel8 (p : Pfx) (v : BitVec 8) (s : State) : Result := s.perform (actJoRel8 p v s.ctx)

/-- JNO rel8 (71; R232). -/
def actJnoRel8 (p : Pfx) (v : BitVec 8) (c : Context) : Act :=
  c.jumpIf (.jnoRel8 p v) .no (v.signExtend 64)

/-- JNO rel8 (71; R232). -/
def execJnoRel8 (p : Pfx) (v : BitVec 8) (s : State) : Result := s.perform (actJnoRel8 p v s.ctx)

/-- JB rel8 (72; R232). -/
def actJbRel8 (p : Pfx) (v : BitVec 8) (c : Context) : Act :=
  c.jumpIf (.jbRel8 p v) .b (v.signExtend 64)

/-- JB rel8 (72; R232). -/
def execJbRel8 (p : Pfx) (v : BitVec 8) (s : State) : Result := s.perform (actJbRel8 p v s.ctx)

/-- JAE rel8 (73; R232). -/
def actJaeRel8 (p : Pfx) (v : BitVec 8) (c : Context) : Act :=
  c.jumpIf (.jaeRel8 p v) .ae (v.signExtend 64)

/-- JAE rel8 (73; R232). -/
def execJaeRel8 (p : Pfx) (v : BitVec 8) (s : State) : Result := s.perform (actJaeRel8 p v s.ctx)

/-- JE rel8 (74; R232). -/
def actJeRel8 (p : Pfx) (v : BitVec 8) (c : Context) : Act :=
  c.jumpIf (.jeRel8 p v) .e (v.signExtend 64)

/-- JE rel8 (74; R232). -/
def execJeRel8 (p : Pfx) (v : BitVec 8) (s : State) : Result := s.perform (actJeRel8 p v s.ctx)

/-- JNE rel8 (75; R232). -/
def actJneRel8 (p : Pfx) (v : BitVec 8) (c : Context) : Act :=
  c.jumpIf (.jneRel8 p v) .ne (v.signExtend 64)

/-- JNE rel8 (75; R232). -/
def execJneRel8 (p : Pfx) (v : BitVec 8) (s : State) : Result := s.perform (actJneRel8 p v s.ctx)

/-- JBE rel8 (76; R232). -/
def actJbeRel8 (p : Pfx) (v : BitVec 8) (c : Context) : Act :=
  c.jumpIf (.jbeRel8 p v) .be (v.signExtend 64)

/-- JBE rel8 (76; R232). -/
def execJbeRel8 (p : Pfx) (v : BitVec 8) (s : State) : Result := s.perform (actJbeRel8 p v s.ctx)

/-- JA rel8 (77; R232). -/
def actJaRel8 (p : Pfx) (v : BitVec 8) (c : Context) : Act :=
  c.jumpIf (.jaRel8 p v) .a (v.signExtend 64)

/-- JA rel8 (77; R232). -/
def execJaRel8 (p : Pfx) (v : BitVec 8) (s : State) : Result := s.perform (actJaRel8 p v s.ctx)

/-- JS rel8 (78; R232). -/
def actJsRel8 (p : Pfx) (v : BitVec 8) (c : Context) : Act :=
  c.jumpIf (.jsRel8 p v) .s (v.signExtend 64)

/-- JS rel8 (78; R232). -/
def execJsRel8 (p : Pfx) (v : BitVec 8) (s : State) : Result := s.perform (actJsRel8 p v s.ctx)

/-- JNS rel8 (79; R232). -/
def actJnsRel8 (p : Pfx) (v : BitVec 8) (c : Context) : Act :=
  c.jumpIf (.jnsRel8 p v) .ns (v.signExtend 64)

/-- JNS rel8 (79; R232). -/
def execJnsRel8 (p : Pfx) (v : BitVec 8) (s : State) : Result := s.perform (actJnsRel8 p v s.ctx)

/-- JP rel8 (7A; R232). -/
def actJpRel8 (p : Pfx) (v : BitVec 8) (c : Context) : Act :=
  c.jumpIf (.jpRel8 p v) .p (v.signExtend 64)

/-- JP rel8 (7A; R232). -/
def execJpRel8 (p : Pfx) (v : BitVec 8) (s : State) : Result := s.perform (actJpRel8 p v s.ctx)

/-- JNP rel8 (7B; R232). -/
def actJnpRel8 (p : Pfx) (v : BitVec 8) (c : Context) : Act :=
  c.jumpIf (.jnpRel8 p v) .np (v.signExtend 64)

/-- JNP rel8 (7B; R232). -/
def execJnpRel8 (p : Pfx) (v : BitVec 8) (s : State) : Result := s.perform (actJnpRel8 p v s.ctx)

/-- JL rel8 (7C; R232). -/
def actJlRel8 (p : Pfx) (v : BitVec 8) (c : Context) : Act :=
  c.jumpIf (.jlRel8 p v) .l (v.signExtend 64)

/-- JL rel8 (7C; R232). -/
def execJlRel8 (p : Pfx) (v : BitVec 8) (s : State) : Result := s.perform (actJlRel8 p v s.ctx)

/-- JGE rel8 (7D; R232). -/
def actJgeRel8 (p : Pfx) (v : BitVec 8) (c : Context) : Act :=
  c.jumpIf (.jgeRel8 p v) .ge (v.signExtend 64)

/-- JGE rel8 (7D; R232). -/
def execJgeRel8 (p : Pfx) (v : BitVec 8) (s : State) : Result := s.perform (actJgeRel8 p v s.ctx)

/-- JLE rel8 (7E; R232). -/
def actJleRel8 (p : Pfx) (v : BitVec 8) (c : Context) : Act :=
  c.jumpIf (.jleRel8 p v) .le (v.signExtend 64)

/-- JLE rel8 (7E; R232). -/
def execJleRel8 (p : Pfx) (v : BitVec 8) (s : State) : Result := s.perform (actJleRel8 p v s.ctx)

/-- JG rel8 (7F; R232). -/
def actJgRel8 (p : Pfx) (v : BitVec 8) (c : Context) : Act :=
  c.jumpIf (.jgRel8 p v) .g (v.signExtend 64)

/-- JG rel8 (7F; R232). -/
def execJgRel8 (p : Pfx) (v : BitVec 8) (s : State) : Result := s.perform (actJgRel8 p v s.ctx)

/-- JO rel32 (0F80; R232). -/
def actJoRel32 (p : Pfx) (v : BitVec 32) (c : Context) : Act :=
  c.jumpIf (.joRel32 p v) .o (v.signExtend 64)

/-- JO rel32 (0F80; R232). -/
def execJoRel32 (p : Pfx) (v : BitVec 32) (s : State) : Result := s.perform (actJoRel32 p v s.ctx)

/-- JNO rel32 (0F81; R232). -/
def actJnoRel32 (p : Pfx) (v : BitVec 32) (c : Context) : Act :=
  c.jumpIf (.jnoRel32 p v) .no (v.signExtend 64)

/-- JNO rel32 (0F81; R232). -/
def execJnoRel32 (p : Pfx) (v : BitVec 32) (s : State) : Result := s.perform (actJnoRel32 p v s.ctx)

/-- JB rel32 (0F82; R232). -/
def actJbRel32 (p : Pfx) (v : BitVec 32) (c : Context) : Act :=
  c.jumpIf (.jbRel32 p v) .b (v.signExtend 64)

/-- JB rel32 (0F82; R232). -/
def execJbRel32 (p : Pfx) (v : BitVec 32) (s : State) : Result := s.perform (actJbRel32 p v s.ctx)

/-- JAE rel32 (0F83; R232). -/
def actJaeRel32 (p : Pfx) (v : BitVec 32) (c : Context) : Act :=
  c.jumpIf (.jaeRel32 p v) .ae (v.signExtend 64)

/-- JAE rel32 (0F83; R232). -/
def execJaeRel32 (p : Pfx) (v : BitVec 32) (s : State) : Result := s.perform (actJaeRel32 p v s.ctx)

/-- JE rel32 (0F84; R232). -/
def actJeRel32 (p : Pfx) (v : BitVec 32) (c : Context) : Act :=
  c.jumpIf (.jeRel32 p v) .e (v.signExtend 64)

/-- JE rel32 (0F84; R232). -/
def execJeRel32 (p : Pfx) (v : BitVec 32) (s : State) : Result := s.perform (actJeRel32 p v s.ctx)

/-- JNE rel32 (0F85; R232). -/
def actJneRel32 (p : Pfx) (v : BitVec 32) (c : Context) : Act :=
  c.jumpIf (.jneRel32 p v) .ne (v.signExtend 64)

/-- JNE rel32 (0F85; R232). -/
def execJneRel32 (p : Pfx) (v : BitVec 32) (s : State) : Result := s.perform (actJneRel32 p v s.ctx)

/-- JBE rel32 (0F86; R232). -/
def actJbeRel32 (p : Pfx) (v : BitVec 32) (c : Context) : Act :=
  c.jumpIf (.jbeRel32 p v) .be (v.signExtend 64)

/-- JBE rel32 (0F86; R232). -/
def execJbeRel32 (p : Pfx) (v : BitVec 32) (s : State) : Result := s.perform (actJbeRel32 p v s.ctx)

/-- JA rel32 (0F87; R232). -/
def actJaRel32 (p : Pfx) (v : BitVec 32) (c : Context) : Act :=
  c.jumpIf (.jaRel32 p v) .a (v.signExtend 64)

/-- JA rel32 (0F87; R232). -/
def execJaRel32 (p : Pfx) (v : BitVec 32) (s : State) : Result := s.perform (actJaRel32 p v s.ctx)

/-- JS rel32 (0F88; R232). -/
def actJsRel32 (p : Pfx) (v : BitVec 32) (c : Context) : Act :=
  c.jumpIf (.jsRel32 p v) .s (v.signExtend 64)

/-- JS rel32 (0F88; R232). -/
def execJsRel32 (p : Pfx) (v : BitVec 32) (s : State) : Result := s.perform (actJsRel32 p v s.ctx)

/-- JNS rel32 (0F89; R232). -/
def actJnsRel32 (p : Pfx) (v : BitVec 32) (c : Context) : Act :=
  c.jumpIf (.jnsRel32 p v) .ns (v.signExtend 64)

/-- JNS rel32 (0F89; R232). -/
def execJnsRel32 (p : Pfx) (v : BitVec 32) (s : State) : Result := s.perform (actJnsRel32 p v s.ctx)

/-- JP rel32 (0F8A; R232). -/
def actJpRel32 (p : Pfx) (v : BitVec 32) (c : Context) : Act :=
  c.jumpIf (.jpRel32 p v) .p (v.signExtend 64)

/-- JP rel32 (0F8A; R232). -/
def execJpRel32 (p : Pfx) (v : BitVec 32) (s : State) : Result := s.perform (actJpRel32 p v s.ctx)

/-- JNP rel32 (0F8B; R232). -/
def actJnpRel32 (p : Pfx) (v : BitVec 32) (c : Context) : Act :=
  c.jumpIf (.jnpRel32 p v) .np (v.signExtend 64)

/-- JNP rel32 (0F8B; R232). -/
def execJnpRel32 (p : Pfx) (v : BitVec 32) (s : State) : Result := s.perform (actJnpRel32 p v s.ctx)

/-- JL rel32 (0F8C; R232). -/
def actJlRel32 (p : Pfx) (v : BitVec 32) (c : Context) : Act :=
  c.jumpIf (.jlRel32 p v) .l (v.signExtend 64)

/-- JL rel32 (0F8C; R232). -/
def execJlRel32 (p : Pfx) (v : BitVec 32) (s : State) : Result := s.perform (actJlRel32 p v s.ctx)

/-- JGE rel32 (0F8D; R232). -/
def actJgeRel32 (p : Pfx) (v : BitVec 32) (c : Context) : Act :=
  c.jumpIf (.jgeRel32 p v) .ge (v.signExtend 64)

/-- JGE rel32 (0F8D; R232). -/
def execJgeRel32 (p : Pfx) (v : BitVec 32) (s : State) : Result := s.perform (actJgeRel32 p v s.ctx)

/-- JLE rel32 (0F8E; R232). -/
def actJleRel32 (p : Pfx) (v : BitVec 32) (c : Context) : Act :=
  c.jumpIf (.jleRel32 p v) .le (v.signExtend 64)

/-- JLE rel32 (0F8E; R232). -/
def execJleRel32 (p : Pfx) (v : BitVec 32) (s : State) : Result := s.perform (actJleRel32 p v s.ctx)

/-- JG rel32 (0F8F; R232). -/
def actJgRel32 (p : Pfx) (v : BitVec 32) (c : Context) : Act :=
  c.jumpIf (.jgRel32 p v) .g (v.signExtend 64)

/-- JG rel32 (0F8F; R232). -/
def execJgRel32 (p : Pfx) (v : BitVec 32) (s : State) : Result := s.perform (actJgRel32 p v s.ctx)

/-- CALL rel32 (E8; R236). -/
def actCallRel32 (p : Pfx) (v : BitVec 32) (c : Context) : Act :=
  c.callRel (.callRel32 p v) (v.signExtend 64)

/-- CALL rel32 (E8; R236). -/
def execCallRel32 (p : Pfx) (v : BitVec 32) (s : State) : Result := s.perform (actCallRel32 p v s.ctx)

/-- CALL r/m64 (FF10; R237). -/
def actCallRm (p : Pfx) (x : RM) (c : Context) : Act :=
  c.callTo (.callRm p x) p x

/-- CALL r/m64 (FF10; R237). -/
def execCallRm (p : Pfx) (x : RM) (s : State) : Result := s.perform (actCallRm p x s.ctx)

/-- RET (C3; R238). -/
def actRet (_p : Pfx) (c : Context) : Act :=
  c.popAndGo

/-- RET (C3; R238). -/
def execRet (p : Pfx) (s : State) : Result := s.perform (actRet p s.ctx)

end Sys2Proof.Machine
end

