-- ==== Sys2Proof/Machine/Move.lean ====
section
/-! DEFINITION. MOV and NOP (41_data_movement.md R200 to R204). -/

namespace Sys2Proof.Machine

/-! ## Shared operations -/

/-- MOV (R200 to R202): read the source, write the destination, no flag. A store reads nothing of its
destination, and the address is computed before the write. -/
def Context.move (c : Context) (i : Instr) (p : Pfx) (w : Width) (d : RM) (src : Source w) : Act :=
  c.rdSource i w p src fun t =>
  c.wr w p (c.bind i p d) t fun c' =>
  .done (c'.setPc (c.npc i))

/-! ## Meanings

Of each row: the accesses and register writes (`act…`), and the whole instruction (`exec…`). -/

/-- MOV r/m8, r8 (88; R200). -/
def actMovRm8R8 (p : Pfx) (d : RM) (r : Reg) (c : Context) : Act :=
  c.move (.movRm8R8 p d r) p .w8 d (.rm (.reg r))

/-- MOV r/m8, r8 (88; R200). -/
def execMovRm8R8 (p : Pfx) (d : RM) (r : Reg) (s : State) : Result := s.perform (actMovRm8R8 p d r s.ctx)

/-- MOV r/m, r (89; R200). -/
def actMovRmR (p : Pfx) (d : RM) (r : Reg) (c : Context) : Act :=
  c.move (.movRmR p d r) p p.width d (.rm (.reg r))

/-- MOV r/m, r (89; R200). -/
def execMovRmR (p : Pfx) (d : RM) (r : Reg) (s : State) : Result := s.perform (actMovRmR p d r s.ctx)

/-- MOV r8, r/m8 (8A; R200). -/
def actMovR8Rm8 (p : Pfx) (r : Reg) (x : RM) (c : Context) : Act :=
  c.move (.movR8Rm8 p r x) p .w8 (.reg r) (.rm x)

/-- MOV r8, r/m8 (8A; R200). -/
def execMovR8Rm8 (p : Pfx) (r : Reg) (x : RM) (s : State) : Result := s.perform (actMovR8Rm8 p r x s.ctx)

/-- MOV r, r/m (8B; R200). -/
def actMovRRm (p : Pfx) (r : Reg) (x : RM) (c : Context) : Act :=
  c.move (.movRRm p r x) p p.width (.reg r) (.rm x)

/-- MOV r, r/m (8B; R200). -/
def execMovRRm (p : Pfx) (r : Reg) (x : RM) (s : State) : Result := s.perform (actMovRRm p r x s.ctx)

/-- MOV r8, imm8 (B0; R201). -/
def actMovR8I8 (p : Pfx) (r : Reg) (v : BitVec 8) (c : Context) : Act :=
  c.move (.movR8I8 p r v) p .w8 (.reg r) (.imm v)

/-- MOV r8, imm8 (B0; R201). -/
def execMovR8I8 (p : Pfx) (r : Reg) (v : BitVec 8) (s : State) : Result := s.perform (actMovR8I8 p r v s.ctx)

/-- MOV r, imm (B8; R201). -/
def actMovRIv (p : Pfx) (r : Reg) (v : Iv) (c : Context) : Act :=
  c.move (.movRIv p r v) p p.width (.reg r) (.imm (v.value p.width))

/-- MOV r, imm (B8; R201). -/
def execMovRIv (p : Pfx) (r : Reg) (v : Iv) (s : State) : Result := s.perform (actMovRIv p r v s.ctx)

/-- MOV r/m8, imm8 (C600; R202). -/
def actMovRm8I8 (p : Pfx) (d : RM) (v : BitVec 8) (c : Context) : Act :=
  c.move (.movRm8I8 p d v) p .w8 d (.imm v)

/-- MOV r/m8, imm8 (C600; R202). -/
def execMovRm8I8 (p : Pfx) (d : RM) (v : BitVec 8) (s : State) : Result := s.perform (actMovRm8I8 p d v s.ctx)

/-- MOV r/m, imm (C700; R202). -/
def actMovRmIz (p : Pfx) (d : RM) (v : Iz) (c : Context) : Act :=
  c.move (.movRmIz p d v) p p.width d (.imm (v.value p.width))

/-- MOV r/m, imm (C700; R202). -/
def execMovRmIz (p : Pfx) (d : RM) (v : Iz) (s : State) : Result := s.perform (actMovRmIz p d v s.ctx)

/-- NOP (90; R204). -/
def actNop (p : Pfx) (c : Context) : Act :=
  .done (c.setPc (c.npc (.nop p)))

/-- NOP (90; R204). -/
def execNop (p : Pfx) (s : State) : Result := s.perform (actNop p s.ctx)

end Sys2Proof.Machine
end

