-- ==== Sys2Proof/Machine/Lanes.lean ====
section
/-! DEFINITION. What the vector instructions compute: lanes and the three shift kinds (43_vector.md R255,
R257), the packed 64-bit sum (R254), and the comparison of two binary32 patterns (R253). -/

namespace Sys2Proof.Machine

/-- Lane `k` of width `L` (R255). -/
def lane (L : Nat) (a : BitVec 128) (k : Nat) : BitVec L := a.extractLsb' (L * k) L

/-- The 128-bit value whose first `n` lanes of width `L` are `g 0`, `g 1`, … and the rest 0. -/
def ofLanes (L : Nat) (g : Nat → BitVec L) : Nat → BitVec 128
  | 0 => 0
  | n + 1 => ofLanes L g n ||| ((g n).setWidth 128 <<< (L * n))

/-- Apply a function to every lane of width `L` (R255, R266). -/
def mapLanes (L : Nat) (f : BitVec L → BitVec L) (a : BitVec 128) : BitVec 128 :=
  ofLanes L (fun k => f (lane L a k)) (128 / L)

/-- The shift kinds (R257). -/
inductive ShiftKind | sll | srl | sra
deriving DecidableEq, Repr

/-- One lane shifted by a count (R257): a count at or above the lane width gives 0 or the sign fill. -/
def ShiftKind.apply {L : Nat} (kind : ShiftKind) (x : BitVec L) (c : BitVec 32) : BitVec L :=
  match kind with
  | .sll => if L ≤ c.toNat then 0 else x <<< c.toNat
  | .srl => if L ≤ c.toNat then 0 else x >>> c.toNat
  | .sra =>
    if L ≤ c.toNat then (if x.msb then BitVec.allOnes L else 0) else x.sshiftRight c.toNat

/-- A packed shift: every lane by the same count (R255, R256, R266). -/
def packedShift (kind : ShiftKind) (L : Nat) (a : BitVec 128) (c : BitVec 32) : BitVec 128 :=
  mapLanes L (fun x => kind.apply x c) a

/-- The packed 64-bit sum (R254): each lane wraps on its own. -/
def packedAdd64 (a b : BitVec 128) : BitVec 128 :=
  ofLanes 64 (fun k => lane 64 a k + lane 64 b k) 2

/-! ## Comparison of binary32 patterns (R253) -/

/-- The exponent field `v[30:23]`. -/
def exponent32 (v : BitVec 32) : Nat := (v.extractLsb' 23 8).toNat

/-- The fraction field `v[22:0]`. -/
def fraction32 (v : BitVec 32) : Nat := (v.extractLsb' 0 23).toNat

/-- `NaN(v)` (R253). -/
def isNaN32 (v : BitVec 32) : Bool := exponent32 v == 255 && fraction32 v != 0

/-- The magnitude in units of `2^-149`: exact for every finite pattern (R253). An infinity is given
`2^23 * 2^254`, which is above every finite magnitude, so comparisons with it come out as with ∞. -/
def magnitude32 (v : BitVec 32) : Nat :=
  if exponent32 v = 0 then fraction32 v
  else (2 ^ 23 + fraction32 v) * 2 ^ (exponent32 v - 1)

/-- The signed value in units of `2^-149` (R253); `+0` and `-0` are the same number. -/
def scaled32 (v : BitVec 32) : Int :=
  if v.getLsbD 31 then -(magnitude32 v : Int) else (magnitude32 v : Int)

/-- The outcomes of a comparison (R253). -/
inductive Cmp | unordered | less | greater | equal
deriving DecidableEq, Repr

/-- `Cmp32(a, b)` (R253). -/
def cmp32 (a b : BitVec 32) : Cmp :=
  if isNaN32 a || isNaN32 b then .unordered
  else if scaled32 a < scaled32 b then .less
  else if scaled32 b < scaled32 a then .greater
  else .equal

/-- The flags of COMISS (R252): ZF, PF, CF by the outcome; OF, SF, AF cleared; DF kept. -/
def Cmp.flags (c : Cmp) (f : Flags) : Flags :=
  match c with
  | .unordered => { f with zf := true, pf := true, cf := true, of := false, sf := false, af := false }
  | .greater => { f with zf := false, pf := false, cf := false, of := false, sf := false, af := false }
  | .less => { f with zf := false, pf := false, cf := true, of := false, sf := false, af := false }
  | .equal => { f with zf := true, pf := false, cf := false, of := false, sf := false, af := false }

end Sys2Proof.Machine
end

