-- ==== Sys2Proof/Machine/Vector.lean ====
section
/-! DEFINITION. COMISS, PADDQ, the packed shifts, MOVSS, MOVSD, MOVDQU (43_vector.md R250 to R275). Every
register access goes through the representations of 10_state.md R45 to R50, and only bits 127:0 take
part (R251). -/

namespace Sys2Proof.Machine

/-! ## Shared operations -/

/-- Read a vector r/m operand: a register in the given representation, or `n` bytes of memory (R250); the rest
gets the value and the context after the read. -/
def Context.vsource (c : Context) (i : Instr) (p : Pfx) (x : RM) (n : Nat)
    (f : VReg → BitVec (8 * n) × VReg) (rest : BitVec (8 * n) → Context → Act) : Act :=
  match c.bind i p x with
  | .reg k => rest (c.vread f k).1 (c.vread f k).2
  | .mem ea => .read ea n fun v => rest v c

/-- COMISS (R252): both register operands are read as scalar float32. -/
def Context.compareScalar (c : Context) (i : Instr) (p : Pfx) (r : Reg) (x : RM) : Act :=
  let a := c.vread VReg.readF32 r
  a.2.vsource i p x 4 VReg.readF32 fun b c' =>
  .done ((c'.setFlags ((cmp32 a.1 b).flags c.flags)).setPc (c.npc i))

/-- PADDQ (R254). -/
def Context.addPacked (c : Context) (i : Instr) (p : Pfx) (r : Reg) (x : RM) : Act :=
  let a := c.vread VReg.readRaw r
  a.2.vsource i p x 16 VReg.readRaw fun b c' =>
  .done ((c'.setVreg r ((c'.vreg r).writeRaw (packedAdd64 a.1 b))).setPc (c.npc i))

/-- The count of a packed shift in a register, bits 31:0 of the raw vector (R256). -/
def readCount (r : VReg) : BitVec 32 × VReg := (r.readRaw.1.setWidth 32, r.readRaw.2)

/-- A packed shift by a register or memory count, read before the destination is written (R256, R266). -/
def Context.shiftBy (c : Context) (i : Instr) (p : Pfx) (kind : ShiftKind) (L : Nat) (r : Reg) (x : RM) : Act :=
  let a := c.vread VReg.readRaw r
  a.2.vsource i p x 4 readCount fun b c' =>
  .done ((c'.setVreg r ((c'.vreg r).writeRaw (packedShift kind L a.1 b))).setPc (c.npc i))

/-- A packed shift by an immediate count (R256, R266). -/
def Context.shiftImm (c : Context) (i : Instr) (kind : ShiftKind) (L : Nat) (r : Reg) (v : BitVec 8) : Act :=
  let a := c.vread VReg.readRaw r
  .done ((a.2.setVreg r ((a.2.vreg r).writeRaw (packedShift kind L a.1 (v.setWidth 32)))).setPc (c.npc i))

/-- A move to a vector register (R270, R272, R274): from a register in one representation, or `n` bytes of
memory, which replace bits 127:0 zero-extended. -/
def Context.vload (c : Context) (i : Instr) (p : Pfx) (r : Reg) (x : RM) (n : Nat)
    (read : VReg → BitVec (8 * n) × VReg) (write : VReg → BitVec (8 * n) → VReg) : Act :=
  match c.bind i p x with
  | .reg k =>
    let a := c.vread read k
    .done ((a.2.setVreg r (write (a.2.vreg r) a.1)).setPc (c.npc i))
  | .mem ea =>
    .read ea n fun v => .done ((c.setVreg r ((c.vreg r).writeRaw (v.setWidth 128))).setPc (c.npc i))

/-- A move from a vector register (R271, R273, R275): to a register in one representation, or `n` bytes to
memory. -/
def Context.vstore (c : Context) (i : Instr) (p : Pfx) (d : RM) (r : Reg) (n : Nat)
    (read : VReg → BitVec (8 * n) × VReg) (write : VReg → BitVec (8 * n) → VReg) : Act :=
  let a := c.vread read r
  match c.bind i p d with
  | .reg k => .done ((a.2.setVreg k (write (a.2.vreg k) a.1)).setPc (c.npc i))
  | .mem ea => .write ea n a.1 (.done (a.2.setPc (c.npc i)))

/-! ## Meanings

Of each row: the accesses and register writes (`act…`), and the whole instruction (`exec…`). -/

/-- COMISS xmm, xmm/m32 (0F2F; R252). -/
def actComiss (p : Pfx) (r : Reg) (x : RM) (c : Context) : Act :=
  c.compareScalar (.comiss p r x) p r x

/-- COMISS xmm, xmm/m32 (0F2F; R252). -/
def execComiss (p : Pfx) (r : Reg) (x : RM) (s : State) : Result := s.perform (actComiss p r x s.ctx)

/-- MOVSS xmm, xmm/m32 (F3 0F10; R270). -/
def actMovssLoad (p : Pfx) (r : Reg) (x : RM) (c : Context) : Act :=
  c.vload (.movssLoad p r x) p r x 4 VReg.readF32 VReg.writeF32

/-- MOVSS xmm, xmm/m32 (F3 0F10; R270). -/
def execMovssLoad (p : Pfx) (r : Reg) (x : RM) (s : State) : Result := s.perform (actMovssLoad p r x s.ctx)

/-- MOVSS xmm/m32, xmm (F3 0F11; R271). -/
def actMovssStore (p : Pfx) (d : RM) (r : Reg) (c : Context) : Act :=
  c.vstore (.movssStore p d r) p d r 4 VReg.readF32 VReg.writeF32

/-- MOVSS xmm/m32, xmm (F3 0F11; R271). -/
def execMovssStore (p : Pfx) (d : RM) (r : Reg) (s : State) : Result := s.perform (actMovssStore p d r s.ctx)

/-- MOVSD xmm, xmm/m64 (F2 0F10; R272). -/
def actMovsdLoad (p : Pfx) (r : Reg) (x : RM) (c : Context) : Act :=
  c.vload (.movsdLoad p r x) p r x 8 VReg.readF64 VReg.writeF64

/-- MOVSD xmm, xmm/m64 (F2 0F10; R272). -/
def execMovsdLoad (p : Pfx) (r : Reg) (x : RM) (s : State) : Result := s.perform (actMovsdLoad p r x s.ctx)

/-- MOVSD xmm/m64, xmm (F2 0F11; R273). -/
def actMovsdStore (p : Pfx) (d : RM) (r : Reg) (c : Context) : Act :=
  c.vstore (.movsdStore p d r) p d r 8 VReg.readF64 VReg.writeF64

/-- MOVSD xmm/m64, xmm (F2 0F11; R273). -/
def execMovsdStore (p : Pfx) (d : RM) (r : Reg) (s : State) : Result := s.perform (actMovsdStore p d r s.ctx)

/-- MOVDQU xmm, xmm/m128 (F3 0F6F; R274). -/
def actMovdquLoad (p : Pfx) (r : Reg) (x : RM) (c : Context) : Act :=
  c.vload (.movdquLoad p r x) p r x 16 VReg.readRaw VReg.writeRaw

/-- MOVDQU xmm, xmm/m128 (F3 0F6F; R274). -/
def execMovdquLoad (p : Pfx) (r : Reg) (x : RM) (s : State) : Result := s.perform (actMovdquLoad p r x s.ctx)

/-- MOVDQU xmm/m128, xmm (F3 0F7F; R275). -/
def actMovdquStore (p : Pfx) (d : RM) (r : Reg) (c : Context) : Act :=
  c.vstore (.movdquStore p d r) p d r 16 VReg.readRaw VReg.writeRaw

/-- MOVDQU xmm/m128, xmm (F3 0F7F; R275). -/
def execMovdquStore (p : Pfx) (d : RM) (r : Reg) (s : State) : Result := s.perform (actMovdquStore p d r s.ctx)

/-- PADDQ xmm, xmm/m128 (66 0FD4; R254). -/
def actPaddq (p : Pfx) (r : Reg) (x : RM) (c : Context) : Act :=
  c.addPacked (.paddq p r x) p r x

/-- PADDQ xmm, xmm/m128 (66 0FD4; R254). -/
def execPaddq (p : Pfx) (r : Reg) (x : RM) (s : State) : Result := s.perform (actPaddq p r x s.ctx)

/-- PSRLW xmm, xmm/m32 (66 0FD1; R261). -/
def actPsrlwRm (p : Pfx) (r : Reg) (x : RM) (c : Context) : Act :=
  c.shiftBy (.psrlwRm p r x) p .srl 16 r x

/-- PSRLW xmm, xmm/m32 (66 0FD1; R261). -/
def execPsrlwRm (p : Pfx) (r : Reg) (x : RM) (s : State) : Result := s.perform (actPsrlwRm p r x s.ctx)

/-- PSRLD xmm, xmm/m32 (66 0FD2; R262). -/
def actPsrldRm (p : Pfx) (r : Reg) (x : RM) (c : Context) : Act :=
  c.shiftBy (.psrldRm p r x) p .srl 32 r x

/-- PSRLD xmm, xmm/m32 (66 0FD2; R262). -/
def execPsrldRm (p : Pfx) (r : Reg) (x : RM) (s : State) : Result := s.perform (actPsrldRm p r x s.ctx)

/-- PSRLQ xmm, xmm/m32 (66 0FD3; R263). -/
def actPsrlqRm (p : Pfx) (r : Reg) (x : RM) (c : Context) : Act :=
  c.shiftBy (.psrlqRm p r x) p .srl 64 r x

/-- PSRLQ xmm, xmm/m32 (66 0FD3; R263). -/
def execPsrlqRm (p : Pfx) (r : Reg) (x : RM) (s : State) : Result := s.perform (actPsrlqRm p r x s.ctx)

/-- PSRAW xmm, xmm/m32 (66 0FE1; R264). -/
def actPsrawRm (p : Pfx) (r : Reg) (x : RM) (c : Context) : Act :=
  c.shiftBy (.psrawRm p r x) p .sra 16 r x

/-- PSRAW xmm, xmm/m32 (66 0FE1; R264). -/
def execPsrawRm (p : Pfx) (r : Reg) (x : RM) (s : State) : Result := s.perform (actPsrawRm p r x s.ctx)

/-- PSRAD xmm, xmm/m32 (66 0FE2; R265). -/
def actPsradRm (p : Pfx) (r : Reg) (x : RM) (c : Context) : Act :=
  c.shiftBy (.psradRm p r x) p .sra 32 r x

/-- PSRAD xmm, xmm/m32 (66 0FE2; R265). -/
def execPsradRm (p : Pfx) (r : Reg) (x : RM) (s : State) : Result := s.perform (actPsradRm p r x s.ctx)

/-- PSLLW xmm, xmm/m32 (66 0FF1; R258). -/
def actPsllwRm (p : Pfx) (r : Reg) (x : RM) (c : Context) : Act :=
  c.shiftBy (.psllwRm p r x) p .sll 16 r x

/-- PSLLW xmm, xmm/m32 (66 0FF1; R258). -/
def execPsllwRm (p : Pfx) (r : Reg) (x : RM) (s : State) : Result := s.perform (actPsllwRm p r x s.ctx)

/-- PSLLD xmm, xmm/m32 (66 0FF2; R259). -/
def actPslldRm (p : Pfx) (r : Reg) (x : RM) (c : Context) : Act :=
  c.shiftBy (.pslldRm p r x) p .sll 32 r x

/-- PSLLD xmm, xmm/m32 (66 0FF2; R259). -/
def execPslldRm (p : Pfx) (r : Reg) (x : RM) (s : State) : Result := s.perform (actPslldRm p r x s.ctx)

/-- PSLLQ xmm, xmm/m32 (66 0FF3; R260). -/
def actPsllqRm (p : Pfx) (r : Reg) (x : RM) (c : Context) : Act :=
  c.shiftBy (.psllqRm p r x) p .sll 64 r x

/-- PSLLQ xmm, xmm/m32 (66 0FF3; R260). -/
def execPsllqRm (p : Pfx) (r : Reg) (x : RM) (s : State) : Result := s.perform (actPsllqRm p r x s.ctx)

/-- PSRLW xmm, imm8 (66 0F71D0; R261). -/
def actPsrlwImm (p : Pfx) (r : Reg) (v : BitVec 8) (c : Context) : Act :=
  c.shiftImm (.psrlwImm p r v) .srl 16 r v

/-- PSRLW xmm, imm8 (66 0F71D0; R261). -/
def execPsrlwImm (p : Pfx) (r : Reg) (v : BitVec 8) (s : State) : Result := s.perform (actPsrlwImm p r v s.ctx)

/-- PSRAW xmm, imm8 (66 0F71E0; R264). -/
def actPsrawImm (p : Pfx) (r : Reg) (v : BitVec 8) (c : Context) : Act :=
  c.shiftImm (.psrawImm p r v) .sra 16 r v

/-- PSRAW xmm, imm8 (66 0F71E0; R264). -/
def execPsrawImm (p : Pfx) (r : Reg) (v : BitVec 8) (s : State) : Result := s.perform (actPsrawImm p r v s.ctx)

/-- PSLLW xmm, imm8 (66 0F71F0; R258). -/
def actPsllwImm (p : Pfx) (r : Reg) (v : BitVec 8) (c : Context) : Act :=
  c.shiftImm (.psllwImm p r v) .sll 16 r v

/-- PSLLW xmm, imm8 (66 0F71F0; R258). -/
def execPsllwImm (p : Pfx) (r : Reg) (v : BitVec 8) (s : State) : Result := s.perform (actPsllwImm p r v s.ctx)

/-- PSRLD xmm, imm8 (66 0F72D0; R262). -/
def actPsrldImm (p : Pfx) (r : Reg) (v : BitVec 8) (c : Context) : Act :=
  c.shiftImm (.psrldImm p r v) .srl 32 r v

/-- PSRLD xmm, imm8 (66 0F72D0; R262). -/
def execPsrldImm (p : Pfx) (r : Reg) (v : BitVec 8) (s : State) : Result := s.perform (actPsrldImm p r v s.ctx)

/-- PSRAD xmm, imm8 (66 0F72E0; R265). -/
def actPsradImm (p : Pfx) (r : Reg) (v : BitVec 8) (c : Context) : Act :=
  c.shiftImm (.psradImm p r v) .sra 32 r v

/-- PSRAD xmm, imm8 (66 0F72E0; R265). -/
def execPsradImm (p : Pfx) (r : Reg) (v : BitVec 8) (s : State) : Result := s.perform (actPsradImm p r v s.ctx)

/-- PSLLD xmm, imm8 (66 0F72F0; R259). -/
def actPslldImm (p : Pfx) (r : Reg) (v : BitVec 8) (c : Context) : Act :=
  c.shiftImm (.pslldImm p r v) .sll 32 r v

/-- PSLLD xmm, imm8 (66 0F72F0; R259). -/
def execPslldImm (p : Pfx) (r : Reg) (v : BitVec 8) (s : State) : Result := s.perform (actPslldImm p r v s.ctx)

/-- PSRLQ xmm, imm8 (66 0F73D0; R263). -/
def actPsrlqImm (p : Pfx) (r : Reg) (v : BitVec 8) (c : Context) : Act :=
  c.shiftImm (.psrlqImm p r v) .srl 64 r v

/-- PSRLQ xmm, imm8 (66 0F73D0; R263). -/
def execPsrlqImm (p : Pfx) (r : Reg) (v : BitVec 8) (s : State) : Result := s.perform (actPsrlqImm p r v s.ctx)

/-- PSLLQ xmm, imm8 (66 0F73F0; R260). -/
def actPsllqImm (p : Pfx) (r : Reg) (v : BitVec 8) (c : Context) : Act :=
  c.shiftImm (.psllqImm p r v) .sll 64 r v

/-- PSLLQ xmm, imm8 (66 0F73F0; R260). -/
def execPsllqImm (p : Pfx) (r : Reg) (v : BitVec 8) (s : State) : Result := s.perform (actPsllqImm p r v s.ctx)

end Sys2Proof.Machine
end

