-- ==== Sys2Proof/Machine/Dispatch.lean ====
section
/-! DEFINITION. `exec`: one arm per row of spec/opcode_table.json, each one call of its meaning. -/

namespace Sys2Proof.Machine

def exec (i : Instr) (s : State) : Host.Outcome State Fault Refusal :=
  match i with
  | .addRm8R8 p d r => Sys2Proof.Machine.execAddRm8R8 p d r s
  | .addRmR p d r => Sys2Proof.Machine.execAddRmR p d r s
  | .addR8Rm8 p r x => Sys2Proof.Machine.execAddR8Rm8 p r x s
  | .addRRm p r x => Sys2Proof.Machine.execAddRRm p r x s
  | .addAlI8 p v => Sys2Proof.Machine.execAddAlI8 p v s
  | .addAxIz p v => Sys2Proof.Machine.execAddAxIz p v s
  | .subRm8R8 p d r => Sys2Proof.Machine.execSubRm8R8 p d r s
  | .subRmR p d r => Sys2Proof.Machine.execSubRmR p d r s
  | .subR8Rm8 p r x => Sys2Proof.Machine.execSubR8Rm8 p r x s
  | .subRRm p r x => Sys2Proof.Machine.execSubRRm p r x s
  | .subAlI8 p v => Sys2Proof.Machine.execSubAlI8 p v s
  | .subAxIz p v => Sys2Proof.Machine.execSubAxIz p v s
  | .cmpRm8R8 p d r => Sys2Proof.Machine.execCmpRm8R8 p d r s
  | .cmpRmR p d r => Sys2Proof.Machine.execCmpRmR p d r s
  | .cmpR8Rm8 p r x => Sys2Proof.Machine.execCmpR8Rm8 p r x s
  | .cmpRRm p r x => Sys2Proof.Machine.execCmpRRm p r x s
  | .cmpAlI8 p v => Sys2Proof.Machine.execCmpAlI8 p v s
  | .cmpAxIz p v => Sys2Proof.Machine.execCmpAxIz p v s
  | .addRm8I8 p d v => Sys2Proof.Machine.execAddRm8I8 p d v s
  | .addRmIz p d v => Sys2Proof.Machine.execAddRmIz p d v s
  | .addRmI8 p d v => Sys2Proof.Machine.execAddRmI8 p d v s
  | .subRm8I8 p d v => Sys2Proof.Machine.execSubRm8I8 p d v s
  | .subRmIz p d v => Sys2Proof.Machine.execSubRmIz p d v s
  | .subRmI8 p d v => Sys2Proof.Machine.execSubRmI8 p d v s
  | .cmpRm8I8 p d v => Sys2Proof.Machine.execCmpRm8I8 p d v s
  | .cmpRmIz p d v => Sys2Proof.Machine.execCmpRmIz p d v s
  | .cmpRmI8 p d v => Sys2Proof.Machine.execCmpRmI8 p d v s
  | .incRm8 p d => Sys2Proof.Machine.execIncRm8 p d s
  | .decRm8 p d => Sys2Proof.Machine.execDecRm8 p d s
  | .incRm p d => Sys2Proof.Machine.execIncRm p d s
  | .decRm p d => Sys2Proof.Machine.execDecRm p d s
  | .movRm8R8 p d r => Sys2Proof.Machine.execMovRm8R8 p d r s
  | .movRmR p d r => Sys2Proof.Machine.execMovRmR p d r s
  | .movR8Rm8 p r x => Sys2Proof.Machine.execMovR8Rm8 p r x s
  | .movRRm p r x => Sys2Proof.Machine.execMovRRm p r x s
  | .movR8I8 p r v => Sys2Proof.Machine.execMovR8I8 p r v s
  | .movRIv p r v => Sys2Proof.Machine.execMovRIv p r v s
  | .movRm8I8 p d v => Sys2Proof.Machine.execMovRm8I8 p d v s
  | .movRmIz p d v => Sys2Proof.Machine.execMovRmIz p d v s
  | .nop p => Sys2Proof.Machine.execNop p s
  | .jmpRel8 p v => Sys2Proof.Machine.execJmpRel8 p v s
  | .jmpRel32 p v => Sys2Proof.Machine.execJmpRel32 p v s
  | .jmpRm p x => Sys2Proof.Machine.execJmpRm p x s
  | .joRel8 p v => Sys2Proof.Machine.execJoRel8 p v s
  | .jnoRel8 p v => Sys2Proof.Machine.execJnoRel8 p v s
  | .jbRel8 p v => Sys2Proof.Machine.execJbRel8 p v s
  | .jaeRel8 p v => Sys2Proof.Machine.execJaeRel8 p v s
  | .jeRel8 p v => Sys2Proof.Machine.execJeRel8 p v s
  | .jneRel8 p v => Sys2Proof.Machine.execJneRel8 p v s
  | .jbeRel8 p v => Sys2Proof.Machine.execJbeRel8 p v s
  | .jaRel8 p v => Sys2Proof.Machine.execJaRel8 p v s
  | .jsRel8 p v => Sys2Proof.Machine.execJsRel8 p v s
  | .jnsRel8 p v => Sys2Proof.Machine.execJnsRel8 p v s
  | .jpRel8 p v => Sys2Proof.Machine.execJpRel8 p v s
  | .jnpRel8 p v => Sys2Proof.Machine.execJnpRel8 p v s
  | .jlRel8 p v => Sys2Proof.Machine.execJlRel8 p v s
  | .jgeRel8 p v => Sys2Proof.Machine.execJgeRel8 p v s
  | .jleRel8 p v => Sys2Proof.Machine.execJleRel8 p v s
  | .jgRel8 p v => Sys2Proof.Machine.execJgRel8 p v s
  | .joRel32 p v => Sys2Proof.Machine.execJoRel32 p v s
  | .jnoRel32 p v => Sys2Proof.Machine.execJnoRel32 p v s
  | .jbRel32 p v => Sys2Proof.Machine.execJbRel32 p v s
  | .jaeRel32 p v => Sys2Proof.Machine.execJaeRel32 p v s
  | .jeRel32 p v => Sys2Proof.Machine.execJeRel32 p v s
  | .jneRel32 p v => Sys2Proof.Machine.execJneRel32 p v s
  | .jbeRel32 p v => Sys2Proof.Machine.execJbeRel32 p v s
  | .jaRel32 p v => Sys2Proof.Machine.execJaRel32 p v s
  | .jsRel32 p v => Sys2Proof.Machine.execJsRel32 p v s
  | .jnsRel32 p v => Sys2Proof.Machine.execJnsRel32 p v s
  | .jpRel32 p v => Sys2Proof.Machine.execJpRel32 p v s
  | .jnpRel32 p v => Sys2Proof.Machine.execJnpRel32 p v s
  | .jlRel32 p v => Sys2Proof.Machine.execJlRel32 p v s
  | .jgeRel32 p v => Sys2Proof.Machine.execJgeRel32 p v s
  | .jleRel32 p v => Sys2Proof.Machine.execJleRel32 p v s
  | .jgRel32 p v => Sys2Proof.Machine.execJgRel32 p v s
  | .callRel32 p v => Sys2Proof.Machine.execCallRel32 p v s
  | .callRm p x => Sys2Proof.Machine.execCallRm p x s
  | .ret p => Sys2Proof.Machine.execRet p s
  | .comiss p r x => Sys2Proof.Machine.execComiss p r x s
  | .movssLoad p r x => Sys2Proof.Machine.execMovssLoad p r x s
  | .movssStore p d r => Sys2Proof.Machine.execMovssStore p d r s
  | .movsdLoad p r x => Sys2Proof.Machine.execMovsdLoad p r x s
  | .movsdStore p d r => Sys2Proof.Machine.execMovsdStore p d r s
  | .movdquLoad p r x => Sys2Proof.Machine.execMovdquLoad p r x s
  | .movdquStore p d r => Sys2Proof.Machine.execMovdquStore p d r s
  | .paddq p r x => Sys2Proof.Machine.execPaddq p r x s
  | .psrlwRm p r x => Sys2Proof.Machine.execPsrlwRm p r x s
  | .psrldRm p r x => Sys2Proof.Machine.execPsrldRm p r x s
  | .psrlqRm p r x => Sys2Proof.Machine.execPsrlqRm p r x s
  | .psrawRm p r x => Sys2Proof.Machine.execPsrawRm p r x s
  | .psradRm p r x => Sys2Proof.Machine.execPsradRm p r x s
  | .psllwRm p r x => Sys2Proof.Machine.execPsllwRm p r x s
  | .pslldRm p r x => Sys2Proof.Machine.execPslldRm p r x s
  | .psllqRm p r x => Sys2Proof.Machine.execPsllqRm p r x s
  | .psrlwImm p r v => Sys2Proof.Machine.execPsrlwImm p r v s
  | .psrawImm p r v => Sys2Proof.Machine.execPsrawImm p r v s
  | .psllwImm p r v => Sys2Proof.Machine.execPsllwImm p r v s
  | .psrldImm p r v => Sys2Proof.Machine.execPsrldImm p r v s
  | .psradImm p r v => Sys2Proof.Machine.execPsradImm p r v s
  | .pslldImm p r v => Sys2Proof.Machine.execPslldImm p r v s
  | .psrlqImm p r v => Sys2Proof.Machine.execPsrlqImm p r v s
  | .psllqImm p r v => Sys2Proof.Machine.execPsllqImm p r v s

end Sys2Proof.Machine
end

