-- ==== Sys2Proof/Machine/Vmm.lean ====
section
/-! DEFINITION. The memory-lifecycle commands of the embedding caller (20_memory.md R91 to R99). They are not
instructions and not steps; a command that fails changes nothing (R97), which here is that it answers no
new manager. -/

namespace Sys2Proof.Machine

/-! ## Page arithmetic (R91, R98, R99) -/

/-- The least multiple of `PAGE_SIZE` at or above a number, in the integers. -/
def roundUp (n : Nat) : Nat := (n + (Config.pageSize - 1)) / Config.pageSize * Config.pageSize

/-- The greatest multiple of `PAGE_SIZE` at or below a number. -/
def roundDown (n : Nat) : Nat := n / Config.pageSize * Config.pageSize

/-- `pageStart(address)` (R98). -/
def pageStart (a : Word) : Word := BitVec.ofNat 64 (roundDown a.toNat)

/-- `roundToPageSize(size)` (R99), modulo `2^64`. -/
def roundToPageSize (size : Word) : Word := BitVec.ofNat 64 (roundUp size.toNat)

/-- The first address no command may map: the last page stays free (R64, R92). -/
def addressLimit : Nat := 2 ^ 64 - Config.pageSize

/-! ## The table (R61) -/

/-- Does a segment share an address with `[lo, hi)`? -/
def Segment.meets (s : Segment) (lo hi : Nat) : Bool :=
  decide (s.start.toNat < hi) && decide (lo < s.stop.toNat)

/-- No mapped segment intersects `[lo, hi)`. -/
def Vmm.isFree (m : Vmm) (lo hi : Nat) : Bool := m.segs.all fun s => !s.meets lo hi

/-- Insert a segment where its start belongs (R63). DEDUCED, safe, log 16. -/
def insertSegment (s : Segment) : List Segment → List Segment
  | [] => [s]
  | t :: ts => if s.start.toNat < t.start.toNat then s :: t :: ts else t :: insertSegment s ts

/-- Give new storage its contents: the caller's bytes, and `ALLOC_FILL` for what the caller does not supply
(R92, R93). DESIGN CHOICE, log 6 (safe) and 15 (unsafe). -/
def suppliedByte (data : List Byte) (start fills : Nat) (a : Nat) : Byte :=
  data.getD (a - start) (Config.allocFill fills a)

/-- Insert a segment with new storage. -/
def Vmm.insert (m : Vmm) (s : Segment) (contents : Nat → Byte) : Vmm :=
  { segs := insertSegment s m.segs
    bytes := Memory.fill m.bytes s.start.toNat (s.stop.toNat - s.start.toNat) contents
    fills := m.fills + 1 }

/-! ## `allocate` (R92) -/

/-- Is `[b, b + sz)` a range that `allocate` may pick (R92)? -/
def Vmm.mayPlace (m : Vmm) (sz b : Nat) : Bool :=
  decide (b % Config.pageSize = 0) && decide (b + sz ≤ addressLimit) && m.isFree b (b + sz)

/-- A range for `sz` bytes: the policy's, where it proposes one that may be picked, else the first that may
be among 0 and the ends of the segments. Some range is found whenever one exists. DESIGN CHOICE, safe, log 7. -/
def Vmm.place (m : Vmm) (policy : List (Nat × Nat) → Nat → Nat) (sz : Nat) : Option Nat :=
  (policy (m.segs.map fun s => (s.start.toNat, s.stop.toNat)) sz
    :: 0 :: m.segs.map fun s => roundUp s.stop.toNat).find? (m.mayPlace sz)

/-- `allocate(size, name)` under a given policy and fill (R92). The argument is 64 bits: DEDUCED, safe, log 21. -/
def Vmm.allocateWith (policy : List (Nat × Nat) → Nat → Nat) (fill : Nat → Nat → Byte) (m : Vmm)
    (size : Word) (name : String) : Except CommandError (Segment × Vmm) :=
  if size = 0 then .error .outOfAddressSpace
  else
    match m.place policy (roundUp size.toNat) with
    | none => .error .outOfAddressSpace
    | some b =>
      let s : Segment :=
        { start := BitVec.ofNat 64 b
          stop := BitVec.ofNat 64 (b + roundUp size.toNat)
          perm := { read := true, write := true, execute := false }
          offset := 0
          name := name }
      .ok (s, m.insert s (fill m.fills))

/-- `allocate(size, name)` (R92), with `ALLOC_POLICY` and `ALLOC_FILL` free. -/
def Vmm.allocate (m : Vmm) (size : Word) (name : String) : Except CommandError (Segment × Vmm) :=
  m.allocateWith Config.allocPolicy Config.allocFill size name

/-! ## `map`, `unmap` (R93, R94) -/

/-- `map(segment)` (R93), with the contents the caller supplies from its start up. -/
def Vmm.map (m : Vmm) (s : Segment) (data : List Byte) : Except CommandError Vmm :=
  if s.stop.toNat ≤ s.start.toNat ∨ s.start.toNat % Config.pageSize ≠ 0
      ∨ s.stop.toNat % Config.pageSize ≠ 0 ∨ m.isFree s.start.toNat s.stop.toNat = false then
    .error .outOfAddressSpace
  else .ok (m.insert s (suppliedByte data s.start.toNat m.fills))

/-- `unmap(address)` (R94). -/
def Vmm.unmap (m : Vmm) (a : Word) : Except CommandError Vmm :=
  match m.segs.find? fun s => s.start == a with
  | none => .error .notMapped
  | some s =>
    .ok { m with
      segs := m.segs.filter fun t => t.start != a
      bytes := Memory.erase m.bytes s.start.toNat s.stop.toNat }

/-! ## `protect` (R95, R96) -/

/-- Is every address of `[a, hi)` in a segment? The table is walked in its order of starts. -/
def covered (hi : Nat) : List Segment → Nat → Bool
  | [], a => decide (hi ≤ a)
  | s :: ss, a =>
    if hi ≤ a then true
    else if s.stop.toNat ≤ a then covered hi ss a
    else if s.start.toNat ≤ a then covered hi ss s.stop.toNat
    else false

/-- The piece `[lo, hi)` of a segment (R96): same name, and the offset moved with the start. -/
def Segment.piece (s : Segment) (lo hi : Nat) : Segment :=
  { s with
    start := BitVec.ofNat 64 lo
    stop := BitVec.ofNat 64 hi
    offset := s.offset + (BitVec.ofNat 64 lo - s.start) }

/-- The parts of a segment below `lo` and at or above `hi`, with `inside` for the part within (R96). -/
def Segment.cut (s : Segment) (lo hi : Nat) (inside : Segment → List Segment) : List Segment :=
  if s.meets lo hi then
    (if s.start.toNat < lo then [s.piece s.start.toNat lo] else [])
      ++ (inside (s.piece (max s.start.toNat lo) (min s.stop.toNat hi))
      ++ (if hi < s.stop.toNat then [s.piece hi s.stop.toNat] else []))
  else [s]

/-- `protect(address, length, read, write, execute)` (R95, R96). No byte changes. What the error carries is
DEDUCED, unsafe, log 14. -/
def Vmm.protect (m : Vmm) (a len : Word) (p : Perm) : Except CommandError Vmm :=
  let lo := roundDown a.toNat
  let hi := roundUp (a.toNat + len.toNat)
  if len = 0 then .ok m
  else if addressLimit < hi ∨ covered hi m.segs lo = false then .error (.accessViolation a len)
  else .ok { m with segs := m.segs.flatMap fun s => s.cut lo hi fun t => [{ t with perm := p }] }

end Sys2Proof.Machine
end

