-- ==== Sys2Proof/Machine/Load.lean ====
section
/-! DEFINITION. Placing an instruction for the next step, which stands for the embedding caller's mapping of
code (70_reset_and_hazards.md R332): no step does this by itself. -/

namespace Sys2Proof.Machine

/-- Can `n` bytes be fetched from `a` up? -/
def Vmm.canFetch (m : Vmm) (n : Nat) (a : Word) : Bool := (m.fetchWindow n a).2.isNone

/-- Make `[lo, hi)` one segment with all permissions, and cut what was mapped there out of the other
segments; no byte changes. -/
def Vmm.mapCode (m : Vmm) (lo hi : Nat) : Vmm :=
  { m with
    segs := insertSegment
      { start := BitVec.ofNat 64 lo
        stop := BitVec.ofNat 64 hi
        perm := { read := true, write := true, execute := true }
        offset := 0
        name := "code" }
      (m.segs.flatMap fun s => s.cut lo hi fun _ => []) }

/-- The state with these bytes stored from the pc up and executable. Where the pc lies so high that they
cannot be mapped (20_memory.md R64, R92), it is moved to 0. DESIGN CHOICE, safe, log 10. -/
def State.loadCode (s : State) (code : List Byte) : State :=
  let s := if s.ctx.pc.toNat + code.length ≤ addressLimit then s else s.setPc 0
  let a := s.ctx.pc.toNat
  let m := if s.vmm.canFetch code.length s.ctx.pc then s.vmm
    else s.vmm.mapCode (roundDown a) (roundUp (a + code.length))
  s.setVmm { m with bytes := Memory.writeBytes m.bytes a (fun j => code.getD j 0) code.length }

end Sys2Proof.Machine
end

