-- ==== Sys2Proof/Machine/Step.lean ====
section
/-! DEFINITION. One step: Fetch, Resolve, Execute, Advance (42_control_transfer.md R220). -/

namespace Sys2Proof.Machine

/-- `Step()` (R220): fetch and decode at the pc, run the instruction; its meaning resolves the operands and
advances. Nothing asynchronous happens (R221, 60_exceptions.md R308). -/
def step (s : State) : Host.Outcome State Fault Refusal :=
  match s.fetchDecode with
  | .ok d => exec d.instr s
  | .error f => .fault f

/-- The state with the instruction of a table word stored where `step` fetches. DESIGN CHOICE, safe, log 10, 11. -/
def State.withFetchWord (s : State) (nbits w : Nat) : State := s.loadCode (tableBytes nbits w)

end Sys2Proof.Machine
end

