-- ==== Sys2Proof/Machine/Acts.lean ====
section
/-! DEFINITION. The accesses and register writes of every instruction, by constructor: what `exec` performs as a
whole (Machine/Dispatch.lean) and Machine/Among.lean performs one access at a time. -/

namespace Sys2Proof.Machine

/-- What a context does that executes `i`. -/
def actOf (i : Instr) (c : Context) : Act :=
  match i with
  | .addRm8R8 p d r => actAddRm8R8 p d r c
  | .addRmR p d r => actAddRmR p d r c
  | .addR8Rm8 p r x => actAddR8Rm8 p r x c
  | .addRRm p r x => actAddRRm p r x c
  | .addAlI8 p v => actAddAlI8 p v c
  | .addAxIz p v => actAddAxIz p v c
  | .subRm8R8 p d r => actSubRm8R8 p d r c
  | .subRmR p d r => actSubRmR p d r c
  | .subR8Rm8 p r x => actSubR8Rm8 p r x c
  | .subRRm p r x => actSubRRm p r x c
  | .subAlI8 p v => actSubAlI8 p v c
  | .subAxIz p v => actSubAxIz p v c
  | .cmpRm8R8 p d r => actCmpRm8R8 p d r c
  | .cmpRmR p d r => actCmpRmR p d r c
  | .cmpR8Rm8 p r x => actCmpR8Rm8 p r x c
  | .cmpRRm p r x => actCmpRRm p r x c
  | .cmpAlI8 p v => actCmpAlI8 p v c
  | .cmpAxIz p v => actCmpAxIz p v c
  | .addRm8I8 p d v => actAddRm8I8 p d v c
  | .addRmIz p d v => actAddRmIz p d v c
  | .addRmI8 p d v => actAddRmI8 p d v c
  | .subRm8I8 p d v => actSubRm8I8 p d v c
  | .subRmIz p d v => actSubRmIz p d v c
  | .subRmI8 p d v => actSubRmI8 p d v c
  | .cmpRm8I8 p d v => actCmpRm8I8 p d v c
  | .cmpRmIz p d v => actCmpRmIz p d v c
  | .cmpRmI8 p d v => actCmpRmI8 p d v c
  | .incRm8 p d => actIncRm8 p d c
  | .decRm8 p d => actDecRm8 p d c
  | .incRm p d => actIncRm p d c
  | .decRm p d => actDecRm p d c
  | .movRm8R8 p d r => actMovRm8R8 p d r c
  | .movRmR p d r => actMovRmR p d r c
  | .movR8Rm8 p r x => actMovR8Rm8 p r x c
  | .movRRm p r x => actMovRRm p r x c
  | .movR8I8 p r v => actMovR8I8 p r v c
  | .movRIv p r v => actMovRIv p r v c
  | .movRm8I8 p d v => actMovRm8I8 p d v c
  | .movRmIz p d v => actMovRmIz p d v c
  | .nop p => actNop p c
  | .jmpRel8 p v => actJmpRel8 p v c
  | .jmpRel32 p v => actJmpRel32 p v c
  | .jmpRm p x => actJmpRm p x c
  | .joRel8 p v => actJoRel8 p v c
  | .jnoRel8 p v => actJnoRel8 p v c
  | .jbRel8 p v => actJbRel8 p v c
  | .jaeRel8 p v => actJaeRel8 p v c
  | .jeRel8 p v => actJeRel8 p v c
  | .jneRel8 p v => actJneRel8 p v c
  | .jbeRel8 p v => actJbeRel8 p v c
  | .jaRel8 p v => actJaRel8 p v c
  | .jsRel8 p v => actJsRel8 p v c
  | .jnsRel8 p v => actJnsRel8 p v c
  | .jpRel8 p v => actJpRel8 p v c
  | .jnpRel8 p v => actJnpRel8 p v c
  | .jlRel8 p v => actJlRel8 p v c
  | .jgeRel8 p v => actJgeRel8 p v c
  | .jleRel8 p v => actJleRel8 p v c
  | .jgRel8 p v => actJgRel8 p v c
  | .joRel32 p v => actJoRel32 p v c
  | .jnoRel32 p v => actJnoRel32 p v c
  | .jbRel32 p v => actJbRel32 p v c
  | .jaeRel32 p v => actJaeRel32 p v c
  | .jeRel32 p v => actJeRel32 p v c
  | .jneRel32 p v => actJneRel32 p v c
  | .jbeRel32 p v => actJbeRel32 p v c
  | .jaRel32 p v => actJaRel32 p v c
  | .jsRel32 p v => actJsRel32 p v c
  | .jnsRel32 p v => actJnsRel32 p v c
  | .jpRel32 p v => actJpRel32 p v c
  | .jnpRel32 p v => actJnpRel32 p v c
  | .jlRel32 p v => actJlRel32 p v c
  | .jgeRel32 p v => actJgeRel32 p v c
  | .jleRel32 p v => actJleRel32 p v c
  | .jgRel32 p v => actJgRel32 p v c
  | .callRel32 p v => actCallRel32 p v c
  | .callRm p x => actCallRm p x c
  | .ret p => actRet p c
  | .comiss p r x => actComiss p r x c
  | .movssLoad p r x => actMovssLoad p r x c
  | .movssStore p d r => actMovssStore p d r c
  | .movsdLoad p r x => actMovsdLoad p r x c
  | .movsdStore p d r => actMovsdStore p d r c
  | .movdquLoad p r x => actMovdquLoad p r x c
  | .movdquStore p d r => actMovdquStore p d r c
  | .paddq p r x => actPaddq p r x c
  | .psrlwRm p r x => actPsrlwRm p r x c
  | .psrldRm p r x => actPsrldRm p r x c
  | .psrlqRm p r x => actPsrlqRm p r x c
  | .psrawRm p r x => actPsrawRm p r x c
  | .psradRm p r x => actPsradRm p r x c
  | .psllwRm p r x => actPsllwRm p r x c
  | .pslldRm p r x => actPslldRm p r x c
  | .psllqRm p r x => actPsllqRm p r x c
  | .psrlwImm p r v => actPsrlwImm p r v c
  | .psrawImm p r v => actPsrawImm p r v c
  | .psllwImm p r v => actPsllwImm p r v c
  | .psrldImm p r v => actPsrldImm p r v c
  | .psradImm p r v => actPsradImm p r v c
  | .pslldImm p r v => actPslldImm p r v c
  | .psrlqImm p r v => actPsrlqImm p r v c
  | .psllqImm p r v => actPsllqImm p r v c

end Sys2Proof.Machine
end

