-- ==== Sys2Proof/Machine/Port.lean ====
section
/-! DEFINITION. The ports of the embedding caller on a state, which is between steps (10_state.md R55, 60_exceptions.md
R318 to R323; DESIGN CHOICE, safe, log 19): registers, vector representations, memory data, commands on the state, the
snapshot, and the contexts. What comes during a step is in Machine/Among.lean. -/

namespace Sys2Proof.Machine

/-! ## The register port (10_state.md R55)

General registers and the pc are read and written by `State.reg`, `State.setReg`, `State.setPc` of Ops.lean;
a vector register is read by `State.vread` in any representation. -/

/-- The flags by name (R30). -/
inductive FlagName | cf | pf | af | zf | sf | of | df
deriving DecidableEq, Repr

/-- Read a flag by name. -/
def Flags.get (f : Flags) : FlagName → Bool
  | .cf => f.cf
  | .pf => f.pf
  | .af => f.af
  | .zf => f.zf
  | .sf => f.sf
  | .of => f.of
  | .df => f.df

/-- Write a flag by name. -/
def Flags.set (f : Flags) (n : FlagName) (b : Bool) : Flags :=
  match n with
  | .cf => { f with cf := b }
  | .pf => { f with pf := b }
  | .af => { f with af := b }
  | .zf => { f with zf := b }
  | .sf => { f with sf := b }
  | .of => { f with of := b }
  | .df => { f with df := b }

/-- Write a flag through the port. -/
def State.setFlag (s : State) (n : FlagName) (b : Bool) : State := s.setFlags (s.ctx.flags.set n b)

/-- Write `VRaw(i)` through the port (R46). -/
def State.writeRaw (s : State) (n : Reg) (v : BitVec 128) : State := s.setVreg n ((s.vreg n).writeRaw v)

/-- Write `VF32(i)` through the port (R48). -/
def State.writeF32 (s : State) (n : Reg) (v : BitVec 32) : State := s.setVreg n ((s.vreg n).writeF32 v)

/-- Write `VF64(i)` through the port (R50). -/
def State.writeF64 (s : State) (n : Reg) (v : BitVec 64) : State := s.setVreg n ((s.vreg n).writeF64 v)

/-- Write `VWide(i)` through the port (R52). -/
def State.writeWide (s : State) (n : Reg) (v : Wide) : State := s.setVreg n ((s.vreg n).writeWide v)

/-! ## Commands on the state (60_exceptions.md R319) -/

/-- `allocate` (20_memory.md R92). -/
def State.allocate (s : State) (size : Word) (name : String) : Except CommandError (Segment × State) :=
  match s.vmm.allocate size name with
  | .error e => .error e
  | .ok (g, m) => .ok (g, s.setVmm m)

/-- `map` (20_memory.md R93). -/
def State.map (s : State) (g : Segment) (data : List Byte) : Except CommandError State :=
  match s.vmm.map g data with
  | .error e => .error e
  | .ok m => .ok (s.setVmm m)

/-- `unmap` (20_memory.md R94). -/
def State.unmap (s : State) (a : Word) : Except CommandError State :=
  match s.vmm.unmap a with
  | .error e => .error e
  | .ok m => .ok (s.setVmm m)

/-- `protect` (20_memory.md R95). -/
def State.protect (s : State) (a len : Word) (p : Perm) : Except CommandError State :=
  match s.vmm.protect a len p with
  | .error e => .error e
  | .ok m => .ok (s.setVmm m)

/-! ## The snapshot (60_exceptions.md R320) -/

/-- What a snapshot holds (R320): an abstract tuple (92_eei_decisions.md D35). -/
structure Snapshot where
  pc : Word
  x : Vector Word 16
  flags : Flags
  v : Vector Wide 16
deriving DecidableEq, Repr

/-- What a snapshot of a context holds. -/
def Context.snapshot (c : Context) : Snapshot := { pc := c.pc, x := c.x, flags := c.flags, v := c.v.map VReg.val }

/-- `Materialize(i)` for every `i`. -/
def Context.materialized (c : Context) : Context := { c with v := c.v.map VReg.materialize }

/-- Taking a snapshot materializes every vector register and changes no value (R320). -/
def State.snapshot (s : State) : Snapshot × State := (s.ctx.snapshot, s.setCtx s.ctx.materialized)

/-! ## Contexts (60_exceptions.md R322) -/

/-- The caller creates a context: it is parked, in the state of 10_state.md R58. -/
def State.addContext (s : State) : State := { s with parked := s.parked ++ [Context.reset] }

/-- The caller chooses which context steps next: parked context `k` changes places with the current one.
Registers, pc, flags and vector bank go with the context; the memory manager is shared. DESIGN CHOICE, log 9. -/
def State.select (s : State) (k : Nat) : Option State :=
  match s.parked[k]? with
  | none => none
  | some c => some { s with ctx := c, parked := s.parked.set k s.ctx }

end Sys2Proof.Machine
end

