-- ==== Sys2Proof/Machine/Among.lean ====
section
/-! DEFINITION. The block at the grain of single accesses (20_memory.md R101, R105, 60_exceptions.md R322, R323,
70_reset_and_hazards.md R335): several contexts, each possibly inside a step, share one manager, and between two
accesses of one step the others make accesses of their own and the caller gives lifecycle commands. One event of
`Block.on` is one access or one command; the caller's list of events is the total order of R101. Where nothing
comes between the accesses of a step, they do together what `step` does. The form is the model's: DESIGN CHOICE,
log 9, 22. -/

namespace Sys2Proof.Machine

/-! ## A step in progress -/

/-- What an access of the step in progress has answered: the value of a read, zero-extended, or nothing. -/
inductive Answer
  | value (v : BitVec 128)
  | stored
deriving DecidableEq, Repr

/-- How far a step has come (42_control_transfer.md R220). -/
inductive Stage
  /-- in Fetch: these bytes from the pc up are fetched, and the decoder needs another -/
  | fetch (raw : List Byte)
  /-- in Execute: `i` is decoded, and these accesses of it are made -/
  | execute (i : Instr) (got : List Answer)
deriving DecidableEq, Repr

/-- What is left of an instruction once its first accesses have these answers. The answers are those of its own
accesses, so the last line is for lists that no step makes. -/
def Act.resume : Act → List Answer → Act
  | x, [] => x
  | .read _ n rest, .value v :: got => (rest (v.setWidth (8 * n))).resume got
  | .write _ _ _ rest, .stored :: got => rest.resume got
  | x, _ :: _ => x

/-- What one access leaves of a step. -/
inductive Turn
  /-- the step needs another access -/
  | going (g : Stage)
  /-- Execute and Advance are done: the context after the step -/
  | advanced (c : Context)
  /-- the step ends with a fault, and no register has changed (60_exceptions.md R300; that a materialization is not
  kept is DEDUCED, log 13) -/
  | fault (f : Fault)
deriving DecidableEq, Repr

/-- After an access of Execute: where no access is left, the register, flag and pc writes (70_reset_and_hazards.md
R336) come with it, since no other context sees them (60_exceptions.md R322). -/
def settle (c : Context) (i : Instr) (got : List Answer) : Turn :=
  match (actOf i c).resume got with
  | .done c' => .advanced c'
  | _ => .going (.execute i got)

/-- After the fetch of a byte: the decoder has its instruction, gives up (30_encoding.md R158), or needs one more
byte, of which there are at most 15 (R157). -/
def decided (c : Context) (raw : List Byte) : Turn :=
  match decode raw with
  | .ok i _ => settle c i []
  | .bad rest => .fault (.decodeError c.pc (raw.take (raw.length - rest.length)))
  | .short => if raw.length < Config.maxIlen then .going (.fetch raw) else .fault (.decodeError c.pc raw)

/-- The next access of a step: a fetch of one byte, a `MemRead` or a `MemWrite`, against the table and the bytes of
this moment (20_memory.md R90, R105, R106). -/
def Stage.next (c : Context) (m : Vmm) : Stage → Turn × Vmm
  | .fetch raw =>
    match m.memFetch (c.pc + BitVec.ofNat 64 raw.length) with
    | .error f => (.fault f, m)
    | .ok b => (decided c (raw ++ [b]), m)
  | .execute i got =>
    match (actOf i c).resume got with
    | .done c' => (.advanced c', m)
    | .read a n _ =>
      match m.memRead a n with
      | .error f => (.fault f, m)
      | .ok v => (settle c i (got ++ [.value (v.setWidth 128)]), m)
    | .write a n v _ =>
      match m.memWrite a n v with
      | .error f => (.fault f, m)
      | .ok m' => (settle c i (got ++ [.stored]), m')

/-! ## The block -/

/-- A context and, while it is inside a step, how far it has come. Its registers are those from before the step
until the step is done. -/
structure Cpu where
  ctx : Context
  stage : Option Stage
deriving DecidableEq, Repr

/-- The manager and all contexts that share it (60_exceptions.md R322). -/
structure Block where
  vmm : Vmm
  cpus : List Cpu
deriving DecidableEq, Repr

/-- The block with every context between steps; the one that steps comes first. -/
def State.block (s : State) : Block := { vmm := s.vmm, cpus := (s.ctx :: s.parked).map fun c => ⟨c, none⟩ }

/-! ## Events -/

/-- The lifecycle commands (20_memory.md R92 to R96) as data. -/
inductive Command
  | allocate (size : Word) (name : String)
  | map (g : Segment) (data : List Byte)
  | unmap (a : Word)
  | protect (a len : Word) (p : Perm)
deriving DecidableEq, Repr

/-- A command on the manager: the segment that `allocate` answers, and the manager after it. -/
def Vmm.command (m : Vmm) : Command → Except CommandError (Option Segment × Vmm)
  | .allocate size name =>
    match m.allocate size name with
    | .error e => .error e
    | .ok (g, m') => .ok (some g, m')
  | .map g data =>
    match m.map g data with
    | .error e => .error e
    | .ok m' => .ok (none, m')
  | .unmap a =>
    match m.unmap a with
    | .error e => .error e
    | .ok m' => .ok (none, m')
  | .protect a len p =>
    match m.protect a len p with
    | .error e => .error e
    | .ok m' => .ok (none, m')

/-- One thing that happens to the block (60_exceptions.md R323). -/
inductive Event
  /-- context `k` makes its next access; where it is between steps, it begins one -/
  | access (k : Nat)
  /-- a lifecycle command -/
  | command (x : Command)
  /-- the memory data interface: `read` and `write` (20_memory.md R80, R81). The spec has the widths 1, 2, 4, 8 and 16;
  any other is answered by R70 as these are: DESIGN CHOICE, safe, log 23. -/
  | read (a : Word) (n : Nat)
  /-- `write` of that interface, with the same choice of widths: log 23 -/
  | write (a : Word) (n : Nat) (v : BitVec (8 * n))
  /-- the register port leaves these registers in context `k` (10_state.md R55) -/
  | registers (k : Nat) (c : Context)
  /-- a snapshot of context `k` (R320) -/
  | snapshot (k : Nat)
  /-- the caller creates a context (R322) -/
  | create
deriving DecidableEq, Repr

/-- What the caller hears of an event. -/
inductive Report
  /-- done; of an access, that the step is not done with it -/
  | done
  /-- done, and with it the step: it advanced -/
  | advanced
  /-- the access is not permitted, or the bytes fetched are no instruction; a step ends with it -/
  | fault (f : Fault)
  /-- the command fails and changes nothing (20_memory.md R97) -/
  | failed (e : CommandError)
  /-- the segment of an `allocate` -/
  | segment (g : Segment)
  /-- what the memory data interface read -/
  | value (n : Nat) (v : BitVec (8 * n))
  | snapshot (x : Snapshot)
  /-- there is no such context, or it is inside a step: "a register-port access during a step is not modelled" (R323,
  93_implementation_defined.md U12). DESIGN CHOICE, safe, log 19. -/
  | refused
deriving DecidableEq, Repr

/-- The block after an access of context `k`, whose registers were `c`, and what the caller hears of it. -/
def Block.turn (b : Block) (k : Nat) (c : Context) : Turn × Vmm → Block × Report
  | (.going g, m) => ({ vmm := m, cpus := b.cpus.set k ⟨c, some g⟩ }, .done)
  | (.advanced c', m) => ({ vmm := m, cpus := b.cpus.set k ⟨c', none⟩ }, .advanced)
  | (.fault f, m) => ({ vmm := m, cpus := b.cpus.set k ⟨c, none⟩ }, .fault f)

/-- The next access of context `k`. -/
def Block.access (b : Block) (k : Nat) : Block × Report :=
  match b.cpus[k]? with
  | none => (b, .refused)
  | some p => b.turn k p.ctx ((p.stage.getD (.fetch [])).next p.ctx b.vmm)

/-- Context `k`, where it is between steps. -/
def Block.idle (b : Block) (k : Nat) : Option Context :=
  match b.cpus[k]? with
  | some ⟨c, none⟩ => some c
  | _ => none

/-- One event (R323): accesses and commands whatever steps are in progress, the register port and snapshots for
contexts between steps. -/
def Block.on (b : Block) : Event → Block × Report
  | .access k => b.access k
  | .command x =>
    match b.vmm.command x with
    | .error e => (b, .failed e)
    | .ok (none, m) => ({ b with vmm := m }, .done)
    | .ok (some g, m) => ({ b with vmm := m }, .segment g)
  | .read a n =>
    match b.vmm.memRead a n with
    | .error f => (b, .fault f)
    | .ok v => (b, .value n v)
  | .write a n v =>
    match b.vmm.memWrite a n v with
    | .error f => (b, .fault f)
    | .ok m => ({ b with vmm := m }, .done)
  | .registers k c =>
    match b.idle k with
    | none => (b, .refused)
    | some _ => ({ b with cpus := b.cpus.set k ⟨c, none⟩ }, .done)
  | .snapshot k =>
    match b.idle k with
    | none => (b, .refused)
    | some c => ({ b with cpus := b.cpus.set k ⟨c.materialized, none⟩ }, .snapshot c.snapshot)
  | .create => ({ b with cpus := b.cpus ++ [⟨Context.reset, none⟩] }, .done)

/-- Accesses of context `k` with nothing in between, until its step ends; at most `n` of them. -/
def Block.finishStep (b : Block) (k : Nat) : Nat → Block × Report
  | 0 => (b, .done)
  | n + 1 =>
    match b.access k with
    | (b', .done) => b'.finishStep k n
    | x => x

end Sys2Proof.Machine
end

