-- ==== Sys2Proof/Safety.lean ====
section
/-! DEFINITION. What counts as a well-formed state and a safe run, and the vocabulary in which the statements
speak: which accesses are permitted, what operands hold, what a step leaves alone, and the forms of
spec/opcode_table.json grouped by what their rules compute. -/

namespace Sys2Proof.Machine

/-! ## The invariant (20_memory.md R61) -/

/-- A segment of the table: `start < end`, both multiples of `PAGE_SIZE` (R61). -/
abbrev Segment.wf (s : Segment) : Prop :=
  s.start.toNat < s.stop.toNat ∧ s.start.toNat % Config.pageSize = 0 ∧ s.stop.toNat % Config.pageSize = 0

/-- The table: well-formed segments that do not overlap (R61), listed in the order of their starts, which R61 does
not ask for. The order is DEDUCED, safe, log 16. -/
abbrev Vmm.tableWf (m : Vmm) : Prop :=
  (∀ s ∈ m.segs, s.wf) ∧ m.segs.Pairwise fun s t => s.stop.toNat ≤ t.start.toNat

/-- The manager: the table, storage in canonical form, and no byte outside a segment (R65). -/
abbrev Vmm.wf (m : Vmm) : Prop :=
  m.tableWf ∧ Memory.wf m.bytes ∧
    ∀ c ∈ m.bytes, ∃ s ∈ m.segs, s.start.toNat ≤ c.1 ∧ c.1 < s.stop.toNat

/-- The invariant of the block. -/
abbrev State.Inv (s : State) : Prop := s.vmm.wf

/-- A run of `n` steps is safe when no step of it faults. -/
def State.Safe (n : Nat) (s : State) : Prop := ∃ t, Sys2Proof.core.run n s = .next t

/-! ## Permitted accesses (20_memory.md R70, R71) -/

/-- An access succeeds: one segment covers all its bytes and allows its kind. -/
def Vmm.permits (m : Vmm) (a : Word) (n : Nat) (k : Access) : Bool :=
  match m.lookup a with
  | none => false
  | some g => decide (a.toNat + n ≤ g.stop.toNat) && g.perm.allows k

/-- The fault of an access that is not permitted: the mapping check comes first, and the fault carries the
access's own address and width (20_memory.md R70, R74, R75). -/
def Vmm.denied (m : Vmm) (a : Word) (n : Nat) (k : Access) : Fault :=
  match m.lookup a with
  | none => .segmentationFault a n k
  | some g => if g.stop.toNat < a.toNat + n then .segmentationFault a n k else .accessViolation a n k

/-- The little-endian value of the `n` bytes from `a` up (20_memory.md R80). -/
def State.bytesAt (s : State) (a : Word) (n : Nat) : BitVec (8 * n) :=
  littleEndian (fun j => s.byteAt (a + BitVec.ofNat 64 j)) n

/-- An operand can be read at a width. -/
def Loc.readable (s : State) (w : Width) : Loc → Bool
  | .reg _ => true
  | .mem ea => s.vmm.permits ea w.bytes .read

/-- An operand can be written at a width. -/
def Loc.writable (s : State) (w : Width) : Loc → Bool
  | .reg _ => true
  | .mem ea => s.vmm.permits ea w.bytes .write

/-- What an operand holds at a width. -/
def State.valueOf (s : State) (w : Width) (p : Pfx) : Loc → BitVec w.bits
  | .reg n => s.ctx.view w n p.rex.isSome
  | .mem ea => s.bytesAt ea w.bytes

/-- A source operand can be read. -/
def Source.readable (s : State) (i : Instr) {w : Width} (p : Pfx) : Source w → Bool
  | .rm x => (s.bind i p x).readable s w
  | .imm _ => true

/-- What a source operand holds. -/
def State.sourceValue (s : State) (i : Instr) {w : Width} (p : Pfx) : Source w → BitVec w.bits
  | .rm x => s.valueOf w p (s.bind i p x)
  | .imm v => v

/-- A vector r/m operand can be read with `n` bytes. -/
def Loc.vreadable (s : State) (n : Nat) : Loc → Bool
  | .reg _ => true
  | .mem ea => s.vmm.permits ea n .read

/-- A vector r/m operand can be written with `n` bytes. -/
def Loc.vwritable (s : State) (n : Nat) : Loc → Bool
  | .reg _ => true
  | .mem ea => s.vmm.permits ea n .write

/-- The low `n` bytes of a vector register's value, or `n` bytes of memory (43_vector.md R250). -/
def State.vvalueOf (s : State) (n : Nat) : Loc → BitVec (8 * n)
  | .reg k => (s.val k).setWidth (8 * n)
  | .mem ea => s.bytesAt ea n

/-! ## What a step leaves alone -/

/-- Every general register is unchanged. -/
def State.SameRegs (s t : State) : Prop := ∀ k, t.reg k = s.reg k

/-- Every vector register is unchanged, representation and all. -/
def State.SameVregs (s t : State) : Prop := ∀ k, t.vreg k = s.vreg k

/-- Every vector register has the value it had (10_state.md R42). -/
def State.SameVals (s t : State) : Prop := ∀ k, t.val k = s.val k

/-- Every byte of memory is unchanged. -/
def State.SameBytes (s t : State) : Prop := ∀ a, t.byteAt a = s.byteAt a

/-- Memory is unchanged but for the `n` bytes from `a` up, which hold `v` (20_memory.md R81). -/
def State.StoredAt (s t : State) (a : Word) (n : Nat) (v : BitVec (8 * n)) : Prop :=
  ∀ k, t.byteAt k = if (k - a).toNat < n then byteOf v (k - a).toNat else s.byteAt k

/-- The segment table and the other contexts are unchanged. -/
def State.SameBlock (s t : State) : Prop :=
  t.vmm.segs = s.vmm.segs ∧ t.vmm.fills = s.vmm.fills ∧ t.parked = s.parked

/-- An integer result `v` went to operand `l` and nowhere else among registers and memory. -/
def State.Wrote (s t : State) (w : Width) (p : Pfx) (v : BitVec w.bits) : Loc → Prop
  | .reg n => (∀ k, t.reg k = (s.ctx.setView w n p.rex.isSome v).reg k) ∧ s.SameBytes t
  | .mem ea => s.SameRegs t ∧ s.StoredAt t ea w.bytes v

/-- Vector register `r` has `v` in its low `n` bits and its other bits kept, and every other vector
register has its value. -/
def State.VWrote (s t : State) (r : Reg) {n : Nat} (v : BitVec n) : Prop :=
  (∀ j, (t.val r).getLsbD j = if j < n then v.getLsbD j else (s.val r).getLsbD j) ∧
    ∀ k, k ≠ r → t.val k = s.val k

/-! ## Flags as the rules state them (40_integer_alu.md R171 to R175) -/

/-- An even number of ones among the low eight bits (R174). -/
def evenOnes {w : Nat} (r : BitVec w) : Bool := ((List.range 8).countP fun k => r.getLsbD k) % 2 == 0

/-- The six status flags of `a + b` from integers, with carry `cf` given; DF kept. -/
def SumFlags {w : Nat} (a b : BitVec w) (cf : Bool) (old new : Flags) : Prop :=
  new.cf = cf ∧
  new.of = decide (a.toInt + b.toInt < -(2 ^ (w - 1)) ∨ 2 ^ (w - 1) ≤ a.toInt + b.toInt) ∧
  new.sf = (a + b).msb ∧ new.zf = decide ((a + b).toNat = 0) ∧ new.pf = evenOnes (a + b) ∧
  new.af = decide (16 ≤ a.toNat % 16 + b.toNat % 16) ∧ new.df = old.df

/-- The six status flags of `a - b` from integers, with borrow `cf` given; DF kept. -/
def DifferenceFlags {w : Nat} (a b : BitVec w) (cf : Bool) (old new : Flags) : Prop :=
  new.cf = cf ∧
  new.of = decide (a.toInt - b.toInt < -(2 ^ (w - 1)) ∨ 2 ^ (w - 1) ≤ a.toInt - b.toInt) ∧
  new.sf = (a - b).msb ∧ new.zf = decide ((a - b).toNat = 0) ∧ new.pf = evenOnes (a - b) ∧
  new.af = decide (a.toNat % 16 < b.toNat % 16) ∧ new.df = old.df

end Sys2Proof.Machine

namespace Sys2Proof

open Machine

/-! ## The rows by what their rules compute (30_encoding.md R147, R150, R151) -/

/-- A two-operand integer row: prefixes, width, destination (or first operand), source. -/
structure IntForm where
  pfx : Pfx
  w : Width
  dst : RM
  src : Source w

/-- The rows of ADD. -/
def Instr.addForm : Instr → Option IntForm
  | .addRm8R8 p d r => some ⟨p, .w8, d, .rm (.reg r)⟩
  | .addRmR p d r => some ⟨p, p.width, d, .rm (.reg r)⟩
  | .addR8Rm8 p r x => some ⟨p, .w8, .reg r, .rm x⟩
  | .addRRm p r x => some ⟨p, p.width, .reg r, .rm x⟩
  | .addAlI8 p v => some ⟨p, .w8, .reg rax, .imm v⟩
  | .addAxIz p v => some ⟨p, p.width, .reg rax, .imm (v.value p.width)⟩
  | .addRm8I8 p d v => some ⟨p, .w8, d, .imm v⟩
  | .addRmIz p d v => some ⟨p, p.width, d, .imm (v.value p.width)⟩
  | .addRmI8 p d v => some ⟨p, p.width, d, .imm (v.signExtend p.width.bits)⟩
  | _ => none

/-- The rows of SUB. -/
def Instr.subForm : Instr → Option IntForm
  | .subRm8R8 p d r => some ⟨p, .w8, d, .rm (.reg r)⟩
  | .subRmR p d r => some ⟨p, p.width, d, .rm (.reg r)⟩
  | .subR8Rm8 p r x => some ⟨p, .w8, .reg r, .rm x⟩
  | .subRRm p r x => some ⟨p, p.width, .reg r, .rm x⟩
  | .subAlI8 p v => some ⟨p, .w8, .reg rax, .imm v⟩
  | .subAxIz p v => some ⟨p, p.width, .reg rax, .imm (v.value p.width)⟩
  | .subRm8I8 p d v => some ⟨p, .w8, d, .imm v⟩
  | .subRmIz p d v => some ⟨p, p.width, d, .imm (v.value p.width)⟩
  | .subRmI8 p d v => some ⟨p, p.width, d, .imm (v.signExtend p.width.bits)⟩
  | _ => none

/-- The rows of CMP. -/
def Instr.cmpForm : Instr → Option IntForm
  | .cmpRm8R8 p d r => some ⟨p, .w8, d, .rm (.reg r)⟩
  | .cmpRmR p d r => some ⟨p, p.width, d, .rm (.reg r)⟩
  | .cmpR8Rm8 p r x => some ⟨p, .w8, .reg r, .rm x⟩
  | .cmpRRm p r x => some ⟨p, p.width, .reg r, .rm x⟩
  | .cmpAlI8 p v => some ⟨p, .w8, .reg rax, .imm v⟩
  | .cmpAxIz p v => some ⟨p, p.width, .reg rax, .imm (v.value p.width)⟩
  | .cmpRm8I8 p d v => some ⟨p, .w8, d, .imm v⟩
  | .cmpRmIz p d v => some ⟨p, p.width, d, .imm (v.value p.width)⟩
  | .cmpRmI8 p d v => some ⟨p, p.width, d, .imm (v.signExtend p.width.bits)⟩
  | _ => none

/-- The rows of MOV. -/
def Instr.movForm : Instr → Option IntForm
  | .movRm8R8 p d r => some ⟨p, .w8, d, .rm (.reg r)⟩
  | .movRmR p d r => some ⟨p, p.width, d, .rm (.reg r)⟩
  | .movR8Rm8 p r x => some ⟨p, .w8, .reg r, .rm x⟩
  | .movRRm p r x => some ⟨p, p.width, .reg r, .rm x⟩
  | .movR8I8 p r v => some ⟨p, .w8, .reg r, .imm v⟩
  | .movRIv p r v => some ⟨p, p.width, .reg r, .imm (v.value p.width)⟩
  | .movRm8I8 p d v => some ⟨p, .w8, d, .imm v⟩
  | .movRmIz p d v => some ⟨p, p.width, d, .imm (v.value p.width)⟩
  | _ => none

/-- The rows of INC. -/
def Instr.incForm : Instr → Option (Pfx × Width × RM)
  | .incRm8 p d => some (p, .w8, d)
  | .incRm p d => some (p, p.width, d)
  | _ => none

/-- The rows of DEC. -/
def Instr.decForm : Instr → Option (Pfx × Width × RM)
  | .decRm8 p d => some (p, .w8, d)
  | .decRm p d => some (p, p.width, d)
  | _ => none

/-- The rows of Jcc (42_control_transfer.md R232, R233): condition and offset. -/
def Instr.jccForm : Instr → Option (Cond × Word)
  | .joRel8 _ v => some (.o, v.signExtend 64)
  | .jnoRel8 _ v => some (.no, v.signExtend 64)
  | .jbRel8 _ v => some (.b, v.signExtend 64)
  | .jaeRel8 _ v => some (.ae, v.signExtend 64)
  | .jeRel8 _ v => some (.e, v.signExtend 64)
  | .jneRel8 _ v => some (.ne, v.signExtend 64)
  | .jbeRel8 _ v => some (.be, v.signExtend 64)
  | .jaRel8 _ v => some (.a, v.signExtend 64)
  | .jsRel8 _ v => some (.s, v.signExtend 64)
  | .jnsRel8 _ v => some (.ns, v.signExtend 64)
  | .jpRel8 _ v => some (.p, v.signExtend 64)
  | .jnpRel8 _ v => some (.np, v.signExtend 64)
  | .jlRel8 _ v => some (.l, v.signExtend 64)
  | .jgeRel8 _ v => some (.ge, v.signExtend 64)
  | .jleRel8 _ v => some (.le, v.signExtend 64)
  | .jgRel8 _ v => some (.g, v.signExtend 64)
  | .joRel32 _ v => some (.o, v.signExtend 64)
  | .jnoRel32 _ v => some (.no, v.signExtend 64)
  | .jbRel32 _ v => some (.b, v.signExtend 64)
  | .jaeRel32 _ v => some (.ae, v.signExtend 64)
  | .jeRel32 _ v => some (.e, v.signExtend 64)
  | .jneRel32 _ v => some (.ne, v.signExtend 64)
  | .jbeRel32 _ v => some (.be, v.signExtend 64)
  | .jaRel32 _ v => some (.a, v.signExtend 64)
  | .jsRel32 _ v => some (.s, v.signExtend 64)
  | .jnsRel32 _ v => some (.ns, v.signExtend 64)
  | .jpRel32 _ v => some (.p, v.signExtend 64)
  | .jnpRel32 _ v => some (.np, v.signExtend 64)
  | .jlRel32 _ v => some (.l, v.signExtend 64)
  | .jgeRel32 _ v => some (.ge, v.signExtend 64)
  | .jleRel32 _ v => some (.le, v.signExtend 64)
  | .jgRel32 _ v => some (.g, v.signExtend 64)
  | _ => none

/-- The relative rows of JMP (42_control_transfer.md R230): the offset. -/
def Instr.jmpForm : Instr → Option Word
  | .jmpRel8 _ v => some (v.signExtend 64)
  | .jmpRel32 _ v => some (v.signExtend 64)
  | _ => none

/-- The packed shifts by a register or memory count (43_vector.md R258 to R265): kind, lane width,
destination, count operand. -/
def Instr.shiftForm : Instr → Option (Pfx × ShiftKind × Nat × Reg × RM)
  | .psrlwRm p r x => some (p, .srl, 16, r, x)
  | .psrldRm p r x => some (p, .srl, 32, r, x)
  | .psrlqRm p r x => some (p, .srl, 64, r, x)
  | .psrawRm p r x => some (p, .sra, 16, r, x)
  | .psradRm p r x => some (p, .sra, 32, r, x)
  | .psllwRm p r x => some (p, .sll, 16, r, x)
  | .pslldRm p r x => some (p, .sll, 32, r, x)
  | .psllqRm p r x => some (p, .sll, 64, r, x)
  | _ => none

/-- The packed shifts by an immediate count (43_vector.md R258 to R265). -/
def Instr.shiftImmForm : Instr → Option (ShiftKind × Nat × Reg × BitVec 8)
  | .psrlwImm _ r v => some (.srl, 16, r, v)
  | .psrawImm _ r v => some (.sra, 16, r, v)
  | .psllwImm _ r v => some (.sll, 16, r, v)
  | .psrldImm _ r v => some (.srl, 32, r, v)
  | .psradImm _ r v => some (.sra, 32, r, v)
  | .pslldImm _ r v => some (.sll, 32, r, v)
  | .psrlqImm _ r v => some (.srl, 64, r, v)
  | .psllqImm _ r v => some (.sll, 64, r, v)
  | _ => none

/-- The vector moves to a register (43_vector.md R270, R272, R274): bytes moved, destination, source. -/
def Instr.vloadForm : Instr → Option (Pfx × Nat × Reg × RM)
  | .movssLoad p r x => some (p, 4, r, x)
  | .movsdLoad p r x => some (p, 8, r, x)
  | .movdquLoad p r x => some (p, 16, r, x)
  | _ => none

/-- The vector moves from a register (43_vector.md R271, R273, R275): bytes moved, destination, source. -/
def Instr.vstoreForm : Instr → Option (Pfx × Nat × RM × Reg)
  | .movssStore p d r => some (p, 4, d, r)
  | .movsdStore p d r => some (p, 8, d, r)
  | .movdquStore p d r => some (p, 16, d, r)
  | _ => none

/-- The rows whose destination may be memory (20_memory.md R85): prefixes, bytes, destination. -/
def Instr.storeDst : Instr → Option (Pfx × Nat × RM)
  | .addRm8R8 p d _ => some (p, 1, d)
  | .addRmR p d _ => some (p, p.width.bytes, d)
  | .subRm8R8 p d _ => some (p, 1, d)
  | .subRmR p d _ => some (p, p.width.bytes, d)
  | .addRm8I8 p d _ => some (p, 1, d)
  | .addRmIz p d _ => some (p, p.width.bytes, d)
  | .addRmI8 p d _ => some (p, p.width.bytes, d)
  | .subRm8I8 p d _ => some (p, 1, d)
  | .subRmIz p d _ => some (p, p.width.bytes, d)
  | .subRmI8 p d _ => some (p, p.width.bytes, d)
  | .incRm8 p d => some (p, 1, d)
  | .decRm8 p d => some (p, 1, d)
  | .incRm p d => some (p, p.width.bytes, d)
  | .decRm p d => some (p, p.width.bytes, d)
  | .movRm8R8 p d _ => some (p, 1, d)
  | .movRmR p d _ => some (p, p.width.bytes, d)
  | .movRm8I8 p d _ => some (p, 1, d)
  | .movRmIz p d _ => some (p, p.width.bytes, d)
  | .movssStore p d _ => some (p, 4, d)
  | .movsdStore p d _ => some (p, 8, d)
  | .movdquStore p d _ => some (p, 16, d)
  | _ => none

/-- The legacy bytes that may stand in an admitted instruction, by kind (30_encoding.md R112, R113). -/
def legacyKinds : List (List Byte) := [[0x66], [0x26, 0x2E, 0x36, 0x3E, 0x64, 0x65], [0xF3, 0xF2]]

/-- Bytes that are all legacy bytes of those kinds. -/
def AllLegacy (bs : List Byte) : Prop := ∀ b ∈ bs, b ∈ legacyKinds.flatten

/-- The byte is a REX byte, `40` to `4F` (30_encoding.md R120). -/
def IsRex (b : Byte) : Prop := 0x40 ≤ b.toNat ∧ b.toNat ≤ 0x4F

/-- The decoder raises `DecodeError` on these bytes (30_encoding.md R155). -/
def DecodeRefuses (bs : List Byte) : Prop := ∃ rest, decode bs = .bad rest

/-- Opcodes that have no row whatever the legacy bytes (30_encoding.md R150, R151), which other rules speak of: VEX,
EVEX, XOP (R124), the three-byte maps (R123), system instructions and RDTSC (60_exceptions.md R312, R315), HLT
(42_control_transfer.md R223), multiply and divide (40_integer_alu.md R184), `0F AE` with the fences (20_memory.md
R103), far and wide returns (42_control_transfer.md R238). -/
def refusedOpcodes : List (List Byte) := [
  [0xC4], [0xC5], [0x62], [0x8F], [0x0F, 0x38], [0x0F, 0x3A], [0x0F, 0x05], [0xCD], [0xCC], [0xF4],
  [0x0F, 0x01], [0x0F, 0x20], [0x0F, 0x21], [0x0F, 0x22], [0x0F, 0x23], [0x0F, 0x30], [0x0F, 0x31],
  [0x0F, 0x32], [0x0F, 0x33], [0x0F, 0xA2], [0xF6], [0xF7], [0x0F, 0xAF], [0x69], [0x6B], [0x0F, 0xAE],
  [0xC2], [0xCA], [0xCB]]

/-- The one-byte opcodes that have a row (30_encoding.md R150). -/
def mapOneOpcodes : List Byte := [
  0x00, 0x01, 0x02, 0x03, 0x04, 0x05, 0x28, 0x29, 0x2A, 0x2B, 0x2C, 0x2D, 0x38, 0x39, 0x3A, 0x3B, 0x3C, 0x3D,
  0x70, 0x71, 0x72, 0x73, 0x74, 0x75, 0x76, 0x77, 0x78, 0x79, 0x7A, 0x7B, 0x7C, 0x7D, 0x7E, 0x7F,
  0x80, 0x81, 0x83, 0x88, 0x89, 0x8A, 0x8B, 0x90,
  0xB0, 0xB1, 0xB2, 0xB3, 0xB4, 0xB5, 0xB6, 0xB7, 0xB8, 0xB9, 0xBA, 0xBB, 0xBC, 0xBD, 0xBE, 0xBF,
  0xC3, 0xC6, 0xC7, 0xE8, 0xE9, 0xEB, 0xFE, 0xFF]

/-- The opcodes after `0F` that have a row, by prefix class: none, `F3`, `F2`, `66` (R151). -/
def mapTwoOpcodes : List (Option Byte × List Byte) := [
  (none, [0x2F, 0x80, 0x81, 0x82, 0x83, 0x84, 0x85, 0x86, 0x87, 0x88, 0x89, 0x8A, 0x8B, 0x8C, 0x8D, 0x8E, 0x8F]),
  (some 0xF3, [0x10, 0x11, 0x6F, 0x7F]), (some 0xF2, [0x10, 0x11]),
  (some 0x66, [0x71, 0x72, 0x73, 0xD1, 0xD2, 0xD3, 0xD4, 0xE1, 0xE2, 0xF1, 0xF2, 0xF3])]

/-- Among these legacy bytes `c` is the only one of `66`, `F3` and `F2`, or none of them is there (R116). -/
def ClassIs (pre : List Byte) (c : Option Byte) : Prop := ∀ b ∈ [0x66, 0xF3, 0xF2], b ∈ pre ↔ c = some b

/-- The `/digit`s that have a row, by group opcode (R152). -/
def groupDigits : List (List Byte × List Nat) := [
  ([0x80], [0, 5, 7]), ([0x81], [0, 5, 7]), ([0x83], [0, 5, 7]), ([0xC6], [0]), ([0xC7], [0]),
  ([0xFE], [0, 1]), ([0xFF], [0, 1, 2, 4]),
  ([0x0F, 0x71], [2, 4, 6]), ([0x0F, 0x72], [2, 4, 6]), ([0x0F, 0x73], [2, 6])]

/-- The one-byte opcodes of Jcc, RET, CALL and JMP, but for `FF /2` and `FF /4` (R150). -/
def transferOpcodes : List Byte := [
  0x70, 0x71, 0x72, 0x73, 0x74, 0x75, 0x76, 0x77, 0x78, 0x79, 0x7A, 0x7B, 0x7C, 0x7D, 0x7E, 0x7F,
  0xC3, 0xE8, 0xE9, 0xEB]

/-- The rows that write a status flag (10_state.md R31). -/
def Instr.writesFlags (i : Instr) : Bool :=
  i.addForm.isSome || i.subForm.isSome || i.cmpForm.isSome || i.incForm.isSome || i.decForm.isSome
    || (match i with
      | .comiss _ _ _ => true
      | _ => false)

/-- The rows that end a basic block: JMP, Jcc, CALL, RET (42_control_transfer.md R224). -/
def Instr.endsBlock (i : Instr) : Bool :=
  i.jccForm.isSome || i.jmpForm.isSome
    || (match i with
      | .jmpRm _ _ => true
      | .callRel32 _ _ => true
      | .callRm _ _ => true
      | .ret _ => true
      | _ => false)

/-- The vector rows (43_vector.md). -/
def Instr.isVector (i : Instr) : Bool :=
  i.shiftForm.isSome || i.shiftImmForm.isSome || i.vloadForm.isSome || i.vstoreForm.isSome
    || (match i with
      | .comiss _ _ _ => true
      | .paddq _ _ _ => true
      | _ => false)

end Sys2Proof

namespace Sys2Proof.Machine

/-- The address a row stores to and the number of bytes, if it stores (20_memory.md R85). -/
def State.storeOf (s : State) (i : Instr) : Option (Word × Nat) :=
  match i with
  | .callRel32 _ _ => some (s.reg rsp - 8, 8)
  | .callRm _ _ => some (s.reg rsp - 8, 8)
  | _ =>
    match i.storeDst with
    | some (p, n, d) =>
      match s.bind i p d with
      | .mem ea => some (ea, n)
      | .reg _ => none
    | none => none

/-! ## The representations as one number (10_state.md R53) -/

/-- The eight operations on a vector register (R45 to R52). -/
inductive VOp
  | readRaw
  | readF32
  | readF64
  | readWide
  | writeRaw (v : BitVec 128)
  | writeF32 (v : BitVec 32)
  | writeF64 (v : BitVec 64)
  | writeWide (v : Wide)
deriving DecidableEq, Repr

/-- An operation on the tagged register: what a read answers, zero-extended, and the register after it. -/
def VOp.onReg (r : VReg) : VOp → Option Wide × VReg
  | .readRaw => (some (r.readRaw.1.setWidth 512), r.readRaw.2)
  | .readF32 => (some (r.readF32.1.setWidth 512), r.readF32.2)
  | .readF64 => (some (r.readF64.1.setWidth 512), r.readF64.2)
  | .readWide => (some r.readWide.1, r.readWide.2)
  | .writeRaw v => (none, r.writeRaw v)
  | .writeF32 v => (none, r.writeF32 v)
  | .writeF64 v => (none, r.writeF64 v)
  | .writeWide v => (none, r.writeWide v)

/-- The same operation on one untagged 512-bit number: reads answer its low bits, writes replace them. -/
def VOp.onValue (x : Wide) : VOp → Option Wide × Wide
  | .readRaw => (some ((x.extractLsb' 0 128).setWidth 512), x)
  | .readF32 => (some ((x.extractLsb' 0 32).setWidth 512), x)
  | .readF64 => (some ((x.extractLsb' 0 64).setWidth 512), x)
  | .readWide => (some x, x)
  | .writeRaw v => (none, x.extractLsb' 128 384 ++ v)
  | .writeF32 v => (none, x.extractLsb' 32 480 ++ v)
  | .writeF64 v => (none, x.extractLsb' 64 448 ++ v)
  | .writeWide v => (none, v)

/-- A sequence of operations: the answers in order, and what is left. -/
def VOp.run {σ : Type} (f : σ → VOp → Option Wide × σ) : List VOp → σ → List (Option Wide) × σ
  | [], r => ([], r)
  | o :: os, r => ((f r o).1 :: (VOp.run f os (f r o).2).1, (VOp.run f os (f r o).2).2)

/-! ## The numbers COMISS compares (43_vector.md R253) -/

/-- `value(v)` of a binary32 pattern that is no NaN, with the two infinities below and above every rational. -/
def value32 (v : BitVec 32) : WithBot (WithTop ℚ) :=
  let sign : ℚ := if v.msb then -1 else 1
  let e := (v.extractLsb' 23 8).toNat
  let f := (v.extractLsb' 0 23).toNat
  if e = 255 then (if v.msb then ⊥ else ((⊤ : WithTop ℚ) : WithBot (WithTop ℚ)))
  else if e = 0 then ((sign * f * 2 ^ (-149 : ℤ) : ℚ) : WithTop ℚ)
  else ((sign * (2 ^ 23 + f) * 2 ^ ((e : ℤ) - 150) : ℚ) : WithTop ℚ)

/-- `NaN(v)` (R253). -/
def nan32 (v : BitVec 32) : Prop := (v.extractLsb' 23 8).toNat = 255 ∧ (v.extractLsb' 0 23).toNat ≠ 0

/-! ## Bytes at the pc (30_encoding.md R111) -/

/-- The bytes can be fetched from the pc up (20_memory.md R82). -/
def State.Fetches (s : State) (bs : List Byte) : Prop :=
  ∀ j, (h : j < bs.length) → s.vmm.memFetch (s.ctx.pc + BitVec.ofNat 64 j) = .ok bs[j]

/-! ## What a program cannot learn (20_memory.md R71) -/

/-- Two states that differ at most in bytes that no segment lets a program read or execute. -/
structure State.Agree (s t : State) : Prop where
  ctx : t.ctx = s.ctx
  parked : t.parked = s.parked
  segs : t.vmm.segs = s.vmm.segs
  fills : t.vmm.fills = s.vmm.fills
  bytes : ∀ a : Word, (∃ g ∈ s.vmm.segs, g.contains a = true ∧ (g.perm.read = true ∨ g.perm.execute = true)) →
    t.byteAt a = s.byteAt a

/-! ## Steps in progress (60_exceptions.md R322, R323) -/

/-- The block as a context with registers `c` sees it. -/
def Block.seenBy (b : Block) (c : Context) : State := { ctx := c, vmm := b.vmm, parked := [] }

/-- The context an event is about. -/
def Event.subject : Event → Option Nat
  | .access k => some k
  | .registers k _ => some k
  | .snapshot k => some k
  | _ => none

/-- The event is a lifecycle command. -/
def Event.isCommand : Event → Bool
  | .command _ => true
  | _ => false

/-! ## Free ranges (20_memory.md R92) -/

/-- `[b, b + sz)` may be given to a new segment (R92). -/
def Vmm.Fits (m : Vmm) (sz b : Nat) : Prop :=
  b % 4096 = 0 ∧ b + sz ≤ 2 ^ 64 - 4096 ∧ ∀ g ∈ m.segs, g.stop.toNat ≤ b ∨ b + sz ≤ g.start.toNat

end Sys2Proof.Machine
end

