-- ==== Sys2Proof/Certificates/Slice0/Obligations.lean ====
section
/-! DEFINITION. The statements for the provers. Each docstring names the rules of spec/ it formalises. -/

open Sys2Proof Sys2Proof.Machine

/-! ## Encoding (30_encoding.md) -/

/-- Decode and encode agree, for every well-formed instruction and whatever bytes follow (R110, R120 to R133,
R147, R150 to R152). -/
def Obligations.DecodeEncode : Prop :=
  ∀ (i : Instr) (rest : List Byte), i.wf = true → decode (encode i ++ rest) = .ok i rest

/-- The decoder answers only well-formed instructions, of 1 to 14 bytes, and consumes as many bytes as the
encoder writes (R110, R157). -/
def Obligations.DecodeWellFormed : Prop :=
  ∀ (bs : List Byte) (i : Instr) (rest : List Byte), decode bs = .ok i rest →
    i.wf = true ∧ 1 ≤ i.length ∧ i.length ≤ 14 ∧ i.length ≤ bs.length ∧ rest = bs.drop i.length

/-- The decodes worked in the spec: two of R160, five of R161 (which the spec derives from its rules),
whatever bytes follow. -/
def Obligations.WorkedDecodes : Prop :=
  ∀ rest : List Byte,
    decode (0x0F :: 0x2F :: 0xC1 :: rest) = .ok (.comiss ⟨false, none, none⟩ 0 (.reg 1)) rest ∧
    decode (0x66 :: 0x44 :: 0x0F :: 0xD4 :: 0xC9 :: rest)
      = .ok (.paddq ⟨true, none, some false⟩ 9 (.reg 1)) rest ∧
    decode (0x48 :: 0x01 :: 0xD8 :: rest) = .ok (.addRmR ⟨false, none, some true⟩ (.reg 0) 3) rest ∧
    decode (0x66 :: 0x83 :: 0xC1 :: 0xFF :: rest) = .ok (.addRmI8 ⟨true, none, none⟩ (.reg 1) 0xFF) rest ∧
    decode (0x8B :: 0x44 :: 0x8B :: 0x10 :: rest)
      = .ok (.movRRm ⟨false, none, none⟩ 0 (.mem (.sib 3 (some 1) 2 (some (.d8 0x10))))) rest ∧
    decode (0x48 :: 0x8B :: 0x05 :: 0x10 :: 0 :: 0 :: 0 :: rest)
      = .ok (.movRRm ⟨false, none, some true⟩ 0 (.mem (.npcRel 0x10))) rest ∧
    decode (0x41 :: 0x8A :: 0x04 :: 0x24 :: rest)
      = .ok (.movR8Rm8 ⟨false, none, some false⟩ 0 (.mem (.sib 12 none 0 none))) rest

/-- `67` (R117) and `F0` (R119) are refused wherever a legacy byte may stand, and so is a REX byte followed by a
legacy byte or by another REX byte (R121). -/
def Obligations.RefusedPrefixes : Prop :=
  ∀ (pre rest : List Byte), AllLegacy pre →
    (∀ b : Byte, b = 0x67 ∨ b = 0xF0 → DecodeRefuses (pre ++ b :: rest)) ∧
    (∀ x b : Byte, IsRex x → (b ∈ legacyKinds.flatten ∨ b = 0x67 ∨ b = 0xF0 ∨ IsRex b) →
      DecodeRefuses (pre ++ x :: b :: rest))

/-- Prefix discipline (R113): two legacy bytes of one kind are refused, and the order of the legacy bytes does
not matter. -/
def Obligations.PrefixDiscipline : Prop :=
  (∀ (kind pre mid rest : List Byte) (x y : Byte), kind ∈ legacyKinds → x ∈ kind → y ∈ kind →
    AllLegacy pre → AllLegacy mid → DecodeRefuses (pre ++ x :: (mid ++ y :: rest))) ∧
  (∀ (pre pre' bs : List Byte) (i : Instr) (rest : List Byte), AllLegacy pre → pre.Perm pre' →
    (decode (pre ++ bs) = .ok i rest ↔ decode (pre' ++ bs) = .ok i rest))

/-- The cases of R155 that an opcode, a class, a `/digit`, `mod` or REX.B decides are refused, after any legacy
bytes `pre` and any REX byte: a one-byte opcode with no row (R150) or with `F3` or `F2` (R116), a class and opcode
after `0F` with no row (R151; so `66` with `F3` or `F2`, and `66` on Jcc rel32), `66` on the other control transfers
(R135), a `/digit` with no row and a vector group with `mod` other than 3 (R152), and `90` with REX.B (R150). The
opcodes of `refusedOpcodes` follow from R150, R151 and R155. The other cases of R155: `67`, `F0` and a misplaced REX
are in RefusedPrefixes, a repeated legacy byte in PrefixDiscipline, more than 15 bytes in DecodeWellFormed. -/
def Obligations.RefusedInstructions : Prop :=
  ∀ (pre rex rest : List Byte), AllLegacy pre → (rex = [] ∨ ∃ x, IsRex x ∧ rex = [x]) →
    let refused (op : List Byte) : Prop := DecodeRefuses (pre ++ (rex ++ (op ++ rest)))
    (∀ op ∈ refusedOpcodes, refused op) ∧
    (∀ op : Byte, op ∉ legacyKinds.flatten → ¬ IsRex op → op ≠ 0x0F →
      op ∉ mapOneOpcodes ∨ 0xF3 ∈ pre ∨ 0xF2 ∈ pre → refused [op]) ∧
    (∀ op : Byte, (∀ c ops, (c, ops) ∈ mapTwoOpcodes → op ∈ ops → ¬ ClassIs pre c) → refused [0x0F, op]) ∧
    (0x66 ∈ pre → ∀ op ∈ transferOpcodes, refused [op]) ∧
    (0x66 ∈ pre → ∀ m : Byte, m.toNat / 8 % 8 = 2 ∨ m.toNat / 8 % 8 = 4 → refused [0xFF, m]) ∧
    (∀ op digits, (op, digits) ∈ groupDigits → ∀ m : Byte, m.toNat / 8 % 8 ∉ digits → refused (op ++ [m])) ∧
    (∀ op : Byte, op ∈ [0x71, 0x72, 0x73] → ∀ m : Byte, m.toNat / 64 ≠ 3 → refused [0x0F, op, m]) ∧
    (∀ x : Byte, rex = [x] → x.getLsbD 0 = true → refused [0x90])

/-! ## Fetch and the step (42_control_transfer.md R220, 60_exceptions.md R301, R302, R309) -/

/-- A step runs the decoded instruction: where the bytes at the pc can be fetched and decode to `i`, the step is
`exec i`, and `npc` is the pc moved past those bytes (R220, R222). -/
def Obligations.StepRunsDecoded : Prop :=
  ∀ (s : State) (i : Instr) (bs : List Byte), bs.length ≤ 15 → s.Fetches bs → decode bs = .ok i [] →
    step s = exec i s ∧ s.npc i = s.ctx.pc + BitVec.ofNat 64 bs.length

/-- When a step raises `DecodeError`, and with what: the pc and the bytes up to the one at which the decoder gave
up, no fewer (R301, 30_encoding.md R158). -/
def Obligations.DecodeErrorReport : Prop :=
  ∀ s : State,
    (∀ bs : List Byte, bs.length ≤ 15 → s.Fetches bs → decode bs = .bad [] →
      step s = .fault (.decodeError s.ctx.pc bs)) ∧
    (∀ (a : Word) (bs : List Byte), step s = .fault (.decodeError a bs) →
      a = s.ctx.pc ∧ bs.length ≤ 15 ∧ s.Fetches bs ∧ decode bs = .bad [] ∧
        ∀ k < bs.length, decode (bs.take k) = .short)

/-- A byte that the decoder needs and that cannot be fetched faults with the address of that byte and width 1
(R302, R303, R309). -/
def Obligations.FetchFault : Prop :=
  ∀ (s : State) (bs : List Byte) (f : Fault), bs.length < 15 → s.Fetches bs → decode bs = .short →
    s.vmm.memFetch (s.ctx.pc + BitVec.ofNat 64 bs.length) = .error f →
    step s = .fault f ∧
      (f = .segmentationFault (s.ctx.pc + BitVec.ofNat 64 bs.length) 1 .fetch ∨
        f = .accessViolation (s.ctx.pc + BitVec.ofNat 64 bs.length) 1 .fetch)

/-- With no segment mapped, as after reset, a step raises `SegmentationFault` at whatever the pc holds
(70_reset_and_hazards.md R330). -/
def Obligations.UnmappedFaults : Prop :=
  ∀ s : State, s.vmm.segs = [] → step s = .fault (.segmentationFault s.ctx.pc 1 .fetch)

/-! ## Register views (10_state.md R22 to R25) -/

/-- The four views, read and written, for every register number; what lies outside the view is kept, but that a
32-bit write clears bits 63:32. -/
def Obligations.RegisterViews : Prop :=
  ∀ (c : Context) (n : Reg) (rex : Bool),
    (c.view .w64 n rex = c.reg n ∧ ∀ (v : BitVec 64) (k : Reg),
      (c.setView .w64 n rex v).reg k = if k = n then v else c.reg k) ∧
    (c.view .w32 n rex = (c.reg n).setWidth 32 ∧ ∀ (v : BitVec 32) (k : Reg),
      (c.setView .w32 n rex v).reg k = if k = n then v.setWidth 64 else c.reg k) ∧
    (c.view .w16 n rex = (c.reg n).setWidth 16 ∧ ∀ (v : BitVec 16) (k : Reg) (j : Nat),
      ((c.setView .w16 n rex v).reg k).getLsbD j
        = if k = n ∧ j < 16 then v.getLsbD j else (c.reg k).getLsbD j) ∧
    (rex = false → 4 ≤ n.toNat → n.toNat ≤ 7 →
      c.view .w8 n rex = (c.reg (n - 4)).extractLsb' 8 8 ∧ ∀ (v : BitVec 8) (k : Reg) (j : Nat),
        ((c.setView .w8 n rex v).reg k).getLsbD j
          = if k = n - 4 ∧ 8 ≤ j ∧ j < 16 then v.getLsbD (j - 8) else (c.reg k).getLsbD j) ∧
    (rex = true ∨ n.toNat < 4 ∨ 7 < n.toNat →
      c.view .w8 n rex = (c.reg n).setWidth 8 ∧ ∀ (v : BitVec 8) (k : Reg) (j : Nat),
        ((c.setView .w8 n rex v).reg k).getLsbD j
          = if k = n ∧ j < 8 then v.getLsbD j else (c.reg k).getLsbD j)

/-! ## Flags and conditions (40_integer_alu.md R171 to R175, 42_control_transfer.md R233) -/

/-- The six flag functions at every width of at least 8 bits, from integers; and OF and AF in the rules' other
form, from sign bits and from the exclusive or (R171 to R175). -/
def Obligations.FlagFunctions : Prop :=
  ∀ (w : Nat) (a b : BitVec w) (f : Flags), 8 ≤ w →
    SumFlags a b (decide (2 ^ w ≤ a.toNat + b.toNat)) f (AluOp.add.flags a b f) ∧
    DifferenceFlags a b (decide (a.toNat < b.toNat)) f (AluOp.sub.flags a b f) ∧
    ((AluOp.add.flags a b f).of = true ↔ a.msb = b.msb ∧ (a + b).msb ≠ a.msb) ∧
    ((AluOp.sub.flags a b f).of = true ↔ a.msb ≠ b.msb ∧ (a - b).msb ≠ a.msb) ∧
    (AluOp.add.flags a b f).af = (a ^^^ b ^^^ (a + b)).getLsbD 4 ∧
    (AluOp.sub.flags a b f).af = (a ^^^ b ^^^ (a - b)).getLsbD 4

/-- The sixteen conditions, and what they say after a comparison of two numbers of any width (R233). -/
def Obligations.Conditions : Prop :=
  (∀ f : Flags,
    (f.holds .o ↔ f.of = true) ∧ (f.holds .no ↔ f.of = false) ∧
    (f.holds .b ↔ f.cf = true) ∧ (f.holds .ae ↔ f.cf = false) ∧
    (f.holds .e ↔ f.zf = true) ∧ (f.holds .ne ↔ f.zf = false) ∧
    (f.holds .be ↔ f.cf = true ∨ f.zf = true) ∧ (f.holds .a ↔ f.cf = false ∧ f.zf = false) ∧
    (f.holds .s ↔ f.sf = true) ∧ (f.holds .ns ↔ f.sf = false) ∧
    (f.holds .p ↔ f.pf = true) ∧ (f.holds .np ↔ f.pf = false) ∧
    (f.holds .l ↔ f.sf ≠ f.of) ∧ (f.holds .ge ↔ f.sf = f.of) ∧
    (f.holds .le ↔ f.zf = true ∨ f.sf ≠ f.of) ∧ (f.holds .g ↔ f.zf = false ∧ f.sf = f.of)) ∧
  (∀ (w : Nat) (a b : BitVec w) (old : Flags), 1 ≤ w →
    let f := AluOp.sub.flags a b old
    (f.holds .b ↔ a.toNat < b.toNat) ∧ (f.holds .ae ↔ b.toNat ≤ a.toNat) ∧
    (f.holds .be ↔ a.toNat ≤ b.toNat) ∧ (f.holds .a ↔ b.toNat < a.toNat) ∧
    (f.holds .l ↔ a.toInt < b.toInt) ∧ (f.holds .ge ↔ b.toInt ≤ a.toInt) ∧
    (f.holds .le ↔ a.toInt ≤ b.toInt) ∧ (f.holds .g ↔ b.toInt < a.toInt) ∧
    (f.holds .e ↔ a = b) ∧ (f.holds .ne ↔ a ≠ b))

/-! ## Integer instructions: result, flags, frame (40_integer_alu.md, 41_data_movement.md) -/

/-- ADD, all nine rows: where its operands can be read and its destination written, it completes with the sum in
the destination, the six flags of the sum, `npc`, and nothing else changed (R176). -/
def Obligations.AddResult : Prop :=
  ∀ (s : State) (i : Instr) (f : IntForm), i.addForm = some f →
    (s.bind i f.pfx f.dst).readable s f.w = true → f.src.readable s i f.pfx = true →
    (s.bind i f.pfx f.dst).writable s f.w = true →
    let a := s.valueOf f.w f.pfx (s.bind i f.pfx f.dst)
    let b := s.sourceValue i f.pfx f.src
    ∃ t, exec i s = .next t ∧ s.Wrote t f.w f.pfx (a + b) (s.bind i f.pfx f.dst) ∧
      SumFlags a b (decide (2 ^ f.w.bits ≤ a.toNat + b.toNat)) s.ctx.flags t.ctx.flags ∧
      t.ctx.pc = s.npc i ∧ s.SameVregs t ∧ s.SameBlock t

/-- SUB, all nine rows (R177). -/
def Obligations.SubResult : Prop :=
  ∀ (s : State) (i : Instr) (f : IntForm), i.subForm = some f →
    (s.bind i f.pfx f.dst).readable s f.w = true → f.src.readable s i f.pfx = true →
    (s.bind i f.pfx f.dst).writable s f.w = true →
    let a := s.valueOf f.w f.pfx (s.bind i f.pfx f.dst)
    let b := s.sourceValue i f.pfx f.src
    ∃ t, exec i s = .next t ∧ s.Wrote t f.w f.pfx (a - b) (s.bind i f.pfx f.dst) ∧
      DifferenceFlags a b (decide (a.toNat < b.toNat)) s.ctx.flags t.ctx.flags ∧
      t.ctx.pc = s.npc i ∧ s.SameVregs t ∧ s.SameBlock t

/-- CMP, all nine rows: the flags of the difference, and no operand is written; a memory first operand needs
`read` alone (R178). -/
def Obligations.CmpResult : Prop :=
  ∀ (s : State) (i : Instr) (f : IntForm), i.cmpForm = some f →
    (s.bind i f.pfx f.dst).readable s f.w = true → f.src.readable s i f.pfx = true →
    let a := s.valueOf f.w f.pfx (s.bind i f.pfx f.dst)
    let b := s.sourceValue i f.pfx f.src
    ∃ t, exec i s = .next t ∧
      DifferenceFlags a b (decide (a.toNat < b.toNat)) s.ctx.flags t.ctx.flags ∧
      t.ctx.pc = s.npc i ∧ s.SameRegs t ∧ s.SameBytes t ∧ s.SameVregs t ∧ s.SameBlock t

/-- INC and DEC, both rows each: 1 is added or subtracted, five flags follow, CF keeps its value (R180, R181). -/
def Obligations.IncDecResult : Prop :=
  ∀ (s : State) (i : Instr) (p : Pfx) (w : Width) (d : RM),
    (s.bind i p d).readable s w = true → (s.bind i p d).writable s w = true →
    let a := s.valueOf w p (s.bind i p d)
    (i.incForm = some (p, w, d) →
      ∃ t, exec i s = .next t ∧ s.Wrote t w p (a + 1) (s.bind i p d) ∧
        SumFlags a 1 s.ctx.flags.cf s.ctx.flags t.ctx.flags ∧
        t.ctx.pc = s.npc i ∧ s.SameVregs t ∧ s.SameBlock t) ∧
    (i.decForm = some (p, w, d) →
      ∃ t, exec i s = .next t ∧ s.Wrote t w p (a - 1) (s.bind i p d) ∧
        DifferenceFlags a 1 s.ctx.flags.cf s.ctx.flags t.ctx.flags ∧
        t.ctx.pc = s.npc i ∧ s.SameVregs t ∧ s.SameBlock t)

/-- MOV, all eight rows: the destination gets the source, no flag changes; a store needs `write` alone (R200,
R201, R202). -/
def Obligations.MovResult : Prop :=
  ∀ (s : State) (i : Instr) (f : IntForm), i.movForm = some f →
    f.src.readable s i f.pfx = true → (s.bind i f.pfx f.dst).writable s f.w = true →
    ∃ t, exec i s = .next t ∧
      s.Wrote t f.w f.pfx (s.sourceValue i f.pfx f.src) (s.bind i f.pfx f.dst) ∧
      t.ctx.flags = s.ctx.flags ∧ t.ctx.pc = s.npc i ∧ s.SameVregs t ∧ s.SameBlock t

/-- NOP completes in every state and changes the pc alone (R204). -/
def Obligations.NopResult : Prop :=
  ∀ (s : State) (p : Pfx),
    exec (.nop p) s = .next { s with ctx := { s.ctx with pc := s.npc (.nop p) } }

/-! ## Control transfers: target and frame (42_control_transfer.md) -/

/-- The relative JMP rows, and the thirty-two rows of Jcc, complete in every state and change the pc alone
(R230, R232). -/
def Obligations.RelativeJumps : Prop :=
  ∀ (s : State) (i : Instr),
    (∀ off, i.jmpForm = some off →
      exec i s = .next { s with ctx := { s.ctx with pc := s.npc i + off } }) ∧
    (∀ cc off, i.jccForm = some (cc, off) →
      exec i s = .next { s with ctx := { s.ctx with
        pc := if s.ctx.flags.holds cc then s.npc i + off else s.npc i } })

/-- JMP r/m64: where its operand can be read it completes, and the pc alone changes, to all 64 bits of the
operand (R231). -/
def Obligations.IndirectJump : Prop :=
  ∀ (s : State) (p : Pfx) (x : RM), (s.bind (.jmpRm p x) p x).readable s .w64 = true →
    exec (.jmpRm p x) s = .next { s with ctx := { s.ctx with
      pc := s.valueOf .w64 p (s.bind (.jmpRm p x) p x) } }

/-- CALL rel32 and CALL r/m64: `npc` is stored in the 8 bytes below RSP, RSP moves down by 8, and the pc goes to
the target, which an indirect call reads with the old RSP (R236, R237). -/
def Obligations.CallResult : Prop :=
  ∀ s : State, s.vmm.permits (s.reg rsp - 8) 8 .write = true →
    let pushed (i : Instr) (target : Word) (t : State) : Prop :=
      (∀ k, t.reg k = if k = rsp then s.reg rsp - 8 else s.reg k) ∧
      s.StoredAt t (s.reg rsp - 8) 8 (s.npc i) ∧ t.ctx.pc = target ∧
      t.ctx.flags = s.ctx.flags ∧ s.SameVregs t ∧ s.SameBlock t
    (∀ (p : Pfx) (v : BitVec 32), ∃ t, exec (.callRel32 p v) s = .next t ∧
      pushed (.callRel32 p v) (s.npc (.callRel32 p v) + v.signExtend 64) t) ∧
    (∀ (p : Pfx) (x : RM), (s.bind (.callRm p x) p x).readable s .w64 = true →
      ∃ t, exec (.callRm p x) s = .next t ∧
        pushed (.callRm p x) (s.valueOf .w64 p (s.bind (.callRm p x) p x)) t)

/-- RET: the pc gets the 8 bytes at RSP, RSP moves up by 8 (R238). -/
def Obligations.RetResult : Prop :=
  ∀ (s : State) (p : Pfx), s.vmm.permits (s.reg rsp) 8 .read = true →
    ∃ t, exec (.ret p) s = .next t ∧ t.ctx.pc = s.bytesAt (s.reg rsp) 8 ∧
      (∀ k, t.reg k = if k = rsp then s.reg rsp + 8 else s.reg k) ∧
      t.ctx.flags = s.ctx.flags ∧ s.SameBytes t ∧ s.SameVregs t ∧ s.SameBlock t

/-! ## Vector instructions: result and frame (43_vector.md) -/

/-- COMISS: the flags by the outcome of the comparison of the two low 32-bit values; no register value changes
(R252). -/
def Obligations.ComissResult : Prop :=
  ∀ (s : State) (p : Pfx) (r : Reg) (x : RM), (s.bind (.comiss p r x) p x).vreadable s 4 = true →
    let c := cmp32 ((s.val r).setWidth 32) (s.vvalueOf 4 (s.bind (.comiss p r x) p x))
    ∃ t, exec (.comiss p r x) s = .next t ∧
      t.ctx.flags = { cf := c == .unordered || c == .less, pf := c == .unordered, af := false,
                      zf := c == .unordered || c == .equal, sf := false, of := false,
                      df := s.ctx.flags.df } ∧
      t.ctx.pc = s.npc (.comiss p r x) ∧ s.SameRegs t ∧ s.SameVals t ∧ s.SameBytes t ∧ s.SameBlock t

/-- PADDQ: each 64-bit half of the destination gets the sum of the halves, on its own; bits 511:128 are kept
(R254, R251). -/
def Obligations.PaddqResult : Prop :=
  ∀ (s : State) (p : Pfx) (r : Reg) (x : RM), (s.bind (.paddq p r x) p x).vreadable s 16 = true →
    let a := (s.val r).setWidth 128
    let b : BitVec 128 := s.vvalueOf 16 (s.bind (.paddq p r x) p x)
    ∃ t, exec (.paddq p r x) s = .next t ∧
      s.VWrote t r ((a.extractLsb' 64 64 + b.extractLsb' 64 64) ++ (a.extractLsb' 0 64 + b.extractLsb' 0 64)) ∧
      t.ctx.flags = s.ctx.flags ∧ t.ctx.pc = s.npc (.paddq p r x) ∧
      s.SameRegs t ∧ s.SameBytes t ∧ s.SameBlock t

/-- The eight packed shifts by a register or memory count: every lane is shifted by the low 32 bits of the count
operand as they were before, 4 bytes where it is memory (R256, R258 to R266). -/
def Obligations.ShiftResult : Prop :=
  ∀ (s : State) (i : Instr) (p : Pfx) (kind : ShiftKind) (L : Nat) (r : Reg) (x : RM),
    i.shiftForm = some (p, kind, L, r, x) → (s.bind i p x).vreadable s 4 = true →
    let a := (s.val r).setWidth 128
    let c : BitVec 32 := s.vvalueOf 4 (s.bind i p x)
    ∃ (t : State) (v : BitVec 128), exec i s = .next t ∧ s.VWrote t r v ∧
      (∀ k < 128 / L, v.extractLsb' (L * k) L = kind.apply (a.extractLsb' (L * k) L) c) ∧
      t.ctx.flags = s.ctx.flags ∧ t.ctx.pc = s.npc i ∧ s.SameRegs t ∧ s.SameBytes t ∧ s.SameBlock t

/-- The eight packed shifts by an immediate count complete in every state (R256, R258 to R266). -/
def Obligations.ShiftImmediateResult : Prop :=
  ∀ (s : State) (i : Instr) (kind : ShiftKind) (L : Nat) (r : Reg) (imm : BitVec 8),
    i.shiftImmForm = some (kind, L, r, imm) →
    let a := (s.val r).setWidth 128
    ∃ (t : State) (v : BitVec 128), exec i s = .next t ∧ s.VWrote t r v ∧
      (∀ k < 128 / L, v.extractLsb' (L * k) L = kind.apply (a.extractLsb' (L * k) L) (imm.setWidth 32)) ∧
      t.ctx.flags = s.ctx.flags ∧ t.ctx.pc = s.npc i ∧ s.SameRegs t ∧ s.SameBytes t ∧ s.SameBlock t

/-- MOVSS, MOVSD, MOVDQU to a register: from a register, the low 32, 64 or 128 bits are replaced; from memory,
bits 127:0 are replaced by the bytes read, zero-extended (R270, R272, R274). -/
def Obligations.VectorLoadResult : Prop :=
  ∀ (s : State) (i : Instr) (p : Pfx) (n : Nat) (r : Reg) (x : RM),
    i.vloadForm = some (p, n, r, x) → (s.bind i p x).vreadable s n = true →
    ∃ t, exec i s = .next t ∧
      (∀ k, s.bind i p x = .reg k → s.VWrote t r ((s.val k).setWidth (8 * n))) ∧
      (∀ ea, s.bind i p x = .mem ea → s.VWrote t r ((s.bytesAt ea n).setWidth 128)) ∧
      t.ctx.flags = s.ctx.flags ∧ t.ctx.pc = s.npc i ∧ s.SameRegs t ∧ s.SameBytes t ∧ s.SameBlock t

/-- MOVSS, MOVSD, MOVDQU from a register: to a register, its low 32, 64 or 128 bits are replaced; to memory, the
4, 8 or 16 bytes at the effective address are (R271, R273, R275). -/
def Obligations.VectorStoreResult : Prop :=
  ∀ (s : State) (i : Instr) (p : Pfx) (n : Nat) (d : RM) (r : Reg),
    i.vstoreForm = some (p, n, d, r) → (s.bind i p d).vwritable s n = true →
    ∃ t, exec i s = .next t ∧
      (∀ k, s.bind i p d = .reg k → s.VWrote t k ((s.val r).setWidth (8 * n)) ∧ s.SameBytes t) ∧
      (∀ ea, s.bind i p d = .mem ea →
        s.SameVals t ∧ s.StoredAt t ea n ((s.val r).setWidth (8 * n))) ∧
      t.ctx.flags = s.ctx.flags ∧ t.ctx.pc = s.npc i ∧ s.SameRegs t ∧ s.SameBlock t

/-! ## Where an instruction faults (60_exceptions.md R302, R303, R309) -/

/-- ADD, SUB, INC, DEC: the first access that is not permitted, in the order destination read, source read,
destination write, ends the step with its own fault. -/
def Obligations.ArithmeticFaults : Prop :=
  ∀ (s : State) (i : Instr),
    (∀ f : IntForm, i.addForm = some f ∨ i.subForm = some f →
      (∀ ea, s.bind i f.pfx f.dst = .mem ea → s.vmm.permits ea f.w.bytes .read = false →
        exec i s = .fault (s.vmm.denied ea f.w.bytes .read)) ∧
      (∀ x ea, (s.bind i f.pfx f.dst).readable s f.w = true → f.src = .rm x → s.bind i f.pfx x = .mem ea →
        s.vmm.permits ea f.w.bytes .read = false → exec i s = .fault (s.vmm.denied ea f.w.bytes .read)) ∧
      (∀ ea, s.bind i f.pfx f.dst = .mem ea → s.vmm.permits ea f.w.bytes .read = true →
        f.src.readable s i f.pfx = true → s.vmm.permits ea f.w.bytes .write = false →
        exec i s = .fault (s.vmm.denied ea f.w.bytes .write))) ∧
    (∀ (p : Pfx) (w : Width) (d : RM) (ea : Word),
      i.incForm = some (p, w, d) ∨ i.decForm = some (p, w, d) → s.bind i p d = .mem ea →
      (s.vmm.permits ea w.bytes .read = false → exec i s = .fault (s.vmm.denied ea w.bytes .read)) ∧
      (s.vmm.permits ea w.bytes .read = true → s.vmm.permits ea w.bytes .write = false →
        exec i s = .fault (s.vmm.denied ea w.bytes .write)))

/-- CMP faults on a read alone; MOV faults on the read of its source, then on the write of its destination
(R178, R200, R202). -/
def Obligations.CompareMoveFaults : Prop :=
  ∀ (s : State) (i : Instr) (f : IntForm),
    (i.cmpForm = some f →
      (∀ ea, s.bind i f.pfx f.dst = .mem ea → s.vmm.permits ea f.w.bytes .read = false →
        exec i s = .fault (s.vmm.denied ea f.w.bytes .read)) ∧
      (∀ x ea, (s.bind i f.pfx f.dst).readable s f.w = true → f.src = .rm x → s.bind i f.pfx x = .mem ea →
        s.vmm.permits ea f.w.bytes .read = false → exec i s = .fault (s.vmm.denied ea f.w.bytes .read))) ∧
    (i.movForm = some f →
      (∀ x ea, f.src = .rm x → s.bind i f.pfx x = .mem ea → s.vmm.permits ea f.w.bytes .read = false →
        exec i s = .fault (s.vmm.denied ea f.w.bytes .read)) ∧
      (∀ ea, s.bind i f.pfx f.dst = .mem ea → f.src.readable s i f.pfx = true →
        s.vmm.permits ea f.w.bytes .write = false → exec i s = .fault (s.vmm.denied ea f.w.bytes .write)))

/-- JMP r/m64 and CALL r/m64 fault on the read of their operand; CALL, after it, on the push; RET on the pop
(R231, R236 to R238). -/
def Obligations.TransferFaults : Prop :=
  ∀ (s : State) (p : Pfx),
    (∀ x ea, s.bind (.jmpRm p x) p x = .mem ea → s.vmm.permits ea 8 .read = false →
      exec (.jmpRm p x) s = .fault (s.vmm.denied ea 8 .read)) ∧
    (∀ x ea, s.bind (.callRm p x) p x = .mem ea → s.vmm.permits ea 8 .read = false →
      exec (.callRm p x) s = .fault (s.vmm.denied ea 8 .read)) ∧
    (s.vmm.permits (s.reg rsp - 8) 8 .write = false →
      (∀ v, exec (.callRel32 p v) s = .fault (s.vmm.denied (s.reg rsp - 8) 8 .write)) ∧
      (∀ x, (s.bind (.callRm p x) p x).readable s .w64 = true →
        exec (.callRm p x) s = .fault (s.vmm.denied (s.reg rsp - 8) 8 .write))) ∧
    (s.vmm.permits (s.reg rsp) 8 .read = false →
      exec (.ret p) s = .fault (s.vmm.denied (s.reg rsp) 8 .read))

/-- A vector instruction with a memory operand that it may not read, or may not write, faults with the address
and the bytes of that operand (43_vector.md R252 to R275). -/
def Obligations.VectorFaults : Prop :=
  ∀ (s : State) (p : Pfx) (x : RM) (ea : Word),
    (∀ r, s.bind (.comiss p r x) p x = .mem ea → s.vmm.permits ea 4 .read = false →
      exec (.comiss p r x) s = .fault (s.vmm.denied ea 4 .read)) ∧
    (∀ r, s.bind (.paddq p r x) p x = .mem ea → s.vmm.permits ea 16 .read = false →
      exec (.paddq p r x) s = .fault (s.vmm.denied ea 16 .read)) ∧
    (∀ i kind L r, i.shiftForm = some (p, kind, L, r, x) → s.bind i p x = .mem ea →
      s.vmm.permits ea 4 .read = false → exec i s = .fault (s.vmm.denied ea 4 .read)) ∧
    (∀ i n r, i.vloadForm = some (p, n, r, x) → s.bind i p x = .mem ea →
      s.vmm.permits ea n .read = false → exec i s = .fault (s.vmm.denied ea n .read)) ∧
    (∀ i n r, i.vstoreForm = some (p, n, x, r) → s.bind i p x = .mem ea →
      s.vmm.permits ea n .write = false → exec i s = .fault (s.vmm.denied ea n .write))

/-! ## Memory (20_memory.md) -/

/-- Translation, on a table as R61 has it: it succeeds exactly where one segment covers all the bytes and allows
the kind; it is a `SegmentationFault` exactly where no segment covers them, whatever the permissions; so an
access across two segments, or past `2^64 - 1`, is one (R63, R70, R72, R73, R74). -/
def Obligations.Translation : Prop :=
  ∀ (m : Vmm) (a : Word) (n : Nat) (k : Access), m.tableWf →
    let covers (g : Segment) : Prop :=
      g.start.toNat ≤ a.toNat ∧ a.toNat < g.stop.toNat ∧ a.toNat + n ≤ g.stop.toNat
    (∀ g o, m.translate a n k = .ok (g, o) ↔
      g ∈ m.segs ∧ covers g ∧ g.perm.allows k = true ∧ o = a.toNat - g.start.toNat) ∧
    ((∀ g ∈ m.segs, ¬ covers g) → m.translate a n k = .error (.segmentationFault a n k)) ∧
    (∀ g ∈ m.segs, covers g → g.perm.allows k = false →
      m.translate a n k = .error (.accessViolation a n k)) ∧
    (∀ g ∈ m.segs, g.start.toNat ≤ a.toNat → a.toNat < g.stop.toNat → g.stop.toNat < a.toNat + n →
      m.translate a n k = .error (.segmentationFault a n k)) ∧
    (2 ^ 64 ≤ a.toNat + n → m.translate a n k = .error (.segmentationFault a n k))

/-- Round trip at every supported width, and `AccessViolation` where the covering segment lacks the permission
(R87). -/
def Obligations.RoundTrip : Prop :=
  ∀ (s : State) (g : Segment) (a : Word) (n : Nat) (v : BitVec (8 * n)), s.vmm.tableWf →
    n ∈ [1, 2, 4, 8, 16] → g ∈ s.vmm.segs → g.start.toNat ≤ a.toNat → a.toNat + n ≤ g.stop.toNat →
    (g.perm.write = true → g.perm.read = true →
      ∃ t, s.memWrite a n v = .ok t ∧ t.memRead a n = .ok v) ∧
    (g.perm.write = false → s.memWrite a n v = .error (.accessViolation a n .write)) ∧
    (g.perm.read = false → s.memRead a n = .error (.accessViolation a n .read))

/-- Little-endian, seen by a narrower read: `m` bytes at `a + j` are bits `8j` and up of what a wider read at `a`
answers (R83, R80). That widths other than 1, 2, 4, 8 and 16 read alike is the model's choice, log 23. -/
def Obligations.NarrowRead : Prop :=
  ∀ (s : State) (a : Word) (n j m : Nat) (v : BitVec (8 * n)), s.vmm.tableWf → s.memRead a n = .ok v →
    1 ≤ m → j + m ≤ n → s.memRead (a + BitVec.ofNat 64 j) m = .ok (v.extractLsb' (8 * j) (8 * m))

/-! ## Addresses and widths (30_encoding.md) -/

/-- The effective address of each address form, from integers modulo `2^64`: the segment base, the index times 1, 2, 4
or 8, the displacement signed (R127, R130, R131, R140, R141). The segment base is `FS_BASE` under `64`, `GS_BASE`
under `65`, and 0 under no segment byte or any other, by the row's prefixes and by the bytes decoded (R115, R142). -/
def Obligations.EffectiveAddress : Prop :=
  ∀ (c : Context) (npc : Word) (p : Pfx),
    let disp (d : Option Disp) : Int := match d with
      | none => 0
      | some (.d8 v) => v.toInt
      | some (.d32 v) => v.toInt
    let index (idx : Option Reg) (scale : BitVec 2) : Int := match idx with
      | none => 0
      | some i => (c.reg i).toNat * 2 ^ scale.toNat
    (∀ b d, effectiveAddress c npc p (.base b d)
      = BitVec.ofInt 64 (p.segBase.toNat + (c.reg b).toNat + disp d)) ∧
    (∀ b idx sc d, effectiveAddress c npc p (.sib b idx sc d)
      = BitVec.ofInt 64 (p.segBase.toNat + (c.reg b).toNat + index idx sc + disp d)) ∧
    (∀ idx sc d, effectiveAddress c npc p (.sibNoBase idx sc d)
      = BitVec.ofInt 64 (p.segBase.toNat + index idx sc + d.toInt)) ∧
    (∀ d, effectiveAddress c npc p (.npcRel d)
      = BitVec.ofInt 64 (p.segBase.toNat + npc.toNat + d.toInt)) ∧
    (p.seg = some .fs → p.segBase = Config.fsBase) ∧ (p.seg = some .gs → p.segBase = Config.gsBase) ∧
    (p.seg ≠ some .fs → p.seg ≠ some .gs → p.segBase = 0) ∧
    (∀ (pre bs : List Byte) (b : Byte) (i : Instr) (rest : List Byte), AllLegacy pre →
      b ∉ legacyKinds.flatten → decode (pre ++ b :: bs) = .ok i rest →
      i.layout.pfx.segBase = if 0x64 ∈ pre then Config.fsBase else if 0x65 ∈ pre then Config.gsBase else 0)

/-- The width of a "v" row, and the value of an immediate of the size that the width selects (R132, R133). -/
def Obligations.WidthsAndImmediates : Prop :=
  (∀ (seg : Option Seg) (opsize : Bool),
    Pfx.width ⟨opsize, seg, some true⟩ = .w64 ∧
    (∀ rex, rex ≠ some true → Pfx.width ⟨true, seg, rex⟩ = .w16 ∧ Pfx.width ⟨false, seg, rex⟩ = .w32)) ∧
  (∀ (v : BitVec 16) (u : BitVec 32) (x : BitVec 64),
    (Iz.i16 v).value .w16 = v ∧ (Iz.i32 u).value .w32 = u ∧ (Iz.i32 u).value .w64 = u.signExtend 64 ∧
    (Iv.i16 v).value .w16 = v ∧ (Iv.i32 u).value .w32 = u ∧ (Iv.i64 x).value .w64 = x)

/-! ## Vector registers and lanes (10_state.md R42 to R54, 43_vector.md R253 to R257) -/

/-- The tag is not observable: every sequence of the eight operations answers what one 512-bit number answers,
and leaves the value that number holds (R53, which the spec derives from R42 to R52). -/
def Obligations.TagNotObservable : Prop :=
  ∀ (os : List VOp) (r : VReg),
    (VOp.run VOp.onReg os r).1 = (VOp.run VOp.onValue os r.val).1 ∧
    (VOp.run VOp.onReg os r).2.val = (VOp.run VOp.onValue os r.val).2

/-- The transition table of the tag; where it says M, the raw vector becomes the value first (R54, the spec's
own reading of R44). -/
def Obligations.TagTable : Prop :=
  ∀ (r : VReg) (a : BitVec 128) (b : BitVec 32) (c : BitVec 64) (d : Wide),
    (r.readRaw.2.tag = .raw ∧ r.readRaw.2.raw = r.val) ∧
    (r.readWide.2.tag = .raw ∧ r.readWide.2.raw = r.val) ∧
    (r.tag ≠ .f32 → r.readF32.2.tag = .raw ∧ r.readF32.2.raw = r.val) ∧ (r.tag = .f32 → r.readF32.2 = r) ∧
    (r.tag ≠ .f64 → r.readF64.2.tag = .raw ∧ r.readF64.2.raw = r.val) ∧ (r.tag = .f64 → r.readF64.2 = r) ∧
    (r.writeRaw a).tag = .raw ∧ (r.writeWide d).tag = .raw ∧
    (r.writeF32 b).tag = .f32 ∧ (r.writeF32 b).raw = (if r.tag = .f64 then r.val else r.raw) ∧
    (r.writeF64 c).tag = .f64 ∧ (r.writeF64 c).raw = (if r.tag = .f32 then r.val else r.raw)

/-- The three shift kinds on one lane, from integers; a count of 0 changes nothing (R257). -/
def Obligations.ShiftKinds : Prop :=
  ∀ (L : Nat) (x : BitVec L) (c : BitVec 32), 1 ≤ L →
    (ShiftKind.sll.apply x c).toNat = (if L ≤ c.toNat then 0 else x.toNat * 2 ^ c.toNat % 2 ^ L) ∧
    (ShiftKind.srl.apply x c).toNat = (if L ≤ c.toNat then 0 else x.toNat / 2 ^ c.toNat) ∧
    (ShiftKind.sra.apply x c).toNat = (if L ≤ c.toNat then (if x.msb then 2 ^ L - 1 else 0)
      else ((x.toInt / (2 : Int) ^ c.toNat) % (2 : Int) ^ L).toNat) ∧
    ∀ kind : ShiftKind, kind.apply x 0 = x

/-- Packed shifts act on each lane of width 16, 32 or 64 by itself, all by the same count (R255). -/
def Obligations.PackedLanes : Prop :=
  ∀ (kind : ShiftKind) (L : Nat) (a : BitVec 128) (c : BitVec 32) (k : Nat),
    L ∈ [16, 32, 64] → k < 128 / L →
    (packedShift kind L a c).extractLsb' (L * k) L = kind.apply (a.extractLsb' (L * k) L) c

/-- `Cmp32` compares the values of the two patterns as numbers, with NaN unordered (R253). -/
def Obligations.CompareValues : Prop :=
  ∀ a b : BitVec 32,
    (cmp32 a b = .unordered ↔ nan32 a ∨ nan32 b) ∧
    (cmp32 a b = .less ↔ ¬ nan32 a ∧ ¬ nan32 b ∧ value32 a < value32 b) ∧
    (cmp32 a b = .greater ↔ ¬ nan32 a ∧ ¬ nan32 b ∧ value32 b < value32 a) ∧
    (cmp32 a b = .equal ↔ ¬ nan32 a ∧ ¬ nan32 b ∧ value32 a = value32 b)

/-! ## The whole machine -/

/-- Every step keeps the invariant: a table of segments as R61 has them, listed in the order of their starts, and
storage in canonical form, inside segments (20_memory.md R61, R65). The order of the starts is the model's own and not
R61's, log 16; so is the canonical form, log 5. -/
def Obligations.StepKeepsInvariant : Prop :=
  ∀ s t : State, s.Inv → step s = .next t → t.Inv

/-- The block after reset, with any number of contexts, has the invariant, no segment, and every tag RAW
(10_state.md R58). That `State.reset` has one context is the model's choice, log 9. -/
def Obligations.ResetState : Prop :=
  ∀ n : Nat, (State.resetWith n).Inv ∧ (State.resetWith n).vmm.segs = [] ∧
    (State.resetWith n).parked.length = n ∧
    (∀ c, c = (State.resetWith n).ctx ∨ c ∈ (State.resetWith n).parked → ∀ k, (c.vreg k).tag = .raw) ∧
    State.reset = State.resetWith 0

/-- No step changes the segment table, the other contexts, DF, or a bit above 127 of a vector register
(60_exceptions.md R314, R322, 10_state.md R31, 43_vector.md R251); nor the fill counter, which is the model's own
(log 6). -/
def Obligations.StepFrame : Prop :=
  ∀ s t : State, step s = .next t →
    s.SameBlock t ∧ t.ctx.flags.df = s.ctx.flags.df ∧
    ∀ k j, 128 ≤ j → (t.val k).getLsbD j = (s.val k).getLsbD j

/-- A byte changes only inside the bytes its instruction stores to, in a segment that allows writing
(20_memory.md R70, R71, R85). -/
def Obligations.OnlyWritableBytesChange : Prop :=
  (∀ (s t : State) (i : Instr) (a : Word), exec i s = .next t → t.byteAt a ≠ s.byteAt a →
    ∃ b n, s.storeOf i = some (b, n) ∧ (a - b).toNat < n) ∧
  (∀ (s t : State) (a : Word), step s = .next t → t.byteAt a ≠ s.byteAt a →
    ∃ g ∈ s.vmm.segs, g.contains a = true ∧ g.perm.write = true)

/-- Only ADD, SUB, CMP, INC, DEC and COMISS change a flag, and INC and DEC keep CF (10_state.md R31). -/
def Obligations.FlagWriters : Prop :=
  ∀ (s t : State) (i : Instr), exec i s = .next t →
    (i.writesFlags = false → t.ctx.flags = s.ctx.flags) ∧
    (i.incForm.isSome = true ∨ i.decForm.isSome = true → t.ctx.flags.cf = s.ctx.flags.cf)

/-- Only JMP, Jcc, CALL and RET set the pc to anything but the next sequential address (42_control_transfer.md
R222, R224). -/
def Obligations.SequentialPc : Prop :=
  ∀ (s t : State) (i : Instr), exec i s = .next t → i.endsBlock = false →
    t.ctx.pc = s.ctx.pc + BitVec.ofNat 64 i.length

/-- No instruction is refused, and no step is: it advances or it faults (42_control_transfer.md R220,
30_encoding.md R155). -/
def Obligations.NeverRefused : Prop :=
  (∀ (s : State) (i : Instr) (r : Refusal), exec i s ≠ .refused r) ∧
  (∀ (s : State) (r : Refusal), step s ≠ .refused r)

/-- Bytes that no segment lets the program read or execute do not influence it: two states that differ in such
bytes only fault alike, or advance to states that differ in such bytes only (20_memory.md R70, R71). -/
def Obligations.UnreadableBytesAreSecret : Prop :=
  ∀ s t : State, s.Agree t →
    (∀ f, step s = .fault f → step t = .fault f) ∧
    (∀ s', step s = .next s' → ∃ t', step t = .next t' ∧ s'.Agree t')

/-! ## Commands of the caller (20_memory.md R92 to R99, 60_exceptions.md R320) -/

/-- `allocate`, whatever the policy and the fill: it fails where the size is 0 or no range fits, and otherwise
inserts one new read-write segment of the rounded size in a range that fits (R92). That the contents are
`fill m.fills a`, counted by fills, is the model's own form of `ALLOC_FILL`, log 6. -/
def Obligations.AllocateOutcome : Prop :=
  ∀ (policy : List (Nat × Nat) → Nat → Nat) (fill : Nat → Nat → Byte) (m : Vmm) (size : Word)
    (name : String) (sz : Nat),
    m.wf → sz % 4096 = 0 → size.toNat ≤ sz → sz < size.toNat + 4096 →
    (size = 0 ∨ (∀ b, ¬ m.Fits sz b) → m.allocateWith policy fill size name = .error .outOfAddressSpace) ∧
    (size ≠ 0 → (∃ b, m.Fits sz b) → ∃ g m', m.allocateWith policy fill size name = .ok (g, m') ∧
      m.Fits sz g.start.toNat ∧ g.stop.toNat = g.start.toNat + sz ∧
      g.perm = { read := true, write := true, execute := false } ∧ g.offset = 0 ∧ g.name = name ∧
      (∀ h, h ∈ m'.segs ↔ h = g ∨ h ∈ m.segs) ∧
      ∀ a : Word, Memory.read m'.bytes a.toNat
        = if g.contains a then fill m.fills a.toNat else Memory.read m.bytes a.toNat)

/-- `map` refuses an empty, misaligned or overlapping segment and otherwise inserts it with the bytes supplied;
`unmap` removes the segment that starts at the address, and fails where none does (R93, R94). Where the bytes supplied
are fewer or more than the segment's, that `map` succeeds all the same and ignores the excess is the model's own
choice, log 15. -/
def Obligations.MapUnmapOutcome : Prop :=
  ∀ m : Vmm, m.wf →
    (∀ (g : Segment) (data : List Byte),
      (¬ g.wf ∨ (∃ h ∈ m.segs, h.start.toNat < g.stop.toNat ∧ g.start.toNat < h.stop.toNat) →
        m.map g data = .error .outOfAddressSpace) ∧
      (g.wf → (∀ h ∈ m.segs, h.stop.toNat ≤ g.start.toNat ∨ g.stop.toNat ≤ h.start.toNat) →
        ∃ m', m.map g data = .ok m' ∧ (∀ h, h ∈ m'.segs ↔ h = g ∨ h ∈ m.segs) ∧
          (∀ j, (hj : j < data.length) → g.start.toNat + j < g.stop.toNat →
            Memory.read m'.bytes (g.start.toNat + j) = data[j]) ∧
          ∀ a : Word, g.contains a = false → Memory.read m'.bytes a.toNat = Memory.read m.bytes a.toNat)) ∧
    (∀ a : Word,
      ((∀ g ∈ m.segs, g.start ≠ a) → m.unmap a = .error .notMapped) ∧
      (∀ g ∈ m.segs, g.start = a → ∃ m', m.unmap a = .ok m' ∧
        (∀ h, h ∈ m'.segs ↔ h ∈ m.segs ∧ h ≠ g) ∧
        ∀ b : Word, g.contains b = false → Memory.read m'.bytes b.toNat = Memory.read m.bytes b.toNat))

/-- `protect`: length 0 changes nothing; a range that leaves the mapped addresses, or reaches the last page, is
an `AccessViolation`; otherwise exactly the pages of the range get the permissions, no byte changes, and each
segment is cut into pieces that carry its name and its offset moved with the start (R95, and the spec's own reading in
R96). -/
def Obligations.ProtectOutcome : Prop :=
  ∀ (m : Vmm) (a len : Word) (p : Perm) (lo hi : Nat), m.wf →
    lo % 4096 = 0 → lo ≤ a.toNat → a.toNat < lo + 4096 →
    hi % 4096 = 0 → a.toNat + len.toNat ≤ hi → hi < a.toNat + len.toNat + 4096 →
    (len = 0 → m.protect a len p = .ok m) ∧
    (len ≠ 0 → (2 ^ 64 - 4096 < hi ∨ ∃ x, lo ≤ x ∧ x < hi ∧
        ∀ g ∈ m.segs, ¬ (g.start.toNat ≤ x ∧ x < g.stop.toNat)) →
      ∃ b n, m.protect a len p = .error (.accessViolation b n)) ∧
    (len ≠ 0 → hi ≤ 2 ^ 64 - 4096 →
      (∀ x, lo ≤ x → x < hi → ∃ g ∈ m.segs, g.start.toNat ≤ x ∧ x < g.stop.toNat) →
      ∃ m', m.protect a len p = .ok m' ∧ m'.bytes = m.bytes ∧
        (∀ x : Word, (m'.lookup x).map Segment.perm
          = if lo ≤ x.toNat ∧ x.toNat < hi then some p else (m.lookup x).map Segment.perm) ∧
        ∀ q : Segment, q ∈ m'.segs ↔ ∃ g ∈ m.segs,
          (g.stop.toNat ≤ lo ∨ hi ≤ g.start.toNat) ∧ q = g ∨
          (g.start.toNat < hi ∧ lo < g.stop.toNat) ∧
            q.name = g.name ∧ q.offset = g.offset + (q.start - g.start) ∧
            (g.start.toNat < lo ∧ q.start = g.start ∧ q.stop.toNat = lo ∧ q.perm = g.perm ∨
              q.start.toNat = max g.start.toNat lo ∧ q.stop.toNat = min g.stop.toNat hi ∧ q.perm = p ∨
              hi < g.stop.toNat ∧ q.start.toNat = hi ∧ q.stop = g.stop ∧ q.perm = g.perm))

/-- Every command, and every event of the block at the grain of single accesses, keeps the table of segments as R61
has them, listed in the order of their starts, and storage in canonical form, inside segments (R61, R65). The order of
the starts is the model's own and not R61's, log 16; so is the canonical form, log 5, the list of contexts of a
`Block`, log 22, and that its data interface takes widths other than 1, 2, 4, 8 and 16, log 23. -/
def Obligations.CommandsKeepInvariant : Prop :=
  (∀ m : Vmm, m.wf →
    (∀ policy fill size name g m', m.allocateWith policy fill size name = .ok (g, m') → m'.wf) ∧
    (∀ g data m', m.map g data = .ok m' → m'.wf) ∧
    (∀ a m', m.unmap a = .ok m' → m'.wf) ∧
    (∀ a len p m', m.protect a len p = .ok m' → m'.wf)) ∧
  ∀ (b : Block) (e : Event), b.vmm.wf → (b.on e).1.vmm.wf

/-- `pageStart` clears the low 12 bits; `roundToPageSize` answers the least multiple of 4096 that is no less,
modulo `2^64` (R98, R99). -/
def Obligations.PageArithmetic : Prop :=
  ∀ a : Word,
    (∀ j, (pageStart a).getLsbD j = (decide (12 ≤ j) && a.getLsbD j)) ∧
    ∃ q : Nat, a.toNat ≤ q * 4096 ∧ (∀ q', a.toNat ≤ q' * 4096 → q ≤ q') ∧
      (roundToPageSize a).toNat = q * 4096 % 2 ^ 64

/-- A snapshot is the pc, the registers, the flags and every vector value; taking it makes every tag RAW and
changes no value, no register and no memory (60_exceptions.md R320). -/
def Obligations.SnapshotExport : Prop :=
  ∀ s : State,
    s.snapshot.1.pc = s.ctx.pc ∧ s.snapshot.1.x = s.ctx.x ∧ s.snapshot.1.flags = s.ctx.flags ∧
    (∀ k : Reg, s.snapshot.1.v[k.toNat]'(k.isLt) = s.val k) ∧
    (∀ k, (s.snapshot.2.vreg k).tag = .raw) ∧ s.SameVals s.snapshot.2 ∧
    s.snapshot.2.ctx.pc = s.ctx.pc ∧ s.snapshot.2.ctx.x = s.ctx.x ∧
    s.snapshot.2.ctx.flags = s.ctx.flags ∧ s.snapshot.2.vmm = s.vmm ∧ s.snapshot.2.parked = s.parked

/-- Contexts share the memory manager and nothing else (60_exceptions.md R322, R323). Choosing another context
exchanges it with the one that steps: registers, pc, flags and vector bank go with it. An event of the block touches
no context but the one it is about, and the segment table only as a command; a context inside a step has the registers
from before it until the step advances, and a use of its register port or a snapshot of it is refused. The model's own
choices in this: the list of parked contexts, log 9, and the `Block`, log 22; that its data interface takes widths other
than 1, 2, 4, 8 and 16, log 23; that such a request is refused and changes
nothing, where R323 says only that it is not modelled, log 19 (with 93_implementation_defined.md U12); and that a context
whose access faults is as before to the tags of its vector registers, where R300 leaves a materialization free, log 13. -/
def Obligations.ContextsAreSeparate : Prop :=
  (∀ (s : State) (k : Nat),
    (s.parked.length ≤ k → s.select k = none) ∧
    (∀ c, s.parked[k]? = some c → ∃ t, s.select k = some t ∧ t.ctx = c ∧ t.vmm = s.vmm ∧
      t.parked.length = s.parked.length ∧
      ∀ j, t.parked[j]? = if j = k then some s.ctx else s.parked[j]?)) ∧
  ∀ (b : Block) (e : Event),
    (∀ j, j < b.cpus.length → e.subject ≠ some j → (b.on e).1.cpus[j]? = b.cpus[j]?) ∧
    (e.isCommand = false → (b.on e).1.vmm.segs = b.vmm.segs) ∧
    (∀ k c g, b.cpus[k]? = some ⟨c, some g⟩ →
      ((b.on (.access k)).2 ≠ .advanced → ((b.on (.access k)).1.cpus[k]?).map Cpu.ctx = some c) ∧
      (∀ c', b.on (.registers k c') = (b, .refused)) ∧ b.on (.snapshot k) = (b, .refused))

/-! ## Steps at the grain of single accesses (20_memory.md R101, R102, R105, 70_reset_and_hazards.md R335) -/

/-- A step is its accesses: fetches of one byte, reads and a store, at most 17 in all and each an event of its own, made
with nothing in between, come to what `step` answers (20_memory.md R101, R105, R106, 60_exceptions.md R300). The
`Block` is the model's form, log 22. That after a fault the block is as before to the tags of the vector registers is the
model's choice, log 13: R300 (with 93_implementation_defined.md U13) keeps the values and leaves it free whether a
materialization made before the fault is kept. -/
def Obligations.StepIsItsAccesses : Prop :=
  ∀ s : State, s.block.finishStep 0 17 = match step s with
    | .next t => (t.block, .advanced)
    | .fault f => (s.block, .fault f)
    | .refused _ => (s.block, .refused)

/-- A read-modify-write is two accesses and not one (20_memory.md R102): ADD, SUB, INC or DEC on memory reads, and
then, whatever block `b'` the others have made of it in between, bytes and segment table alike, stores the result
computed from the value it read and advances with its flags, all else kept, or faults where the table of that moment
forbids the store (70_reset_and_hazards.md R335). The `Block` is the model's form, log 22. -/
def Obligations.ReadThenWrite : Prop :=
  ∀ (b b' : Block) (k : Nat) (c : Context) (i : Instr) (p : Pfx) (w : Width) (d : RM) (ea : Word)
    (r : BitVec w.bits) (fl : Flags),
    b.cpus[k]? = some ⟨c, some (.execute i [])⟩ → c.bind i p d = .mem ea →
    b.vmm.permits ea w.bytes .read = true →
    let a : BitVec w.bits := (b.seenBy c).bytesAt ea w.bytes
    ((∃ src, i.addForm = some ⟨p, w, d, src⟩ ∧ r = a + (b.seenBy c).sourceValue i p src ∧
        fl = AluOp.add.flags a ((b.seenBy c).sourceValue i p src) c.flags) ∨
      (∃ src, i.subForm = some ⟨p, w, d, src⟩ ∧ r = a - (b.seenBy c).sourceValue i p src ∧
        fl = AluOp.sub.flags a ((b.seenBy c).sourceValue i p src) c.flags) ∨
      (i.incForm = some (p, w, d) ∧ r = a + 1 ∧ fl = AluOp.add.flagsKeepCarry a c.flags) ∨
      (i.decForm = some (p, w, d) ∧ r = a - 1 ∧ fl = AluOp.sub.flagsKeepCarry a c.flags)) →
    let paused : Cpu := ⟨c, some (.execute i [.value (a.setWidth 128)])⟩
    b.access k = ({ b with cpus := b.cpus.set k paused }, .done) ∧
    (b'.cpus[k]? = some paused →
      (b'.vmm.permits ea w.bytes .write = true → ∃ m,
        b'.access k = ({ vmm := m, cpus := b'.cpus.set k ⟨{ c with flags := fl, pc := c.npc i }, none⟩ },
          .advanced) ∧
        m.segs = b'.vmm.segs ∧ m.fills = b'.vmm.fills ∧
        (b'.seenBy c).StoredAt ⟨c, m, []⟩ ea w.bytes r) ∧
      (b'.vmm.permits ea w.bytes .write = false →
        b'.access k = ({ b' with cpus := b'.cpus.set k ⟨c, none⟩ },
          .fault (b'.vmm.denied ea w.bytes .write))))
end

