-- ==== Sys2Proof/Laws/Act.lean ====
section
/-! SUPPORT. The shared operations of the meanings as whole steps of a state: each is its accesses performed with
nothing in between, and `_eq` says it as a sequence of reads and writes of the state. -/

namespace Sys2Proof.Machine

/-! ## Performing accesses -/

theorem State.attempt_done (s : State) (c : Context) : s.attempt (.done c) = .ok (s.setCtx c) := rfl

theorem State.attempt_read (s : State) (a : Word) (n : Nat) (k : BitVec (8 * n) → Act) :
    s.attempt (.read a n k) = s.memRead a n >>= fun v => s.attempt (k v) := by
  simp only [State.attempt, Act.run, State.memRead]
  cases s.vmm.memRead a n <;> rfl

theorem State.attempt_write (s : State) (a : Word) (n : Nat) (v : BitVec (8 * n)) (x : Act) :
    s.attempt (.write a n v x) = s.memWrite a n v >>= fun t => t.attempt x := by
  simp only [State.attempt, Act.run, State.memWrite]
  cases s.vmm.memWrite a n v <;> rfl

/-! ## Operands -/

/-- `Rd(op)` of an r/m operand in a state (30_encoding.md R146). -/
def State.rd (s : State) (w : Width) (p : Pfx) : Loc → Except Fault (BitVec w.bits)
  | .reg n => .ok (s.ctx.view w n p.rex.isSome)
  | .mem ea => s.memRead ea w.bytes

/-- `Wr(op, v)` in a state (R146). -/
def State.wr (s : State) (w : Width) (p : Pfx) (l : Loc) (v : BitVec w.bits) : Except Fault State :=
  match l with
  | .reg n => .ok (s.setCtx (s.ctx.setView w n p.rex.isSome v))
  | .mem ea => s.memWrite ea w.bytes v

/-- `Rd(s)` of a source in a state (R146). -/
def State.rdSource (s : State) (i : Instr) (w : Width) (p : Pfx) : Source w → Except Fault (BitVec w.bits)
  | .rm x => s.rd w p (s.bind i p x)
  | .imm v => .ok v

/-- A vector r/m operand read in a state (43_vector.md R250). -/
def State.vsource (s : State) (i : Instr) (p : Pfx) (x : RM) (n : Nat)
    (f : VReg → BitVec (8 * n) × VReg) : Except Fault (BitVec (8 * n) × State) :=
  match s.bind i p x with
  | .reg k => .ok (s.vread f k)
  | .mem ea => s.memRead ea n >>= fun v => .ok (v, s)

theorem State.attempt_rd (s : State) (w : Width) (p : Pfx) (l : Loc) (k : BitVec w.bits → Act) :
    s.attempt (s.ctx.rd w p l k) = s.rd w p l >>= fun v => s.attempt (k v) := by
  cases l with
  | reg n => rfl
  | mem ea => exact s.attempt_read ea w.bytes k

theorem State.attempt_rdSource (s : State) (i : Instr) (w : Width) (p : Pfx) (x : Source w)
    (k : BitVec w.bits → Act) :
    s.attempt (s.ctx.rdSource i w p x k) = s.rdSource i w p x >>= fun v => s.attempt (k v) := by
  cases x with
  | rm x => exact s.attempt_rd w p _ k
  | imm v => rfl

theorem State.attempt_wr (s : State) (w : Width) (p : Pfx) (l : Loc) (v : BitVec w.bits)
    (k : Context → Act) :
    s.attempt (s.ctx.wr w p l v k) = s.wr w p l v >>= fun t => t.attempt (k t.ctx) := by
  cases l with
  | reg n => rfl
  | mem ea =>
    simp only [Context.wr, State.wr, State.attempt_write, State.memWrite]
    cases s.vmm.memWrite ea w.bytes v <;> rfl

theorem State.attempt_vsource (s : State) (i : Instr) (p : Pfx) (x : RM) (n : Nat)
    (f : VReg → BitVec (8 * n) × VReg) (k : BitVec (8 * n) → Context → Act) :
    s.attempt (s.ctx.vsource i p x n f k) = s.vsource i p x n f >>= fun y => y.2.attempt (k y.1 y.2.ctx) := by
  unfold Context.vsource State.vsource State.bind
  cases s.ctx.bind i p x with
  | reg m => rfl
  | mem ea =>
    simp only [State.attempt_read]
    cases s.memRead ea n <;> rfl

/-- The same after a read of a vector register. -/
theorem State.attempt_vsource_after {α : Type} (s : State) (g : VReg → α × VReg) (r : Reg) (i : Instr)
    (p : Pfx) (x : RM) (n : Nat) (f : VReg → BitVec (8 * n) × VReg) (k : BitVec (8 * n) → Context → Act) :
    s.attempt ((s.ctx.vread g r).2.vsource i p x n f k)
      = (s.vread g r).2.vsource i p x n f >>= fun y => y.2.attempt (k y.1 y.2.ctx) :=
  (s.vread g r).2.attempt_vsource i p x n f k

/-! ## Integer operations (Machine/Arith.lean, Machine/Move.lean) -/

/-- `Context.aluStore` as a whole step. -/
def State.aluStore (s : State) (i : Instr) (p : Pfx) (op : AluOp) (w : Width) (d : RM) (src : Source w) :
    Result := s.perform (s.ctx.aluStore i p op w d src)

theorem State.aluStore_eq (s : State) (i : Instr) (p : Pfx) (op : AluOp) (w : Width) (d : RM) (src : Source w) :
    s.aluStore i p op w d src = finish (s.rd w p (s.bind i p d) >>= fun a => s.rdSource i w p src >>= fun b =>
      s.wr w p (s.bind i p d) (op.result a b) >>= fun t =>
      .ok ((t.setFlags (op.flags a b s.ctx.flags)).setPc (s.npc i))) := by
  simp only [State.aluStore, State.perform, Context.aluStore, State.attempt_rd, State.attempt_rdSource,
    State.attempt_wr]
  rfl

/-- `Context.aluCompare` as a whole step. -/
def State.aluCompare (s : State) (i : Instr) (p : Pfx) (w : Width) (d : RM) (src : Source w) : Result :=
  s.perform (s.ctx.aluCompare i p w d src)

theorem State.aluCompare_eq (s : State) (i : Instr) (p : Pfx) (w : Width) (d : RM) (src : Source w) :
    s.aluCompare i p w d src = finish (s.rd w p (s.bind i p d) >>= fun a => s.rdSource i w p src >>= fun b =>
      .ok ((s.setFlags (AluOp.sub.flags a b s.ctx.flags)).setPc (s.npc i))) := by
  simp only [State.aluCompare, State.perform, Context.aluCompare, State.attempt_rd, State.attempt_rdSource]
  rfl

/-- `Context.aluStep` as a whole step. -/
def State.aluStep (s : State) (i : Instr) (p : Pfx) (op : AluOp) (w : Width) (d : RM) : Result :=
  s.perform (s.ctx.aluStep i p op w d)

theorem State.aluStep_eq (s : State) (i : Instr) (p : Pfx) (op : AluOp) (w : Width) (d : RM) :
    s.aluStep i p op w d = finish (s.rd w p (s.bind i p d) >>= fun a =>
      s.wr w p (s.bind i p d) (op.result a 1) >>= fun t =>
      .ok ((t.setFlags (op.flagsKeepCarry a s.ctx.flags)).setPc (s.npc i))) := by
  simp only [State.aluStep, State.perform, Context.aluStep, State.attempt_rd, State.attempt_wr]
  rfl

/-- `Context.move` as a whole step. -/
def State.move (s : State) (i : Instr) (p : Pfx) (w : Width) (d : RM) (src : Source w) : Result :=
  s.perform (s.ctx.move i p w d src)

theorem State.move_eq (s : State) (i : Instr) (p : Pfx) (w : Width) (d : RM) (src : Source w) :
    s.move i p w d src = finish (s.rdSource i w p src >>= fun v => s.wr w p (s.bind i p d) v >>= fun t =>
      .ok (t.setPc (s.npc i))) := by
  simp only [State.move, State.perform, Context.move, State.attempt_rdSource, State.attempt_wr]
  rfl

/-! ## Control transfers (Machine/Control.lean) -/

/-- `Context.jumpTo` as a whole step. -/
def State.jumpTo (s : State) (i : Instr) (p : Pfx) (x : RM) : Result := s.perform (s.ctx.jumpTo i p x)

theorem State.jumpTo_eq (s : State) (i : Instr) (p : Pfx) (x : RM) :
    s.jumpTo i p x = finish (s.rd .w64 p (s.bind i p x) >>= fun v => .ok (s.setPc v)) := by
  simp only [State.jumpTo, State.perform, Context.jumpTo, State.attempt_rd]
  rfl

/-- The push and the transfer of a call, in a state. -/
def State.pushAndGo (s : State) (i : Instr) (target : Word) : Except Fault State :=
  s.memWrite (s.reg rsp - 8) 8 (s.npc i) >>= fun t => .ok ((t.setReg rsp (s.reg rsp - 8)).setPc target)

theorem State.attempt_pushAndGo (s : State) (i : Instr) (target : Word) :
    s.attempt (s.ctx.pushAndGo i target) = s.pushAndGo i target := by
  simp only [Context.pushAndGo, State.attempt_write, State.pushAndGo, State.memWrite, State.reg, State.npc]
  cases s.vmm.memWrite (s.ctx.reg rsp - 8) 8 (s.ctx.npc i) <;> rfl

/-- `Context.callRel` as a whole step. -/
def State.callRel (s : State) (i : Instr) (off : Word) : Result := s.perform (s.ctx.callRel i off)

theorem State.callRel_eq (s : State) (i : Instr) (off : Word) :
    s.callRel i off = finish (s.pushAndGo i (s.npc i + off)) := by
  simp only [State.callRel, State.perform, Context.callRel, State.attempt_pushAndGo, State.npc]

/-- `Context.callTo` as a whole step. -/
def State.callTo (s : State) (i : Instr) (p : Pfx) (x : RM) : Result := s.perform (s.ctx.callTo i p x)

theorem State.callTo_eq (s : State) (i : Instr) (p : Pfx) (x : RM) :
    s.callTo i p x = finish (s.rd .w64 p (s.bind i p x) >>= fun v => s.pushAndGo i v) := by
  simp only [State.callTo, State.perform, Context.callTo, State.attempt_rd, State.attempt_pushAndGo]
  rfl

/-- `Context.popAndGo` as a whole step. -/
def State.popAndGo (s : State) : Result := s.perform s.ctx.popAndGo

theorem State.popAndGo_eq (s : State) :
    s.popAndGo = finish (s.memRead (s.reg rsp) 8 >>= fun v =>
      .ok ((s.setReg rsp (s.reg rsp + 8)).setPc v)) := by
  simp only [State.popAndGo, State.perform, Context.popAndGo, State.attempt_read]
  rfl

/-! ## Vector operations (Machine/Vector.lean) -/

/-- `Context.compareScalar` as a whole step. -/
def State.compareScalar (s : State) (i : Instr) (p : Pfx) (r : Reg) (x : RM) : Result :=
  s.perform (s.ctx.compareScalar i p r x)

theorem State.compareScalar_eq (s : State) (i : Instr) (p : Pfx) (r : Reg) (x : RM) :
    s.compareScalar i p r x = finish ((s.vread VReg.readF32 r).2.vsource i p x 4 VReg.readF32 >>= fun b =>
      .ok ((b.2.setFlags ((cmp32 (s.vread VReg.readF32 r).1 b.1).flags s.ctx.flags)).setPc (s.npc i))) := by
  simp only [State.compareScalar, State.perform, Context.compareScalar, State.attempt_vsource_after]
  rfl

/-- `Context.addPacked` as a whole step. -/
def State.addPacked (s : State) (i : Instr) (p : Pfx) (r : Reg) (x : RM) : Result :=
  s.perform (s.ctx.addPacked i p r x)

theorem State.addPacked_eq (s : State) (i : Instr) (p : Pfx) (r : Reg) (x : RM) :
    s.addPacked i p r x = finish ((s.vread VReg.readRaw r).2.vsource i p x 16 VReg.readRaw >>= fun b =>
      .ok ((b.2.setVreg r ((b.2.vreg r).writeRaw (packedAdd64 (s.vread VReg.readRaw r).1 b.1))).setPc
        (s.npc i))) := by
  simp only [State.addPacked, State.perform, Context.addPacked, State.attempt_vsource_after]
  rfl

/-- `Context.shiftBy` as a whole step. -/
def State.shiftBy (s : State) (i : Instr) (p : Pfx) (kind : ShiftKind) (L : Nat) (r : Reg) (x : RM) : Result :=
  s.perform (s.ctx.shiftBy i p kind L r x)

theorem State.shiftBy_eq (s : State) (i : Instr) (p : Pfx) (kind : ShiftKind) (L : Nat) (r : Reg) (x : RM) :
    s.shiftBy i p kind L r x = finish ((s.vread VReg.readRaw r).2.vsource i p x 4 readCount >>= fun b =>
      .ok ((b.2.setVreg r ((b.2.vreg r).writeRaw
        (packedShift kind L (s.vread VReg.readRaw r).1 b.1))).setPc (s.npc i))) := by
  simp only [State.shiftBy, State.perform, Context.shiftBy, State.attempt_vsource_after]
  rfl

/-- `Context.shiftImm` as a whole step. -/
def State.shiftImm (s : State) (i : Instr) (kind : ShiftKind) (L : Nat) (r : Reg) (v : BitVec 8) : Result :=
  s.perform (s.ctx.shiftImm i kind L r v)

theorem State.shiftImm_eq (s : State) (i : Instr) (kind : ShiftKind) (L : Nat) (r : Reg) (v : BitVec 8) :
    s.shiftImm i kind L r v = .next (((s.vread VReg.readRaw r).2.setVreg r
      (((s.vread VReg.readRaw r).2.vreg r).writeRaw (packedShift kind L (s.vread VReg.readRaw r).1
        (v.setWidth 32)))).setPc (s.npc i)) := rfl

/-- `Context.vload` as a whole step. -/
def State.vload (s : State) (i : Instr) (p : Pfx) (r : Reg) (x : RM) (n : Nat)
    (read : VReg → BitVec (8 * n) × VReg) (write : VReg → BitVec (8 * n) → VReg) : Result :=
  s.perform (s.ctx.vload i p r x n read write)

theorem State.vload_eq (s : State) (i : Instr) (p : Pfx) (r : Reg) (x : RM) (n : Nat)
    (read : VReg → BitVec (8 * n) × VReg) (write : VReg → BitVec (8 * n) → VReg) :
    s.vload i p r x n read write = match s.bind i p x with
      | .reg k => .next (((s.vread read k).2.setVreg r
          (write ((s.vread read k).2.vreg r) (s.vread read k).1)).setPc (s.npc i))
      | .mem ea => finish (s.memRead ea n >>= fun v =>
          .ok ((s.setVreg r ((s.vreg r).writeRaw (v.setWidth 128))).setPc (s.npc i))) := by
  unfold State.vload State.perform Context.vload State.bind
  cases s.ctx.bind i p x with
  | reg k => rfl
  | mem ea => exact congrArg finish (s.attempt_read ea n _)

/-- `Context.vstore` as a whole step. -/
def State.vstore (s : State) (i : Instr) (p : Pfx) (d : RM) (r : Reg) (n : Nat)
    (read : VReg → BitVec (8 * n) × VReg) (write : VReg → BitVec (8 * n) → VReg) : Result :=
  s.perform (s.ctx.vstore i p d r n read write)

theorem State.vstore_eq (s : State) (i : Instr) (p : Pfx) (d : RM) (r : Reg) (n : Nat)
    (read : VReg → BitVec (8 * n) × VReg) (write : VReg → BitVec (8 * n) → VReg) :
    s.vstore i p d r n read write = match s.bind i p d with
      | .reg k => .next (((s.vread read r).2.setVreg k
          (write ((s.vread read r).2.vreg k) (s.vread read r).1)).setPc (s.npc i))
      | .mem ea => finish ((s.vread read r).2.memWrite ea n (s.vread read r).1 >>= fun t =>
          .ok (t.setPc (s.npc i))) := by
  unfold State.vstore State.perform Context.vstore State.bind
  cases s.ctx.bind i p d with
  | reg k => rfl
  | mem ea =>
    refine congrArg finish (((s.vread read r).2.attempt_write ea n (s.vread read r).1 _).trans ?_)
    simp only [State.memWrite]
    cases (s.vread read r).2.vmm.memWrite ea n (s.vread read r).1 <;> rfl

end Sys2Proof.Machine
end

