-- ==== Sys2Proof/Laws/Memory.lean ====
section
/-! SUPPORT. Laws of storage and of the accesses: read after write, the canonical form, and one lemma per
access that says all it can do. -/

namespace Sys2Proof.Machine

/-! ## One byte -/

theorem Memory.read_insert (m : Memory) (a k : Nat) (b : Byte) (h : ∀ c ∈ m, c.1 ≠ a) :
    Memory.read (Memory.insert m a b) k = if k = a then b else Memory.read m k := by
  induction m with
  | nil => simp [Memory.insert, Memory.read, eq_comm]
  | cons c m ih =>
    obtain ⟨j, d⟩ := c
    have hj : j ≠ a := h (j, d) (by simp)
    have ih := ih fun c hc => h c (by simp [hc])
    unfold Memory.insert
    by_cases hlt : a < j
    · simp only [hlt, if_true, Memory.read]
      by_cases hk : k = a
      · simp [hk]
      · simp [hk, Ne.symm hk]
    · simp only [hlt, if_false, Memory.read, ih]
      by_cases hk : k = a
      · subst hk; simp [hj]
      · simp [hk]

theorem Memory.read_filter (m : Memory) (k : Nat) (q : Nat → Bool) :
    Memory.read (m.filter fun c => q c.1) k = if q k then Memory.read m k else Memory.unlisted := by
  induction m with
  | nil => simp [Memory.read]
  | cons c m ih =>
    obtain ⟨j, d⟩ := c
    by_cases hj : q j
    · simp only [List.filter_cons, hj, if_true, Memory.read, ih]
      by_cases hk : j = k
      · subst hk; simp [hj]
      · simp [hk]
    · rw [List.filter_cons_of_neg (by simpa using hj), ih]
      by_cases hk : j = k
      · subst hk; simp [hj]
      · simp [hk, Memory.read]

/-- Read after write, for every memory and every address. -/
theorem Memory.read_write (m : Memory) (a k : Nat) (b : Byte) :
    Memory.read (Memory.write m a b) k = if k = a then b else Memory.read m k := by
  have hf := Memory.read_filter m k fun j => j != a
  unfold Memory.write
  split
  · rename_i hb
    rw [hf]
    by_cases hk : k = a <;> simp [hk, hb]
  · rw [Memory.read_insert _ _ _ _ (by simp), hf]
    by_cases hk : k = a <;> simp [hk]

/-- Reading after several bytes were written. -/
theorem Memory.read_writeBytes (m : Memory) (a : Nat) (f : Nat → Byte) (n k : Nat) :
    Memory.read (Memory.writeBytes m a f n) k
      = if a ≤ k ∧ k < a + n then f (k - a) else Memory.read m k := by
  induction n with
  | zero => simp [Memory.writeBytes]
  | succ n ih =>
    rw [Memory.writeBytes, Memory.read_write, ih]
    by_cases hk : k = a + n
    · subst hk; simp
    · rw [if_neg hk]
      have : (a ≤ k ∧ k < a + n) ↔ (a ≤ k ∧ k < a + (n + 1)) := by omega
      simp only [this]

/-! ## The canonical form is kept -/

theorem Memory.wf_filter {m : Memory} (h : Memory.wf m) (q : Host.Cell → Bool) : Memory.wf (m.filter q) :=
  ⟨h.1.filter q, fun c hc => h.2 c (List.mem_of_mem_filter hc)⟩

theorem Memory.mem_insert (m : Memory) (a : Nat) (b : Byte) (c : Host.Cell) :
    c ∈ Memory.insert m a b ↔ c = (a, b) ∨ c ∈ m := by
  induction m with
  | nil => simp [Memory.insert]
  | cons d m ih =>
    obtain ⟨j, d⟩ := d
    unfold Memory.insert
    split
    · simp
    · simp [ih]; tauto

theorem Memory.wf_insert {m : Memory} (h : Memory.wf m) (a : Nat) (b : Byte) (ha : ∀ c ∈ m, c.1 ≠ a)
    (hb : b ≠ Memory.unlisted) : Memory.wf (Memory.insert m a b) := by
  refine ⟨?_, fun c hc => ?_⟩
  · induction m with
    | nil => simp [Memory.insert]
    | cons d m ih =>
      obtain ⟨j, d⟩ := d
      have hj : j ≠ a := ha (j, d) (by simp)
      have hp := List.pairwise_cons.1 h.1
      unfold Memory.insert
      split
      · rename_i hlt
        refine List.pairwise_cons.2 ⟨?_, h.1⟩
        intro c hc
        rcases List.mem_cons.1 hc with rfl | hc
        · exact hlt
        · exact Nat.lt_trans hlt (hp.1 c hc)
      · rename_i hge
        refine List.pairwise_cons.2
          ⟨?_, ih ⟨hp.2, fun c hc => h.2 c (by simp [hc])⟩ fun c hc => ha c (by simp [hc])⟩
        intro c hc
        rcases (Memory.mem_insert m a b c).1 hc with rfl | hc
        · simp only; omega
        · exact hp.1 c hc
  · rcases (Memory.mem_insert m a b c).1 hc with rfl | hc
    · exact hb
    · exact h.2 c hc

theorem Memory.wf_write {m : Memory} (h : Memory.wf m) (a : Nat) (b : Byte) :
    Memory.wf (Memory.write m a b) := by
  unfold Memory.write
  split
  · exact Memory.wf_filter h _
  · exact Memory.wf_insert (Memory.wf_filter h _) a b (by simp) ‹_›

theorem Memory.wf_writeBytes {m : Memory} (h : Memory.wf m) (a : Nat) (f : Nat → Byte) (n : Nat) :
    Memory.wf (Memory.writeBytes m a f n) := by
  induction n with
  | zero => exact h
  | succ n ih => exact Memory.wf_write ih _ _

theorem Memory.wf_erase {m : Memory} (h : Memory.wf m) (lo hi : Nat) : Memory.wf (Memory.erase m lo hi) :=
  Memory.wf_filter h _

/-- The cells that `fill` puts in. -/
theorem Memory.mem_fill (m : Memory) (lo n : Nat) (f : Nat → Byte) (c : Host.Cell) :
    c ∈ Memory.fill m lo n f ↔
      (c ∈ m ∧ (c.1 < lo ∨ lo + n ≤ c.1)) ∨
      (lo ≤ c.1 ∧ c.1 < lo + n ∧ c.2 = f c.1 ∧ c.2 ≠ Memory.unlisted) := by
  obtain ⟨k, b⟩ := c
  simp only [Memory.fill, List.mem_append, List.mem_filter, List.mem_filterMap, List.mem_range'_1,
    decide_eq_true_eq]
  constructor
  · rintro ((⟨h, hk⟩ | ⟨a, ha, h⟩) | ⟨h, hk⟩)
    · exact .inl ⟨h, .inl hk⟩
    · split at h
      · cases h
      · cases h
        exact .inr ⟨ha.1, ha.2, rfl, ‹_›⟩
    · exact .inl ⟨h, .inr hk⟩
  · rintro (⟨h, hk | hk⟩ | ⟨h1, h2, h3, h4⟩)
    · exact .inl (.inl ⟨h, hk⟩)
    · exact .inr ⟨h, hk⟩
    · refine .inl (.inr ⟨k, ⟨h1, h2⟩, ?_⟩)
      rw [if_neg (h3 ▸ h4), h3]

theorem Memory.wf_fill {m : Memory} (h : Memory.wf m) (lo n : Nat) (f : Nat → Byte) :
    Memory.wf (Memory.fill m lo n f) := by
  refine ⟨?_, fun c hc => ?_⟩
  · unfold Memory.fill
    have mid : (((List.range' lo n).filterMap fun a =>
        if f a = Memory.unlisted then none else some (a, f a)) : Memory).Pairwise
        fun c d => c.1 < d.1 := by
      refine List.Pairwise.filterMap _ ?_ (List.pairwise_lt_range')
      intro a a' hlt c hc d hd
      split at hc <;> cases hc
      split at hd <;> cases hd
      exact hlt
    refine List.pairwise_append.2 ⟨List.pairwise_append.2 ⟨h.1.filter _, mid, ?_⟩, h.1.filter _, ?_⟩
    · intro c hc d hd
      obtain ⟨a, ha, hd⟩ := List.mem_filterMap.1 hd
      have := (List.mem_filter.1 hc).2
      have := List.mem_range'_1.1 ha
      split at hd <;> cases hd
      simp at *; omega
    · intro c hc d hd
      have h2 := (List.mem_filter.1 hd).2
      simp only [decide_eq_true_eq] at h2
      rcases List.mem_append.1 hc with hc | hc
      · have := (List.mem_filter.1 hc).2
        simp only [decide_eq_true_eq] at this
        omega
      · obtain ⟨a, ha, hc⟩ := List.mem_filterMap.1 hc
        have := List.mem_range'_1.1 ha
        split at hc <;> cases hc
        simp only; omega
  · rcases (Memory.mem_fill m lo n f c).1 hc with ⟨hc, _⟩ | ⟨_, _, _, h4⟩
    · exact h.2 c hc
    · exact h4

/-! ## Little-endian values -/

/-- Bit `i` of a little-endian value is bit `i % 8` of byte `i / 8`. -/
theorem getLsbD_littleEndian (f : Nat → Byte) (n i : Nat) (h : i < 8 * n) :
    (littleEndian f n).getLsbD i = (f (i / 8)).getLsbD (i % 8) := by
  induction n with
  | zero => omega
  | succ n ih =>
    simp only [littleEndian, BitVec.getLsbD_cast, BitVec.getLsbD_append]
    split
    · exact ih ‹_›
    · have : i / 8 = n := by omega
      have : i % 8 = i - 8 * n := by omega
      simp_all

theorem littleEndian_congr {f g : Nat → Byte} {n : Nat} (h : ∀ j < n, f j = g j) :
    littleEndian f n = littleEndian g n := by
  apply BitVec.eq_of_getLsbD_eq
  intro i hi
  rw [getLsbD_littleEndian f n i hi, getLsbD_littleEndian g n i hi, h _ (by omega)]

/-- Byte `j` of a value put together from bytes is byte `j`. -/
theorem byteOf_littleEndian (f : Nat → Byte) (n j : Nat) (h : j < n) : byteOf (littleEndian f n) j = f j := by
  apply BitVec.eq_of_getLsbD_eq
  intro i hi
  simp only [byteOf, BitVec.getLsbD_extractLsb', hi, decide_true, Bool.true_and]
  rw [getLsbD_littleEndian f n _ (by omega)]
  have h1 : (8 * j + i) / 8 = j := by omega
  have h2 : (8 * j + i) % 8 = i := by omega
  rw [h1, h2]

/-- A value put together from its own bytes is the value. -/
theorem littleEndian_byteOf {n : Nat} (v : BitVec (8 * n)) : littleEndian (byteOf v) n = v := by
  apply BitVec.eq_of_getLsbD_eq
  intro i hi
  rw [getLsbD_littleEndian _ n i hi]
  have h1 : i % 8 < 8 := Nat.mod_lt _ (by omega)
  have h2 : 8 * (i / 8) + i % 8 = i := by omega
  simp [byteOf, h1, h2]

/-! ## Translation and accesses -/

/-- All that a translation can answer when it succeeds. -/
theorem Vmm.translate_ok {m : Vmm} {a : Word} {n : Nat} {k : Access} {s : Segment} {o : Nat}
    (h : m.translate a n k = .ok (s, o)) :
    m.lookup a = some s ∧ s ∈ m.segs ∧ s.start.toNat ≤ a.toNat ∧ a.toNat < s.stop.toNat ∧
      a.toNat + n ≤ s.stop.toNat ∧ s.perm.allows k = true ∧ s.start.toNat + o = a.toNat := by
  unfold Vmm.translate at h
  split at h
  · cases h
  · rename_i g hg
    have hmem : g ∈ m.segs := List.mem_of_find?_eq_some hg
    have hcon : g.contains a = true := by
      have := List.find?_some hg
      simpa using this
    simp only [Segment.contains, Bool.and_eq_true, decide_eq_true_eq] at hcon
    split at h
    · cases h
    · split at h
      · cases h
        exact ⟨hg, hmem, hcon.1, hcon.2, by omega, ‹_›, by omega⟩
      · cases h

/-- A translation depends on the table alone. -/
theorem Vmm.translate_congr {m m' : Vmm} (h : m'.segs = m.segs) (a : Word) (n : Nat) (k : Access) :
    m'.translate a n k = m.translate a n k := by
  simp [Vmm.translate, Vmm.lookup, h]

/-- What a read answers: the little-endian number of the bytes from the address up. -/
theorem Vmm.memRead_eq (m : Vmm) (a : Word) (n : Nat) :
    m.memRead a n = match m.translate a n .read with
      | .error f => .error f
      | .ok _ => .ok (littleEndian (fun j => Memory.read m.bytes (a.toNat + j)) n) := by
  unfold Vmm.memRead
  split
  · rename_i f h
    rw [h]
  · rename_i s o h
    obtain ⟨-, -, -, -, -, -, ho⟩ := Vmm.translate_ok h
    simp only [h, Vmm.storage, ← Nat.add_assoc, ho]

/-- What a write does: the bytes from the address up, and nothing else. -/
theorem Vmm.memWrite_eq (m : Vmm) (a : Word) (n : Nat) (v : BitVec (8 * n)) :
    m.memWrite a n v = match m.translate a n .write with
      | .error f => .error f
      | .ok _ => .ok { m with bytes := Memory.writeBytes m.bytes a.toNat (byteOf v) n } := by
  unfold Vmm.memWrite
  split
  · rename_i f h
    rw [h]
  · rename_i s o h
    obtain ⟨-, -, -, -, -, -, ho⟩ := Vmm.translate_ok h
    simp only [h, ho]

/-- All that a write can do when it succeeds. -/
theorem Vmm.memWrite_ok {m m' : Vmm} {a : Word} {n : Nat} {v : BitVec (8 * n)}
    (h : m.memWrite a n v = .ok m') :
    (∃ s o, m.translate a n .write = .ok (s, o)) ∧
      m' = { m with bytes := Memory.writeBytes m.bytes a.toNat (byteOf v) n } := by
  rw [Vmm.memWrite_eq] at h
  split at h
  · cases h
  · rename_i p hp
    cases h
    exact ⟨⟨p.1, p.2, hp⟩, rfl⟩

/-- What a fetch answers: the byte at the address. -/
theorem Vmm.memFetch_eq (m : Vmm) (a : Word) :
    m.memFetch a = match m.translate a 1 .fetch with
      | .error f => .error f
      | .ok _ => .ok (Memory.read m.bytes a.toNat) := by
  unfold Vmm.memFetch
  split
  · rename_i f h
    rw [h]
  · rename_i s o h
    obtain ⟨-, -, -, -, -, -, ho⟩ := Vmm.translate_ok h
    simp only [h, Vmm.storage, ho]

end Sys2Proof.Machine
end

