-- ==== Sys2Proof/Laws/State.lean ====
section
/-! SUPPORT. One lemma per field per update, so that no later proof unfolds a record update. -/

namespace Sys2Proof.Machine

/-! ## Register files -/

@[simp] theorem Context.reg_setReg_same (c : Context) (n : Reg) (v : Word) : (c.setReg n v).reg n = v := by
  simp [Context.reg, Context.setReg]

theorem Context.reg_setReg_ne (c : Context) {n k : Reg} (v : Word) (h : k ≠ n) :
    (c.setReg n v).reg k = c.reg k := by
  have : n.toNat ≠ k.toNat := fun e => h (BitVec.eq_of_toNat_eq e.symm)
  simp [Context.reg, Context.setReg, Vector.getElem_set_ne, this]

/-- Reading any register after a register write. -/
theorem Context.reg_setReg (c : Context) (n k : Reg) (v : Word) :
    (c.setReg n v).reg k = if k = n then v else c.reg k := by
  by_cases h : k = n
  · simp [h]
  · simp [h, Context.reg_setReg_ne]

@[simp] theorem Context.vreg_setVreg_same (c : Context) (n : Reg) (r : VReg) :
    (c.setVreg n r).vreg n = r := by
  simp [Context.vreg, Context.setVreg]

theorem Context.vreg_setVreg_ne (c : Context) {n k : Reg} (r : VReg) (h : k ≠ n) :
    (c.setVreg n r).vreg k = c.vreg k := by
  have : n.toNat ≠ k.toNat := fun e => h (BitVec.eq_of_toNat_eq e.symm)
  simp [Context.vreg, Context.setVreg, Vector.getElem_set_ne, this]

/-- Reading any vector register after a vector register write. -/
theorem Context.vreg_setVreg (c : Context) (n k : Reg) (r : VReg) :
    (c.setVreg n r).vreg k = if k = n then r else c.vreg k := by
  by_cases h : k = n
  · simp [h]
  · simp [h, Context.vreg_setVreg_ne]

@[simp] theorem Context.setReg_pc (c : Context) (n : Reg) (v : Word) : (c.setReg n v).pc = c.pc := rfl
@[simp] theorem Context.setReg_flags (c : Context) (n : Reg) (v : Word) : (c.setReg n v).flags = c.flags := rfl
@[simp] theorem Context.setReg_v (c : Context) (n : Reg) (v : Word) : (c.setReg n v).v = c.v := rfl
@[simp] theorem Context.setReg_vreg (c : Context) (n k : Reg) (v : Word) : (c.setReg n v).vreg k = c.vreg k := rfl
@[simp] theorem Context.setVreg_pc (c : Context) (n : Reg) (r : VReg) : (c.setVreg n r).pc = c.pc := rfl
@[simp] theorem Context.setVreg_flags (c : Context) (n : Reg) (r : VReg) : (c.setVreg n r).flags = c.flags := rfl
@[simp] theorem Context.setVreg_x (c : Context) (n : Reg) (r : VReg) : (c.setVreg n r).x = c.x := rfl
@[simp] theorem Context.setVreg_reg (c : Context) (n k : Reg) (r : VReg) : (c.setVreg n r).reg k = c.reg k := rfl

/-! ## `setCtx` and `setVmm` -/

@[simp] theorem State.setCtx_ctx (s : State) (c : Context) : (s.setCtx c).ctx = c := rfl
@[simp] theorem State.setCtx_vmm (s : State) (c : Context) : (s.setCtx c).vmm = s.vmm := rfl
@[simp] theorem State.setCtx_parked (s : State) (c : Context) : (s.setCtx c).parked = s.parked := rfl
@[simp] theorem State.setVmm_ctx (s : State) (m : Vmm) : (s.setVmm m).ctx = s.ctx := rfl
@[simp] theorem State.setVmm_vmm (s : State) (m : Vmm) : (s.setVmm m).vmm = m := rfl
@[simp] theorem State.setVmm_parked (s : State) (m : Vmm) : (s.setVmm m).parked = s.parked := rfl
@[simp] theorem State.setVmm_reg (s : State) (m : Vmm) (n : Reg) : (s.setVmm m).reg n = s.reg n := rfl
@[simp] theorem State.setVmm_vreg (s : State) (m : Vmm) (n : Reg) : (s.setVmm m).vreg n = s.vreg n := rfl
@[simp] theorem State.setVmm_val (s : State) (m : Vmm) (n : Reg) : (s.setVmm m).val n = s.val n := rfl
@[simp] theorem State.setCtx_byteAt (s : State) (c : Context) (a : Word) : (s.setCtx c).byteAt a = s.byteAt a := rfl

/-! ## `setPc` -/

@[simp] theorem State.setPc_ctx_pc (s : State) (t : Word) : (s.setPc t).ctx.pc = t := rfl
@[simp] theorem State.setPc_ctx_x (s : State) (t : Word) : (s.setPc t).ctx.x = s.ctx.x := rfl
@[simp] theorem State.setPc_ctx_flags (s : State) (t : Word) : (s.setPc t).ctx.flags = s.ctx.flags := rfl
@[simp] theorem State.setPc_ctx_v (s : State) (t : Word) : (s.setPc t).ctx.v = s.ctx.v := rfl
@[simp] theorem State.setPc_vmm (s : State) (t : Word) : (s.setPc t).vmm = s.vmm := rfl
@[simp] theorem State.setPc_parked (s : State) (t : Word) : (s.setPc t).parked = s.parked := rfl
@[simp] theorem State.setPc_byteAt (s : State) (t : Word) (a : Word) : (s.setPc t).byteAt a = s.byteAt a := rfl
@[simp] theorem State.setPc_reg (s : State) (t : Word) (k : Reg) : (s.setPc t).reg k = s.reg k := rfl
@[simp] theorem State.setPc_vreg (s : State) (t : Word) (k : Reg) : (s.setPc t).vreg k = s.vreg k := rfl
@[simp] theorem State.setPc_val (s : State) (t : Word) (k : Reg) : (s.setPc t).val k = s.val k := rfl

/-! ## `setFlags` -/

@[simp] theorem State.setFlags_ctx_flags (s : State) (f : Flags) : (s.setFlags f).ctx.flags = f := rfl
@[simp] theorem State.setFlags_ctx_pc (s : State) (f : Flags) : (s.setFlags f).ctx.pc = s.ctx.pc := rfl
@[simp] theorem State.setFlags_ctx_x (s : State) (f : Flags) : (s.setFlags f).ctx.x = s.ctx.x := rfl
@[simp] theorem State.setFlags_ctx_v (s : State) (f : Flags) : (s.setFlags f).ctx.v = s.ctx.v := rfl
@[simp] theorem State.setFlags_vmm (s : State) (f : Flags) : (s.setFlags f).vmm = s.vmm := rfl
@[simp] theorem State.setFlags_parked (s : State) (f : Flags) : (s.setFlags f).parked = s.parked := rfl
@[simp] theorem State.setFlags_byteAt (s : State) (f : Flags) (a : Word) : (s.setFlags f).byteAt a = s.byteAt a := rfl
@[simp] theorem State.setFlags_reg (s : State) (f : Flags) (k : Reg) : (s.setFlags f).reg k = s.reg k := rfl
@[simp] theorem State.setFlags_vreg (s : State) (f : Flags) (k : Reg) : (s.setFlags f).vreg k = s.vreg k := rfl
@[simp] theorem State.setFlags_val (s : State) (f : Flags) (k : Reg) : (s.setFlags f).val k = s.val k := rfl

/-! ## `setReg` -/

@[simp] theorem State.setReg_ctx_pc (s : State) (n : Reg) (v : Word) : (s.setReg n v).ctx.pc = s.ctx.pc := rfl
@[simp] theorem State.setReg_ctx_flags (s : State) (n : Reg) (v : Word) : (s.setReg n v).ctx.flags = s.ctx.flags := rfl
@[simp] theorem State.setReg_ctx_v (s : State) (n : Reg) (v : Word) : (s.setReg n v).ctx.v = s.ctx.v := rfl
@[simp] theorem State.setReg_vmm (s : State) (n : Reg) (v : Word) : (s.setReg n v).vmm = s.vmm := rfl
@[simp] theorem State.setReg_parked (s : State) (n : Reg) (v : Word) : (s.setReg n v).parked = s.parked := rfl
@[simp] theorem State.setReg_byteAt (s : State) (n : Reg) (v : Word) (a : Word) : (s.setReg n v).byteAt a = s.byteAt a := rfl
@[simp] theorem State.setReg_vreg (s : State) (n : Reg) (v : Word) (k : Reg) : (s.setReg n v).vreg k = s.vreg k := rfl
@[simp] theorem State.setReg_val (s : State) (n : Reg) (v : Word) (k : Reg) : (s.setReg n v).val k = s.val k := rfl

/-! ## `setVreg` -/

@[simp] theorem State.setVreg_ctx_pc (s : State) (n : Reg) (r : VReg) : (s.setVreg n r).ctx.pc = s.ctx.pc := rfl
@[simp] theorem State.setVreg_ctx_flags (s : State) (n : Reg) (r : VReg) : (s.setVreg n r).ctx.flags = s.ctx.flags := rfl
@[simp] theorem State.setVreg_ctx_x (s : State) (n : Reg) (r : VReg) : (s.setVreg n r).ctx.x = s.ctx.x := rfl
@[simp] theorem State.setVreg_vmm (s : State) (n : Reg) (r : VReg) : (s.setVreg n r).vmm = s.vmm := rfl
@[simp] theorem State.setVreg_parked (s : State) (n : Reg) (r : VReg) : (s.setVreg n r).parked = s.parked := rfl
@[simp] theorem State.setVreg_byteAt (s : State) (n : Reg) (r : VReg) (a : Word) : (s.setVreg n r).byteAt a = s.byteAt a := rfl
@[simp] theorem State.setVreg_reg (s : State) (n : Reg) (r : VReg) (k : Reg) : (s.setVreg n r).reg k = s.reg k := rfl

theorem State.reg_setReg (s : State) (n k : Reg) (v : Word) :
    (s.setReg n v).reg k = if k = n then v else s.reg k := Context.reg_setReg s.ctx n k v

theorem State.vreg_setVreg (s : State) (n k : Reg) (r : VReg) :
    (s.setVreg n r).vreg k = if k = n then r else s.vreg k := Context.vreg_setVreg s.ctx n k r

theorem State.val_setVreg (s : State) (n k : Reg) (r : VReg) :
    (s.setVreg n r).val k = if k = n then r.val else s.val k := by
  unfold State.val
  rw [State.vreg_setVreg]
  split <;> rfl

@[simp] theorem State.npc_setVreg (s : State) (n : Reg) (r : VReg) (i : Instr) :
    (s.setVreg n r).npc i = s.npc i := rfl

/-! ## Register views -/

@[simp] theorem Context.setView_pc (c : Context) (w : Width) (n : Reg) (x : Bool) (v : BitVec w.bits) :
    (c.setView w n x v).pc = c.pc := by
  cases w <;> simp only [Context.setView] <;> (try split) <;> rfl

@[simp] theorem Context.setView_flags (c : Context) (w : Width) (n : Reg) (x : Bool) (v : BitVec w.bits) :
    (c.setView w n x v).flags = c.flags := by
  cases w <;> simp only [Context.setView] <;> (try split) <;> rfl

@[simp] theorem Context.setView_v (c : Context) (w : Width) (n : Reg) (x : Bool) (v : BitVec w.bits) :
    (c.setView w n x v).v = c.v := by
  cases w <;> simp only [Context.setView] <;> (try split) <;> rfl

/-- The register a view of number `n` lies in (10_state.md R25). -/
def viewHome (w : Width) (n : Reg) (rex : Bool) : Reg :=
  if w = .w8 ∧ isHighByte n rex then n - 4 else n

/-- A view write changes no register but the one the view lies in. -/
theorem Context.setView_reg_ne (c : Context) (w : Width) (n k : Reg) (x : Bool) (v : BitVec w.bits)
    (h : k ≠ viewHome w n x) : (c.setView w n x v).reg k = c.reg k := by
  cases w <;> simp only [Context.setView, viewHome] at * <;>
    (try split) <;> simp_all [Context.reg_setReg_ne]

end Sys2Proof.Machine
end

