-- ==== Sys2Proof/Laws/Access.lean ====
section
/-! SUPPORT. What the named operations over memory and operands can do: one lemma when the access is permitted
and one when it is not. -/

namespace Sys2Proof.Machine

/-! ## Permitted and denied accesses -/

theorem Vmm.permits_segment {m : Vmm} {a : Word} {n : Nat} {k : Access} (h : m.permits a n k = true) :
    ∃ g ∈ m.segs, g.start.toNat ≤ a.toNat ∧ a.toNat < g.stop.toNat ∧ a.toNat + n ≤ g.stop.toNat ∧
      g.perm.allows k = true ∧ m.translate a n k = .ok (g, a.toNat - g.start.toNat) := by
  unfold Vmm.permits at h
  split at h
  · cases h
  · rename_i g hg
    simp only [Bool.and_eq_true, decide_eq_true_eq] at h
    have ht : m.translate a n k = .ok (g, a.toNat - g.start.toNat) := by
      simp [Vmm.translate, hg, Nat.not_lt.2 h.1, h.2]
    obtain ⟨-, h1, h2, h3, h4, h5, -⟩ := Vmm.translate_ok ht
    exact ⟨g, h1, h2, h3, h4, h5, ht⟩

theorem Vmm.translate_denied {m : Vmm} {a : Word} {n : Nat} {k : Access} (h : m.permits a n k = false) :
    m.translate a n k = .error (m.denied a n k) := by
  unfold Vmm.permits at h
  unfold Vmm.translate Vmm.denied
  cases hg : m.lookup a with
  | none => rfl
  | some g =>
    simp only [hg, Bool.and_eq_false_iff, decide_eq_false_iff_not] at h ⊢
    by_cases hlt : g.stop.toNat < a.toNat + n
    · simp only [hlt, if_true]
    · simp only [hlt, if_false, h.resolve_left (by omega), Bool.false_eq_true]

theorem Vmm.permits_congr {m m' : Vmm} (h : m'.segs = m.segs) (a : Word) (n : Nat) (k : Access) :
    m'.permits a n k = m.permits a n k := by
  simp [Vmm.permits, Vmm.lookup, h]

theorem Vmm.denied_congr {m m' : Vmm} (h : m'.segs = m.segs) (a : Word) (n : Nat) (k : Access) :
    m'.denied a n k = m.denied a n k := by
  simp [Vmm.denied, Vmm.lookup, h]

/-- The addresses of a permitted access do not wrap. -/
theorem Vmm.permits_lt {m : Vmm} {a : Word} {n : Nat} {k : Access} (h : m.permits a n k = true) :
    a.toNat + n < 2 ^ 64 := by
  obtain ⟨g, -, -, -, h4, -, -⟩ := Vmm.permits_segment h
  have := g.stop.isLt
  omega

/-! ## Reads -/

theorem State.memRead_permitted {s : State} {a : Word} {n : Nat} (h : s.vmm.permits a n .read = true) :
    s.memRead a n = .ok (s.bytesAt a n) := by
  obtain ⟨g, -, -, -, h4, -, ht⟩ := Vmm.permits_segment h
  have hlt := Vmm.permits_lt h
  rw [State.memRead, Vmm.memRead_eq, ht]
  simp only [State.bytesAt, State.byteAt]
  congr 1
  apply littleEndian_congr
  intro j hj
  rw [BitVec.toNat_add, BitVec.toNat_ofNat, Nat.mod_eq_of_lt (show j < 2 ^ 64 by omega),
    Nat.mod_eq_of_lt (by omega)]

theorem State.memRead_denied {s : State} {a : Word} {n : Nat} (h : s.vmm.permits a n .read = false) :
    s.memRead a n = .error (s.vmm.denied a n .read) := by
  rw [State.memRead, Vmm.memRead_eq, Vmm.translate_denied h]

/-- All that a read can answer. -/
theorem State.memRead_ok {s : State} {a : Word} {n : Nat} {v : BitVec (8 * n)} (h : s.memRead a n = .ok v) :
    s.vmm.permits a n .read = true ∧ v = s.bytesAt a n := by
  cases hp : s.vmm.permits a n .read
  · rw [State.memRead_denied hp] at h; cases h
  · rw [State.memRead_permitted hp] at h; cases h; exact ⟨rfl, rfl⟩

/-! ## Writes -/

/-- The manager after `n` bytes of `v` were stored from `a` up. -/
def Vmm.stored (m : Vmm) (a : Word) (n : Nat) (v : BitVec (8 * n)) : Vmm :=
  { m with bytes := Memory.writeBytes m.bytes a.toNat (byteOf v) n }

@[simp] theorem Vmm.stored_segs (m : Vmm) (a : Word) (n : Nat) (v : BitVec (8 * n)) :
    (m.stored a n v).segs = m.segs := rfl
@[simp] theorem Vmm.stored_fills (m : Vmm) (a : Word) (n : Nat) (v : BitVec (8 * n)) :
    (m.stored a n v).fills = m.fills := rfl

theorem State.memWrite_permitted {s : State} {a : Word} {n : Nat} {v : BitVec (8 * n)}
    (h : s.vmm.permits a n .write = true) : s.memWrite a n v = .ok (s.setVmm (s.vmm.stored a n v)) := by
  obtain ⟨g, -, -, -, -, -, ht⟩ := Vmm.permits_segment h
  rw [State.memWrite, Vmm.memWrite_eq, ht]
  rfl

theorem State.memWrite_denied {s : State} {a : Word} {n : Nat} {v : BitVec (8 * n)}
    (h : s.vmm.permits a n .write = false) : s.memWrite a n v = .error (s.vmm.denied a n .write) := by
  rw [State.memWrite, Vmm.memWrite_eq, Vmm.translate_denied h]

/-- All that a write can do when it succeeds. -/
theorem State.memWrite_ok {s t : State} {a : Word} {n : Nat} {v : BitVec (8 * n)}
    (h : s.memWrite a n v = .ok t) :
    s.vmm.permits a n .write = true ∧ t = s.setVmm (s.vmm.stored a n v) := by
  cases hp : s.vmm.permits a n .write
  · rw [State.memWrite_denied hp] at h; cases h
  · rw [State.memWrite_permitted hp] at h; cases h; exact ⟨rfl, rfl⟩

/-- A byte after a permitted store. -/
theorem State.storedAt_stored {s : State} {a : Word} {n : Nat} (v : BitVec (8 * n))
    (h : s.vmm.permits a n .write = true) : s.StoredAt (s.setVmm (s.vmm.stored a n v)) a n v := by
  have hlt := Vmm.permits_lt h
  intro k
  simp only [State.byteAt, State.setVmm_vmm, Vmm.stored, Memory.read_writeBytes]
  have hk : (k - a).toNat < n ↔ a.toNat ≤ k.toNat ∧ k.toNat < a.toNat + n := by
    rw [BitVec.toNat_sub]; have := a.isLt; have := k.isLt; omega
  by_cases hc : a.toNat ≤ k.toNat ∧ k.toNat < a.toNat + n
  · rw [if_pos hc, if_pos (hk.2 hc)]
    congr 1
    rw [BitVec.toNat_sub]; have := a.isLt; have := k.isLt; omega
  · rw [if_neg hc, if_neg (fun h => hc (hk.1 h))]

/-! ## Bound operands -/

theorem State.rd_readable {s : State} {w : Width} {p : Pfx} {l : Loc} (h : l.readable s w = true) :
    s.rd w p l = .ok (s.valueOf w p l) := by
  cases l with
  | reg n => rfl
  | mem ea => exact State.memRead_permitted h

theorem State.rd_denied {s : State} {w : Width} {p : Pfx} {l : Loc} (h : l.readable s w = false) :
    ∃ ea, l = .mem ea ∧ s.rd w p l = .error (s.vmm.denied ea w.bytes .read) := by
  cases l with
  | reg n => cases h
  | mem ea => exact ⟨ea, rfl, State.memRead_denied h⟩

theorem State.rd_ok {s : State} {w : Width} {p : Pfx} {l : Loc} {v : BitVec w.bits}
    (h : s.rd w p l = .ok v) : l.readable s w = true ∧ v = s.valueOf w p l := by
  cases hp : l.readable s w
  · obtain ⟨ea, -, e⟩ := State.rd_denied (p := p) hp
    rw [e] at h; cases h
  · rw [State.rd_readable hp] at h; cases h; exact ⟨rfl, rfl⟩

theorem State.rdSource_readable {s : State} {i : Instr} {w : Width} {p : Pfx} {x : Source w}
    (h : x.readable s i p = true) : s.rdSource i w p x = .ok (s.sourceValue i p x) := by
  cases x with
  | rm x => exact State.rd_readable h
  | imm v => rfl

theorem State.rdSource_ok {s : State} {i : Instr} {w : Width} {p : Pfx} {x : Source w} {v : BitVec w.bits}
    (h : s.rdSource i w p x = .ok v) : x.readable s i p = true ∧ v = s.sourceValue i p x := by
  cases x with
  | rm x => exact State.rd_ok h
  | imm v => cases h; exact ⟨rfl, rfl⟩

/-- The state after a write of an operand. -/
def State.written (s : State) (w : Width) (p : Pfx) (v : BitVec w.bits) : Loc → State
  | .reg n => s.setCtx (s.ctx.setView w n p.rex.isSome v)
  | .mem ea => s.setVmm (s.vmm.stored ea w.bytes v)

theorem State.wr_writable {s : State} {w : Width} {p : Pfx} {l : Loc} {v : BitVec w.bits}
    (h : l.writable s w = true) : s.wr w p l v = .ok (s.written w p v l) := by
  cases l with
  | reg n => rfl
  | mem ea => exact State.memWrite_permitted h

theorem State.wr_denied {s : State} {w : Width} {p : Pfx} {l : Loc} {v : BitVec w.bits}
    (h : l.writable s w = false) :
    ∃ ea, l = .mem ea ∧ s.wr w p l v = .error (s.vmm.denied ea w.bytes .write) := by
  cases l with
  | reg n => cases h
  | mem ea => exact ⟨ea, rfl, State.memWrite_denied h⟩

theorem State.wr_ok {s t : State} {w : Width} {p : Pfx} {l : Loc} {v : BitVec w.bits}
    (h : s.wr w p l v = .ok t) : l.writable s w = true ∧ t = s.written w p v l := by
  cases hp : l.writable s w
  · obtain ⟨ea, -, e⟩ := State.wr_denied (p := p) (v := v) hp
    rw [e] at h; cases h
  · rw [State.wr_writable hp] at h; cases h; exact ⟨rfl, rfl⟩

/-- What a write of an operand leaves. -/
theorem State.wrote_written {s : State} {w : Width} {p : Pfx} {l : Loc} (v : BitVec w.bits)
    (h : l.writable s w = true) : s.Wrote (s.written w p v l) w p v l := by
  cases l with
  | reg n => exact ⟨fun _ => rfl, fun _ => rfl⟩
  | mem ea => exact ⟨fun _ => rfl, State.storedAt_stored v h⟩

@[simp] theorem State.written_pc (s : State) (w : Width) (p : Pfx) (v : BitVec w.bits) (l : Loc) :
    (s.written w p v l).ctx.pc = s.ctx.pc := by cases l <;> simp [State.written]
@[simp] theorem State.written_flags (s : State) (w : Width) (p : Pfx) (v : BitVec w.bits) (l : Loc) :
    (s.written w p v l).ctx.flags = s.ctx.flags := by cases l <;> simp [State.written]
@[simp] theorem State.written_v (s : State) (w : Width) (p : Pfx) (v : BitVec w.bits) (l : Loc) :
    (s.written w p v l).ctx.v = s.ctx.v := by cases l <;> simp [State.written]
@[simp] theorem State.written_vreg (s : State) (w : Width) (p : Pfx) (v : BitVec w.bits) (l : Loc) (k : Reg) :
    (s.written w p v l).vreg k = s.vreg k := by simp [State.vreg, Context.vreg]
@[simp] theorem State.written_parked (s : State) (w : Width) (p : Pfx) (v : BitVec w.bits) (l : Loc) :
    (s.written w p v l).parked = s.parked := by cases l <;> rfl
@[simp] theorem State.written_segs (s : State) (w : Width) (p : Pfx) (v : BitVec w.bits) (l : Loc) :
    (s.written w p v l).vmm.segs = s.vmm.segs := by cases l <;> rfl
@[simp] theorem State.written_fills (s : State) (w : Width) (p : Pfx) (v : BitVec w.bits) (l : Loc) :
    (s.written w p v l).vmm.fills = s.vmm.fills := by cases l <;> rfl

/-! ## Vector sources -/

theorem State.vread_fst {α : Type} (s : State) (f : VReg → α × VReg) (n : Reg) :
    (s.vread f n).1 = (f (s.vreg n)).1 := rfl

theorem State.vread_snd {α : Type} (s : State) (f : VReg → α × VReg) (n : Reg) :
    (s.vread f n).2 = s.setVreg n (f (s.vreg n)).2 := rfl

end Sys2Proof.Machine
end

