-- ==== Sys2Proof/Laws/Decode.lean ====
section
/-! SUPPORT. The decoder reads its bytes in order (30_encoding.md R111): what it answers depends on the bytes it
consumed alone, and on fewer of them it only asks for the next one. -/

namespace Sys2Proof

/-- What the answer of a part of the decoder on `bs` says of its answers on other bytes: it is the same whatever
follows the bytes consumed, and on any proper part of these the part asks for more. -/
def Reads {α : Type} (P : List Byte → Dec α) (bs : List Byte) : Dec α → Prop
  | .ok a rest => ∃ u, bs = u ++ rest ∧ (∀ more, P (u ++ more) = .ok a more) ∧
      ∀ k < u.length, P (u.take k) = .short
  | .bad rest => ∃ u, bs = u ++ rest ∧ (∀ more, P (u ++ more) = .bad more) ∧
      ∀ k < u.length, P (u.take k) = .short
  | .short => ∀ k, P (bs.take k) = .short

/-- A part of the decoder that reads in order. -/
def Online {α : Type} (P : List Byte → Dec α) : Prop := ∀ bs, Reads P bs (P bs)

theorem online_ok {α : Type} (a : α) : Online fun bs => Dec.ok a bs :=
  fun _ => ⟨[], rfl, fun _ => rfl, fun _ h => by cases h⟩

theorem online_bad {α : Type} : Online fun bs => (Dec.bad bs : Dec α) :=
  fun _ => ⟨[], rfl, fun _ => rfl, fun _ h => by cases h⟩

theorem Dec.bind_ok {α β : Type} (a : α) (bs : List Byte) (f : α → List Byte → Dec β) :
    (Dec.ok a bs).bind f = f a bs := rfl
theorem Dec.bind_bad {α β : Type} (bs : List Byte) (f : α → List Byte → Dec β) :
    (Dec.bad bs).bind f = .bad bs := rfl
theorem Dec.bind_short {α β : Type} (f : α → List Byte → Dec β) : Dec.short.bind f = .short := rfl

/-- One part after another. -/
theorem Online.bind {α β : Type} {P : List Byte → Dec α} {f : α → List Byte → Dec β} (hP : Online P)
    (hf : ∀ a, Online (f a)) : Online fun bs => (P bs).bind f := by
  intro bs
  have h := hP bs
  show Reads (fun bs => (P bs).bind f) bs ((P bs).bind f)
  revert h
  cases P bs with
  | short =>
    intro h k
    show (P (bs.take k)).bind f = .short
    rw [h k, Dec.bind_short]
  | bad rest =>
    rintro ⟨u, e, h1, h2⟩
    refine ⟨u, e, fun more => ?_, fun k hk => ?_⟩
    · show (P (u ++ more)).bind f = .bad more
      rw [h1, Dec.bind_bad]
    · show (P (u.take k)).bind f = .short
      rw [h2 k hk, Dec.bind_short]
  | ok a rest =>
    rintro ⟨u, e, h1, h2⟩
    have h' := hf a rest
    -- the second part sees what the first one left
    have ht : ∀ v k, (∀ j < v.length, f a (v.take j) = .short) → k < (u ++ v).length →
        (P ((u ++ v).take k)).bind f = .short := by
      intro v k hv hk
      by_cases hku : k < u.length
      · rw [List.take_append_of_le_length (by omega), h2 k hku, Dec.bind_short]
      · rw [List.take_append, List.take_of_length_le (by omega), h1, Dec.bind_ok]
        refine hv _ ?_
        rw [List.length_append] at hk
        omega
    rw [Dec.bind_ok]
    revert h'
    cases f a rest with
    | short =>
      intro h' k
      show (P (bs.take k)).bind f = .short
      subst e
      by_cases hku : k < u.length
      · rw [List.take_append_of_le_length (by omega), h2 k hku, Dec.bind_short]
      · rw [List.take_append, List.take_of_length_le (by omega), h1, Dec.bind_ok]
        exact h' _
    | bad r =>
      rintro ⟨v, rfl, g1, g2⟩
      refine ⟨u ++ v, by rw [e, List.append_assoc], fun more => ?_, fun k hk => ht v k g2 hk⟩
      show (P (u ++ v ++ more)).bind f = .bad more
      rw [List.append_assoc, h1, Dec.bind_ok, g1]
    | ok b r =>
      rintro ⟨v, rfl, g1, g2⟩
      refine ⟨u ++ v, by rw [e, List.append_assoc], fun more => ?_, fun k hk => ht v k g2 hk⟩
      show (P (u ++ v ++ more)).bind f = .ok b more
      rw [List.append_assoc, h1, Dec.bind_ok, g1]

theorem online_take8 : Online take8 := by
  intro bs
  cases bs with
  | nil => intro k; simp [take8]
  | cons b bs =>
    refine ⟨[b], rfl, fun _ => rfl, fun k hk => ?_⟩
    obtain rfl : k = 0 := by simp at hk; omega
    rfl

theorem take16_eq (bs : List Byte) : take16 bs
    = (take8 bs).bind fun b0 r => (take8 r).bind fun b1 r => .ok (b1 ++ b0) r := by
  rcases bs with _ | ⟨b0, _ | ⟨b1, bs⟩⟩ <;> rfl

theorem online_take16 : Online take16 := by
  have h : Online fun bs => (take8 bs).bind fun b0 r => (take8 r).bind fun b1 r =>
      (.ok (b1 ++ b0) r : Dec (BitVec 16)) :=
    online_take8.bind fun b0 => online_take8.bind fun b1 => online_ok _
  simpa only [← take16_eq] using h

theorem take32_eq (bs : List Byte) : take32 bs
    = (take8 bs).bind fun b0 r => (take8 r).bind fun b1 r => (take8 r).bind fun b2 r =>
        (take8 r).bind fun b3 r => .ok (b3 ++ b2 ++ b1 ++ b0) r := by
  rcases bs with _ | ⟨b0, _ | ⟨b1, _ | ⟨b2, _ | ⟨b3, bs⟩⟩⟩⟩ <;> rfl

theorem online_take32 : Online take32 := by
  have h : Online fun bs => (take8 bs).bind fun b0 r => (take8 r).bind fun b1 r => (take8 r).bind fun b2 r =>
      (take8 r).bind fun b3 r => (.ok (b3 ++ b2 ++ b1 ++ b0) r : Dec (BitVec 32)) :=
    online_take8.bind fun b0 => online_take8.bind fun b1 => online_take8.bind fun b2 =>
      online_take8.bind fun b3 => online_ok _
  simpa only [← take32_eq] using h

theorem take64_eq (bs : List Byte) : take64 bs
    = (take8 bs).bind fun b0 r => (take8 r).bind fun b1 r => (take8 r).bind fun b2 r =>
        (take8 r).bind fun b3 r => (take8 r).bind fun b4 r => (take8 r).bind fun b5 r =>
        (take8 r).bind fun b6 r => (take8 r).bind fun b7 r =>
          .ok (b7 ++ b6 ++ b5 ++ b4 ++ b3 ++ b2 ++ b1 ++ b0) r := by
  rcases bs with _ | ⟨b0, _ | ⟨b1, _ | ⟨b2, _ | ⟨b3, _ | ⟨b4, _ | ⟨b5, _ | ⟨b6, _ | ⟨b7, bs⟩⟩⟩⟩⟩⟩⟩⟩ <;> rfl

theorem online_take64 : Online take64 := by
  have h : Online fun bs => (take8 bs).bind fun b0 r => (take8 r).bind fun b1 r => (take8 r).bind fun b2 r =>
      (take8 r).bind fun b3 r => (take8 r).bind fun b4 r => (take8 r).bind fun b5 r =>
      (take8 r).bind fun b6 r => (take8 r).bind fun b7 r =>
        (.ok (b7 ++ b6 ++ b5 ++ b4 ++ b3 ++ b2 ++ b1 ++ b0) r : Dec (BitVec 64)) :=
    online_take8.bind fun b0 => online_take8.bind fun b1 => online_take8.bind fun b2 =>
      online_take8.bind fun b3 => online_take8.bind fun b4 => online_take8.bind fun b5 =>
      online_take8.bind fun b6 => online_take8.bind fun b7 => online_ok _
  simpa only [← take64_eq] using h

theorem online_takeLegacy (l : Legacy) : Online (takeLegacy l) := by
  intro bs
  induction bs generalizing l with
  | nil => intro k; rw [List.take_nil]; rfl
  | cons b bs ih =>
    have none0 : ∀ k < [b].length, takeLegacy l ([b].take k) = .short := by
      intro k hk
      obtain rfl : k = 0 := by simp at hk; omega
      rfl
    have step (e : ∀ more, takeLegacy l (b :: more) = .bad more) :
        Reads (takeLegacy l) (b :: bs) (takeLegacy l (b :: bs)) := by
      rw [e bs]
      exact ⟨[b], rfl, e, none0⟩
    have stop (a : Legacy × Byte) (e : ∀ more, takeLegacy l (b :: more) = .ok a more) :
        Reads (takeLegacy l) (b :: bs) (takeLegacy l (b :: bs)) := by
      rw [e bs]
      exact ⟨[b], rfl, e, none0⟩
    have go (l' : Legacy) (e : ∀ more, takeLegacy l (b :: more) = takeLegacy l' more) :
        Reads (takeLegacy l) (b :: bs) (takeLegacy l (b :: bs)) := by
      have h := ih l'
      rw [e bs]
      have ht : ∀ u : List Byte, (∀ k < u.length, takeLegacy l' (u.take k) = .short) →
          ∀ k < (b :: u).length, takeLegacy l ((b :: u).take k) = .short := by
        intro u hu k hk
        cases k with
        | zero => rfl
        | succ k =>
          rw [List.take_succ_cons, e]
          exact hu k (by simpa using hk)
      revert h
      cases takeLegacy l' bs with
      | short =>
        intro h k
        cases k with
        | zero => rfl
        | succ k => rw [List.take_succ_cons, e]; exact h k
      | ok a rest =>
        rintro ⟨u, rfl, h1, h2⟩
        exact ⟨b :: u, rfl, fun more => by rw [List.cons_append, e, h1], ht u h2⟩
      | bad rest =>
        rintro ⟨u, rfl, h1, h2⟩
        exact ⟨b :: u, rfl, fun more => by rw [List.cons_append, e, h1], ht u h2⟩
    by_cases h66 : b = 0x66
    · by_cases ho : l.opsize = true
      · exact step fun more => by rw [takeLegacy, if_pos h66, if_pos ho]
      · exact go { l with opsize := true } fun more => by rw [takeLegacy, if_pos h66, if_neg ho]
    · cases hs : segOf b with
      | some g =>
        by_cases ho : l.seg.isSome = true
        · exact step fun more => by
              rw [takeLegacy, if_neg h66]; simp only [hs, ho, if_true]
        · exact go { l with seg := some g } fun more => by
              rw [takeLegacy, if_neg h66]; simp only [hs, ho, if_false, Bool.false_eq_true]
      | none =>
        cases hr : repOf b with
        | some r =>
          by_cases ho : l.rep.isSome = true
          · exact step fun more => by
              rw [takeLegacy, if_neg h66]; simp only [hs, hr, ho, if_true]
          · exact go { l with rep := some r } fun more => by
              rw [takeLegacy, if_neg h66]; simp only [hs, hr, ho, if_false, Bool.false_eq_true]
        | none =>
          by_cases ho : refusedLegacy b = true
          · exact step fun more => by
              rw [takeLegacy, if_neg h66]; simp only [hs, hr, ho, if_true]
          · exact stop (l, b) fun more => by
              rw [takeLegacy, if_neg h66]; simp only [hs, hr, ho, if_false, Bool.false_eq_true]

theorem online_takeRex (b : Byte) : Online (takeRex b) := by
  unfold takeRex
  cases rexOf b with
  | none => exact online_ok _
  | some rx =>
    refine online_take8.bind fun b' => ?_
    by_cases h : (isLegacy b' || (rexOf b').isSome) = true
    · simp only [h, if_true]; exact online_bad
    · simp only [h]; exact online_ok _

theorem online_takeOpcode (b : Byte) : Online (takeOpcode b) := by
  unfold takeOpcode
  by_cases h : b = 0xC4 ∨ b = 0xC5 ∨ b = 0x62
  · simp only [h, if_true]; exact online_bad
  · by_cases h2 : b = 0x0F
    · simp only [h2, if_true]; exact online_take8.bind fun op => online_ok _
    · simp only [h, h2, if_false]; exact online_ok _

theorem online_takeDisp (mod : BitVec 2) : Online (takeDisp mod) := by
  unfold takeDisp
  by_cases h : mod = 1
  · simp only [h, if_true]; exact online_take8.bind fun d => online_ok _
  · by_cases h2 : mod = 2
    · simp only [h2, if_true]; exact online_take32.bind fun d => online_ok _
    · simp only [h, h2, if_false]; exact online_ok _

theorem online_takeSib (rx : Rex) (mod : BitVec 2) : Online (takeSib rx mod) := by
  unfold takeSib
  refine online_take8.bind fun sib => ?_
  by_cases h : mod = 0 ∧ lowOf sib = 5
  · simp only [h, and_self, if_true]; exact online_take32.bind fun d => online_ok _
  · simp only [h, if_false]; exact (online_takeDisp mod).bind fun d => online_ok _

theorem online_takeRM (rx : Rex) (m : Byte) : Online (takeRM rx m) := by
  unfold takeRM
  by_cases h : modOf m = 3
  · simp only [h, if_true]; exact online_ok _
  · by_cases h2 : lowOf m = 4
    · simp only [h, h2, if_true, if_false]; exact (online_takeSib rx _).bind fun a => online_ok _
    · by_cases h3 : modOf m = 0 ∧ lowOf m = 5
      · simp only [h3, and_self, if_true]; exact online_take32.bind fun d => online_ok _
      · simp only [h, h2, h3, if_false]; exact (online_takeDisp _).bind fun d => online_ok _

theorem online_takeIz (p : Pfx) : Online (takeIz p) := by
  unfold takeIz
  cases p.width
  · exact online_take32.bind fun v => online_ok _
  · exact online_take16.bind fun v => online_ok _
  · exact online_take32.bind fun v => online_ok _
  · exact online_take32.bind fun v => online_ok _

theorem online_takeIv (p : Pfx) : Online (takeIv p) := by
  unfold takeIv
  cases p.width
  · exact online_take32.bind fun v => online_ok _
  · exact online_take16.bind fun v => online_ok _
  · exact online_take32.bind fun v => online_ok _
  · exact online_take64.bind fun v => online_ok _

theorem online_takeModRM (m : Option Byte) : Online (takeModRM m) := by
  cases m with
  | none => exact online_take8
  | some b => exact online_ok b

theorem online_bodyTake (body : Body) (p : Pfx) (rx : Rex) (op : Byte) (m : Option Byte) :
    Online (body.take p rx op m) := by
  have hm := online_takeModRM m
  have hrm := online_takeRM rx
  cases body with
  | modrm mk => exact hm.bind fun m => (hrm m).bind fun x => online_ok _
  | rm mk => exact hm.bind fun m => (hrm m).bind fun x => online_ok _
  | rmI8 mk => exact hm.bind fun m => (hrm m).bind fun x => online_take8.bind fun v => online_ok _
  | rmIz mk => exact hm.bind fun m => (hrm m).bind fun x => (online_takeIz p).bind fun v => online_ok _
  | vmi mk => exact hm.bind fun m => online_take8.bind fun v => online_ok _
  | i8 mk => exact online_take8.bind fun v => online_ok _
  | iz mk => exact (online_takeIz p).bind fun v => online_ok _
  | i32 mk => exact online_take32.bind fun v => online_ok _
  | opI8 mk => exact online_take8.bind fun v => online_ok _
  | opIv mk => exact (online_takeIv p).bind fun v => online_ok _
  | none mk => exact online_ok _

theorem online_rowTake (row : Row) (p : Pfx) (rx : Rex) (op : Byte) (m : Option Byte) :
    Online (row.take p rx op m) := by
  unfold Row.take
  by_cases h : row.refuses p rx = true
  · simp only [h, if_true]; exact online_bad
  · simp only [h]; exact online_bodyTake _ _ _ _ _

theorem online_takeRow (rows : List Row) (p : Pfx) (rx : Rex) (op : Byte) :
    Online (takeRow rows p rx op) := by
  unfold takeRow
  cases rows with
  | nil => exact online_bad
  | cons row rows =>
    by_cases h : row.digit.isSome = true
    · simp only [h, if_true]
      refine online_take8.bind fun m => ?_
      cases List.find? (Row.hitsDigit m) (row :: rows) with
      | none => exact online_bad
      | some row => exact online_rowTake _ _ _ _ _
    · simp only [h]; exact online_rowTake _ _ _ _ _

/-- The decoder reads in order. -/
theorem online_decode : Online decode :=
  (online_takeLegacy _).bind fun _ => (online_takeRex _).bind fun _ => (online_takeOpcode _).bind fun _ =>
    online_takeRow _ _ _ _

end Sys2Proof
end

