-- ==== Sys2Proof/Laws/Among.lean ====
section
/-! SUPPORT. An instruction as its accesses: `exec` performs them, every instruction makes at most two and its store
is the last (60_exceptions.md R300), and what is left of it in a step in progress. -/

namespace Sys2Proof.Machine

/-- `exec` is the accesses of the instruction with nothing in between. -/
theorem exec_eq_perform (i : Instr) (s : State) : exec i s = s.perform (actOf i s.ctx) := by
  cases i <;> rfl

/-! ## The order of accesses -/

/-- At most `n` accesses, of at most 16 bytes each, and none after a store (60_exceptions.md R300). -/
inductive Act.Orderly : Nat → Act → Prop
  | done (n : Nat) (c : Context) : Orderly n (.done c)
  | read {n : Nat} (a : Word) {k : Nat} {rest : BitVec (8 * k) → Act} (hk : k ≤ 16)
      (h : ∀ v, Orderly n (rest v)) : Orderly (n + 1) (.read a k rest)
  | write (n : Nat) (a : Word) {k : Nat} (v : BitVec (8 * k)) (c : Context) :
      Orderly (n + 1) (.write a k v (.done c))

theorem width_bytes_le (w : Width) : w.bytes ≤ 16 := by cases w <;> decide

theorem Act.orderly_rd {n : Nat} (c : Context) (w : Width) (p : Pfx) (l : Loc) {k : BitVec w.bits → Act}
    (h : ∀ v, (k v).Orderly n) (h' : ∀ v, (k v).Orderly (n + 1)) : (c.rd w p l k).Orderly (n + 1) := by
  cases l with
  | reg r => exact h' _
  | mem ea => exact .read ea (width_bytes_le w) h

theorem Act.orderly_wr {n : Nat} (c : Context) (w : Width) (p : Pfx) (l : Loc) (v : BitVec w.bits)
    {k : Context → Context} : (c.wr w p l v fun c' => .done (k c')).Orderly (n + 1) := by
  cases l with
  | reg r => exact .done ..
  | mem ea => exact .write ..

/-- ADD and SUB, where not both operands are memory (30_encoding.md R147). -/
theorem Act.orderly_aluStore (c : Context) (i : Instr) (p : Pfx) (op : AluOp) (w : Width) (d : RM)
    (src : Source w) (h : (∃ v, src = .imm v) ∨ (∃ r, src = .rm (.reg r)) ∨ ∃ r, d = .reg r) :
    (c.aluStore i p op w d src).Orderly 2 := by
  obtain ⟨v, rfl⟩ | ⟨r, rfl⟩ | ⟨r, rfl⟩ := h
  · simp only [Context.aluStore, Context.rdSource]
    exact orderly_rd _ _ _ _ (fun _ => orderly_wr ..) fun _ => orderly_wr ..
  · have e (k : BitVec w.bits → Act) : c.rdSource i w p (.rm (.reg r)) k = k (c.view w r p.rex.isSome) := rfl
    simp only [Context.aluStore, e]
    exact orderly_rd _ _ _ _ (fun _ => orderly_wr ..) fun _ => orderly_wr ..
  · cases src with
    | imm v => exact .done ..
    | rm x =>
      cases x with
      | reg k => exact .done ..
      | mem m => exact .read _ (width_bytes_le w) fun _ => .done ..

theorem Act.orderly_aluCompare (c : Context) (i : Instr) (p : Pfx) (w : Width) (d : RM) (src : Source w) :
    (c.aluCompare i p w d src).Orderly 2 := by
  cases src with
  | imm v =>
    simp only [Context.aluCompare, Context.rdSource]
    exact orderly_rd _ _ _ _ (fun _ => .done ..) fun _ => .done ..
  | rm x =>
    simp only [Context.aluCompare, Context.rdSource]
    exact orderly_rd _ _ _ _ (fun _ => orderly_rd _ _ _ _ (fun _ => .done ..) fun _ => .done ..)
      fun _ => orderly_rd _ _ _ _ (fun _ => .done ..) fun _ => .done ..

theorem Act.orderly_aluStep (c : Context) (i : Instr) (p : Pfx) (op : AluOp) (w : Width) (d : RM) :
    (c.aluStep i p op w d).Orderly 2 :=
  orderly_rd _ _ _ _ (fun _ => orderly_wr ..) fun _ => orderly_wr ..

theorem Act.orderly_move (c : Context) (i : Instr) (p : Pfx) (w : Width) (d : RM) (src : Source w) :
    (c.move i p w d src).Orderly 2 := by
  cases src with
  | imm v =>
    simp only [Context.move, Context.rdSource]
    exact orderly_wr ..
  | rm x =>
    simp only [Context.move, Context.rdSource]
    exact orderly_rd _ _ _ _ (fun _ => orderly_wr ..) fun _ => orderly_wr ..

theorem Act.orderly_jumpTo (c : Context) (i : Instr) (p : Pfx) (x : RM) : (c.jumpTo i p x).Orderly 2 :=
  orderly_rd _ _ _ _ (fun _ => .done ..) fun _ => .done ..

theorem Act.orderly_callTo (c : Context) (i : Instr) (p : Pfx) (x : RM) : (c.callTo i p x).Orderly 2 :=
  orderly_rd _ _ _ _ (fun _ => .write ..) fun _ => .write ..

theorem Act.orderly_vsource (c : Context) (i : Instr) (p : Pfx) (x : RM) {n : Nat} (hn : n ≤ 16)
    (f : VReg → BitVec (8 * n) × VReg) (k : BitVec (8 * n) → Context → Context) :
    (c.vsource i p x n f fun b c' => .done (k b c')).Orderly 2 := by
  unfold Context.vsource
  cases c.bind i p x with
  | reg r => exact .done ..
  | mem ea => exact .read ea hn fun _ => .done ..

theorem Act.orderly_compareScalar (c : Context) (i : Instr) (p : Pfx) (r : Reg) (x : RM) :
    (c.compareScalar i p r x).Orderly 2 := by
  simp only [Context.compareScalar]
  exact orderly_vsource _ _ _ _ (by decide) _ _

theorem Act.orderly_addPacked (c : Context) (i : Instr) (p : Pfx) (r : Reg) (x : RM) :
    (c.addPacked i p r x).Orderly 2 := by
  simp only [Context.addPacked]
  exact orderly_vsource _ _ _ _ (by decide) _ _

theorem Act.orderly_shiftBy (c : Context) (i : Instr) (p : Pfx) (kind : ShiftKind) (L : Nat) (r : Reg) (x : RM) :
    (c.shiftBy i p kind L r x).Orderly 2 := by
  simp only [Context.shiftBy]
  exact orderly_vsource (n := 4) _ _ _ _ (by decide) readCount _

theorem Act.orderly_vload (c : Context) (i : Instr) (p : Pfx) (r : Reg) (x : RM) {n : Nat} (hn : n ≤ 16)
    (read : VReg → BitVec (8 * n) × VReg) (write : VReg → BitVec (8 * n) → VReg) :
    (c.vload i p r x n read write).Orderly 2 := by
  unfold Context.vload
  cases c.bind i p x with
  | reg r => exact .done ..
  | mem ea => exact .read ea hn fun _ => .done ..

theorem Act.orderly_vstore (c : Context) (i : Instr) (p : Pfx) (d : RM) (r : Reg) (n : Nat)
    (read : VReg → BitVec (8 * n) × VReg) (write : VReg → BitVec (8 * n) → VReg) :
    (c.vstore i p d r n read write).Orderly 2 := by
  unfold Context.vstore
  cases c.bind i p d with
  | reg r => exact .done ..
  | mem ea => exact .write ..

/-- Every instruction makes at most two accesses, and none after its store. -/
theorem actOf_orderly (c : Context) : ∀ i : Instr, (actOf i c).Orderly 2
  | .addRm8R8 p d r => Act.orderly_aluStore c _ p .add .w8 d (.rm (.reg r))
      (.inr (.inl ⟨_, rfl⟩))
  | .addRmR p d r => Act.orderly_aluStore c _ p .add p.width d (.rm (.reg r))
      (.inr (.inl ⟨_, rfl⟩))
  | .addR8Rm8 p r x => Act.orderly_aluStore c _ p .add .w8 (.reg r) (.rm x)
      (.inr (.inr ⟨_, rfl⟩))
  | .addRRm p r x => Act.orderly_aluStore c _ p .add p.width (.reg r) (.rm x)
      (.inr (.inr ⟨_, rfl⟩))
  | .addAlI8 p v => Act.orderly_aluStore c _ p .add .w8 (.reg rax) (.imm v)
      (.inl ⟨_, rfl⟩)
  | .addAxIz p v => Act.orderly_aluStore c _ p .add p.width (.reg rax) (.imm (v.value p.width))
      (.inl ⟨_, rfl⟩)
  | .subRm8R8 p d r => Act.orderly_aluStore c _ p .sub .w8 d (.rm (.reg r))
      (.inr (.inl ⟨_, rfl⟩))
  | .subRmR p d r => Act.orderly_aluStore c _ p .sub p.width d (.rm (.reg r))
      (.inr (.inl ⟨_, rfl⟩))
  | .subR8Rm8 p r x => Act.orderly_aluStore c _ p .sub .w8 (.reg r) (.rm x)
      (.inr (.inr ⟨_, rfl⟩))
  | .subRRm p r x => Act.orderly_aluStore c _ p .sub p.width (.reg r) (.rm x)
      (.inr (.inr ⟨_, rfl⟩))
  | .subAlI8 p v => Act.orderly_aluStore c _ p .sub .w8 (.reg rax) (.imm v)
      (.inl ⟨_, rfl⟩)
  | .subAxIz p v => Act.orderly_aluStore c _ p .sub p.width (.reg rax) (.imm (v.value p.width))
      (.inl ⟨_, rfl⟩)
  | .cmpRm8R8 p d r => Act.orderly_aluCompare c _ p .w8 d (.rm (.reg r))
  | .cmpRmR p d r => Act.orderly_aluCompare c _ p p.width d (.rm (.reg r))
  | .cmpR8Rm8 p r x => Act.orderly_aluCompare c _ p .w8 (.reg r) (.rm x)
  | .cmpRRm p r x => Act.orderly_aluCompare c _ p p.width (.reg r) (.rm x)
  | .cmpAlI8 p v => Act.orderly_aluCompare c _ p .w8 (.reg rax) (.imm v)
  | .cmpAxIz p v => Act.orderly_aluCompare c _ p p.width (.reg rax) (.imm (v.value p.width))
  | .addRm8I8 p d v => Act.orderly_aluStore c _ p .add .w8 d (.imm v)
      (.inl ⟨_, rfl⟩)
  | .addRmIz p d v => Act.orderly_aluStore c _ p .add p.width d (.imm (v.value p.width))
      (.inl ⟨_, rfl⟩)
  | .addRmI8 p d v => Act.orderly_aluStore c _ p .add p.width d (.imm (v.signExtend p.width.bits))
      (.inl ⟨_, rfl⟩)
  | .subRm8I8 p d v => Act.orderly_aluStore c _ p .sub .w8 d (.imm v)
      (.inl ⟨_, rfl⟩)
  | .subRmIz p d v => Act.orderly_aluStore c _ p .sub p.width d (.imm (v.value p.width))
      (.inl ⟨_, rfl⟩)
  | .subRmI8 p d v => Act.orderly_aluStore c _ p .sub p.width d (.imm (v.signExtend p.width.bits))
      (.inl ⟨_, rfl⟩)
  | .cmpRm8I8 p d v => Act.orderly_aluCompare c _ p .w8 d (.imm v)
  | .cmpRmIz p d v => Act.orderly_aluCompare c _ p p.width d (.imm (v.value p.width))
  | .cmpRmI8 p d v => Act.orderly_aluCompare c _ p p.width d (.imm (v.signExtend p.width.bits))
  | .incRm8 p d => Act.orderly_aluStep c _ p .add .w8 d
  | .decRm8 p d => Act.orderly_aluStep c _ p .sub .w8 d
  | .incRm p d => Act.orderly_aluStep c _ p .add p.width d
  | .decRm p d => Act.orderly_aluStep c _ p .sub p.width d
  | .movRm8R8 p d r => Act.orderly_move c _ p .w8 d (.rm (.reg r))
  | .movRmR p d r => Act.orderly_move c _ p p.width d (.rm (.reg r))
  | .movR8Rm8 p r x => Act.orderly_move c _ p .w8 (.reg r) (.rm x)
  | .movRRm p r x => Act.orderly_move c _ p p.width (.reg r) (.rm x)
  | .movR8I8 p r v => Act.orderly_move c _ p .w8 (.reg r) (.imm v)
  | .movRIv p r v => Act.orderly_move c _ p p.width (.reg r) (.imm (v.value p.width))
  | .movRm8I8 p d v => Act.orderly_move c _ p .w8 d (.imm v)
  | .movRmIz p d v => Act.orderly_move c _ p p.width d (.imm (v.value p.width))
  | .nop _ => .done ..
  | .jmpRel8 _ _ => .done ..
  | .jmpRel32 _ _ => .done ..
  | .jmpRm p x => Act.orderly_jumpTo c _ p x
  | .joRel8 _ _ => .done ..
  | .jnoRel8 _ _ => .done ..
  | .jbRel8 _ _ => .done ..
  | .jaeRel8 _ _ => .done ..
  | .jeRel8 _ _ => .done ..
  | .jneRel8 _ _ => .done ..
  | .jbeRel8 _ _ => .done ..
  | .jaRel8 _ _ => .done ..
  | .jsRel8 _ _ => .done ..
  | .jnsRel8 _ _ => .done ..
  | .jpRel8 _ _ => .done ..
  | .jnpRel8 _ _ => .done ..
  | .jlRel8 _ _ => .done ..
  | .jgeRel8 _ _ => .done ..
  | .jleRel8 _ _ => .done ..
  | .jgRel8 _ _ => .done ..
  | .joRel32 _ _ => .done ..
  | .jnoRel32 _ _ => .done ..
  | .jbRel32 _ _ => .done ..
  | .jaeRel32 _ _ => .done ..
  | .jeRel32 _ _ => .done ..
  | .jneRel32 _ _ => .done ..
  | .jbeRel32 _ _ => .done ..
  | .jaRel32 _ _ => .done ..
  | .jsRel32 _ _ => .done ..
  | .jnsRel32 _ _ => .done ..
  | .jpRel32 _ _ => .done ..
  | .jnpRel32 _ _ => .done ..
  | .jlRel32 _ _ => .done ..
  | .jgeRel32 _ _ => .done ..
  | .jleRel32 _ _ => .done ..
  | .jgRel32 _ _ => .done ..
  | .callRel32 _ _ => .write ..
  | .callRm p x => Act.orderly_callTo c _ p x
  | .ret _ => .read _ (by decide) fun _ => .done ..
  | .comiss p r x => Act.orderly_compareScalar c _ p r x
  | .movssLoad p r x => Act.orderly_vload (n := 4) c _ p r x (by decide) VReg.readF32 VReg.writeF32
  | .movssStore p d r => Act.orderly_vstore c _ p d r 4 VReg.readF32 VReg.writeF32
  | .movsdLoad p r x => Act.orderly_vload (n := 8) c _ p r x (by decide) VReg.readF64 VReg.writeF64
  | .movsdStore p d r => Act.orderly_vstore c _ p d r 8 VReg.readF64 VReg.writeF64
  | .movdquLoad p r x => Act.orderly_vload (n := 16) c _ p r x (by decide) VReg.readRaw VReg.writeRaw
  | .movdquStore p d r => Act.orderly_vstore c _ p d r 16 VReg.readRaw VReg.writeRaw
  | .paddq p r x => Act.orderly_addPacked c _ p r x
  | .psrlwRm p r x => Act.orderly_shiftBy c _ p .srl 16 r x
  | .psrldRm p r x => Act.orderly_shiftBy c _ p .srl 32 r x
  | .psrlqRm p r x => Act.orderly_shiftBy c _ p .srl 64 r x
  | .psrawRm p r x => Act.orderly_shiftBy c _ p .sra 16 r x
  | .psradRm p r x => Act.orderly_shiftBy c _ p .sra 32 r x
  | .psllwRm p r x => Act.orderly_shiftBy c _ p .sll 16 r x
  | .pslldRm p r x => Act.orderly_shiftBy c _ p .sll 32 r x
  | .psllqRm p r x => Act.orderly_shiftBy c _ p .sll 64 r x
  | .psrlwImm _ _ _ => .done ..
  | .psrawImm _ _ _ => .done ..
  | .psllwImm _ _ _ => .done ..
  | .psrldImm _ _ _ => .done ..
  | .psradImm _ _ _ => .done ..
  | .pslldImm _ _ _ => .done ..
  | .psrlqImm _ _ _ => .done ..
  | .psllqImm _ _ _ => .done ..

theorem Act.Orderly.mono {n m : Nat} {x : Act} (h : x.Orderly n) (hm : n ≤ m) : x.Orderly m := by
  induction h generalizing m with
  | done n c => exact .done m c
  | read a hk h ih =>
    obtain ⟨m, rfl⟩ : ∃ j, m = j + 1 := ⟨m - 1, by omega⟩
    exact .read a hk fun v => ih v (by omega)
  | write n a v c =>
    obtain ⟨m, rfl⟩ : ∃ j, m = j + 1 := ⟨m - 1, by omega⟩
    exact .write m a v c

/-! ## Accesses with nothing in between -/

/-- What is left of a step after an access with the answer `x`. -/
def Block.goOn (k n : Nat) : Block × Report → Block × Report
  | (b, .done) => b.finishStep k n
  | x => x

theorem Block.finishStep_succ (b : Block) (k n : Nat) :
    b.finishStep k (n + 1) = Block.goOn k n (b.access k) := by
  rw [Block.finishStep]
  rcases b.access k with ⟨b', r⟩
  cases r <;> rfl

/-- The block after the accesses of a step of context `k`, from what they answer together. -/
def Block.ended (b : Block) (k : Nat) (c : Context) : Except Fault (Context × Vmm) → Block × Report
  | .error f => ({ b with cpus := b.cpus.set k ⟨c, none⟩ }, .fault f)
  | .ok (c', m) => ({ vmm := m, cpus := b.cpus.set k ⟨c', none⟩ }, .advanced)

/-- An access of a context inside a step. -/
theorem Block.access_going {b : Block} {k : Nat} (hk : k < b.cpus.length) (c : Context) (g : Stage) :
    ({ b with cpus := b.cpus.set k ⟨c, some g⟩ } : Block).access k = b.turn k c (g.next c b.vmm) := by
  simp only [Block.access, List.getElem?_set_self hk, Option.getD_some]
  rcases h : g.next c b.vmm with ⟨_ | _ | _, m⟩ <;> simp only [Block.turn, List.set_set]

/-- Execute (42_control_transfer.md R220): where the answers `got` leave `x` of instruction `i`, the accesses that
are left do together what `x` does. -/
theorem Block.goOn_settle {n : Nat} {x : Act} (hx : x.Orderly n) {i : Instr} {c : Context} {got : List Answer}
    (h : ∀ more, (actOf i c).resume (got ++ more) = x.resume more) {b : Block} {k : Nat}
    (hk : k < b.cpus.length) :
    Block.goOn k n (b.turn k c (settle c i got, b.vmm)) = b.ended k c (x.run b.vmm) := by
  have h0 : (actOf i c).resume got = x := by
    have := h []
    rw [List.append_nil] at this
    rw [this]
    cases x <;> rfl
  induction hx generalizing got b with
  | done n c' => simp only [settle, h0, Block.turn, Block.goOn, Act.run, Block.ended]
  | @read n a j rest hj hr ih =>
    simp only [settle, h0, Block.turn, Block.goOn, Block.finishStep_succ, Act.run]
    rw [Block.access_going hk]
    simp only [Stage.next, h0]
    cases hm : b.vmm.memRead a j with
    | error f => rfl
    | ok v =>
      have hv : (v.setWidth 128).setWidth (8 * j) = v := by
        rw [BitVec.setWidth_setWidth_of_le _ (by omega), BitVec.setWidth_eq]
      have h' : ∀ more, (actOf i c).resume (got ++ [.value (v.setWidth 128)] ++ more) = (rest v).resume more := by
        intro more
        rw [List.append_assoc, h, List.singleton_append, Act.resume, hv]
      refine ih v h' hk ?_
      have := h' []
      rw [List.append_nil] at this
      rw [this]
      cases rest v <;> rfl
  | @write n a j v c' =>
    simp only [settle, h0, Block.turn, Block.goOn, Block.finishStep_succ, Act.run]
    rw [Block.access_going hk]
    simp only [Stage.next, h0]
    cases hm : b.vmm.memWrite a j v with
    | error f => rfl
    | ok m =>
      have h' : (actOf i c).resume (got ++ [.stored]) = .done c' := by
        rw [h, Act.resume, Act.resume]
      simp only [settle, h', Block.turn, Block.ended]

/-! ## What one access leaves alone -/

@[simp] theorem Block.turn_vmm (b : Block) (k : Nat) (c : Context) (t : Turn × Vmm) :
    (b.turn k c t).1.vmm = t.2 := by
  rcases t with ⟨_ | _ | _, m⟩ <;> rfl

theorem Block.turn_other {b : Block} {k j : Nat} (c : Context) (t : Turn × Vmm) (h : k ≠ j) :
    (b.turn k c t).1.cpus[j]? = b.cpus[j]? := by
  rcases t with ⟨_ | _ | _, m⟩ <;> simp [Block.turn, h]

theorem Vmm.memWrite_stored {m m' : Vmm} {a : Word} {n : Nat} {v : BitVec (8 * n)} (h : m.memWrite a n v = .ok m') :
    m.permits a n .write = true ∧ m' = m.stored a n v := by
  let s : State := { ctx := Context.reset, vmm := m, parked := [] }
  have hs : s.memWrite a n v = .ok (s.setVmm m') := by simp only [State.memWrite, s, h]
  obtain ⟨hp, e⟩ := State.memWrite_ok hs
  exact ⟨hp, congrArg State.vmm e⟩

/-- All that an access does to the manager: nothing, or a permitted store. -/
theorem Stage.next_vmm (c : Context) (m : Vmm) (g : Stage) :
    (g.next c m).2 = m ∨ ∃ (a : Word) (n : Nat) (v : BitVec (8 * n)),
      m.permits a n .write = true ∧ (g.next c m).2 = m.stored a n v := by
  cases g with
  | fetch raw => simp only [Stage.next]; split <;> exact .inl rfl
  | execute i got =>
    simp only [Stage.next]
    split
    · exact .inl rfl
    · split <;> exact .inl rfl
    · split
      · exact .inl rfl
      · rename_i h
        exact .inr ⟨_, _, _, (Vmm.memWrite_stored h).1, (Vmm.memWrite_stored h).2⟩

end Sys2Proof.Machine
end

