-- ==== Sys2Proof/Laws/VRegs.lean ====
section
/-! SUPPORT. What each operation on a vector register does to its value (10_state.md R42 to R52): a read
answers the low bits and keeps the value, a write changes the low bits and no other. -/

namespace Sys2Proof.Machine

theorem getLsbD_setLow {k : Nat} (old : Wide) (v : BitVec k) (hk : k ≤ 512) (j : Nat) :
    (setLow old v).getLsbD j = if j < k then v.getLsbD j else old.getLsbD j := by
  unfold setLow
  simp only [BitVec.getLsbD_or, BitVec.getLsbD_shiftLeft, BitVec.getLsbD_ushiftRight,
    BitVec.getLsbD_setWidth]
  by_cases hj : j < k
  · have h2 : j < 512 := by omega
    simp [hj, h2]
  · have hv : v.getLsbD j = false := BitVec.getLsbD_of_ge v j (by omega)
    by_cases h2 : j < 512
    · simp [hj, h2, hv, show k + (j - k) = j by omega]
    · simp [hj, h2, BitVec.getLsbD_of_ge old j (by omega)]

/-- `Val` bit by bit (R42). -/
theorem VReg.getLsbD_val (r : VReg) (j : Nat) :
    r.val.getLsbD j = match r.tag with
      | .raw => r.raw.getLsbD j
      | .f32 => if j < 32 then r.c32.getLsbD j else r.raw.getLsbD j
      | .f64 => if j < 64 then r.c64.getLsbD j else r.raw.getLsbD j := by
  obtain ⟨raw, tag, c32, c64⟩ := r
  cases tag <;> simp only [VReg.val]
  · exact getLsbD_setLow raw c32 (by omega) j
  · exact getLsbD_setLow raw c64 (by omega) j

@[simp] theorem VReg.materialize_raw (r : VReg) : r.materialize.raw = r.val := rfl
@[simp] theorem VReg.materialize_tag (r : VReg) : r.materialize.tag = .raw := rfl
@[simp] theorem VReg.materialize_c32 (r : VReg) : r.materialize.c32 = r.c32 := rfl
@[simp] theorem VReg.materialize_c64 (r : VReg) : r.materialize.c64 = r.c64 := rfl
@[simp] theorem VReg.materialize_val (r : VReg) : r.materialize.val = r.val := rfl

theorem VReg.val_of_raw {r : VReg} (h : r.tag = .raw) : r.val = r.raw := by simp [VReg.val, h]

theorem VReg.c32_eq {r : VReg} (h : r.tag = .f32) : r.c32 = r.val.setWidth 32 := by
  apply BitVec.eq_of_getLsbD_eq
  intro i hi
  simp [VReg.getLsbD_val, h, hi]

theorem VReg.c64_eq {r : VReg} (h : r.tag = .f64) : r.c64 = r.val.setWidth 64 := by
  apply BitVec.eq_of_getLsbD_eq
  intro i hi
  simp [VReg.getLsbD_val, h, hi]

/-! ## Reads -/

@[simp] theorem VReg.readRaw_fst (r : VReg) : r.readRaw.1 = r.val.setWidth 128 := by
  unfold VReg.readRaw
  split
  · rw [VReg.val_of_raw ‹_›]
  · rfl

@[simp] theorem VReg.readRaw_val (r : VReg) : r.readRaw.2.val = r.val := by
  unfold VReg.readRaw
  split <;> rfl

@[simp] theorem VReg.readF32_fst (r : VReg) : r.readF32.1 = r.val.setWidth 32 := by
  unfold VReg.readF32
  split
  · exact VReg.c32_eq ‹_›
  · rfl

@[simp] theorem VReg.readF32_val (r : VReg) : r.readF32.2.val = r.val := by
  unfold VReg.readF32
  split <;> rfl

@[simp] theorem VReg.readF64_fst (r : VReg) : r.readF64.1 = r.val.setWidth 64 := by
  unfold VReg.readF64
  split
  · exact VReg.c64_eq ‹_›
  · rfl

@[simp] theorem VReg.readF64_val (r : VReg) : r.readF64.2.val = r.val := by
  unfold VReg.readF64
  split <;> rfl

@[simp] theorem VReg.readWide_fst (r : VReg) : r.readWide.1 = r.val := by
  unfold VReg.readWide
  split
  · rw [VReg.val_of_raw ‹_›]
  · rfl

@[simp] theorem VReg.readWide_val (r : VReg) : r.readWide.2.val = r.val := by
  unfold VReg.readWide
  split <;> rfl

@[simp] theorem readCount_fst (r : VReg) : (readCount r).1 = r.val.setWidth 32 := by
  simp only [readCount, VReg.readRaw_fst]
  exact BitVec.setWidth_setWidth_of_le _ (by omega)

@[simp] theorem readCount_val (r : VReg) : (readCount r).2.val = r.val := VReg.readRaw_val r

/-! ## Writes -/

theorem VReg.getLsbD_writeRaw (r : VReg) (v : BitVec 128) (j : Nat) :
    (r.writeRaw v).val.getLsbD j = if j < 128 then v.getLsbD j else r.val.getLsbD j := by
  have h : (r.writeRaw v).val = setLow r.raw v := rfl
  rw [h, getLsbD_setLow _ _ (by omega), VReg.getLsbD_val]
  by_cases hj : j < 128
  · simp [hj]
  · have h1 : ¬ j < 32 := by omega
    have h2 : ¬ j < 64 := by omega
    cases r.tag <;> simp [hj, h1, h2]

theorem VReg.getLsbD_writeF32 (r : VReg) (v : BitVec 32) (j : Nat) :
    (r.writeF32 v).val.getLsbD j = if j < 32 then v.getLsbD j else r.val.getLsbD j := by
  obtain ⟨raw, tag, c32, c64⟩ := r
  rw [VReg.getLsbD_val]
  cases tag <;> simp only [VReg.writeF32, VReg.getLsbD_val, VReg.materialize_raw, reduceCtorEq,
    if_true, if_false]
  split <;> rfl

theorem VReg.getLsbD_writeF64 (r : VReg) (v : BitVec 64) (j : Nat) :
    (r.writeF64 v).val.getLsbD j = if j < 64 then v.getLsbD j else r.val.getLsbD j := by
  obtain ⟨raw, tag, c32, c64⟩ := r
  rw [VReg.getLsbD_val]
  cases tag <;> simp only [VReg.writeF64, VReg.getLsbD_val, VReg.materialize_raw, reduceCtorEq,
    if_true, if_false]
  split <;> rfl

@[simp] theorem VReg.writeWide_val (r : VReg) (v : Wide) : (r.writeWide v).val = v := rfl

end Sys2Proof.Machine
end

