-- ==== Sys2Proof/Laws/Exec.lean ====
section
/-! SUPPORT. What each shared operation of the instruction meanings can do: `_completes` gives its next state
where its accesses are permitted, and `_next` says that it answers a next state in no other case. -/

namespace Sys2Proof.Machine

theorem finish_next {r : Except Fault State} {t : State} (h : finish r = .next t) : r = .ok t := by
  cases r with
  | error f => cases h
  | ok u => cases h; rfl

theorem finish_not_refused (r : Except Fault State) (x : Refusal) : finish r ≠ .refused x := by
  cases r <;> simp [finish]

theorem ok_bind {α β : Type} (a : α) (f : α → Except Fault β) : (Except.ok a >>= f) = f a := rfl

theorem error_bind {α β : Type} (e : Fault) (f : α → Except Fault β) : (Except.error e >>= f) = .error e := rfl

theorem bind_ok {α β : Type} {x : Except Fault α} {f : α → Except Fault β} {b : β}
    (h : (x >>= f) = .ok b) : ∃ a, x = .ok a ∧ f a = .ok b := by
  cases x with
  | error e => cases h
  | ok a => exact ⟨a, rfl, h⟩

/-! ## Integer operations (Machine/Arith.lean, Machine/Move.lean) -/

theorem State.aluStore_completes {s : State} {i : Instr} {p : Pfx} {op : AluOp} {w : Width} {d : RM}
    {src : Source w} (h1 : (s.bind i p d).readable s w = true) (h2 : src.readable s i p = true)
    (h3 : (s.bind i p d).writable s w = true) :
    s.aluStore i p op w d src = .next (((s.written w p
      (op.result (s.valueOf w p (s.bind i p d)) (s.sourceValue i p src)) (s.bind i p d)).setFlags
      (op.flags (s.valueOf w p (s.bind i p d)) (s.sourceValue i p src) s.ctx.flags)).setPc (s.npc i)) := by
  rw [State.aluStore_eq]
  simp only [State.rd_readable h1, State.rdSource_readable h2, ok_bind, State.wr_writable h3]
  rfl

theorem State.aluStore_next {s t : State} {i : Instr} {p : Pfx} {op : AluOp} {w : Width} {d : RM}
    {src : Source w} (h : s.aluStore i p op w d src = .next t) :
    (s.bind i p d).readable s w = true ∧ src.readable s i p = true ∧ (s.bind i p d).writable s w = true := by
  rw [State.aluStore_eq] at h
  obtain ⟨a, ha, h⟩ := bind_ok (finish_next h)
  obtain ⟨b, hb, h⟩ := bind_ok h
  obtain ⟨u, hu, -⟩ := bind_ok h
  exact ⟨(State.rd_ok ha).1, (State.rdSource_ok hb).1, (State.wr_ok hu).1⟩

theorem State.aluCompare_completes {s : State} {i : Instr} {p : Pfx} {w : Width} {d : RM}
    {src : Source w} (h1 : (s.bind i p d).readable s w = true) (h2 : src.readable s i p = true) :
    s.aluCompare i p w d src = .next ((s.setFlags (AluOp.sub.flags (s.valueOf w p (s.bind i p d))
      (s.sourceValue i p src) s.ctx.flags)).setPc (s.npc i)) := by
  rw [State.aluCompare_eq]
  rw [State.rd_readable h1, State.rdSource_readable h2]
  rfl

theorem State.aluCompare_next {s t : State} {i : Instr} {p : Pfx} {w : Width} {d : RM}
    {src : Source w} (h : s.aluCompare i p w d src = .next t) :
    (s.bind i p d).readable s w = true ∧ src.readable s i p = true := by
  rw [State.aluCompare_eq] at h
  obtain ⟨a, ha, h⟩ := bind_ok (finish_next h)
  obtain ⟨b, hb, -⟩ := bind_ok h
  exact ⟨(State.rd_ok ha).1, (State.rdSource_ok hb).1⟩

theorem State.aluStep_completes {s : State} {i : Instr} {p : Pfx} {op : AluOp} {w : Width} {d : RM}
    (h1 : (s.bind i p d).readable s w = true) (h3 : (s.bind i p d).writable s w = true) :
    s.aluStep i p op w d = .next (((s.written w p (op.result (s.valueOf w p (s.bind i p d)) 1)
      (s.bind i p d)).setFlags (op.flagsKeepCarry (s.valueOf w p (s.bind i p d)) s.ctx.flags)).setPc
      (s.npc i)) := by
  rw [State.aluStep_eq]
  simp only [State.rd_readable h1, ok_bind, State.wr_writable h3]
  rfl

theorem State.aluStep_next {s t : State} {i : Instr} {p : Pfx} {op : AluOp} {w : Width} {d : RM}
    (h : s.aluStep i p op w d = .next t) :
    (s.bind i p d).readable s w = true ∧ (s.bind i p d).writable s w = true := by
  rw [State.aluStep_eq] at h
  obtain ⟨a, ha, h⟩ := bind_ok (finish_next h)
  obtain ⟨u, hu, -⟩ := bind_ok h
  exact ⟨(State.rd_ok ha).1, (State.wr_ok hu).1⟩

theorem State.move_completes {s : State} {i : Instr} {p : Pfx} {w : Width} {d : RM}
    {src : Source w} (h2 : src.readable s i p = true) (h3 : (s.bind i p d).writable s w = true) :
    s.move i p w d src
      = .next ((s.written w p (s.sourceValue i p src) (s.bind i p d)).setPc (s.npc i)) := by
  rw [State.move_eq]
  rw [State.rdSource_readable h2]
  simp only [ok_bind, State.wr_writable h3]
  rfl

theorem State.move_next {s t : State} {i : Instr} {p : Pfx} {w : Width} {d : RM}
    {src : Source w} (h : s.move i p w d src = .next t) :
    src.readable s i p = true ∧ (s.bind i p d).writable s w = true := by
  rw [State.move_eq] at h
  obtain ⟨b, hb, h⟩ := bind_ok (finish_next h)
  obtain ⟨u, hu, -⟩ := bind_ok h
  exact ⟨(State.rdSource_ok hb).1, (State.wr_ok hu).1⟩

/-! ## Control transfers (Machine/Control.lean) -/

theorem State.jumpTo_completes {s : State} {i : Instr} {p : Pfx} {x : RM}
    (h : (s.bind i p x).readable s .w64 = true) :
    s.jumpTo i p x = .next (s.setPc (s.valueOf .w64 p (s.bind i p x))) := by
  rw [State.jumpTo_eq]
  rw [State.rd_readable h]
  rfl

theorem State.jumpTo_next {s t : State} {i : Instr} {p : Pfx} {x : RM} (h : s.jumpTo i p x = .next t) :
    (s.bind i p x).readable s .w64 = true := by
  rw [State.jumpTo_eq] at h
  obtain ⟨a, ha, -⟩ := bind_ok (finish_next h)
  exact (State.rd_ok ha).1

/-- The state after a push of the return address and a transfer to `target`. -/
def State.called (s : State) (i : Instr) (target : Word) : State :=
  ((s.setVmm (s.vmm.stored (s.reg rsp - 8) 8 (s.npc i))).setReg rsp (s.reg rsp - 8)).setPc target

@[simp] theorem State.called_pc (s : State) (i : Instr) (target : Word) :
    (s.called i target).ctx.pc = target := rfl
@[simp] theorem State.called_flags (s : State) (i : Instr) (target : Word) :
    (s.called i target).ctx.flags = s.ctx.flags := rfl
@[simp] theorem State.called_vreg (s : State) (i : Instr) (target : Word) (k : Reg) :
    (s.called i target).vreg k = s.vreg k := rfl
@[simp] theorem State.called_vmm (s : State) (i : Instr) (target : Word) :
    (s.called i target).vmm = s.vmm.stored (s.reg rsp - 8) 8 (s.npc i) := rfl
@[simp] theorem State.called_parked (s : State) (i : Instr) (target : Word) :
    (s.called i target).parked = s.parked := rfl

theorem State.called_reg (s : State) (i : Instr) (target : Word) (k : Reg) :
    (s.called i target).reg k = if k = rsp then s.reg rsp - 8 else s.reg k := by
  simp [State.called, State.reg_setReg]

/-- The bytes after a call: the return address below the old RSP. -/
theorem State.called_byteAt {s : State} (i : Instr) (target : Word)
    (h : s.vmm.permits (s.reg rsp - 8) 8 .write = true) (k : Word) :
    (s.called i target).byteAt k
      = if (k - (s.reg rsp - 8)).toNat < 8 then byteOf (s.npc i) (k - (s.reg rsp - 8)).toNat
        else s.byteAt k := by
  have := State.storedAt_stored (n := 8) (s.npc i) h k
  rw [← this]
  simp only [State.byteAt, State.called_vmm, State.setVmm_vmm]

theorem State.pushAndGo_permitted {s : State} {i : Instr} {target : Word}
    (h : s.vmm.permits (s.reg rsp - 8) 8 .write = true) :
    s.pushAndGo i target = .ok (s.called i target) := by
  unfold State.pushAndGo
  simp only [ok_bind, State.memWrite_permitted h]
  rfl

theorem State.pushAndGo_ok {s t : State} {i : Instr} {target : Word} (h : s.pushAndGo i target = .ok t) :
    s.vmm.permits (s.reg rsp - 8) 8 .write = true := by
  obtain ⟨u, hu, -⟩ := bind_ok h
  exact (State.memWrite_ok hu).1

theorem State.callRel_completes {s : State} {i : Instr} {off : Word}
    (h : s.vmm.permits (s.reg rsp - 8) 8 .write = true) :
    s.callRel i off = .next (s.called i (s.npc i + off)) := by
  rw [State.callRel_eq, State.pushAndGo_permitted h, finish]

theorem State.callTo_completes {s : State} {i : Instr} {p : Pfx} {x : RM}
    (h1 : (s.bind i p x).readable s .w64 = true) (h2 : s.vmm.permits (s.reg rsp - 8) 8 .write = true) :
    s.callTo i p x = .next (s.called i (s.valueOf .w64 p (s.bind i p x))) := by
  rw [State.callTo_eq]
  simp only [State.rd_readable h1, ok_bind, State.pushAndGo_permitted h2, finish]

theorem State.callTo_next {s t : State} {i : Instr} {p : Pfx} {x : RM} (h : s.callTo i p x = .next t) :
    (s.bind i p x).readable s .w64 = true ∧ s.vmm.permits (s.reg rsp - 8) 8 .write = true := by
  rw [State.callTo_eq] at h
  obtain ⟨a, ha, h⟩ := bind_ok (finish_next h)
  exact ⟨(State.rd_ok ha).1, State.pushAndGo_ok h⟩

theorem State.popAndGo_completes {s : State} (h : s.vmm.permits (s.reg rsp) 8 .read = true) :
    s.popAndGo = .next ((s.setReg rsp (s.reg rsp + 8)).setPc (s.bytesAt (s.reg rsp) 8)) := by
  rw [State.popAndGo_eq]
  rw [State.memRead_permitted h]
  rfl

theorem State.popAndGo_next {s t : State} (h : s.popAndGo = .next t) :
    s.vmm.permits (s.reg rsp) 8 .read = true := by
  rw [State.popAndGo_eq] at h
  obtain ⟨a, ha, -⟩ := bind_ok (finish_next h)
  exact (State.memRead_ok ha).1

/-! ## Vector operations (Machine/Vector.lean)

The state after such an operation is `s` with some vector registers replaced, so each lemma says what their
values are and that nothing else differs. -/

/-- Two states that differ at most in the representation of vector registers. -/
structure State.SameButTags (s t : State) : Prop where
  x : t.ctx.x = s.ctx.x
  pc : t.ctx.pc = s.ctx.pc
  flags : t.ctx.flags = s.ctx.flags
  val : ∀ k, t.val k = s.val k
  vmm : t.vmm = s.vmm
  parked : t.parked = s.parked

theorem State.SameButTags.refl (s : State) : s.SameButTags s := ⟨rfl, rfl, rfl, fun _ => rfl, rfl, rfl⟩

theorem State.SameButTags.trans {s t u : State} (h : s.SameButTags t) (h' : t.SameButTags u) :
    s.SameButTags u :=
  ⟨h'.x.trans h.x, h'.pc.trans h.pc, h'.flags.trans h.flags, fun k => (h'.val k).trans (h.val k),
    h'.vmm.trans h.vmm, h'.parked.trans h.parked⟩

/-- Replacing a vector register by one of the same value. -/
theorem State.sameButTags_setVreg {s : State} {k : Reg} {r : VReg} (h : r.val = s.val k) :
    s.SameButTags (s.setVreg k r) := by
  refine ⟨rfl, rfl, rfl, fun n => ?_, rfl, rfl⟩
  rw [State.val_setVreg]
  split
  · rename_i e; rw [e, h]
  · rfl

/-- A read of a representation that keeps the value. -/
theorem State.sameButTags_vread {α : Type} {s : State} {f : VReg → α × VReg} {k : Reg}
    (h : (f (s.vreg k)).2.val = (s.vreg k).val) : s.SameButTags (s.vread f k).2 :=
  State.sameButTags_setVreg h

theorem State.SameButTags.reg {s t : State} (h : s.SameButTags t) (k : Reg) : t.reg k = s.reg k := by
  simp [State.reg, Context.reg, h.x]

theorem State.SameButTags.npc {s t : State} (h : s.SameButTags t) (i : Instr) : t.npc i = s.npc i := by
  simp [State.npc, Context.npc, h.pc]

theorem effectiveAddress_congr {c c' : Context} (h : c'.x = c.x) (n : Word) (p : Pfx) (m : MemOp) :
    effectiveAddress c' n p m = effectiveAddress c n p m := by
  cases m with
  | base b d => simp [effectiveAddress, addressExpr, Context.reg, h]
  | sib b idx sc d => cases idx <;> simp [effectiveAddress, addressExpr, indexTerm, Context.reg, h]
  | sibNoBase idx sc d => cases idx <;> simp [effectiveAddress, addressExpr, indexTerm, Context.reg, h]
  | npcRel d => rfl

theorem State.SameButTags.bind {s t : State} (h : s.SameButTags t) (i : Instr) (p : Pfx) (x : RM) :
    t.bind i p x = s.bind i p x := by
  cases x with
  | reg n => rfl
  | mem m => simp [State.bind, Context.bind, Context.npc, h.pc, effectiveAddress_congr h.x]

theorem State.SameButTags.bytesAt {s t : State} (h : s.SameButTags t) (a : Word) (n : Nat) :
    t.bytesAt a n = s.bytesAt a n := by
  simp [State.bytesAt, State.byteAt, h.vmm]

/-- A vector source that can be read: its value, and a state with the same values. -/
theorem State.vsource_readable {s : State} {i : Instr} {p : Pfx} {x : RM} {n : Nat}
    {f : VReg → BitVec (8 * n) × VReg} (hf : ∀ r, (f r).1 = r.val.setWidth (8 * n))
    (hv : ∀ r, (f r).2.val = r.val) (h : (s.bind i p x).vreadable s n = true) :
    ∃ u, s.vsource i p x n f = .ok (s.vvalueOf n (s.bind i p x), u) ∧ s.SameButTags u := by
  unfold State.vsource
  cases hb : s.bind i p x with
  | reg k =>
    exact ⟨(s.vread f k).2, by simp only [State.vvalueOf, State.val, ← hf]; rfl, State.sameButTags_vread (hv _)⟩
  | mem ea =>
    rw [hb] at h
    exact ⟨s, by simp only [State.memRead_permitted (s := s) h]; rfl, .refl s⟩

theorem State.vsource_denied {s : State} {i : Instr} {p : Pfx} {x : RM} {n : Nat}
    {f : VReg → BitVec (8 * n) × VReg} (h : (s.bind i p x).vreadable s n = false) :
    ∃ ea, s.bind i p x = .mem ea ∧ s.vsource i p x n f = .error (s.vmm.denied ea n .read) := by
  unfold State.vsource
  cases hb : s.bind i p x with
  | reg k => rw [hb] at h; cases h
  | mem ea =>
    rw [hb] at h
    exact ⟨ea, rfl, by simp only [State.memRead_denied (s := s) h]; rfl⟩

/-- COMISS where its second operand can be read. -/
theorem State.compareScalar_completes {s : State} {i : Instr} {p : Pfx} {r : Reg} {x : RM}
    (h : (s.bind i p x).vreadable s 4 = true) :
    ∃ u, s.SameButTags u ∧ s.compareScalar i p r x = .next ((u.setFlags
      ((cmp32 ((s.val r).setWidth 32) (s.vvalueOf 4 (s.bind i p x))).flags s.ctx.flags)).setPc (s.npc i)) := by
  have ha := State.sameButTags_vread (s := s) (VReg.readF32_val (s.vreg r))
  have hm : (s.vread VReg.readF32 r).2.vvalueOf 4 (s.bind i p x) = s.vvalueOf 4 (s.bind i p x) := by
    cases s.bind i p x with
    | reg k => simp only [State.vvalueOf, ha.val]
    | mem ea => exact ha.bytesAt ea 4
  have hr : ((s.vread VReg.readF32 r).2.bind i p x).vreadable (s.vread VReg.readF32 r).2 4 = true := by
    rw [ha.bind]; exact h
  obtain ⟨u, hu, hs⟩ := State.vsource_readable (f := VReg.readF32) VReg.readF32_fst VReg.readF32_val hr
  rw [ha.bind, hm] at hu
  refine ⟨u, ha.trans hs, ?_⟩
  rw [State.compareScalar_eq]
  simp only [hu, ok_bind, State.vread_fst, VReg.readF32_fst]
  rfl

/-- The write of `v` into the low 128 bits of `r`, after reads that kept every value. -/
theorem State.vwrote_writeRaw {s u : State} (h : s.SameButTags u) (r : Reg) (v : BitVec 128) :
    s.VWrote (u.setVreg r ((u.vreg r).writeRaw v)) r v := by
  refine ⟨fun j => ?_, fun k hk => ?_⟩
  · rw [State.val_setVreg, if_pos rfl, VReg.getLsbD_writeRaw, ← h.val]; rfl
  · rw [State.val_setVreg, if_neg hk, h.val]

/-- What `vwrote` needs of a register write at `8 * n` bits. -/
theorem State.vwrote_write {n : Nat} {write : VReg → BitVec n → VReg}
    (hw : ∀ r v j, (write r v).val.getLsbD j = if j < n then v.getLsbD j else r.val.getLsbD j)
    {s u : State} (h : s.SameButTags u) (r : Reg) (v : BitVec n) :
    s.VWrote (u.setVreg r (write (u.vreg r) v)) r v := by
  refine ⟨fun j => ?_, fun k hk => ?_⟩
  · rw [State.val_setVreg, if_pos rfl, hw, ← h.val]; rfl
  · rw [State.val_setVreg, if_neg hk, h.val]

/-- Reading a vector source after a read of `r`: as from the state before. -/
theorem State.vsource_after {s : State} {i : Instr} {p : Pfx} {r : Reg} {x : RM} {n : Nat}
    {f : VReg → BitVec (8 * n) × VReg} (hf : ∀ r, (f r).1 = r.val.setWidth (8 * n))
    (hv : ∀ r, (f r).2.val = r.val) (h : (s.bind i p x).vreadable s n = true) :
    ∃ u, (s.vread VReg.readRaw r).2.vsource i p x n f = .ok (s.vvalueOf n (s.bind i p x), u) ∧
      s.SameButTags u := by
  have ha := State.sameButTags_vread (s := s) (VReg.readRaw_val (s.vreg r))
  have hm : (s.vread VReg.readRaw r).2.vvalueOf n (s.bind i p x) = s.vvalueOf n (s.bind i p x) := by
    cases s.bind i p x with
    | reg k => simp only [State.vvalueOf, ha.val]
    | mem ea => exact ha.bytesAt ea n
  have hr : ((s.vread VReg.readRaw r).2.bind i p x).vreadable (s.vread VReg.readRaw r).2 n = true := by
    rw [ha.bind]; exact h
  obtain ⟨u, hu, hs⟩ := State.vsource_readable hf hv hr
  rw [ha.bind, hm] at hu
  exact ⟨u, hu, ha.trans hs⟩

/-- PADDQ where its second operand can be read. -/
theorem State.addPacked_completes {s : State} {i : Instr} {p : Pfx} {r : Reg} {x : RM}
    (h : (s.bind i p x).vreadable s 16 = true) :
    ∃ u, s.SameButTags u ∧ s.addPacked i p r x = .next ((u.setVreg r ((u.vreg r).writeRaw
      (packedAdd64 ((s.val r).setWidth 128) (s.vvalueOf 16 (s.bind i p x))))).setPc (s.npc i)) := by
  obtain ⟨u, hu, hs⟩ := State.vsource_after (r := r) VReg.readRaw_fst VReg.readRaw_val h
  refine ⟨u, hs, ?_⟩
  rw [State.addPacked_eq]
  simp only [hu, ok_bind, State.vread_fst, VReg.readRaw_fst]
  rfl

/-- A packed shift by a count operand where that operand can be read. -/
theorem State.shiftBy_completes {s : State} {i : Instr} {p : Pfx} {kind : ShiftKind} {L : Nat} {r : Reg}
    {x : RM} (h : (s.bind i p x).vreadable s 4 = true) :
    ∃ u, s.SameButTags u ∧ s.shiftBy i p kind L r x = .next ((u.setVreg r ((u.vreg r).writeRaw
      (packedShift kind L ((s.val r).setWidth 128) (s.vvalueOf 4 (s.bind i p x))))).setPc (s.npc i)) := by
  obtain ⟨u, hu, hs⟩ := State.vsource_after (f := readCount) (r := r) readCount_fst readCount_val h
  refine ⟨u, hs, ?_⟩
  rw [State.shiftBy_eq]
  simp only [hu, ok_bind, State.vread_fst, VReg.readRaw_fst]
  rfl

/-- A packed shift by an immediate count. -/
theorem State.shiftImm_completes (s : State) (i : Instr) (kind : ShiftKind) (L : Nat) (r : Reg)
    (v : BitVec 8) :
    ∃ u, s.SameButTags u ∧ s.shiftImm i kind L r v = .next ((u.setVreg r ((u.vreg r).writeRaw
      (packedShift kind L ((s.val r).setWidth 128) (v.setWidth 32)))).setPc (s.npc i)) := by
  refine ⟨(s.vread VReg.readRaw r).2, State.sameButTags_vread (VReg.readRaw_val _), ?_⟩
  simp only [State.shiftImm_eq, State.vread_fst, VReg.readRaw_fst]
  rfl

/-- A vector move to a register where its source can be read. -/
theorem State.vload_completes {s : State} {i : Instr} {p : Pfx} {r : Reg} {x : RM} {n : Nat}
    {read : VReg → BitVec (8 * n) × VReg} {write : VReg → BitVec (8 * n) → VReg}
    (hf : ∀ r, (read r).1 = r.val.setWidth (8 * n)) (hv : ∀ r, (read r).2.val = r.val)
    (h : (s.bind i p x).vreadable s n = true) :
    ∃ u, s.SameButTags u ∧ s.vload i p r x n read write = .next (match s.bind i p x with
      | .reg k => (u.setVreg r (write (u.vreg r) ((s.val k).setWidth (8 * n)))).setPc (s.npc i)
      | .mem ea => (u.setVreg r ((u.vreg r).writeRaw ((s.bytesAt ea n).setWidth 128))).setPc (s.npc i)) := by
  rw [State.vload_eq]
  cases hb : s.bind i p x with
  | reg k =>
    refine ⟨(s.vread read k).2, State.sameButTags_vread (hv _), ?_⟩
    simp only [State.vread_fst, hf]
    rfl
  | mem ea =>
    rw [hb] at h
    refine ⟨s, .refl s, ?_⟩
    simp only [State.memRead_permitted (s := s) h, ok_bind]
    rfl

/-- A vector move from a register where its destination can be written. -/
theorem State.vstore_completes {s : State} {i : Instr} {p : Pfx} {d : RM} {r : Reg} {n : Nat}
    {read : VReg → BitVec (8 * n) × VReg} {write : VReg → BitVec (8 * n) → VReg}
    (hf : ∀ r, (read r).1 = r.val.setWidth (8 * n)) (hv : ∀ r, (read r).2.val = r.val)
    (h : (s.bind i p d).vwritable s n = true) :
    ∃ u, s.SameButTags u ∧ s.vstore i p d r n read write = .next (match s.bind i p d with
      | .reg k => (u.setVreg k (write (u.vreg k) ((s.val r).setWidth (8 * n)))).setPc (s.npc i)
      | .mem ea => (u.setVmm (u.vmm.stored ea n ((s.val r).setWidth (8 * n)))).setPc (s.npc i)) := by
  have ha := State.sameButTags_vread (s := s) (f := read) (hv (s.vreg r))
  refine ⟨_, ha, ?_⟩
  rw [State.vstore_eq]
  cases hb : s.bind i p d with
  | reg k =>
    simp only [State.vread_fst, hf]
    rfl
  | mem ea =>
    rw [hb] at h
    have h' : (s.vread read r).2.vmm.permits ea n .write = true := h
    simp only [State.memWrite_permitted h', ok_bind, State.vread_fst, hf]
    rfl

end Sys2Proof.Machine
end

