-- ==== Sys2Proof/Laws/Frame.lean ====
section
/-! SUPPORT. What no shared operation of the meanings does: one frame lemma each, over every next state. -/

namespace Sys2Proof.Machine

/-- A transition of instruction `i` that keeps the segment table, the fills, the parked contexts, DF and the
vector bits above 127, and stores, if at all, where `i` stores and is permitted to store. -/
structure State.Quiet (s : State) (i : Instr) (t : State) : Prop where
  parked : t.parked = s.parked
  vmm : t.vmm = s.vmm ∨ ∃ (a : Word) (n : Nat) (v : BitVec (8 * n)),
    s.storeOf i = some (a, n) ∧ s.vmm.permits a n .write = true ∧ t.vmm = s.vmm.stored a n v
  df : t.ctx.flags.df = s.ctx.flags.df
  high : ∀ k j, 128 ≤ j → (t.val k).getLsbD j = (s.val k).getLsbD j

/-- Instruction `i` stores to `d`, with `n` bytes, where `d` is memory. -/
def State.StoresTo (s : State) (i : Instr) (l : Loc) (n : Nat) : Prop :=
  ∀ ea, l = .mem ea → s.storeOf i = some (ea, n)

theorem State.storesTo_reg (s : State) (i : Instr) (k : Reg) (n : Nat) : s.StoresTo i (.reg k) n :=
  fun _ h => by cases h

/-! ## Integer operations -/

theorem State.quiet_written {s : State} {i : Instr} {w : Width} {p : Pfx} {l : Loc} {v : BitVec w.bits}
    {f : Flags} {t : Word} (h : l.writable s w = true) (hs : s.StoresTo i l w.bytes)
    (hf : f.df = s.ctx.flags.df) : s.Quiet i (((s.written w p v l).setFlags f).setPc t) := by
  refine ⟨by simp, ?_, hf, fun k j _ => by simp [State.val]⟩
  cases l with
  | reg n => exact .inl rfl
  | mem ea => exact .inr ⟨ea, w.bytes, v, hs ea rfl, h, rfl⟩

theorem State.aluStore_quiet {s t : State} {i : Instr} {p : Pfx} {op : AluOp} {w : Width} {d : RM}
    {src : Source w} (h : s.aluStore i p op w d src = .next t)
    (hs : s.StoresTo i (s.bind i p d) w.bytes) : s.Quiet i t := by
  obtain ⟨h1, h2, h3⟩ := State.aluStore_next h
  rw [State.aluStore_completes h1 h2 h3] at h
  cases h
  exact State.quiet_written h3 hs rfl

theorem State.aluCompare_quiet {s t : State} {i : Instr} {p : Pfx} {w : Width} {d : RM}
    {src : Source w} (h : s.aluCompare i p w d src = .next t) : s.Quiet i t := by
  obtain ⟨h1, h2⟩ := State.aluCompare_next h
  rw [State.aluCompare_completes h1 h2] at h
  cases h
  exact ⟨rfl, .inl rfl, rfl, fun _ _ _ => rfl⟩

theorem State.aluStep_quiet {s t : State} {i : Instr} {p : Pfx} {op : AluOp} {w : Width} {d : RM}
    (h : s.aluStep i p op w d = .next t) (hs : s.StoresTo i (s.bind i p d) w.bytes) : s.Quiet i t := by
  obtain ⟨h1, h3⟩ := State.aluStep_next h
  rw [State.aluStep_completes h1 h3] at h
  cases h
  exact State.quiet_written h3 hs rfl

theorem State.move_quiet {s t : State} {i : Instr} {p : Pfx} {w : Width} {d : RM} {src : Source w}
    (h : s.move i p w d src = .next t) (hs : s.StoresTo i (s.bind i p d) w.bytes) : s.Quiet i t := by
  obtain ⟨h2, h3⟩ := State.move_next h
  rw [State.move_completes h2 h3] at h
  cases h
  have := State.quiet_written (p := p) (v := s.sourceValue i p src) (f := s.ctx.flags) (t := s.npc i) h3 hs rfl
  refine ⟨this.parked, this.vmm, ?_, this.high⟩
  simp

/-! ## Control transfers -/

theorem State.quiet_setPc (s : State) (i : Instr) (t : Word) : s.Quiet i (s.setPc t) :=
  ⟨rfl, .inl rfl, rfl, fun _ _ _ => rfl⟩

theorem State.jumpTo_quiet {s t : State} {i : Instr} {p : Pfx} {x : RM} (h : s.jumpTo i p x = .next t) :
    s.Quiet i t := by
  rw [State.jumpTo_completes (State.jumpTo_next h)] at h
  cases h
  exact s.quiet_setPc i _

theorem State.quiet_called {s : State} {i : Instr} {target : Word}
    (h : s.vmm.permits (s.reg rsp - 8) 8 .write = true)
    (hs : s.storeOf i = some (s.reg rsp - 8, 8)) : s.Quiet i (s.called i target) := by
  refine ⟨rfl, .inr ⟨s.reg rsp - 8, 8, s.npc i, hs, h, ?_⟩, ?_, fun k j _ => ?_⟩ <;> simp [State.called]

theorem State.callRel_quiet {s t : State} {i : Instr} {off : Word} (h : s.callRel i off = .next t)
    (hs : s.storeOf i = some (s.reg rsp - 8, 8)) : s.Quiet i t := by
  have hp := State.pushAndGo_ok (finish_next ((State.callRel_eq ..).symm.trans h))
  rw [State.callRel_completes hp] at h
  cases h
  exact State.quiet_called hp hs

theorem State.callTo_quiet {s t : State} {i : Instr} {p : Pfx} {x : RM} (h : s.callTo i p x = .next t)
    (hs : s.storeOf i = some (s.reg rsp - 8, 8)) : s.Quiet i t := by
  obtain ⟨h1, h2⟩ := State.callTo_next h
  rw [State.callTo_completes h1 h2] at h
  cases h
  exact State.quiet_called h2 hs

theorem State.popAndGo_quiet {s t : State} (i : Instr) (h : s.popAndGo = .next t) : s.Quiet i t := by
  rw [State.popAndGo_completes (State.popAndGo_next h)] at h
  cases h
  exact ⟨rfl, .inl rfl, rfl, fun _ _ _ => rfl⟩

/-! ## Vector operations -/

/-- A vector operation that answers a next state could read its source. -/
theorem State.vsource_ok {s : State} {i : Instr} {p : Pfx} {x : RM} {n : Nat}
    {f : VReg → BitVec (8 * n) × VReg} {y : BitVec (8 * n) × State} (h : s.vsource i p x n f = .ok y) :
    (s.bind i p x).vreadable s n = true := by
  cases hp : (s.bind i p x).vreadable s n
  · obtain ⟨ea, -, e⟩ := State.vsource_denied (f := f) hp
    rw [e] at h; cases h
  · rfl

/-- The same after a read that kept every value. -/
theorem State.vsource_after_ok {α : Type} {s : State} {g : VReg → α × VReg} {r : Reg} {i : Instr} {p : Pfx}
    {x : RM} {n : Nat} {f : VReg → BitVec (8 * n) × VReg} {y : BitVec (8 * n) × State}
    (hg : (g (s.vreg r)).2.val = (s.vreg r).val) (h : (s.vread g r).2.vsource i p x n f = .ok y) :
    (s.bind i p x).vreadable s n = true := by
  have ha := State.sameButTags_vread (s := s) (f := g) hg
  have := State.vsource_ok h
  rw [ha.bind] at this
  cases hb : s.bind i p x with
  | reg k => rfl
  | mem ea => rw [hb] at this; simpa [Loc.vreadable, ha.vmm] using this

theorem State.compareScalar_next {s t : State} {i : Instr} {p : Pfx} {r : Reg} {x : RM}
    (h : s.compareScalar i p r x = .next t) : (s.bind i p x).vreadable s 4 = true := by
  rw [State.compareScalar_eq] at h
  obtain ⟨b, hb, -⟩ := bind_ok (finish_next h)
  exact State.vsource_after_ok (VReg.readF32_val _) hb

theorem State.addPacked_next {s t : State} {i : Instr} {p : Pfx} {r : Reg} {x : RM}
    (h : s.addPacked i p r x = .next t) : (s.bind i p x).vreadable s 16 = true := by
  rw [State.addPacked_eq] at h
  obtain ⟨b, hb, -⟩ := bind_ok (finish_next h)
  exact State.vsource_after_ok (VReg.readRaw_val _) hb

theorem State.shiftBy_next {s t : State} {i : Instr} {p : Pfx} {kind : ShiftKind} {L : Nat} {r : Reg}
    {x : RM} (h : s.shiftBy i p kind L r x = .next t) : (s.bind i p x).vreadable s 4 = true := by
  rw [State.shiftBy_eq] at h
  obtain ⟨b, hb, -⟩ := bind_ok (finish_next h)
  exact State.vsource_after_ok (VReg.readRaw_val _) hb

theorem State.vload_next {s t : State} {i : Instr} {p : Pfx} {r : Reg} {x : RM} {n : Nat}
    {read : VReg → BitVec (8 * n) × VReg} {write : VReg → BitVec (8 * n) → VReg}
    (h : s.vload i p r x n read write = .next t) : (s.bind i p x).vreadable s n = true := by
  rw [State.vload_eq] at h
  cases hb : s.bind i p x with
  | reg k => rfl
  | mem ea =>
    simp only [hb] at h
    obtain ⟨v, hv, -⟩ := bind_ok (finish_next h)
    exact (State.memRead_ok hv).1

theorem State.vstore_next {s t : State} {i : Instr} {p : Pfx} {d : RM} {r : Reg} {n : Nat}
    {read : VReg → BitVec (8 * n) × VReg} {write : VReg → BitVec (8 * n) → VReg}
    (h : s.vstore i p d r n read write = .next t) : (s.bind i p d).vwritable s n = true := by
  rw [State.vstore_eq] at h
  cases hb : s.bind i p d with
  | reg k => rfl
  | mem ea =>
    simp only [hb] at h
    obtain ⟨v, hv, -⟩ := bind_ok (finish_next h)
    exact (State.memWrite_ok hv).1

theorem State.SameButTags.quiet {s u : State} (h : s.SameButTags u) (i : Instr) (t : Word) :
    s.Quiet i (u.setPc t) :=
  ⟨h.parked, .inl h.vmm, by simp [h.flags], fun k j _ => by rw [State.setPc_val, h.val]⟩

/-- After reads that kept every value, a write of at most 128 bits of one register. -/
theorem State.quiet_vwrote {s u : State} (hs : s.SameButTags u) (i : Instr) {r : Reg} {x : VReg} {n : Nat}
    {v : BitVec n} (hn : n ≤ 128) (h : s.VWrote (u.setVreg r x) r v) (t : Word) :
    s.Quiet i ((u.setVreg r x).setPc t) := by
  refine ⟨hs.parked, .inl hs.vmm, by simp [hs.flags], fun k j hj => ?_⟩
  rw [State.setPc_val]
  by_cases hk : k = r
  · rw [hk, h.1, if_neg (by omega)]
  · rw [h.2 k hk]

theorem State.compareScalar_quiet {s t : State} {i : Instr} {p : Pfx} {r : Reg} {x : RM}
    (h : s.compareScalar i p r x = .next t) : s.Quiet i t := by
  obtain ⟨u, hs, e⟩ := State.compareScalar_completes (State.compareScalar_next h)
  rw [e] at h
  cases h
  refine ⟨hs.parked, .inl hs.vmm, ?_, fun k j _ => by rw [State.setPc_val, State.setFlags_val, hs.val]⟩
  simp only [State.setPc_ctx_flags, State.setFlags_ctx_flags, Cmp.flags]
  split <;> rfl

theorem State.addPacked_quiet {s t : State} {i : Instr} {p : Pfx} {r : Reg} {x : RM}
    (h : s.addPacked i p r x = .next t) : s.Quiet i t := by
  obtain ⟨u, hs, e⟩ := State.addPacked_completes (State.addPacked_next h)
  rw [e] at h
  cases h
  exact State.quiet_vwrote hs i (Nat.le_refl _) (State.vwrote_writeRaw hs r _) _

theorem State.shiftBy_quiet {s t : State} {i : Instr} {p : Pfx} {kind : ShiftKind} {L : Nat} {r : Reg}
    {x : RM} (h : s.shiftBy i p kind L r x = .next t) : s.Quiet i t := by
  obtain ⟨u, hs, e⟩ := State.shiftBy_completes (State.shiftBy_next h)
  rw [e] at h
  cases h
  exact State.quiet_vwrote hs i (Nat.le_refl _) (State.vwrote_writeRaw hs r _) _

theorem State.shiftImm_quiet {s t : State} {i : Instr} {kind : ShiftKind} {L : Nat} {r : Reg} {v : BitVec 8}
    (h : s.shiftImm i kind L r v = .next t) : s.Quiet i t := by
  obtain ⟨u, hs, e⟩ := s.shiftImm_completes i kind L r v
  rw [e] at h
  cases h
  exact State.quiet_vwrote hs i (Nat.le_refl _) (State.vwrote_writeRaw hs r _) _

theorem State.vload_quiet {s t : State} {i : Instr} {p : Pfx} {r : Reg} {x : RM} {n : Nat}
    {read : VReg → BitVec (8 * n) × VReg} {write : VReg → BitVec (8 * n) → VReg}
    (hf : ∀ r, (read r).1 = r.val.setWidth (8 * n)) (hv : ∀ r, (read r).2.val = r.val)
    (hw : ∀ r v j, (write r v).val.getLsbD j = if j < 8 * n then v.getLsbD j else r.val.getLsbD j)
    (hn : 8 * n ≤ 128) (h : s.vload i p r x n read write = .next t) : s.Quiet i t := by
  obtain ⟨u, hs, e⟩ := State.vload_completes (write := write) hf hv (State.vload_next h)
  rw [e] at h
  cases h
  split
  · exact State.quiet_vwrote hs i hn (State.vwrote_write hw hs r _) _
  · exact State.quiet_vwrote hs i (Nat.le_refl _) (State.vwrote_writeRaw hs r _) _

theorem State.vstore_quiet {s t : State} {i : Instr} {p : Pfx} {d : RM} {r : Reg} {n : Nat}
    {read : VReg → BitVec (8 * n) × VReg} {write : VReg → BitVec (8 * n) → VReg}
    (hf : ∀ r, (read r).1 = r.val.setWidth (8 * n)) (hv : ∀ r, (read r).2.val = r.val)
    (hw : ∀ r v j, (write r v).val.getLsbD j = if j < 8 * n then v.getLsbD j else r.val.getLsbD j)
    (hn : 8 * n ≤ 128) (h : s.vstore i p d r n read write = .next t)
    (hst : s.StoresTo i (s.bind i p d) n) : s.Quiet i t := by
  have hp := State.vstore_next h
  obtain ⟨u, hs, e⟩ := State.vstore_completes (write := write) hf hv hp
  rw [e] at h
  cases h
  cases hb : s.bind i p d with
  | reg k => exact State.quiet_vwrote hs i hn (State.vwrote_write hw hs k _) _
  | mem ea =>
    rw [hb] at hp
    refine ⟨hs.parked, .inr ⟨ea, n, (s.val r).setWidth (8 * n), hst ea hb, hp, ?_⟩, ?_, ?_⟩
    · simp [hs.vmm]
    · simp [hs.flags]
    · intro k j _
      rw [State.setPc_val, State.setVmm_val, hs.val]

end Sys2Proof.Machine
end

