-- ==== Sys2Proof/Laws/Lanes.lean ====
section
/-! SUPPORT. Lanes put together and taken apart (43_vector.md R255). -/

namespace Sys2Proof.Machine

/-- Bit `j` of the value put together from `n` lanes. -/
theorem getLsbD_ofLanes {L : Nat} (g : Nat → BitVec L) (n j : Nat) (hL : 0 < L) (hn : L * n ≤ 128) :
    (ofLanes L g n).getLsbD j = (decide (j < L * n) && (g (j / L)).getLsbD (j % L)) := by
  induction n with
  | zero => simp [ofLanes]
  | succ n ih =>
    have e : L * (n + 1) = L * n + L := Nat.mul_succ L n
    have hd := Nat.div_add_mod j L
    simp only [ofLanes, BitVec.getLsbD_or, BitVec.getLsbD_shiftLeft, BitVec.getLsbD_setWidth,
      ih (by omega)]
    by_cases h1 : j < L * n
    · simp [h1, show j < L * (n + 1) by omega]
    · by_cases h2 : j < L * (n + 1)
      · have hq : j / L = n := by
          refine Nat.div_eq_of_lt_le ?_ ?_ <;> rw [Nat.mul_comm] <;> omega
        have hr : j % L = j - L * n := by rw [hq] at hd; omega
        simp [h1, h2, hq, hr, show j < 128 by omega, show j - L * n < 128 by omega]
      · rw [BitVec.getLsbD_of_ge (g n) (j - L * n) (by omega)]
        simp [h1, h2]

/-- Lane `k` of the value put together from `n` lanes is the `k`-th of them. -/
theorem lane_ofLanes {L : Nat} (g : Nat → BitVec L) (n k : Nat) (hk : k < n) (hn : L * n ≤ 128) :
    (ofLanes L g n).extractLsb' (L * k) L = g k := by
  apply BitVec.eq_of_getLsbD_eq
  intro i hi
  have h1 : L * k + i < L * n := by
    have := Nat.mul_le_mul_left L (Nat.succ_le_of_lt hk)
    rw [Nat.mul_succ] at this
    omega
  have h2 : (L * k + i) / L = k := by
    rw [Nat.mul_add_div (by omega), Nat.div_eq_of_lt hi, Nat.add_zero]
  have h3 : (L * k + i) % L = i := by rw [Nat.mul_add_mod, Nat.mod_eq_of_lt hi]
  rw [BitVec.getLsbD_extractLsb', getLsbD_ofLanes g n _ (by omega) hn, h2, h3]
  simp [hi, h1]

end Sys2Proof.Machine
end

