-- ==== Sys2Proof/Laws/Shape.lean ====
section
/-! SUPPORT. The shared operation that each instruction is, said once for all of them: later proofs over every
instruction split into the sixteen cases of `State.Shape` and never unfold `exec`. -/

namespace Sys2Proof.Machine

/-- A destination operand of the storing rows is where the row stores. -/
theorem State.storesTo_of {s : State} {i : Instr} {p : Pfx} {n : Nat} {d : RM}
    (h : i.storeDst = some (p, n, d)) : s.StoresTo i (s.bind i p d) n := by
  intro ea hb
  unfold State.storeOf
  split
  · cases h
  · cases h
  · simp only [h, hb]

/-- What `exec i s` is, by shared operation, with what each case says of the row. -/
inductive State.Shape (s : State) (i : Instr) : Result → Prop
  | aluStore (p : Pfx) (op : AluOp) (w : Width) (d : RM) (src : Source w)
      (st : s.StoresTo i (s.bind i p d) w.bytes) (flags : i.writesFlags = true)
      (cf : i.incForm = none ∧ i.decForm = none) : Shape s i (s.aluStore i p op w d src)
  | aluCompare (p : Pfx) (w : Width) (d : RM) (src : Source w) (flags : i.writesFlags = true)
      (cf : i.incForm = none ∧ i.decForm = none) : Shape s i (s.aluCompare i p w d src)
  | aluStep (p : Pfx) (op : AluOp) (w : Width) (d : RM)
      (st : s.StoresTo i (s.bind i p d) w.bytes) (flags : i.writesFlags = true) :
      Shape s i (s.aluStep i p op w d)
  | move (p : Pfx) (w : Width) (d : RM) (src : Source w)
      (st : s.StoresTo i (s.bind i p d) w.bytes) : Shape s i (s.move i p w d src)
  | nop : Shape s i (.next (s.setPc (s.npc i)))
  | jump (t : Word) (ends : i.endsBlock = true) : Shape s i (.next (s.setPc t))
  | jumpTo (p : Pfx) (x : RM) (ends : i.endsBlock = true) : Shape s i (s.jumpTo i p x)
  | callRel (off : Word) (st : s.storeOf i = some (s.reg rsp - 8, 8)) (ends : i.endsBlock = true) :
      Shape s i (s.callRel i off)
  | callTo (p : Pfx) (x : RM) (st : s.storeOf i = some (s.reg rsp - 8, 8)) (ends : i.endsBlock = true) :
      Shape s i (s.callTo i p x)
  | popAndGo (ends : i.endsBlock = true) : Shape s i s.popAndGo
  | compareScalar (p : Pfx) (r : Reg) (x : RM) (flags : i.writesFlags = true)
      (cf : i.incForm = none ∧ i.decForm = none) : Shape s i (s.compareScalar i p r x)
  | addPacked (p : Pfx) (r : Reg) (x : RM) : Shape s i (s.addPacked i p r x)
  | shiftBy (p : Pfx) (kind : ShiftKind) (L : Nat) (r : Reg) (x : RM) :
      Shape s i (s.shiftBy i p kind L r x)
  | shiftImm (kind : ShiftKind) (L : Nat) (r : Reg) (v : BitVec 8) : Shape s i (s.shiftImm i kind L r v)
  | vload (p : Pfx) (r : Reg) (x : RM) (n : Nat) (read : VReg → BitVec (8 * n) × VReg)
      (write : VReg → BitVec (8 * n) → VReg)
      (hf : ∀ r, (read r).1 = r.val.setWidth (8 * n)) (hv : ∀ r, (read r).2.val = r.val)
      (hw : ∀ r v j, (write r v).val.getLsbD j = if j < 8 * n then v.getLsbD j else r.val.getLsbD j)
      (hn : 8 * n ≤ 128) : Shape s i (s.vload i p r x n read write)
  | vstore (p : Pfx) (d : RM) (r : Reg) (n : Nat) (read : VReg → BitVec (8 * n) × VReg)
      (write : VReg → BitVec (8 * n) → VReg)
      (hf : ∀ r, (read r).1 = r.val.setWidth (8 * n)) (hv : ∀ r, (read r).2.val = r.val)
      (hw : ∀ r v j, (write r v).val.getLsbD j = if j < 8 * n then v.getLsbD j else r.val.getLsbD j)
      (hn : 8 * n ≤ 128) (st : s.StoresTo i (s.bind i p d) n) :
      Shape s i (s.vstore i p d r n read write)

/-- Every instruction has its shape. -/
theorem State.exec_shape (s : State) : ∀ i : Instr, s.Shape i (exec i s)
  | .addRm8R8 p d r => .aluStore p .add .w8 d (.rm (.reg r)) (State.storesTo_of rfl) rfl ⟨rfl, rfl⟩
  | .addRmR p d r => .aluStore p .add p.width d (.rm (.reg r)) (State.storesTo_of rfl) rfl ⟨rfl, rfl⟩
  | .addR8Rm8 p r x => .aluStore p .add .w8 (.reg r) (.rm x) (s.storesTo_reg _ _ _) rfl ⟨rfl, rfl⟩
  | .addRRm p r x => .aluStore p .add p.width (.reg r) (.rm x) (s.storesTo_reg _ _ _) rfl ⟨rfl, rfl⟩
  | .addAlI8 p v => .aluStore p .add .w8 (.reg rax) (.imm v) (s.storesTo_reg _ _ _) rfl ⟨rfl, rfl⟩
  | .addAxIz p v => .aluStore p .add p.width (.reg rax) (.imm (v.value p.width)) (s.storesTo_reg _ _ _) rfl ⟨rfl, rfl⟩
  | .subRm8R8 p d r => .aluStore p .sub .w8 d (.rm (.reg r)) (State.storesTo_of rfl) rfl ⟨rfl, rfl⟩
  | .subRmR p d r => .aluStore p .sub p.width d (.rm (.reg r)) (State.storesTo_of rfl) rfl ⟨rfl, rfl⟩
  | .subR8Rm8 p r x => .aluStore p .sub .w8 (.reg r) (.rm x) (s.storesTo_reg _ _ _) rfl ⟨rfl, rfl⟩
  | .subRRm p r x => .aluStore p .sub p.width (.reg r) (.rm x) (s.storesTo_reg _ _ _) rfl ⟨rfl, rfl⟩
  | .subAlI8 p v => .aluStore p .sub .w8 (.reg rax) (.imm v) (s.storesTo_reg _ _ _) rfl ⟨rfl, rfl⟩
  | .subAxIz p v => .aluStore p .sub p.width (.reg rax) (.imm (v.value p.width)) (s.storesTo_reg _ _ _) rfl ⟨rfl, rfl⟩
  | .cmpRm8R8 p d r => .aluCompare p .w8 d (.rm (.reg r)) rfl ⟨rfl, rfl⟩
  | .cmpRmR p d r => .aluCompare p p.width d (.rm (.reg r)) rfl ⟨rfl, rfl⟩
  | .cmpR8Rm8 p r x => .aluCompare p .w8 (.reg r) (.rm x) rfl ⟨rfl, rfl⟩
  | .cmpRRm p r x => .aluCompare p p.width (.reg r) (.rm x) rfl ⟨rfl, rfl⟩
  | .cmpAlI8 p v => .aluCompare p .w8 (.reg rax) (.imm v) rfl ⟨rfl, rfl⟩
  | .cmpAxIz p v => .aluCompare p p.width (.reg rax) (.imm (v.value p.width)) rfl ⟨rfl, rfl⟩
  | .addRm8I8 p d v => .aluStore p .add .w8 d (.imm v) (State.storesTo_of rfl) rfl ⟨rfl, rfl⟩
  | .addRmIz p d v => .aluStore p .add p.width d (.imm (v.value p.width)) (State.storesTo_of rfl) rfl ⟨rfl, rfl⟩
  | .addRmI8 p d v => .aluStore p .add p.width d (.imm (v.signExtend p.width.bits)) (State.storesTo_of rfl) rfl ⟨rfl, rfl⟩
  | .subRm8I8 p d v => .aluStore p .sub .w8 d (.imm v) (State.storesTo_of rfl) rfl ⟨rfl, rfl⟩
  | .subRmIz p d v => .aluStore p .sub p.width d (.imm (v.value p.width)) (State.storesTo_of rfl) rfl ⟨rfl, rfl⟩
  | .subRmI8 p d v => .aluStore p .sub p.width d (.imm (v.signExtend p.width.bits)) (State.storesTo_of rfl) rfl ⟨rfl, rfl⟩
  | .cmpRm8I8 p d v => .aluCompare p .w8 d (.imm v) rfl ⟨rfl, rfl⟩
  | .cmpRmIz p d v => .aluCompare p p.width d (.imm (v.value p.width)) rfl ⟨rfl, rfl⟩
  | .cmpRmI8 p d v => .aluCompare p p.width d (.imm (v.signExtend p.width.bits)) rfl ⟨rfl, rfl⟩
  | .incRm8 p d => .aluStep p .add .w8 d (State.storesTo_of rfl) rfl
  | .decRm8 p d => .aluStep p .sub .w8 d (State.storesTo_of rfl) rfl
  | .incRm p d => .aluStep p .add p.width d (State.storesTo_of rfl) rfl
  | .decRm p d => .aluStep p .sub p.width d (State.storesTo_of rfl) rfl
  | .movRm8R8 p d r => .move p .w8 d (.rm (.reg r)) (State.storesTo_of rfl)
  | .movRmR p d r => .move p p.width d (.rm (.reg r)) (State.storesTo_of rfl)
  | .movR8Rm8 p r x => .move p .w8 (.reg r) (.rm x) (s.storesTo_reg _ _ _)
  | .movRRm p r x => .move p p.width (.reg r) (.rm x) (s.storesTo_reg _ _ _)
  | .movR8I8 p r v => .move p .w8 (.reg r) (.imm v) (s.storesTo_reg _ _ _)
  | .movRIv p r v => .move p p.width (.reg r) (.imm (v.value p.width)) (s.storesTo_reg _ _ _)
  | .movRm8I8 p d v => .move p .w8 d (.imm v) (State.storesTo_of rfl)
  | .movRmIz p d v => .move p p.width d (.imm (v.value p.width)) (State.storesTo_of rfl)
  | .nop _ => .nop
  | .jmpRel8 _ _ => .jump _ rfl
  | .jmpRel32 _ _ => .jump _ rfl
  | .jmpRm p x => .jumpTo p x rfl
  | .joRel8 _ _ => .jump _ rfl
  | .jnoRel8 _ _ => .jump _ rfl
  | .jbRel8 _ _ => .jump _ rfl
  | .jaeRel8 _ _ => .jump _ rfl
  | .jeRel8 _ _ => .jump _ rfl
  | .jneRel8 _ _ => .jump _ rfl
  | .jbeRel8 _ _ => .jump _ rfl
  | .jaRel8 _ _ => .jump _ rfl
  | .jsRel8 _ _ => .jump _ rfl
  | .jnsRel8 _ _ => .jump _ rfl
  | .jpRel8 _ _ => .jump _ rfl
  | .jnpRel8 _ _ => .jump _ rfl
  | .jlRel8 _ _ => .jump _ rfl
  | .jgeRel8 _ _ => .jump _ rfl
  | .jleRel8 _ _ => .jump _ rfl
  | .jgRel8 _ _ => .jump _ rfl
  | .joRel32 _ _ => .jump _ rfl
  | .jnoRel32 _ _ => .jump _ rfl
  | .jbRel32 _ _ => .jump _ rfl
  | .jaeRel32 _ _ => .jump _ rfl
  | .jeRel32 _ _ => .jump _ rfl
  | .jneRel32 _ _ => .jump _ rfl
  | .jbeRel32 _ _ => .jump _ rfl
  | .jaRel32 _ _ => .jump _ rfl
  | .jsRel32 _ _ => .jump _ rfl
  | .jnsRel32 _ _ => .jump _ rfl
  | .jpRel32 _ _ => .jump _ rfl
  | .jnpRel32 _ _ => .jump _ rfl
  | .jlRel32 _ _ => .jump _ rfl
  | .jgeRel32 _ _ => .jump _ rfl
  | .jleRel32 _ _ => .jump _ rfl
  | .jgRel32 _ _ => .jump _ rfl
  | .callRel32 _ v => .callRel (v.signExtend 64) rfl rfl
  | .callRm p x => .callTo p x rfl rfl
  | .ret _ => .popAndGo rfl
  | .comiss p r x => .compareScalar p r x rfl ⟨rfl, rfl⟩
  | .movssLoad p r x => .vload p r x 4 _ _ VReg.readF32_fst VReg.readF32_val VReg.getLsbD_writeF32 (by omega)
  | .movssStore p d r => .vstore p d r 4 _ _ VReg.readF32_fst VReg.readF32_val VReg.getLsbD_writeF32 (by omega)
      (State.storesTo_of rfl)
  | .movsdLoad p r x => .vload p r x 8 _ _ VReg.readF64_fst VReg.readF64_val VReg.getLsbD_writeF64 (by omega)
  | .movsdStore p d r => .vstore p d r 8 _ _ VReg.readF64_fst VReg.readF64_val VReg.getLsbD_writeF64 (by omega)
      (State.storesTo_of rfl)
  | .movdquLoad p r x => .vload p r x 16 _ _ VReg.readRaw_fst VReg.readRaw_val VReg.getLsbD_writeRaw (by omega)
  | .movdquStore p d r => .vstore p d r 16 _ _ VReg.readRaw_fst VReg.readRaw_val VReg.getLsbD_writeRaw (by omega)
      (State.storesTo_of rfl)
  | .paddq p r x => .addPacked p r x
  | .psrlwRm p r x => .shiftBy p .srl 16 r x
  | .psrldRm p r x => .shiftBy p .srl 32 r x
  | .psrlqRm p r x => .shiftBy p .srl 64 r x
  | .psrawRm p r x => .shiftBy p .sra 16 r x
  | .psradRm p r x => .shiftBy p .sra 32 r x
  | .psllwRm p r x => .shiftBy p .sll 16 r x
  | .pslldRm p r x => .shiftBy p .sll 32 r x
  | .psllqRm p r x => .shiftBy p .sll 64 r x
  | .psrlwImm _ r v => .shiftImm .srl 16 r v
  | .psrawImm _ r v => .shiftImm .sra 16 r v
  | .psllwImm _ r v => .shiftImm .sll 16 r v
  | .psrldImm _ r v => .shiftImm .srl 32 r v
  | .psradImm _ r v => .shiftImm .sra 32 r v
  | .pslldImm _ r v => .shiftImm .sll 32 r v
  | .psrlqImm _ r v => .shiftImm .srl 64 r v
  | .psllqImm _ r v => .shiftImm .sll 64 r v

end Sys2Proof.Machine
end

