-- ==== Sys2Proof/Tests/Slice0.lean ====
section
/-! SUPPORT. The model's own tests. Expected values are those of spec/95_test_vectors.md, of the examples inside the
instruction rules, or worked out by hand from the rule named at the test. Then one witness for the hypotheses of
every statement that has some. -/

namespace Sys2Proof.Tests

open Sys2Proof Sys2Proof.Machine

set_option Elab.async false

/-! ## Helpers -/

/-- No prefix. -/
abbrev p0 : Pfx := ⟨false, none, none⟩
/-- `66`. -/
abbrev p66 : Pfx := ⟨true, none, none⟩
/-- A REX byte with W. -/
abbrev pW : Pfx := ⟨false, none, some true⟩
/-- A REX byte without W. -/
abbrev pR : Pfx := ⟨false, none, some false⟩
/-- `66` and a REX byte without W. -/
abbrev p66R : Pfx := ⟨true, none, some false⟩

/-- A segment by its bounds and permissions. -/
def seg (lo hi : Nat) (r wr x : Bool) : Segment := ⟨BitVec.ofNat 64 lo, BitVec.ofNat 64 hi, ⟨r, wr, x⟩, 0, "s"⟩

/-- Bytes put into memory. -/
def poke (s : State) (a : Nat) (bs : List Byte) : State :=
  { s with vmm := { s.vmm with bytes := Memory.writeBytes s.vmm.bytes a (fun j => bs.getD j 0) bs.length } }

/-- Code at `0x1000` (read, execute); `[0x3000, 0x5000)` as two adjacent segments to read and write;
`[0xA000, 0xB000)` read only; `[0xC000, 0xD000)` write only; `[0xE000, 0xF000)` execute only. -/
def table : List Segment :=
  [seg 0x1000 0x2000 true false true, seg 0x3000 0x4000 true true false, seg 0x4000 0x5000 true true false,
   seg 0xA000 0xB000 true false false, seg 0xC000 0xD000 false true false, seg 0xE000 0xF000 false false true]

/-- A state with that table, code at the pc `0x1000`, and some registers set. -/
def st (code : List Byte) (rs : List (Reg × Word)) : State :=
  let s := poke { State.reset with vmm := { State.reset.vmm with segs := table } } 0x1000 code
  (rs.foldl (fun s r => s.setReg r.1 r.2) s).setPc 0x1000

/-- What one step leaves, seen through a check; a fault fails every check. -/
def after (s : State) (f : State → Bool) : Bool :=
  match step s with
  | .next t => f t
  | _ => false

/-- The step faults so. -/
def faults (s : State) (f : Fault) : Bool :=
  match step s with
  | .fault g => decide (g = f)
  | _ => false

/-- The flags in the order `CF PF AF ZF SF OF` of spec/95_test_vectors.md. -/
def fl (s : State) : List Nat :=
  [s.ctx.flags.cf, s.ctx.flags.pf, s.ctx.flags.af, s.ctx.flags.zf, s.ctx.flags.sf, s.ctx.flags.of].map Bool.toNat

/-- Bytes of memory. -/
def peek (s : State) (a n : Nat) : List Byte := (List.range n).map fun j => s.byteAt (BitVec.ofNat 64 (a + j))

/-- The bytes decode to the instruction, whatever follows; the instruction is well-formed and is encoded so. -/
def reads (bs : List Byte) (i : Instr) : Bool :=
  decide (decode (bs ++ [0xAB]) = .ok i [0xAB]) && i.wf && decide (encode i = bs)

/-- The bytes are refused, and the refusal comes at their last byte (30_encoding.md R158). -/
def refused (bs : List Byte) : Bool := decide (decode (bs ++ [0xAB]) = .bad [0xAB])

/-! ## WellFormed: an ill-formed term for each check -/

/-- Refused: register 8 without REX (R128). -/
theorem test_wf_reach : Instr.wf (.addRmR p0 (.reg 8) 0) = false := by decide

/-- Refused: register 9 in ModRM.reg without REX (R128). -/
theorem test_wf_reach_reg : Instr.wf (.addRmR p0 (.reg 0) 9) = false := by decide

/-- Refused: a base 4 without SIB (R127). -/
theorem test_wf_base4 : Instr.wf (.movRRm p0 0 (.mem (.base 4 (some (.d8 0))))) = false := by decide

/-- Refused: a base 12 without SIB (R127). -/
theorem test_wf_base12 : Instr.wf (.movRRm pR 0 (.mem (.base 12 none))) = false := by decide

/-- Refused: a base 8 without REX (R128). -/
theorem test_wf_base_reach : Instr.wf (.movRRm p0 0 (.mem (.base 8 none))) = false := by decide

/-- Refused: a base 5 without displacement (R127). -/
theorem test_wf_base5 : Instr.wf (.movRRm p0 0 (.mem (.base 5 none))) = false := by decide

/-- Refused: a SIB base 13 without displacement (R130). -/
theorem test_wf_sib5 : Instr.wf (.movRRm pR 0 (.mem (.sib 13 none 0 none))) = false := by decide

/-- Refused: a SIB base 9 without REX (R128). -/
theorem test_wf_sib_base : Instr.wf (.movRRm p0 0 (.mem (.sib 9 none 0 none))) = false := by decide

/-- Refused: an index 4 (R130). -/
theorem test_wf_index4 : Instr.wf (.movRRm p0 0 (.mem (.sib 0 (some 4) 0 none))) = false := by decide

/-- Refused: an index 12 without REX (R128). -/
theorem test_wf_index_reach : Instr.wf (.movRRm p0 0 (.mem (.sib 0 (some 12) 0 none))) = false := by decide

/-- Refused: an index 4 without base (R130). -/
theorem test_wf_nobase_index : Instr.wf (.movRRm p0 0 (.mem (.sibNoBase (some 4) 0 0))) = false := by decide

/-- Refused: a 2-byte immediate without 66 (R132). -/
theorem test_wf_iz16 : Instr.wf (.addAxIz p0 (.i16 0)) = false := by decide

/-- Refused: a 4-byte immediate with 66 (R132). -/
theorem test_wf_iz32 : Instr.wf (.addAxIz p66 (.i32 0)) = false := by decide

/-- Refused: an 8-byte immediate without REX.W (R132). -/
theorem test_wf_iv64 : Instr.wf (.movRIv p0 0 (.i64 0)) = false := by decide

/-- Refused: a 4-byte immediate with REX.W (R132). -/
theorem test_wf_iv32 : Instr.wf (.movRIv pW 0 (.i32 0)) = false := by decide

/-- Refused: a 2-byte immediate with 66 and REX.W (R133). -/
theorem test_wf_iv16 : Instr.wf (.movRIv ⟨true, none, some true⟩ 0 (.i16 0)) = false := by decide

/-- Refused: 66 on a control transfer (R135). -/
theorem test_wf_jump66 : Instr.wf (.jmpRel8 p66 0) = false := by decide

/-- Refused: 66 on RET (R135). -/
theorem test_wf_ret66 : Instr.wf (.ret p66) = false := by decide

/-- Refused: 66 on COMISS (R116). -/
theorem test_wf_np66 : Instr.wf (.comiss p66 0 (.reg 1)) = false := by decide

/-- Refused: PADDQ without 66 (R116). -/
theorem test_wf_no66 : Instr.wf (.paddq p0 0 (.reg 1)) = false := by decide

/-- Refused: vector register 8 without REX (R128). -/
theorem test_wf_vreach : Instr.wf (.psllqImm p66 8 1) = false := by decide

/-! ## Decode: every constructor from a word written out from 30_encoding.md R125 to R133, R150 to R153 -/

theorem test_decode_add :
    [reads [0x00, 0xE7] (.addRm8R8 p0 (.reg 7) 4),
     reads [0x45, 0x01, 0x4C, 0x98, 0xF0] (.addRmR pR (.mem (.sib 8 (some 3) 2 (some (.d8 0xF0)))) 9),
     reads [0x02, 0x05, 0x78, 0x56, 0x34, 0x12] (.addR8Rm8 p0 0 (.mem (.npcRel 0x12345678))),
     reads [0x66, 0x4C, 0x03, 0xC1] (.addRRm ⟨true, none, some true⟩ 8 (.reg 1)),
     reads [0x04, 0x7F] (.addAlI8 p0 0x7F),
     reads [0x66, 0x05, 0x00, 0x80] (.addAxIz p66 (.i16 0x8000)),
     reads [0x80, 0xC4, 0xFF] (.addRm8I8 p0 (.reg 4) 0xFF),
     reads [0x48, 0x81, 0x03, 0x78, 0x56, 0x34, 0x12] (.addRmIz pW (.mem (.base 3 none)) (.i32 0x12345678)),
     reads [0x64, 0x83, 0x85, 0x04, 0x03, 0x02, 0x81, 0x01] (.addRmI8 ⟨false, some .fs, none⟩ (.mem (.base 5 (some (.d32 0x81020304)))) 1)].all id = true := by
  decide +kernel

theorem test_decode_sub :
    [reads [0x28, 0xE7] (.subRm8R8 p0 (.reg 7) 4),
     reads [0x45, 0x29, 0x4C, 0x98, 0xF0] (.subRmR pR (.mem (.sib 8 (some 3) 2 (some (.d8 0xF0)))) 9),
     reads [0x2A, 0x05, 0x78, 0x56, 0x34, 0x12] (.subR8Rm8 p0 0 (.mem (.npcRel 0x12345678))),
     reads [0x66, 0x4C, 0x2B, 0xC1] (.subRRm ⟨true, none, some true⟩ 8 (.reg 1)),
     reads [0x2C, 0x7F] (.subAlI8 p0 0x7F),
     reads [0x66, 0x2D, 0x00, 0x80] (.subAxIz p66 (.i16 0x8000)),
     reads [0x80, 0xEC, 0xFF] (.subRm8I8 p0 (.reg 4) 0xFF),
     reads [0x48, 0x81, 0x2B, 0x78, 0x56, 0x34, 0x12] (.subRmIz pW (.mem (.base 3 none)) (.i32 0x12345678)),
     reads [0x64, 0x83, 0xAD, 0x04, 0x03, 0x02, 0x81, 0x01] (.subRmI8 ⟨false, some .fs, none⟩ (.mem (.base 5 (some (.d32 0x81020304)))) 1)].all id = true := by
  decide +kernel

theorem test_decode_cmp :
    [reads [0x38, 0xE7] (.cmpRm8R8 p0 (.reg 7) 4),
     reads [0x45, 0x39, 0x4C, 0x98, 0xF0] (.cmpRmR pR (.mem (.sib 8 (some 3) 2 (some (.d8 0xF0)))) 9),
     reads [0x3A, 0x05, 0x78, 0x56, 0x34, 0x12] (.cmpR8Rm8 p0 0 (.mem (.npcRel 0x12345678))),
     reads [0x66, 0x4C, 0x3B, 0xC1] (.cmpRRm ⟨true, none, some true⟩ 8 (.reg 1)),
     reads [0x3C, 0x7F] (.cmpAlI8 p0 0x7F),
     reads [0x66, 0x3D, 0x00, 0x80] (.cmpAxIz p66 (.i16 0x8000)),
     reads [0x80, 0xFC, 0xFF] (.cmpRm8I8 p0 (.reg 4) 0xFF),
     reads [0x48, 0x81, 0x3B, 0x78, 0x56, 0x34, 0x12] (.cmpRmIz pW (.mem (.base 3 none)) (.i32 0x12345678)),
     reads [0x64, 0x83, 0xBD, 0x04, 0x03, 0x02, 0x81, 0x01] (.cmpRmI8 ⟨false, some .fs, none⟩ (.mem (.base 5 (some (.d32 0x81020304)))) 1)].all id = true := by
  decide +kernel

theorem test_decode_inc :
    [reads [0xFE, 0xC4] (.incRm8 p0 (.reg 4)),
     reads [0xFE, 0xCC] (.decRm8 p0 (.reg 4)),
     reads [0x66, 0x41, 0xFF, 0x07] (.incRm p66R (.mem (.base 15 none))),
     reads [0x48, 0xFF, 0x0C, 0x25, 0x10, 0x00, 0x00, 0x00] (.decRm pW (.mem (.sibNoBase none 0 0x10)))].all id = true := by
  decide +kernel

theorem test_decode_mov :
    [reads [0x88, 0xC4] (.movRm8R8 p0 (.reg 4) 0),
     reads [0x66, 0x44, 0x89, 0x4C, 0x24, 0x08] (.movRmR p66R (.mem (.sib 4 none 0 (some (.d8 8)))) 9),
     reads [0x41, 0x8A, 0x04, 0x24] (.movR8Rm8 pR 0 (.mem (.sib 12 none 0 none))),
     reads [0x42, 0x8B, 0x04, 0x25, 0x10, 0x00, 0x00, 0x00] (.movRRm pR 0 (.mem (.sibNoBase (some 12) 0 0x10))),
     reads [0x41, 0xB4, 0xFF] (.movR8I8 pR 12 0xFF),
     reads [0x48, 0xB8, 0x88, 0x77, 0x66, 0x55, 0x44, 0x33, 0x22, 0x11] (.movRIv pW 0 (.i64 0x1122334455667788)),
     reads [0xC6, 0x03, 0x55] (.movRm8I8 p0 (.mem (.base 3 none)) 0x55),
     reads [0x66, 0xC7, 0x45, 0x00, 0x34, 0x12] (.movRmIz p66 (.mem (.base 5 (some (.d8 0)))) (.i16 0x1234)),
     reads [0x66, 0x90] (.nop p66)].all id = true := by
  decide +kernel

theorem test_decode_jmp :
    [reads [0xEB, 0xFE] (.jmpRel8 p0 0xFE),
     reads [0xE9, 0x00, 0x01, 0x00, 0x00] (.jmpRel32 p0 0x100),
     reads [0xFF, 0x24, 0xC5, 0x00, 0x10, 0x00, 0x00] (.jmpRm p0 (.mem (.sibNoBase (some 0) 3 0x1000))),
     reads [0xE8, 0x06, 0x00, 0x00, 0x00] (.callRel32 p0 6),
     reads [0xFF, 0x54, 0x24, 0xF8] (.callRm p0 (.mem (.sib 4 none 0 (some (.d8 0xF8))))),
     reads [0xC3] (.ret p0)].all id = true := by
  decide +kernel

theorem test_decode_jcc8 :
    [reads [0x70, 0x80] (.joRel8 p0 0x80),
     reads [0x71, 0x80] (.jnoRel8 p0 0x80),
     reads [0x72, 0x80] (.jbRel8 p0 0x80),
     reads [0x73, 0x80] (.jaeRel8 p0 0x80),
     reads [0x74, 0x80] (.jeRel8 p0 0x80),
     reads [0x75, 0x80] (.jneRel8 p0 0x80),
     reads [0x76, 0x80] (.jbeRel8 p0 0x80),
     reads [0x77, 0x80] (.jaRel8 p0 0x80),
     reads [0x78, 0x80] (.jsRel8 p0 0x80),
     reads [0x79, 0x80] (.jnsRel8 p0 0x80),
     reads [0x7A, 0x80] (.jpRel8 p0 0x80),
     reads [0x7B, 0x80] (.jnpRel8 p0 0x80),
     reads [0x7C, 0x80] (.jlRel8 p0 0x80),
     reads [0x7D, 0x80] (.jgeRel8 p0 0x80),
     reads [0x7E, 0x80] (.jleRel8 p0 0x80),
     reads [0x7F, 0x80] (.jgRel8 p0 0x80)].all id = true := by
  decide +kernel

theorem test_decode_jcc32 :
    [reads [0x0F, 0x80, 0x00, 0x01, 0x00, 0x80] (.joRel32 p0 0x80000100),
     reads [0x0F, 0x81, 0x00, 0x01, 0x00, 0x80] (.jnoRel32 p0 0x80000100),
     reads [0x0F, 0x82, 0x00, 0x01, 0x00, 0x80] (.jbRel32 p0 0x80000100),
     reads [0x0F, 0x83, 0x00, 0x01, 0x00, 0x80] (.jaeRel32 p0 0x80000100),
     reads [0x0F, 0x84, 0x00, 0x01, 0x00, 0x80] (.jeRel32 p0 0x80000100),
     reads [0x0F, 0x85, 0x00, 0x01, 0x00, 0x80] (.jneRel32 p0 0x80000100),
     reads [0x0F, 0x86, 0x00, 0x01, 0x00, 0x80] (.jbeRel32 p0 0x80000100),
     reads [0x0F, 0x87, 0x00, 0x01, 0x00, 0x80] (.jaRel32 p0 0x80000100),
     reads [0x0F, 0x88, 0x00, 0x01, 0x00, 0x80] (.jsRel32 p0 0x80000100),
     reads [0x0F, 0x89, 0x00, 0x01, 0x00, 0x80] (.jnsRel32 p0 0x80000100),
     reads [0x0F, 0x8A, 0x00, 0x01, 0x00, 0x80] (.jpRel32 p0 0x80000100),
     reads [0x0F, 0x8B, 0x00, 0x01, 0x00, 0x80] (.jnpRel32 p0 0x80000100),
     reads [0x0F, 0x8C, 0x00, 0x01, 0x00, 0x80] (.jlRel32 p0 0x80000100),
     reads [0x0F, 0x8D, 0x00, 0x01, 0x00, 0x80] (.jgeRel32 p0 0x80000100),
     reads [0x0F, 0x8E, 0x00, 0x01, 0x00, 0x80] (.jleRel32 p0 0x80000100),
     reads [0x0F, 0x8F, 0x00, 0x01, 0x00, 0x80] (.jgRel32 p0 0x80000100)].all id = true := by
  decide +kernel

theorem test_decode_vec :
    [reads [0x0F, 0x2F, 0xC1] (.comiss p0 0 (.reg 1)),
     reads [0xF3, 0x0F, 0x10, 0x08] (.movssLoad p0 1 (.mem (.base 0 none))),
     reads [0xF3, 0x0F, 0x11, 0x07] (.movssStore p0 (.mem (.base 7 none)) 0),
     reads [0xF2, 0x0F, 0x10, 0x1D, 0x08, 0x00, 0x00, 0x00] (.movsdLoad p0 3 (.mem (.npcRel 8))),
     reads [0xF2, 0x0F, 0x11, 0xCA] (.movsdStore p0 (.reg 2) 1),
     reads [0xF3, 0x0F, 0x6F, 0x4E, 0x10] (.movdquLoad p0 1 (.mem (.base 6 (some (.d8 0x10))))),
     reads [0xF3, 0x45, 0x0F, 0x7F, 0x07] (.movdquStore pR (.mem (.base 15 none)) 8),
     reads [0x66, 0x44, 0x0F, 0xD4, 0xC9] (.paddq p66R 9 (.reg 1))].all id = true := by
  decide +kernel

theorem test_decode_shift :
    [reads [0x66, 0x0F, 0xD1, 0x64, 0xC8, 0xFC] (.psrlwRm p66 4 (.mem (.sib 0 (some 1) 3 (some (.d8 0xFC))))),
     reads [0x66, 0x0F, 0xD2, 0x64, 0xC8, 0xFC] (.psrldRm p66 4 (.mem (.sib 0 (some 1) 3 (some (.d8 0xFC))))),
     reads [0x66, 0x0F, 0xD3, 0x64, 0xC8, 0xFC] (.psrlqRm p66 4 (.mem (.sib 0 (some 1) 3 (some (.d8 0xFC))))),
     reads [0x66, 0x0F, 0xE1, 0x64, 0xC8, 0xFC] (.psrawRm p66 4 (.mem (.sib 0 (some 1) 3 (some (.d8 0xFC))))),
     reads [0x66, 0x0F, 0xE2, 0x64, 0xC8, 0xFC] (.psradRm p66 4 (.mem (.sib 0 (some 1) 3 (some (.d8 0xFC))))),
     reads [0x66, 0x0F, 0xF1, 0x64, 0xC8, 0xFC] (.psllwRm p66 4 (.mem (.sib 0 (some 1) 3 (some (.d8 0xFC))))),
     reads [0x66, 0x0F, 0xF2, 0x64, 0xC8, 0xFC] (.pslldRm p66 4 (.mem (.sib 0 (some 1) 3 (some (.d8 0xFC))))),
     reads [0x66, 0x0F, 0xF3, 0x64, 0xC8, 0xFC] (.psllqRm p66 4 (.mem (.sib 0 (some 1) 3 (some (.d8 0xFC))))),
     reads [0x66, 0x41, 0x0F, 0x71, 0xD2, 0x04] (.psrlwImm p66R 10 4),
     reads [0x66, 0x41, 0x0F, 0x71, 0xE2, 0x04] (.psrawImm p66R 10 4),
     reads [0x66, 0x41, 0x0F, 0x71, 0xF2, 0x04] (.psllwImm p66R 10 4),
     reads [0x66, 0x41, 0x0F, 0x72, 0xD2, 0x04] (.psrldImm p66R 10 4),
     reads [0x66, 0x41, 0x0F, 0x72, 0xE2, 0x04] (.psradImm p66R 10 4),
     reads [0x66, 0x41, 0x0F, 0x72, 0xF2, 0x04] (.pslldImm p66R 10 4),
     reads [0x66, 0x41, 0x0F, 0x73, 0xD2, 0x04] (.psrlqImm p66R 10 4),
     reads [0x66, 0x41, 0x0F, 0x73, 0xF2, 0x04] (.psllqImm p66R 10 4)].all id = true := by
  decide +kernel

/-- Further decodes of spec/95_test_vectors.md section 3. -/
theorem test_decode_more :
    [reads [0x66, 0x44, 0x8B, 0x45, 0x00] (.movRRm p66R 8 (.mem (.base 5 (some (.d8 0))))),
     reads [0x41, 0x8B, 0x45, 0x00] (.movRRm pR 0 (.mem (.base 13 (some (.d8 0))))),
     reads [0x8B, 0x04, 0x24] (.movRRm p0 0 (.mem (.sib 4 none 0 none))),
     reads [0x8B, 0x80, 0x00, 0x00, 0x00, 0x80] (.movRRm p0 0 (.mem (.base 0 (some (.d32 0x80000000))))),
     reads [0x66, 0x64, 0x48, 0x81, 0x84, 0x88, 0x78, 0x56, 0x34, 0x12, 0xEF, 0xCD, 0xAB, 0x89] (.addRmIz ⟨true, some .fs, some true⟩ (.mem (.sib 0 (some 1) 2 (some (.d32 0x12345678)))) (.i32 0x89ABCDEF)),
     reads [0x40, 0x8A, 0xC7] (.movR8Rm8 pR 0 (.reg 7))].all id = true := by
  decide +kernel

/-- The refusals of spec/95_test_vectors.md section 3, each with the bytes reported there. -/
theorem test_decode_refused :
    [
     [0x66, 0x0F, 0x2F],
     [0xF3, 0x0F, 0x2F],
     [0x0F, 0xD4],
     [0x66, 0x66],
     [0x2E, 0x3E],
     [0xF3, 0xF2],
     [0x66, 0xF3, 0x0F, 0x6F],
     [0xF3, 0x90],
     [0xF3, 0x01],
     [0x67],
     [0xF0],
     [0x48, 0x66],
     [0x48, 0x41],
     [0x41, 0x90],
     [0x80, 0xC8],
     [0x83, 0xF0],
     [0xFE, 0xD0],
     [0xFF, 0xF0],
     [0xFF, 0xD8],
     [0xC6, 0xC8],
     [0x66, 0x0F, 0x71, 0x10],
     [0x66, 0x0F, 0x73, 0xD8],
     [0x66, 0xEB],
     [0x66, 0xC3],
     [0x66, 0xE8],
     [0xC5],
     [0xC4],
     [0x62],
     [0x0F, 0x38],
     [0x0F, 0x05],
     [0xF4],
     [0xCC],
     [0x0F, 0xA2],
     [0x0F, 0xAF],
     [0xF7],
     [0x31],
     [0x50],
     [0xC2],
     [0x0F, 0x1F],
     [0x0F, 0xB6],
     [0x48, 0x63],
     [0x8D],
     [0xA4]].all refused = true := by
  decide +kernel

/-! ## Steps -/

/-- V-ADD-7: `00 D8` (ADD AL, BL) with `0x00 + 0x10`: no adjust carry. -/
theorem test_add8 : after (st [0x00, 0xD8] [(0, 0xAA00), (3, 0x10)]) (fun t => t.reg 0 == 0xAA10 && fl t == [0, 0, 0, 0, 0, 0] && t.ctx.pc == 0x1002) = true := by decide +kernel

/-- V-ADD-17 through `48 01 D8` (ADD RAX, RBX). -/
theorem test_add64 : after (st [0x48, 0x01, 0xD8] [(0, 0x8000000000000000), (3, 0x8000000000000000)]) (fun t => t.reg 0 == 0 && fl t == [1, 1, 0, 1, 0, 1] && t.ctx.pc == 0x1003) = true := by decide +kernel

/-- Program P2: `48 83 03 01` adds 1 to `0x00000000FFFFFFFF` in memory (V-ADD-16). -/
theorem test_add_mem : after (poke (st [0x48, 0x83, 0x03, 0x01] [(3, 0x3000)]) 0x3000 [0xFF, 0xFF, 0xFF, 0xFF]) (fun t => peek t 0x3000 8 == [0, 0, 0, 0, 1, 0, 0, 0] && fl t == [0, 1, 1, 0, 0, 0]) = true := by decide +kernel

/-- Program P5: `66 05 00 80` (ADD AX, 0x8000). -/
theorem test_add_ax : after (st [0x66, 0x05, 0x00, 0x80] [(0, 0xFFFFFFFFFFFF8080)]) (fun t => t.reg 0 == 0xFFFFFFFFFFFF0080 && fl t == [1, 0, 0, 0, 0, 1] && t.ctx.pc == 0x1004) = true := by decide +kernel

/-- Program P5: `83 E8 01` (SUB EAX, 1) clears bits 63:32. -/
theorem test_sub_imm8 : after (st [0x83, 0xE8, 0x01] [(0, 0xFFFFFFFFFFFF0080)]) (fun t => t.reg 0 == 0xFFFF007F && fl t == [0, 0, 1, 0, 1, 0]) = true := by decide +kernel

/-- V-SUB-9 through `66 2B C3` (SUB AX, BX). -/
theorem test_sub16 : after (st [0x66, 0x2B, 0xC3] [(0, 0x10000), (3, 0xFFFF)]) (fun t => t.reg 0 == 0x10001 && fl t == [1, 0, 1, 0, 0, 0]) = true := by decide +kernel

/-- Section 2.2: `48 83 F8 FF` (CMP RAX, -1). -/
theorem test_cmp_imm8 : after (st [0x48, 0x83, 0xF8, 0xFF] [(0, 0xFFFF007F)]) (fun t => t.reg 0 == 0xFFFF007F && fl t == [1, 0, 0, 0, 0, 0]) = true := by decide +kernel

/-- S3: `FE C0` (INC AL) of `0x7F`, carry set before. -/
theorem test_inc8 : after ((st [0xFE, 0xC0] [(0, 0xFFFFFFFFFFFFFF7F)]).setFlag .cf true) (fun t => t.reg 0 == 0xFFFFFFFFFFFFFF80 && fl t == [1, 0, 1, 0, 1, 1]) = true := by decide +kernel

/-- V-DEC-8 through `FF C9` (DEC ECX). -/
theorem test_dec32 : after (st [0xFF, 0xC9] [(1, 0xFFFFFFFF00000000)]) (fun t => t.reg 1 == 0xFFFFFFFF && fl t == [0, 1, 1, 0, 1, 0]) = true := by decide +kernel

/-- V-MOV-7: `8A E3` (MOV AH, BL). -/
theorem test_mov_ah : after (st [0x8A, 0xE3] [(0, 0xAAAAAAAAAAAAAAAA), (3, 0x1122334455667788), (7, 0x0102030405060708)]) (fun t => t.reg 0 == 0xAAAAAAAAAAAA88AA && t.reg 4 == 0) = true := by decide +kernel

/-- V-MOV-6: `40 8A C7` (MOV AL, DIL). -/
theorem test_mov_dil : after (st [0x40, 0x8A, 0xC7] [(0, 0xAAAAAAAAAAAAAAAA), (3, 0x1122334455667788), (7, 0x0102030405060708)]) (fun t => t.reg 0 == 0xAAAAAAAAAAAAAA08) = true := by decide +kernel

/-- V-MOV-8: `89 C0` (MOV EAX, EAX) clears bits 63:32. -/
theorem test_mov_eax : after (st [0x89, 0xC0] [(0, 0xAAAAAAAAAAAAAAAA), (3, 0x1122334455667788), (7, 0x0102030405060708)]) (fun t => t.reg 0 == 0xAAAAAAAA && fl t == [0, 0, 0, 0, 0, 0]) = true := by decide +kernel

/-- V-MOV-15. -/
theorem test_mov_imm64 : after (st [0x48, 0xB8, 0x88, 0x77, 0x66, 0x55, 0x44, 0x33, 0x22, 0x11] [(0, 0xAAAAAAAAAAAAAAAA), (3, 0x1122334455667788), (7, 0x0102030405060708)]) (fun t => t.reg 0 == 0x1122334455667788 && t.ctx.pc == 0x100A) = true := by decide +kernel

/-- V-MOV-16: the immediate is sign-extended. -/
theorem test_mov_simm : after (st [0x48, 0xC7, 0xC0, 0xFF, 0xFF, 0xFF, 0xFF] [(0, 0xAAAAAAAAAAAAAAAA), (3, 0x1122334455667788), (7, 0x0102030405060708)]) (fun t => t.reg 0 == 0xFFFFFFFFFFFFFFFF) = true := by decide +kernel

/-- R202: `C7 03 78 56 34 12` stores `78 56 34 12` at `x[3]`; a write-only segment allows it (R200). -/
theorem test_mov_store : after (st [0xC7, 0x03, 0x78, 0x56, 0x34, 0x12] [(3, 0xC000)]) (fun t => peek t 0xBFFF 6 == [0, 0x78, 0x56, 0x34, 0x12, 0] && t.reg 3 == 0xC000) = true := by decide +kernel

/-- V-EA-1: `8B 44 8B 10` reads at `0x3000 + 0x20 * 4 + 0x10`. -/
theorem test_mov_sib : after (poke (st [0x8B, 0x44, 0x8B, 0x10] [(3, 0x3000), (1, 0x20)]) 0x3090 [4, 3, 2, 1]) (fun t => t.reg 0 == 0x01020304) = true := by decide +kernel

/-- V-EA-2: `npc` counts from the end of the instruction. -/
theorem test_mov_npc : after (poke (st [0x48, 0x8B, 0x05, 0xF9, 0x1F, 0x00, 0x00] []) 0x3000 [1, 0, 0, 0, 0, 0, 0, 0x80]) (fun t => t.reg 0 == 0x8000000000000001) = true := by decide +kernel

/-- R204: `90` at `0x1000`. -/
theorem test_nop : after (st [0x90] [(0, 0xAAAAAAAAAAAAAAAA), (3, 0x1122334455667788), (7, 0x0102030405060708)]) (fun t => t.ctx.pc == 0x1001 && t.reg 0 == 0xAAAAAAAAAAAAAAAA) = true := by decide +kernel

/-- R230: `EB 05` at `0x1000`. -/
theorem test_jmp8 : after (st [0xEB, 0x05] []) (fun t => t.ctx.pc == 0x1007) = true := by decide +kernel

/-- R230: `EB FE` jumps to itself. -/
theorem test_jmp_self : after (st [0xEB, 0xFE] []) (fun t => t.ctx.pc == 0x1000) = true := by decide +kernel

/-- R231: `FF E0` (JMP RAX). -/
theorem test_jmp_rm : after (st [0xFF, 0xE0] [(0, 0x2000)]) (fun t => t.ctx.pc == 0x2000) = true := by decide +kernel

/-- R232: `75 FA` with `ZF = 0`: `npc - 6`. -/
theorem test_jne_taken : after (st [0x75, 0xFA] []) (fun t => t.ctx.pc == 0xFFC) = true := by decide +kernel

/-- R232: `75 FA` with `ZF = 1` falls through. -/
theorem test_jne_not : after ((st [0x75, 0xFA] []).setFlag .zf true) (fun t => t.ctx.pc == 0x1002) = true := by decide +kernel

/-- R233: `0F 8F 00 01 00 00` (JG) with `SF = OF = 1`, `ZF = 0`. -/
theorem test_jg32 : after (((st [0x0F, 0x8F, 0x00, 0x01, 0x00, 0x00] []).setFlag .sf true).setFlag .of true) (fun t => t.ctx.pc == 0x1106) = true := by decide +kernel

/-- R236: `E8 06 00 00 00`, here at `0x1000`. -/
theorem test_call : after (st [0xE8, 0x06, 0x00, 0x00, 0x00] [(4, 0x4000)]) (fun t => peek t 0x3FF8 8 == [0x05, 0x10, 0, 0, 0, 0, 0, 0] && t.reg 4 == 0x3FF8 && t.ctx.pc == 0x100B) = true := by decide +kernel

/-- R237: `FF D4` (CALL RSP) jumps to the old `x[4]`. -/
theorem test_call_rsp : after (st [0xFF, 0xD4] [(4, 0x4000)]) (fun t => t.reg 4 == 0x3FF8 && t.ctx.pc == 0x4000 && peek t 0x3FF8 2 == [0x02, 0x10]) = true := by decide +kernel

/-- R238. -/
theorem test_ret : after (poke (st [0xC3] [(4, 0x3FF8)]) 0x3FF8 [0x0F, 0x20]) (fun t => t.reg 4 == 0x4000 && t.ctx.pc == 0x200F) = true := by decide +kernel

/-- V-COM: `+0` against the least denormal is less; OF, SF, AF are cleared. -/
theorem test_comiss_less : after (((((st [0x0F, 0x2F, 0xC1] []).setFlag .of true).setFlag .sf true).setFlag .af true).writeRaw 1 1) (fun t => fl t == [1, 0, 0, 0, 0, 0]) = true := by decide +kernel

/-- R252: a NaN is unordered. -/
theorem test_comiss_nan : after ((st [0x0F, 0x2F, 0xC1] []).writeRaw 1 0x7F800001) (fun t => fl t == [1, 1, 0, 1, 0, 0]) = true := by decide +kernel

/-- Program P3: V-PADDQ-2; bits above 127 stay. -/
theorem test_paddq : after (((((st [0x66, 0x0F, 0xD4, 0xC1] [])).writeWide 0 (0xAAAA <<< 496)).writeRaw 0 0x0123456789ABCDEF00000000FFFFFFFF).writeRaw 1 0xFFFFFFFFFFFFFFFF0000000000000001) (fun t => t.val 0 == (0xAAAA <<< 496) ||| 0x0123456789ABCDEE0000000100000000) = true := by decide +kernel

/-- Section 2.11, by an immediate count. -/
theorem test_psllw_imm : after ((st [0x66, 0x0F, 0x71, 0xF0, 0x04] []).writeRaw 0 0xFFFFFFFF800000007FFFFFFF00000001) (fun t => t.val 0 == 0xFFF0FFF000000000FFF0FFF000000010 && t.ctx.pc == 0x1005) = true := by decide +kernel

/-- Section 2.11, by an immediate count. -/
theorem test_pslld_imm : after ((st [0x66, 0x0F, 0x72, 0xF0, 0x1F] []).writeRaw 0 0xFFFFFFFF800000007FFFFFFF00000001) (fun t => t.val 0 == 0x80000000000000008000000080000000 && t.ctx.pc == 0x1005) = true := by decide +kernel

/-- Section 2.11, by an immediate count. -/
theorem test_psllq_imm : after ((st [0x66, 0x0F, 0x73, 0xF0, 0x04] []).writeRaw 0 0xFFFFFFFF800000007FFFFFFF00000001) (fun t => t.val 0 == 0xFFFFFFF800000000FFFFFFF000000010 && t.ctx.pc == 0x1005) = true := by decide +kernel

/-- Section 2.11, by an immediate count. -/
theorem test_psrlw_imm : after ((st [0x66, 0x0F, 0x71, 0xD0, 0x0F] []).writeRaw 0 0xFFFFFFFF800000007FFFFFFF00000001) (fun t => t.val 0 == 0x00010001000100000000000100000000 && t.ctx.pc == 0x1005) = true := by decide +kernel

/-- Section 2.11, by an immediate count. -/
theorem test_psrld_imm : after ((st [0x66, 0x0F, 0x72, 0xD0, 0x04] []).writeRaw 0 0xFFFFFFFF800000007FFFFFFF00000001) (fun t => t.val 0 == 0x0FFFFFFF0800000007FFFFFF00000000 && t.ctx.pc == 0x1005) = true := by decide +kernel

/-- Section 2.11, by an immediate count. -/
theorem test_psrlq_imm : after ((st [0x66, 0x0F, 0x73, 0xD0, 0x3F] []).writeRaw 0 0xFFFFFFFF800000007FFFFFFF00000001) (fun t => t.val 0 == 0x00000000000000010000000000000000 && t.ctx.pc == 0x1005) = true := by decide +kernel

/-- Section 2.11, by an immediate count. -/
theorem test_psraw_imm : after ((st [0x66, 0x0F, 0x71, 0xE0, 0x10] []).writeRaw 0 0xFFFFFFFF800000007FFFFFFF00000001) (fun t => t.val 0 == 0xFFFFFFFFFFFF00000000FFFF00000000 && t.ctx.pc == 0x1005) = true := by decide +kernel

/-- Section 2.11, by an immediate count. -/
theorem test_psrad_imm : after ((st [0x66, 0x0F, 0x72, 0xE0, 0x1F] []).writeRaw 0 0xFFFFFFFF800000007FFFFFFF00000001) (fun t => t.val 0 == 0xFFFFFFFFFFFFFFFF0000000000000000 && t.ctx.pc == 0x1005) = true := by decide +kernel

/-- Section 2.11, by a register count. -/
theorem test_psllw_reg : after (((st [0x66, 0x0F, 0xF1, 0xC1] []).writeRaw 0 0xFFFFFFFF800000007FFFFFFF00000001).writeRaw 1 0x0000000100000001) (fun t => t.val 0 == 0xFFFEFFFE00000000FFFEFFFE00000002 && t.val 1 == 0x0000000100000001) = true := by decide +kernel

/-- Section 2.11, by a register count. -/
theorem test_pslld_reg : after (((st [0x66, 0x0F, 0xF2, 0xC1] []).writeRaw 0 0xFFFFFFFF800000007FFFFFFF00000001).writeRaw 1 32) (fun t => t.val 0 == 0 && t.val 1 == 32) = true := by decide +kernel

/-- Section 2.11, by a register count. -/
theorem test_psllq_reg : after (((st [0x66, 0x0F, 0xF3, 0xC1] []).writeRaw 0 0xFFFFFFFF800000007FFFFFFF00000001).writeRaw 1 0x0000000100000001) (fun t => t.val 0 == 0xFFFFFFFF00000000FFFFFFFE00000002 && t.val 1 == 0x0000000100000001) = true := by decide +kernel

/-- Section 2.11, by a register count. -/
theorem test_psrlw_reg : after (((st [0x66, 0x0F, 0xD1, 0xC1] []).writeRaw 0 0xFFFFFFFF800000007FFFFFFF00000001).writeRaw 1 1) (fun t => t.val 0 == 0x7FFF7FFF400000003FFF7FFF00000000 && t.val 1 == 1) = true := by decide +kernel

/-- Section 2.11, by a register count. -/
theorem test_psrld_reg : after (((st [0x66, 0x0F, 0xD2, 0xC1] []).writeRaw 0 0xFFFFFFFF800000007FFFFFFF00000001).writeRaw 1 31) (fun t => t.val 0 == 0x00000001000000010000000000000000 && t.val 1 == 31) = true := by decide +kernel

/-- Section 2.11, by a register count. -/
theorem test_psrlq_reg : after (((st [0x66, 0x0F, 0xD3, 0xC1] []).writeRaw 0 0xFFFFFFFF800000007FFFFFFF00000001).writeRaw 1 1) (fun t => t.val 0 == 0x7FFFFFFFC00000003FFFFFFF80000000 && t.val 1 == 1) = true := by decide +kernel

/-- Section 2.11, by a register count. -/
theorem test_psraw_reg : after (((st [0x66, 0x0F, 0xE1, 0xC1] []).writeRaw 0 0xFFFFFFFF800000007FFFFFFF00000001).writeRaw 1 4) (fun t => t.val 0 == 0xFFFFFFFFF800000007FFFFFF00000000 && t.val 1 == 4) = true := by decide +kernel

/-- Section 2.11, by a register count. -/
theorem test_psrad_reg : after (((st [0x66, 0x0F, 0xE2, 0xC1] []).writeRaw 0 0xFFFFFFFF800000007FFFFFFF00000001).writeRaw 1 0xFFFFFFFF) (fun t => t.val 0 == 0xFFFFFFFFFFFFFFFF0000000000000000 && t.val 1 == 0xFFFFFFFF) = true := by decide +kernel

/-- R256: a memory count is 4 bytes: `66 0F F3 03` reads the last 4 of a segment. -/
theorem test_shift_mem : after ((poke (st [0x66, 0x0F, 0xF3, 0x03] [(3, 0x4FFC)]) 0x4FFC [1]).writeRaw 0 0xFFFFFFFF800000007FFFFFFF00000001) (fun t => t.val 0 == 0xFFFFFFFF00000000FFFFFFFE00000002) = true := by decide +kernel

/-- V-TAG-6: `F3 0F 10 CA` (MOVSS xmm1, xmm2). -/
theorem test_movss_reg : after (((st [0xF3, 0x0F, 0x10, 0xCA] []).writeRaw 1 0x44444444333333332222222211111111).writeF32 2 0xAAAAAAAA) (fun t => t.val 1 == 0x444444443333333322222222AAAAAAAA) = true := by decide +kernel

/-- V-TAG-7: `F3 0F 10 08` (MOVSS xmm1, [RAX]) clears bits 127:32. -/
theorem test_movss_load : after ((poke (st [0xF3, 0x0F, 0x10, 0x08] [(0, 0x3000)]) 0x3000 [0xAA, 0xAA, 0xAA, 0xAA]).writeRaw 1 0x44444444333333332222222211111111) (fun t => t.val 1 == 0xAAAAAAAA) = true := by decide +kernel

/-- R271: `F3 0F 11 07` (MOVSS [RDI], xmm0). -/
theorem test_movss_store : after ((st [0xF3, 0x0F, 0x11, 0x07] [(7, 0x3000)]).writeF32 0 0x3F800000) (fun t => peek t 0x3000 5 == [0, 0, 0x80, 0x3F, 0]) = true := by decide +kernel

/-- R272: `F2 0F 10 18` (MOVSD xmm3, [RAX]) clears bits 127:64. -/
theorem test_movsd_load : after ((poke (st [0xF2, 0x0F, 0x10, 0x18] [(0, 0x3000)]) 0x3007 [0x40]).writeRaw 3 0x11111111111111112222222222222222) (fun t => t.val 3 == 0x4000000000000000) = true := by decide +kernel

/-- R273: `F2 0F 11 CA` (MOVSD xmm2, xmm1) replaces the low 64 bits. -/
theorem test_movsd_store : after (((st [0xF2, 0x0F, 0x11, 0xCA] []).writeF64 1 0xBBBBBBBBCCCCCCCC).writeRaw 2 0x44444444333333332222222211111111) (fun t => t.val 2 == 0x4444444433333333BBBBBBBBCCCCCCCC) = true := by decide +kernel

/-- R274: `F3 0F 6F 07` (MOVDQU xmm0, [RDI]), across no segment border, unaligned. -/
theorem test_movdqu_load : after (poke (st [0xF3, 0x0F, 0x6F, 0x07] [(7, 0x3FF0)]) 0x3FF0 [0, 1, 2, 3, 4, 5, 6, 7, 8, 9, 10, 11, 12, 13, 14, 15]) (fun t => t.val 0 == 0x0F0E0D0C0B0A09080706050403020100) = true := by decide +kernel

/-- R275: `F3 0F 7F 0F` (MOVDQU [RDI], xmm1) stores the cached scalar too. -/
theorem test_movdqu_store : after (((st [0xF3, 0x0F, 0x7F, 0x0F] [(7, 0x3001)]).writeRaw 1 0x44444444333333332222222211111111).writeF32 1 0xAAAAAAAA) (fun t => peek t 0x3001 16 == [0xAA, 0xAA, 0xAA, 0xAA, 0x22, 0x22, 0x22, 0x22, 0x33, 0x33, 0x33, 0x33, 0x44, 0x44, 0x44, 0x44]) = true := by decide +kernel

/-- V-FLT-1: ADD to a read-only byte. -/
theorem test_fault_write : faults (st [0x80, 0x03, 0x01] [(3, 0xA000)]) (.accessViolation 0xA000 1 .write) = true := by decide +kernel

/-- V-FLT-2: the read of a write-only byte comes first. -/
theorem test_fault_read : faults (st [0x80, 0x03, 0x01] [(3, 0xC000)]) (.accessViolation 0xC000 1 .read) = true := by decide +kernel

/-- V-MEM-2: an access across two segments. -/
theorem test_fault_span : faults (st [0x8B, 0x03] [(3, 0x3FFD)]) (.segmentationFault 0x3FFD 4 .read) = true := by decide +kernel

/-- V-EA-4: an access past the last address. -/
theorem test_fault_top : faults (st [0x8B, 0x40, 0xFF] []) (.segmentationFault 0xFFFFFFFFFFFFFFFF 4 .read) = true := by decide +kernel

/-- V-FLT: `66 66` is refused at the second byte. -/
theorem test_fault_decode : faults (st [0x66, 0x66, 0x01, 0xC8] []) (.decodeError 0x1000 [0x66, 0x66]) = true := by decide +kernel

/-- R309: the second byte of an instruction that cannot be fetched. -/
theorem test_fault_fetch : faults ((poke (st [] []) 0x1FFF [0x0F]).setPc 0x1FFF) (.segmentationFault 0x2000 1 .fetch) = true := by decide +kernel

/-- V-MEM-10: `protect` of `[0x4800, 0x4810)` splits one segment into three. -/
theorem test_protect :
    (match ({ Vmm.reset with segs := [seg 0x3000 0x6000 true true false] }).protect 0x4800 0x10 ⟨true, false, true⟩ with
      | .ok m => m.segs.map fun g => (g.start.toNat, g.stop.toNat, g.perm.write, g.offset.toNat)
      | .error _ => [])
    = [(0x3000, 0x4000, true, 0), (0x4000, 0x5000, false, 0x1000), (0x5000, 0x6000, true, 0x2000)] := by
  decide +kernel

/-- V-MEM-14. -/
theorem test_pages :
    [roundToPageSize 0, roundToPageSize 1, roundToPageSize 4096, roundToPageSize 4097, roundToPageSize (-1),
      pageStart 0x4FFF, pageStart 0x4000] = [0, 4096, 4096, 8192, 0, 0x4000, 0x4000] := by decide +kernel

/-- The first instruction after reset, placed by `withFetchWord`: `48 01 D8` (row ADD of the table, with a REX byte),
and `0F D4 C1`, to which the table's word does not give its mandatory `66`. -/
theorem test_fetch_word :
    after (State.reset.withFetchWord 24 0xD80148) (fun t => t.ctx.pc == 3) = true ∧
    after (State.reset.withFetchWord 24 0xC1D40F) (fun t => t.ctx.pc == 4) = true ∧
    decodeTableWord 24 0xC1D40F = some (.paddq p66 0 (.reg 1)) := by decide +kernel

/-! ## Between the accesses of a step (60_exceptions.md R323) -/

/-- The events in order: the block they leave, and the last report. -/
def runs (b : Block) : List Event → Block × Report
  | [] => (b, .done)
  | [e] => b.on e
  | e :: es => runs (b.on e).1 es

/-- Context 0 has fetched the four bytes of `48 83 03 01` (ADD qword [RBX], 1) and read 0 at `0x3000`. -/
def midAdd : List Event := List.replicate 5 (.access 0)

/-- The block of a state with a second context. -/
def two (s : State) : Block := { s with parked := [Context.reset] }.block

/-- The block in which it does. -/
def addBlock : Block := two (st [0x48, 0x83, 0x03, 0x01] [(3, 0x3000)])

/-- R335, last row: `protect` between the read and the store of ADD makes the store fault, and nothing changes. -/
theorem test_protect_midstep :
    (runs addBlock (midAdd ++ [.command (.protect 0x3000 1 ⟨true, false, false⟩), .access 0])).2
      = .fault (.accessViolation 0x3000 8 .write) ∧
    ((runs addBlock (midAdd ++ [.command (.protect 0x3000 1 ⟨true, false, false⟩), .access 0])).1.cpus
      = addBlock.cpus) := by decide +kernel

/-- R102: a store of 5 by the caller between the read and the store of ADD is lost: 1 stands there afterwards. -/
theorem test_lost_update :
    (runs addBlock (midAdd ++ [.write 0x3000 8 5, .access 0, .read 0x3000 8])).2 = .value 8 1 ∧
    (runs addBlock (midAdd ++ [.write 0x3000 8 5, .access 0])).2 = .advanced := by decide +kernel

/-- R106: code rewritten between two fetches of one step: the opcode of `48 83 03 01` becomes `FF`, and INC runs. -/
theorem test_code_midstep :
    (runs addBlock ([.access 0, .command (.protect 0x1000 1 ⟨true, true, true⟩), .write 0x1001 1 0xFF] ++
      List.replicate 4 (.access 0) ++ [.read 0x3000 8])).2 = .value 8 1 ∧
    (runs addBlock ([.access 0, .command (.protect 0x1000 1 ⟨true, true, true⟩), .write 0x1001 1 0xFF] ++
      List.replicate 4 (.access 0))).1.cpus.map (fun p => p.ctx.pc) = [0x1003, 0] := by decide +kernel

/-- R323, U12: during the step its registers are closed, and those of the other context are open. -/
theorem test_ports_midstep :
    (runs addBlock (midAdd ++ [.registers 0 Context.reset])).2 = .refused ∧
    (runs addBlock (midAdd ++ [.snapshot 0])).2 = .refused ∧
    (runs addBlock (midAdd ++ [.registers 1 (Context.reset.setPc 7)])).2 = .done := by decide +kernel

/-- The accesses of a step with nothing in between are the step. -/
theorem test_finish_step :
    after (st [0x48, 0x83, 0x03, 0x01] [(3, 0x3000)])
      (fun t => decide (addBlock.finishStep 0 17 = (two t, .advanced))) = true := by decide +kernel

/-! ## Witnesses: for every statement with hypotheses, operands and a state that meet them -/

/-- A state for the witnesses: `x[0]` at a word to read and write, `x[1]` in the write-only segment, `x[2]`
unmapped, `x[3]` in the read-only segment, `x[4]` at the top of a segment, `x[6]` at the last byte of one. -/
def ws : State :=
  st [0x48, 0x01, 0xD8] [(0, 0x3000), (1, 0xC000), (3, 0xA000), (4, 0x4000), (5, 0x3FF8), (6, 0x3FFF)]

/-- The operand `[x[n]]`. -/
abbrev at' (n : Reg) : RM := .mem (.base n none)

theorem witness_DecodeEncode : Instr.wf (.addRmIz ⟨true, some .fs, some true⟩ (.mem (.sib 15 (some 12) 3
    (some (.d32 0x80000000)))) (.i32 0xFFFFFFFF)) = true := by decide

theorem witness_DecodeWellFormed : decode [0x90, 0xC3] = .ok (.nop p0) [0xC3] := by decide +kernel

theorem witness_RefusedPrefixes :
    AllLegacy [0x66, 0x65, 0xF2] ∧ AllLegacy [] ∧ IsRex 0x40 ∧ IsRex 0x4F ∧
    (0x66 ∈ legacyKinds.flatten ∧ 0xF2 ∈ legacyKinds.flatten) := by
  unfold AllLegacy IsRex legacyKinds
  decide

theorem witness_PrefixDiscipline :
    ([0x26, 0x2E, 0x36, 0x3E, 0x64, 0x65] ∈ legacyKinds ∧
      (0x26 : Byte) ∈ ([0x26, 0x2E, 0x36, 0x3E, 0x64, 0x65] : List Byte) ∧
      (0x65 : Byte) ∈ ([0x26, 0x2E, 0x36, 0x3E, 0x64, 0x65] : List Byte) ∧ AllLegacy [0x66] ∧ AllLegacy [0xF3]) ∧
    (AllLegacy [0x66, 0x64] ∧ List.Perm ([0x66, 0x64] : List Byte) [0x64, 0x66] ∧
      decode ([0x66, 0x64] ++ [0x90]) = .ok (.nop ⟨true, some .fs, none⟩) []) := by
  unfold AllLegacy legacyKinds
  decide +kernel

/-- The clauses of `RefusedInstructions`, in order: HLT; `F6`, and `F3` before a row; `0F D4` without `66` and `0F 2F`
with it; `66 C3`; `66 FF /2` and `/4`; `80 /1` and `FF /7`; `66 0F 71` with `mod = 2`; `41 90`. -/
theorem witness_RefusedInstructions :
    AllLegacy [0x66, 0xF3] ∧ IsRex 0x41 ∧ [0xC4] ∈ refusedOpcodes ∧ [0xF4] ∈ refusedOpcodes ∧
    ((0xF6 : Byte) ∉ legacyKinds.flatten ∧ ¬ IsRex 0xF6 ∧ (0xF6 : Byte) ∉ mapOneOpcodes) ∧
    (0xF3 : Byte) ∈ ([0x66, 0xF3] : List Byte) ∧
    (∀ c ops, (c, ops) ∈ mapTwoOpcodes → 0xD4 ∈ ops → ¬ ClassIs [] c) ∧
    (∀ c ops, (c, ops) ∈ mapTwoOpcodes → 0x2F ∈ ops → ¬ ClassIs [0x66] c) ∧
    (0xC3 : Byte) ∈ transferOpcodes ∧ (0x10 : Byte).toNat / 8 % 8 = 2 ∧ (0xE7 : Byte).toNat / 8 % 8 = 4 ∧
    ([0x80], [0, 5, 7]) ∈ groupDigits ∧ (0xC8 : Byte).toNat / 8 % 8 ∉ [0, 5, 7] ∧
    ([0xFF], [0, 1, 2, 4]) ∈ groupDigits ∧ (0x38 : Byte).toNat / 8 % 8 ∉ [0, 1, 2, 4] ∧
    (0xBF : Byte).toNat / 64 ≠ 3 ∧ (0x41 : Byte).getLsbD 0 = true := by
  have h (pre : List Byte) (op : Byte)
      (h : ∀ x ∈ mapTwoOpcodes, op ∈ x.2 → ¬ ∀ b ∈ [0x66, 0xF3, 0xF2], b ∈ pre ↔ x.1 = some b) :
      ∀ c ops, (c, ops) ∈ mapTwoOpcodes → op ∈ ops → ¬ ClassIs pre c := fun c ops hm => h (c, ops) hm
  refine ⟨?_, ?_, ?_, ?_, ?_, ?_, h [] 0xD4 (by decide), h [0x66] 0x2F (by decide), ?_⟩ <;>
    (try unfold AllLegacy) <;> (try unfold IsRex) <;> (try unfold legacyKinds) <;> decide

/-- The clauses of `EffectiveAddress` with hypotheses: each of the three kinds of segment prefix, and bytes that decode
after `64`, after `65` and after `2E`. -/
theorem witness_EffectiveAddress :
    (⟨false, some .fs, none⟩ : Pfx).seg = some .fs ∧ (⟨false, some .gs, none⟩ : Pfx).seg = some .gs ∧
    (p0.seg ≠ some .fs ∧ p0.seg ≠ some .gs) ∧
    (AllLegacy [0x64] ∧ AllLegacy [0x65] ∧ AllLegacy [0x2E] ∧ (0x8B : Byte) ∉ legacyKinds.flatten ∧
      decode ([0x64] ++ 0x8B :: [0x03]) = .ok (.movRRm ⟨false, some .fs, none⟩ 0 (at' 3)) [] ∧
      decode ([0x65] ++ 0x8B :: [0x03]) = .ok (.movRRm ⟨false, some .gs, none⟩ 0 (at' 3)) [] ∧
      decode ([0x2E] ++ 0x8B :: [0x03]) = .ok (.movRRm ⟨false, some .cs, none⟩ 0 (at' 3)) []) := by
  unfold AllLegacy legacyKinds
  decide +kernel

/-- Bytes that stand at the pc can be fetched, when each is answered. -/
theorem fetches_of {s : State} {bs : List Byte}
    (h : ((List.range bs.length).all fun j =>
      match s.vmm.memFetch (s.ctx.pc + BitVec.ofNat 64 j) with
      | .ok b => bs[j]? == some b
      | .error _ => false) = true) : s.Fetches bs := by
  intro j hj
  have := List.all_eq_true.1 h j (List.mem_range.2 hj)
  cases e : s.vmm.memFetch (s.ctx.pc + BitVec.ofNat 64 j) with
  | error f => simp only [e] at this; cases this
  | ok b =>
    simp only [e, List.getElem?_eq_getElem hj, beq_iff_eq, Option.some.injEq] at this
    rw [this]

theorem witness_StepRunsDecoded :
    ws.Fetches [0x48, 0x01, 0xD8] ∧ decode [0x48, 0x01, 0xD8] = .ok (.addRmR pW (.reg 0) 3) [] :=
  ⟨fetches_of (by decide +kernel), by decide +kernel⟩

/-- Both clauses of `DecodeErrorReport`, on `66 66`. -/
theorem witness_DecodeErrorReport :
    (st [0x66, 0x66] []).Fetches [0x66, 0x66] ∧ decode [0x66, 0x66] = .bad [] ∧
    faults (st [0x66, 0x66] []) (.decodeError 0x1000 [0x66, 0x66]) = true :=
  ⟨fetches_of (by decide +kernel), by decide +kernel, by decide +kernel⟩

/-- Both faults of `FetchFault`: at an unmapped byte after one byte, and at a segment without `execute`. -/
theorem witness_FetchFault :
    let s := (poke (st [] []) 0x1FFF [0x0F]).setPc 0x1FFF
    s.Fetches [0x0F] ∧ decode [0x0F] = .short ∧
    s.vmm.memFetch (s.ctx.pc + BitVec.ofNat 64 1) = .error (.segmentationFault 0x2000 1 .fetch) ∧
    (s.setPc 0x3000).Fetches [] ∧ decode [] = .short ∧
    (s.setPc 0x3000).vmm.memFetch 0x3000 = .error (.accessViolation 0x3000 1 .fetch) :=
  ⟨fetches_of (by decide +kernel), by decide, rfl, fetches_of (by decide), by decide, rfl⟩

theorem witness_UnmappedFaults : State.reset.vmm.segs = [] := rfl

theorem witness_RegisterViews : (4 : Reg).toNat = 4 ∧ (7 : Reg).toNat = 7 ∧ (3 : Reg).toNat < 4 ∧
    7 < (8 : Reg).toNat := by decide

theorem witness_FlagFunctions : 8 ≤ Width.w8.bits ∧ 8 ≤ Width.w64.bits := by decide

theorem witness_Conditions : 1 ≤ Width.w8.bits := by decide

/-- A memory destination at the last byte of its segment, and an immediate source at width 64. -/
theorem witness_AddResult :
    (∃ f, Instr.addForm (.addRm8R8 p0 (at' 6) 3) = some f ∧ (ws.bind (.addRm8R8 p0 (at' 6) 3) f.pfx f.dst).readable ws f.w
      ∧ f.src.readable ws (.addRm8R8 p0 (at' 6) 3) f.pfx
      ∧ (ws.bind (.addRm8R8 p0 (at' 6) 3) f.pfx f.dst).writable ws f.w) ∧
    (∃ f, Instr.addForm (.addRmI8 pW (at' 0) 0xFF) = some f ∧ (ws.bind (.addRmI8 pW (at' 0) 0xFF) f.pfx f.dst).readable ws f.w
      ∧ f.src.readable ws (.addRmI8 pW (at' 0) 0xFF) f.pfx
      ∧ (ws.bind (.addRmI8 pW (at' 0) 0xFF) f.pfx f.dst).writable ws f.w) :=
  ⟨⟨_, rfl, by decide +kernel, by decide +kernel, by decide +kernel⟩,
    ⟨_, rfl, by decide +kernel, by decide +kernel, by decide +kernel⟩⟩

theorem witness_SubResult :
    ∃ f, Instr.subForm (.subRRm p0 2 (at' 3)) = some f ∧ (ws.bind (.subRRm p0 2 (at' 3)) f.pfx f.dst).readable ws f.w
      ∧ f.src.readable ws (.subRRm p0 2 (at' 3)) f.pfx
      ∧ (ws.bind (.subRRm p0 2 (at' 3)) f.pfx f.dst).writable ws f.w :=
  ⟨_, rfl, by decide +kernel, by decide +kernel, by decide +kernel⟩

/-- The first operand in the read-only segment: `read` alone is enough. -/
theorem witness_CmpResult :
    ∃ f, Instr.cmpForm (.cmpRmR p0 (at' 3) 0) = some f ∧ (ws.bind (.cmpRmR p0 (at' 3) 0) f.pfx f.dst).readable ws f.w
      ∧ f.src.readable ws (.cmpRmR p0 (at' 3) 0) f.pfx :=
  ⟨_, rfl, by decide +kernel, by decide +kernel⟩

theorem witness_IncDecResult :
    (ws.bind (.incRm8 p0 (at' 6)) p0 (at' 6)).readable ws .w8 = true ∧
    (ws.bind (.incRm8 p0 (at' 6)) p0 (at' 6)).writable ws .w8 = true ∧
    Instr.incForm (.incRm8 p0 (at' 6)) = some (p0, .w8, at' 6) ∧
    (ws.bind (.decRm pW (.reg 5)) pW (.reg 5)).readable ws .w64 = true ∧
    (ws.bind (.decRm pW (.reg 5)) pW (.reg 5)).writable ws .w64 = true ∧
    Instr.decForm (.decRm pW (.reg 5)) = some (pW, .w64, .reg 5) := by decide +kernel

/-- A store into the write-only segment: `write` alone is enough. -/
theorem witness_MovResult :
    ∃ f, Instr.movForm (.movRmR pW (at' 1) 0) = some f ∧ f.src.readable ws (.movRmR pW (at' 1) 0) f.pfx
      ∧ (ws.bind (.movRmR pW (at' 1) 0) f.pfx f.dst).writable ws f.w :=
  ⟨_, rfl, by decide +kernel, by decide +kernel⟩

theorem witness_RelativeJumps :
    Instr.jmpForm (.jmpRel8 p0 0x80) = some 0xFFFFFFFFFFFFFF80 ∧
    Instr.jccForm (.jgRel32 p0 0x7FFFFFFF) = some (.g, 0x7FFFFFFF) := by decide

theorem witness_IndirectJump : (ws.bind (.jmpRm p0 (at' 5)) p0 (at' 5)).readable ws .w64 = true := by decide +kernel

theorem witness_CallResult :
    ws.vmm.permits (ws.reg rsp - 8) 8 .write = true ∧
    (ws.bind (.callRm p0 (at' 3)) p0 (at' 3)).readable ws .w64 = true := by decide +kernel

theorem witness_RetResult : ws.vmm.permits (ws.reg rsp) 8 .read = true := by decide +kernel

theorem witness_ComissResult : (ws.bind (.comiss p0 0 (at' 3)) p0 (at' 3)).vreadable ws 4 = true := by decide +kernel

theorem witness_PaddqResult : (ws.bind (.paddq p66 0 (at' 3)) p66 (at' 3)).vreadable ws 16 = true := by
  decide +kernel

theorem witness_ShiftResult :
    Instr.shiftForm (.psradRm p66 9 (at' 0)) = some (p66, .sra, 32, 9, at' 0) ∧
    (ws.bind (.psradRm p66 9 (at' 0)) p66 (at' 0)).vreadable ws 4 = true := by decide +kernel

theorem witness_ShiftImmediateResult :
    Instr.shiftImmForm (.psllqImm p66 15 64) = some (.sll, 64, 15, 64) := by decide

/-- The register form, and the memory form at the last 8 bytes of a segment. -/
theorem witness_VectorLoadResult :
    Instr.vloadForm (.movssLoad p0 1 (.reg 2)) = some (p0, 4, 1, .reg 2) ∧
    (ws.bind (.movssLoad p0 1 (.reg 2)) p0 (.reg 2)).vreadable ws 4 = true ∧
    ws.bind (.movssLoad p0 1 (.reg 2)) p0 (.reg 2) = .reg 2 ∧
    Instr.vloadForm (.movsdLoad p0 1 (at' 5)) = some (p0, 8, 1, at' 5) ∧
    (ws.bind (.movsdLoad p0 1 (at' 5)) p0 (at' 5)).vreadable ws 8 = true ∧
    ws.bind (.movsdLoad p0 1 (at' 5)) p0 (.mem (.base 5 none)) = .mem 0x3FF8 := by decide +kernel

theorem witness_VectorStoreResult :
    Instr.vstoreForm (.movdquStore p0 (.reg 2) 1) = some (p0, 16, .reg 2, 1) ∧
    (ws.bind (.movdquStore p0 (.reg 2) 1) p0 (.reg 2)).vwritable ws 16 = true ∧
    Instr.vstoreForm (.movsdStore p0 (at' 1) 1) = some (p0, 8, at' 1, 1) ∧
    (ws.bind (.movsdStore p0 (at' 1) 1) p0 (at' 1)).vwritable ws 8 = true ∧
    ws.bind (.movsdStore p0 (at' 1) 1) p0 (at' 1) = .mem 0xC000 := by decide +kernel

/-- Every clause of `ArithmeticFaults`: a destination that may not be read, a source that may not be read, a
destination that may be read and not written; and the same for INC and DEC. -/
theorem witness_ArithmeticFaults :
    (∃ f, Instr.addForm (.addRmR p0 (at' 1) 0) = some f ∧ ws.bind (.addRmR p0 (at' 1) 0) f.pfx f.dst = .mem 0xC000
      ∧ ws.vmm.permits 0xC000 f.w.bytes .read = false) ∧
    (∃ f, Instr.subForm (.subRRm p0 0 (at' 1)) = some f ∧ (ws.bind (.subRRm p0 0 (at' 1)) f.pfx f.dst).readable ws f.w
      ∧ f.src = .rm (at' 1) ∧ ws.bind (.subRRm p0 0 (at' 1)) f.pfx (at' 1) = .mem 0xC000
      ∧ ws.vmm.permits 0xC000 f.w.bytes .read = false) ∧
    (∃ f, Instr.addForm (.addRmI8 p0 (at' 3) 1) = some f ∧ ws.bind (.addRmI8 p0 (at' 3) 1) f.pfx f.dst = .mem 0xA000
      ∧ ws.vmm.permits 0xA000 f.w.bytes .read = true ∧ f.src.readable ws (.addRmI8 p0 (at' 3) 1) f.pfx = true
      ∧ ws.vmm.permits 0xA000 f.w.bytes .write = false) ∧
    (Instr.incForm (.incRm p0 (at' 1)) = some (p0, .w32, at' 1) ∧ ws.bind (.incRm p0 (at' 1)) p0 (at' 1) = .mem 0xC000 ∧
      ws.vmm.permits 0xC000 4 .read = false) ∧
    (Instr.decForm (.decRm8 p0 (at' 3)) = some (p0, .w8, at' 3) ∧ ws.bind (.decRm8 p0 (at' 3)) p0 (at' 3) = .mem 0xA000 ∧
      ws.vmm.permits 0xA000 1 .read = true ∧ ws.vmm.permits 0xA000 1 .write = false) :=
  ⟨⟨_, rfl, by decide +kernel, by decide +kernel⟩, ⟨_, rfl, by decide +kernel, rfl, by decide +kernel, by decide +kernel⟩,
    ⟨_, rfl, by decide +kernel, by decide +kernel, by decide +kernel, by decide +kernel⟩, by decide +kernel, by decide +kernel⟩

theorem witness_CompareMoveFaults :
    (∃ f, Instr.cmpForm (.cmpRmR p0 (at' 2) 0) = some f ∧ ws.bind (.cmpRmR p0 (at' 2) 0) f.pfx f.dst = .mem 0
      ∧ ws.vmm.permits 0 f.w.bytes .read = false) ∧
    (∃ f, Instr.cmpForm (.cmpRRm p0 0 (at' 1)) = some f ∧ (ws.bind (.cmpRRm p0 0 (at' 1)) f.pfx f.dst).readable ws f.w
      ∧ f.src = .rm (at' 1) ∧ ws.bind (.cmpRRm p0 0 (at' 1)) f.pfx (at' 1) = .mem 0xC000
      ∧ ws.vmm.permits 0xC000 f.w.bytes .read = false) ∧
    (∃ f, Instr.movForm (.movRRm p0 0 (at' 6)) = some f ∧ f.src = .rm (at' 6)
      ∧ ws.bind (.movRRm p0 0 (at' 6)) f.pfx (at' 6) = .mem 0x3FFF ∧ ws.vmm.permits 0x3FFF f.w.bytes .read = false) ∧
    (∃ f, Instr.movForm (.movRmR p0 (at' 3) 0) = some f ∧ ws.bind (.movRmR p0 (at' 3) 0) f.pfx f.dst = .mem 0xA000
      ∧ f.src.readable ws (.movRmR p0 (at' 3) 0) f.pfx = true ∧ ws.vmm.permits 0xA000 f.w.bytes .write = false) :=
  ⟨⟨_, rfl, by decide +kernel, by decide +kernel⟩, ⟨_, rfl, by decide +kernel, rfl, by decide +kernel, by decide +kernel⟩,
    ⟨_, rfl, rfl, by decide +kernel, by decide +kernel⟩, ⟨_, rfl, by decide +kernel, by decide +kernel, by decide +kernel⟩⟩

theorem witness_TransferFaults :
    (ws.bind (.jmpRm p0 (at' 1)) p0 (at' 1) = .mem 0xC000 ∧ ws.vmm.permits 0xC000 8 .read = false) ∧
    (ws.bind (.callRm p0 (at' 6)) p0 (at' 6) = .mem 0x3FFF ∧ ws.vmm.permits 0x3FFF 8 .read = false) ∧
    ((ws.setReg rsp 0xA008).vmm.permits ((ws.setReg rsp 0xA008).reg rsp - 8) 8 .write = false ∧
      ((ws.setReg rsp 0xA008).bind (.callRm p0 (.reg 0)) p0 (.reg 0)).readable (ws.setReg rsp 0xA008) .w64 = true) ∧
    (ws.setReg rsp 0xC000).vmm.permits ((ws.setReg rsp 0xC000).reg rsp) 8 .read = false := by decide +kernel

theorem witness_VectorFaults :
    ws.bind (.comiss p0 0 (at' 1)) p0 (at' 1) = .mem 0xC000 ∧ ws.vmm.permits 0xC000 4 .read = false ∧
    ws.bind (.paddq p0 0 (at' 5)) p0 (at' 5) = .mem 0x3FF8 ∧ ws.vmm.permits 0x3FF8 16 .read = false ∧
    Instr.shiftForm (.psrlwRm p0 0 (at' 6)) = some (p0, .srl, 16, 0, at' 6) ∧
    ws.bind (.psrlwRm p0 0 (at' 6)) p0 (at' 6) = .mem 0x3FFF ∧ ws.vmm.permits 0x3FFF 4 .read = false ∧
    Instr.vloadForm (.movdquLoad p0 0 (at' 5)) = some (p0, 16, 0, at' 5) ∧
    ws.bind (.movdquLoad p0 0 (at' 5)) p0 (at' 5) = .mem 0x3FF8 ∧
    Instr.vstoreForm (.movssStore p0 (at' 3) 0) = some (p0, 4, at' 3, 0) ∧
    ws.bind (.movssStore p0 (at' 3) 0) p0 (at' 3) = .mem 0xA000 ∧ ws.vmm.permits 0xA000 4 .write = false := by
  decide +kernel

theorem ws_wf : ws.vmm.tableWf ∧ ws.Inv := by decide +kernel

/-- Every clause of `Translation`: covered, nowhere covered, covered without permission, across the border of two
adjacent segments, and past `2^64 - 1`. -/
theorem witness_Translation :
    ws.vmm.tableWf ∧
    (∀ g ∈ ws.vmm.segs, ¬ (g.start.toNat ≤ (0x2000 : Word).toNat ∧ (0x2000 : Word).toNat < g.stop.toNat ∧
      (0x2000 : Word).toNat + 1 ≤ g.stop.toNat)) ∧
    (seg 0x3000 0x4000 true true false ∈ ws.vmm.segs ∧ (seg 0x3000 0x4000 true true false).perm.allows .fetch = false) ∧
    ((seg 0x3000 0x4000 true true false).start.toNat ≤ (0x3FFD : Word).toNat ∧
      (seg 0x3000 0x4000 true true false).stop.toNat < (0x3FFD : Word).toNat + 4) ∧
    2 ^ 64 ≤ (0xFFFFFFFFFFFFFFFF : Word).toNat + 1 := by decide +kernel

/-- The three clauses of `RoundTrip`, at the last bytes of a segment, and in the read-only and write-only ones. -/
theorem witness_RoundTrip :
    ws.vmm.tableWf ∧ (16 : Nat) ∈ [1, 2, 4, 8, 16] ∧
    (seg 0x3000 0x4000 true true false ∈ ws.vmm.segs ∧ (0x3FF0 : Word).toNat + 16 ≤ (0x4000 : Word).toNat) ∧
    (seg 0xA000 0xB000 true false false ∈ ws.vmm.segs ∧ (seg 0xA000 0xB000 true false false).perm.write = false) ∧
    (seg 0xC000 0xD000 false true false ∈ ws.vmm.segs ∧ (seg 0xC000 0xD000 false true false).perm.read = false) := by
  decide +kernel

theorem witness_NarrowRead : ws.vmm.tableWf ∧ (∃ v, ws.memRead 0x3FF8 8 = .ok v) ∧ 1 ≤ 1 ∧ 7 + 1 ≤ 8 :=
  ⟨ws_wf.1, ⟨_, rfl⟩, by decide, by decide⟩

theorem witness_WidthsAndImmediates : none ≠ some true ∧ some false ≠ some true := by decide

theorem witness_TagTable :
    (VReg.reset.tag ≠ .f32 ∧ VReg.reset.tag ≠ .f64) ∧ (VReg.reset.writeF32 1).tag = .f32 ∧
      (VReg.reset.writeF64 1).tag = .f64 := by decide +kernel

theorem witness_ShiftKinds : 1 ≤ 16 := by decide

theorem witness_PackedLanes : 16 ∈ [16, 32, 64] ∧ 7 < 128 / 16 ∧ 64 ∈ [16, 32, 64] ∧ 1 < 128 / 64 := by decide

/-- `ws` steps on, keeps the invariant's hypotheses, and its first instruction writes no memory. -/
theorem witness_StepKeepsInvariant : ws.Inv ∧ ∃ t, step ws = .next t := ⟨ws_wf.2, _, rfl⟩

theorem witness_StepFrame : ∃ t, step ws = .next t := ⟨_, rfl⟩

/-- A store changes a byte. -/
theorem witness_OnlyWritableBytesChange :
    (∃ t, exec (.movRm8I8 p0 (at' 6) 0x55) ws = .next t ∧ t.byteAt 0x3FFF ≠ ws.byteAt 0x3FFF) ∧
    (∃ t, step (st [0xC6, 0x00, 0x55] [(0, 0x3000)]) = .next t ∧
      t.byteAt 0x3000 ≠ (st [0xC6, 0x00, 0x55] [(0, 0x3000)]).byteAt 0x3000) :=
  ⟨⟨_, rfl, by decide +kernel⟩, ⟨_, rfl, by decide +kernel⟩⟩

theorem witness_FlagWriters :
    (∃ t, exec (.movRmR pW (.reg 0) 3) ws = .next t) ∧ Instr.writesFlags (.movRmR pW (.reg 0) 3) = false ∧
    (∃ t, exec (.incRm pW (.reg 0)) ws = .next t) ∧ (Instr.incForm (.incRm pW (.reg 0))).isSome = true :=
  ⟨⟨_, rfl⟩, rfl, ⟨_, rfl⟩, rfl⟩

theorem witness_SequentialPc :
    (∃ t, exec (.addRmR pW (.reg 0) 3) ws = .next t) ∧ Instr.endsBlock (.addRmR pW (.reg 0) 3) = false :=
  ⟨⟨_, rfl⟩, rfl⟩

/-- Two states that differ in a byte of the write-only segment; the one steps on, and from an unmapped pc both
fault. -/
theorem witness_UnreadableBytesAreSecret :
    ws.Agree (poke ws 0xC000 [1]) ∧ (poke ws 0xC000 [1]).byteAt 0xC000 ≠ ws.byteAt 0xC000 ∧
    (∃ t, step ws = .next t) ∧
    ((ws.setPc 0).Agree (poke (ws.setPc 0) 0xC000 [1]) ∧ faults (ws.setPc 0) (.segmentationFault 0 1 .fetch) = true) := by
  have key : ∀ (s : State), s.vmm.segs = table → s.Agree (poke s 0xC000 [1]) := by
    intro s hs
    refine ⟨rfl, rfl, rfl, rfl, fun a ⟨g, hg, hc, hp⟩ => ?_⟩
    have ha : (0xC000 : Nat) ≠ a.toNat := by
      rintro e
      rw [hs] at hg
      simp only [table, List.mem_cons, List.not_mem_nil, or_false] at hg
      simp only [Segment.contains, ← e, Bool.and_eq_true, decide_eq_true_eq] at hc
      rcases hg with rfl | rfl | rfl | rfl | rfl | rfl <;> revert hc hp <;> decide
    simp only [State.byteAt, poke, Memory.read_writeBytes]
    rw [if_neg]
    simp only [List.length_cons, List.length_nil]
    omega
  exact ⟨key ws rfl, by decide +kernel, ⟨_, rfl⟩, key _ rfl, by decide +kernel⟩

/-- Both clauses of `AllocateOutcome`: an unmapped table with room, size 1; size 0; and a size that no range fits. -/
theorem witness_AllocateOutcome :
    ws.vmm.wf ∧ 4096 % 4096 = 0 ∧ (1 : Word).toNat ≤ 4096 ∧ 4096 < (1 : Word).toNat + 4096 ∧ (1 : Word) ≠ 0 ∧
    ws.vmm.Fits 4096 0 ∧
    ((-1 : Word).toNat ≤ 2 ^ 64 ∧ 2 ^ 64 < (-1 : Word).toNat + 4096 ∧ ∀ b, ¬ ws.vmm.Fits (2 ^ 64) b) := by
  refine ⟨ws_wf.2, by decide, by decide, by decide, by decide, ?_, by decide, by decide, fun b h => ?_⟩
  · unfold Vmm.Fits
    decide +kernel
  · have := h.2.1
    omega

/-- A segment to map between two others, one that overlaps, an empty one; a start and an address that is none. -/
theorem witness_MapUnmapOutcome :
    ws.vmm.wf ∧ (seg 0x2000 0x3000 true true true).wf ∧
    (∀ h ∈ ws.vmm.segs, h.stop.toNat ≤ (seg 0x2000 0x3000 true true true).start.toNat ∨
      (seg 0x2000 0x3000 true true true).stop.toNat ≤ h.start.toNat) ∧
    (∃ h ∈ ws.vmm.segs, h.start.toNat < (seg 0x2000 0x4000 true true true).stop.toNat ∧
      (seg 0x2000 0x4000 true true true).start.toNat < h.stop.toNat) ∧
    ¬ (seg 0x5000 0x5000 true true true).wf ∧
    (∀ g ∈ ws.vmm.segs, g.start ≠ 0x3800) ∧ (∃ g ∈ ws.vmm.segs, g.start = 0x3000) := by decide +kernel

/-- The clauses of `ProtectOutcome`: a range over two segments, a range with a gap, and length 0. -/
theorem witness_ProtectOutcome :
    ws.vmm.wf ∧
    (0x3000 ≤ (0x3FFF : Word).toNat ∧ (0x3FFF : Word).toNat < 0x3000 + 4096 ∧
      (0x3FFF : Word).toNat + (2 : Word).toNat ≤ 0x5000 ∧ 0x5000 < (0x3FFF : Word).toNat + (2 : Word).toNat + 4096) ∧
    (∀ x, 0x3000 ≤ x → x < 0x5000 → ∃ g ∈ ws.vmm.segs, g.start.toNat ≤ x ∧ x < g.stop.toNat) ∧
    (∀ g ∈ ws.vmm.segs, ¬ (g.start.toNat ≤ 0x5000 ∧ 0x5000 < g.stop.toNat)) := by
  refine ⟨ws_wf.2, by decide, fun x hl hh => ?_, by decide +kernel⟩
  by_cases h : x < 0x4000
  · exact ⟨seg 0x3000 0x4000 true true false, by decide +kernel, hl, h⟩
  · exact ⟨seg 0x4000 0x5000 true true false, by decide +kernel, Nat.le_of_not_lt h, hh⟩

theorem witness_CommandsKeepInvariant :
    ws.vmm.wf ∧ (∃ r, ws.vmm.allocateWith (fun _ _ => 0) (fun _ _ => 0) 1 "a" = .ok r) ∧
    (∃ m, ws.vmm.map (seg 0x2000 0x3000 true true true) [1] = .ok m) ∧ (∃ m, ws.vmm.unmap 0x3000 = .ok m) ∧
    (∃ m, ws.vmm.protect 0x3FFF 2 ⟨true, false, false⟩ = .ok m) ∧ ws.block.vmm.wf := by
  refine ⟨ws_wf.2, ?_, ?_, ⟨_, rfl⟩, ?_, ws_wf.2⟩
  · have h : ws.vmm.place (fun _ _ => 0) (roundUp (1 : Word).toNat) = some 0 := by decide +kernel
    unfold Vmm.allocateWith
    rw [if_neg (by decide), h]
    exact ⟨_, rfl⟩
  · unfold Vmm.map
    rw [if_neg (by decide +kernel)]
    exact ⟨_, rfl⟩
  · unfold Vmm.protect
    simp only []
    rw [if_neg (by decide), if_neg (by decide +kernel)]
    exact ⟨_, rfl⟩

/-- The clauses of `ContextsAreSeparate`: contexts and events, and a context inside a step. -/
theorem witness_ContextsAreSeparate :
    (State.resetWith 2).parked.length ≤ 2 ∧ (State.resetWith 2).parked[1]? = some Context.reset ∧
    (1 < addBlock.cpus.length ∧ (Event.access 0).subject ≠ some 1 ∧ (Event.access 0).isCommand = false) ∧
    ∃ c g, (runs addBlock midAdd).1.cpus[0]? = some ⟨c, some g⟩ ∧
      ((runs addBlock midAdd).1.on (.access 1)).2 ≠ .advanced :=
  ⟨by decide, rfl, by decide, addBlock.cpus[0].ctx, .execute (.addRmI8 pW (at' 3) 1) [.value 0], by decide +kernel,
    by decide +kernel⟩

/-- ADD and INC on memory: the block before the read, and after it one in which the store is permitted and one in which
it is not. -/
theorem witness_ReadThenWrite :
    let c := addBlock.cpus[0].ctx
    Instr.addForm (.addRmI8 pW (at' 3) 1) = some ⟨pW, .w64, at' 3, .imm ((1 : BitVec 8).signExtend 64)⟩ ∧
    (runs addBlock (List.replicate 4 (.access 0))).1.cpus[0]?
      = some ⟨c, some (.execute (.addRmI8 pW (at' 3) 1) [])⟩ ∧
    c.bind (.addRmI8 pW (at' 3) 1) pW (at' 3) = .mem 0x3000 ∧ c.bind (.incRm pW (at' 3)) pW (at' 3) = .mem 0x3000 ∧
    (runs addBlock (List.replicate 4 (.access 0))).1.vmm.permits 0x3000 8 .read = true ∧
    Instr.incForm (.incRm pW (at' 3)) = some (pW, .w64, at' 3) ∧
    (runs addBlock midAdd).1.cpus[0]? = some ⟨c, some (.execute (.addRmI8 pW (at' 3) 1) [.value 0])⟩ ∧
    (runs addBlock midAdd).1.vmm.permits 0x3000 8 .write = true ∧
    (runs addBlock (midAdd ++ [.command (.protect 0x3000 1 ⟨true, false, false⟩)])).1.vmm.permits 0x3000 8 .write
      = false := ⟨rfl, by decide +kernel⟩

theorem witness_ResetState : Context.reset ∈ (State.resetWith 2).parked := by
  simp only [State.resetWith, List.mem_replicate]
  decide


end Sys2Proof.Tests
end

section
/-! SUPPORT. The vector register as one 512-bit number (10_state.md R42 to R54): the value after a write, the register
after a read, and the statements O39 and O40. -/

namespace Sys2Proof.Machine

/-! ## Writes as bit strings -/

/-- Bit `j` of a number whose low `k` bits were replaced by `v`. -/
theorem getLsbD_extractLsb'_append {n k : Nat} (m : Nat) (h : n = m + k) (x : BitVec n) (v : BitVec k) (j : Nat) :
    (x.extractLsb' k m ++ v).getLsbD j = if j < k then v.getLsbD j else x.getLsbD j := by
  rw [BitVec.getLsbD_append]
  by_cases hk : j < k
  · simp [hk]
  · by_cases hn : j < n
    · simp [hk, show j - k < m by omega, show k + (j - k) = j by omega]
    · simp [hk, show ¬ j - k < m by omega, BitVec.getLsbD_of_ge x j (by omega)]

/-- R46: a 128-bit write keeps bits 511:128 of the value. -/
theorem VReg.writeRaw_val (r : VReg) (v : BitVec 128) : (r.writeRaw v).val = r.val.extractLsb' 128 384 ++ v :=
  BitVec.eq_of_getLsbD_eq fun j _ =>
    (r.getLsbD_writeRaw v j).trans (getLsbD_extractLsb'_append 384 rfl r.val v j).symm

/-- R48: a binary32 write keeps bits 511:32 of the value, whatever the tag was. -/
theorem VReg.writeF32_val (r : VReg) (v : BitVec 32) : (r.writeF32 v).val = r.val.extractLsb' 32 480 ++ v :=
  BitVec.eq_of_getLsbD_eq fun j _ =>
    (r.getLsbD_writeF32 v j).trans (getLsbD_extractLsb'_append 480 rfl r.val v j).symm

/-- R50: a binary64 write keeps bits 511:64 of the value, whatever the tag was. -/
theorem VReg.writeF64_val (r : VReg) (v : BitVec 64) : (r.writeF64 v).val = r.val.extractLsb' 64 448 ++ v :=
  BitVec.eq_of_getLsbD_eq fun j _ =>
    (r.getLsbD_writeF64 v j).trans (getLsbD_extractLsb'_append 448 rfl r.val v j).symm

/-! ## The simulation (R53) -/

/-- Two machines that answer alike, step by step along `abs`, answer alike along every sequence. -/
theorem VOp.run_simulates {σ τ : Type} {f : σ → VOp → Option Wide × σ} {g : τ → VOp → Option Wide × τ}
    {abs : σ → τ} (h : ∀ r o, (f r o).1 = (g (abs r) o).1 ∧ abs (f r o).2 = (g (abs r) o).2)
    (os : List VOp) (r : σ) :
    (VOp.run f os r).1 = (VOp.run g os (abs r)).1 ∧ abs (VOp.run f os r).2 = (VOp.run g os (abs r)).2 := by
  induction os generalizing r with
  | nil => exact ⟨rfl, rfl⟩
  | cons o os ih =>
    obtain ⟨answer, next⟩ := h r o
    obtain ⟨answers, last⟩ := ih (f r o).2
    rw [next] at answers last
    exact ⟨by rw [VOp.run, VOp.run, answer, answers], last⟩

/-- One operation on the tagged register is the same operation on its value. -/
theorem VOp.onReg_simulates (r : VReg) (o : VOp) :
    (VOp.onReg r o).1 = (VOp.onValue r.val o).1 ∧ (VOp.onReg r o).2.val = (VOp.onValue r.val o).2 := by
  cases o with
  | readRaw => simp [VOp.onReg, VOp.onValue, BitVec.setWidth_eq_extractLsb']
  | readF32 => simp [VOp.onReg, VOp.onValue, BitVec.setWidth_eq_extractLsb']
  | readF64 => simp [VOp.onReg, VOp.onValue, BitVec.setWidth_eq_extractLsb']
  | readWide => simp [VOp.onReg, VOp.onValue]
  | writeRaw v => exact ⟨rfl, r.writeRaw_val v⟩
  | writeF32 v => exact ⟨rfl, r.writeF32_val v⟩
  | writeF64 v => exact ⟨rfl, r.writeF64_val v⟩
  | writeWide v => exact ⟨rfl, r.writeWide_val v⟩

/-- Settles O39: `VReg.val` is a simulation of each operation, hence of every sequence. -/
theorem tagNotObservable : Obligations.TagNotObservable :=
  VOp.run_simulates VOp.onReg_simulates

/-! ## The register after a read or a write (R54) -/

theorem VReg.materialize_of_raw {r : VReg} (h : r.tag = .raw) : r.materialize = r := by
  rw [VReg.materialize, VReg.val_of_raw h, ← h]

/-- R45: whatever the tag, a raw read leaves the materialized register. -/
@[simp] theorem VReg.readRaw_snd (r : VReg) : r.readRaw.2 = r.materialize := by
  simp only [VReg.readRaw]
  split
  · exact (VReg.materialize_of_raw ‹_›).symm
  · rfl

/-- R51: so does a wide read. -/
@[simp] theorem VReg.readWide_snd (r : VReg) : r.readWide.2 = r.materialize := by
  simp only [VReg.readWide]
  split
  · exact (VReg.materialize_of_raw ‹_›).symm
  · rfl

/-- R47: a binary32 read leaves the register alone where its tag is F32, and else materializes it. -/
theorem VReg.readF32_snd (r : VReg) : r.readF32.2 = if r.tag = .f32 then r else r.materialize := by
  unfold VReg.readF32
  split <;> rfl

/-- R49: a binary64 read leaves the register alone where its tag is F64, and else materializes it. -/
theorem VReg.readF64_snd (r : VReg) : r.readF64.2 = if r.tag = .f64 then r else r.materialize := by
  unfold VReg.readF64
  split <;> rfl

/-- R48: a binary32 write over a binary64 cache puts that cache into the raw vector first. -/
theorem VReg.writeF32_raw (r : VReg) (v : BitVec 32) :
    (r.writeF32 v).raw = if r.tag = .f64 then r.val else r.raw := by
  unfold VReg.writeF32
  split <;> rfl

/-- R50: a binary64 write over a binary32 cache puts that cache into the raw vector first. -/
theorem VReg.writeF64_raw (r : VReg) (v : BitVec 64) :
    (r.writeF64 v).raw = if r.tag = .f32 then r.val else r.raw := by
  unfold VReg.writeF64
  split <;> rfl

/-- Settles O40, from the register that each of the eight operations leaves. -/
theorem tagTable : Obligations.TagTable := by
  intro r a b c d
  refine ⟨?readRaw, ?readWide, ?readF32, ?keepF32, ?readF64, ?keepF64, rfl, rfl, rfl, r.writeF32_raw b, rfl,
    r.writeF64_raw c⟩
  case readRaw => simp
  case readWide => simp
  case readF32 => intro h; simp [VReg.readF32_snd, h]
  case keepF32 => intro h; rw [VReg.readF32_snd, if_pos h]
  case readF64 => intro h; simp [VReg.readF64_snd, h]
  case keepF64 => intro h; rw [VReg.readF64_snd, if_pos h]

end Sys2Proof.Machine
end

section
/-! SUPPORT. The register views bit by bit (10_state.md R22 to R25), and the statement O11. -/

namespace Sys2Proof.Machine

/-! ## Merging a narrow value into a register -/

theorem getLsbD_mergeLow16 (old : Word) (v : BitVec 16) (j : Nat) :
    (mergeLow16 old v).getLsbD j = if j < 16 then v.getLsbD j else old.getLsbD j := by
  rw [mergeLow16, getLsbD_extractLsb'_append 48 rfl]

theorem getLsbD_mergeLow8 (old : Word) (v : BitVec 8) (j : Nat) :
    (mergeLow8 old v).getLsbD j = if j < 8 then v.getLsbD j else old.getLsbD j := by
  rw [mergeLow8, getLsbD_extractLsb'_append 56 rfl]

theorem getLsbD_mergeHigh8 (old : Word) (v : BitVec 8) (j : Nat) :
    (mergeHigh8 old v).getLsbD j = if 8 ≤ j ∧ j < 16 then v.getLsbD (j - 8) else old.getLsbD j := by
  have low : (v ++ old.extractLsb' 0 8).getLsbD j = if j < 8 then old.getLsbD j else v.getLsbD (j - 8) := by
    rw [BitVec.getLsbD_append]
    split <;> simp [*]
  rw [mergeHigh8, getLsbD_extractLsb'_append (k := 8 + 8) 48 rfl, low]
  by_cases h8 : j < 8
  · simp [h8, show ¬ 8 ≤ j by omega, show j < 16 by omega]
  · simp [h8, show 8 ≤ j by omega]

/-! ## Reading a register after such a write -/

/-- Bit `j` of any register after register `m` got a value whose bit `j` is `b` where `p` holds, and its old bit
otherwise. -/
theorem Context.getLsbD_reg_setReg {c : Context} {m : Reg} {v : Word} {j : Nat} {p : Prop} [Decidable p] {b : Bool}
    (h : v.getLsbD j = if p then b else (c.reg m).getLsbD j) (k : Reg) :
    ((c.setReg m v).reg k).getLsbD j = if k = m ∧ p then b else (c.reg k).getLsbD j := by
  rw [Context.reg_setReg]
  by_cases hk : k = m
  · simp [hk, h]
  · simp [hk]

/-- The numbers of AH, CH, DH and BH (R25). -/
theorem isHighByte_iff (n : Reg) (rex : Bool) :
    isHighByte n rex = true ↔ rex = false ∧ 4 ≤ n.toNat ∧ n.toNat ≤ 7 := by
  simp [isHighByte, and_assoc]

/-! ## The views -/

/-- R22: all of the register. -/
theorem Context.view_w64 (c : Context) (n : Reg) (rex : Bool) : c.view .w64 n rex = c.reg n := rfl

/-- R23: bits 31:0. -/
theorem Context.view_w32 (c : Context) (n : Reg) (rex : Bool) : c.view .w32 n rex = (c.reg n).setWidth 32 :=
  (BitVec.setWidth_eq_extractLsb' (by omega)).symm

/-- R24: bits 15:0. -/
theorem Context.view_w16 (c : Context) (n : Reg) (rex : Bool) : c.view .w16 n rex = (c.reg n).setWidth 16 :=
  (BitVec.setWidth_eq_extractLsb' (by omega)).symm

/-- R25, the numbers of AH, CH, DH and BH: bits 15:8 of the register four below. -/
theorem Context.view_high {n : Reg} {rex : Bool} (h : isHighByte n rex = true) (c : Context) :
    c.view .w8 n rex = (c.reg (n - 4)).extractLsb' 8 8 := if_pos h

/-- R25, the other numbers: bits 7:0. -/
theorem Context.view_low {n : Reg} {rex : Bool} (h : ¬ isHighByte n rex = true) (c : Context) :
    c.view .w8 n rex = (c.reg n).setWidth 8 :=
  (if_neg h).trans (BitVec.setWidth_eq_extractLsb' (by omega)).symm

/-- R24: a 16-bit write changes bits 15:0 of its own register alone. -/
theorem Context.getLsbD_setView_w16 (c : Context) (n : Reg) (rex : Bool) (v : BitVec 16) (k : Reg) (j : Nat) :
    ((c.setView .w16 n rex v).reg k).getLsbD j
      = if k = n ∧ j < 16 then v.getLsbD j else (c.reg k).getLsbD j :=
  Context.getLsbD_reg_setReg (getLsbD_mergeLow16 (c.reg n) v j) k

/-- R25, the numbers of AH, CH, DH and BH: a write changes bits 15:8 of the register four below alone. -/
theorem Context.getLsbD_setView_high {n : Reg} {rex : Bool} (h : isHighByte n rex = true) (c : Context)
    (v : BitVec 8) (k : Reg) (j : Nat) :
    ((c.setView .w8 n rex v).reg k).getLsbD j
      = if k = n - 4 ∧ 8 ≤ j ∧ j < 16 then v.getLsbD (j - 8) else (c.reg k).getLsbD j := by
  rw [show c.setView .w8 n rex v = _ from if_pos h]
  exact Context.getLsbD_reg_setReg (getLsbD_mergeHigh8 (c.reg (n - 4)) v j) k

/-- R25, the other numbers: a write changes bits 7:0 of its own register alone. -/
theorem Context.getLsbD_setView_low {n : Reg} {rex : Bool} (h : ¬ isHighByte n rex = true) (c : Context)
    (v : BitVec 8) (k : Reg) (j : Nat) :
    ((c.setView .w8 n rex v).reg k).getLsbD j
      = if k = n ∧ j < 8 then v.getLsbD j else (c.reg k).getLsbD j := by
  rw [show c.setView .w8 n rex v = _ from if_neg h]
  exact Context.getLsbD_reg_setReg (getLsbD_mergeLow8 (c.reg n) v j) k

/-- Settles O11: a view is its bits of the register, and a write merges them back into that register. -/
theorem registerViews : Obligations.RegisterViews := by
  intro c n rex
  refine ⟨⟨c.view_w64 n rex, fun v k => c.reg_setReg n k v⟩,
    ⟨c.view_w32 n rex, fun v k => c.reg_setReg n k (v.setWidth 64)⟩,
    ⟨c.view_w16 n rex, c.getLsbD_setView_w16 n rex⟩, fun hrex h4 h7 => ?high, fun hlow => ?low⟩
  case high =>
    have h : isHighByte n rex = true := (isHighByte_iff n rex).2 ⟨hrex, h4, h7⟩
    exact ⟨c.view_high h, c.getLsbD_setView_high h⟩
  case low =>
    have h : ¬ isHighByte n rex = true := by
      rw [isHighByte_iff]
      rintro ⟨rfl, h4, h7⟩
      rcases hlow with hrex | hlt | hgt
      · cases hrex
      · omega
      · omega
    exact ⟨c.view_low h, c.getLsbD_setView_low h⟩

end Sys2Proof.Machine
end

section
/-! SUPPORT. Which instructions change a flag (10_state.md R31), by shared operation, and the statement O48. -/

namespace Sys2Proof.Machine

/-! ## The operations that keep every flag -/

/-- An operation answers one next state, so what holds of the flags of `u` holds of those of `t`. -/
theorem State.flags_of_next {s t u : State} {r : Result} (h : r = .next t) (e : r = .next u)
    (hu : u.ctx.flags = s.ctx.flags) : t.ctx.flags = s.ctx.flags := by
  cases h.symm.trans e
  exact hu

theorem State.move_flags {s t : State} {i : Instr} {p : Pfx} {w : Width} {d : RM} {src : Source w}
    (h : s.move i p w d src = .next t) : t.ctx.flags = s.ctx.flags := by
  obtain ⟨hread, hwrite⟩ := State.move_next h
  exact State.flags_of_next h (State.move_completes hread hwrite) (State.written_flags ..)

theorem State.jumpTo_flags {s t : State} {i : Instr} {p : Pfx} {x : RM} (h : s.jumpTo i p x = .next t) :
    t.ctx.flags = s.ctx.flags :=
  State.flags_of_next h (State.jumpTo_completes (State.jumpTo_next h)) rfl

theorem State.callRel_flags {s t : State} {i : Instr} {off : Word} (h : s.callRel i off = .next t) :
    t.ctx.flags = s.ctx.flags := by
  have hpush := State.pushAndGo_ok (finish_next ((State.callRel_eq ..).symm.trans h))
  exact State.flags_of_next h (State.callRel_completes hpush) rfl

theorem State.callTo_flags {s t : State} {i : Instr} {p : Pfx} {x : RM} (h : s.callTo i p x = .next t) :
    t.ctx.flags = s.ctx.flags := by
  obtain ⟨hread, hpush⟩ := State.callTo_next h
  exact State.flags_of_next h (State.callTo_completes hread hpush) rfl

theorem State.popAndGo_flags {s t : State} (h : s.popAndGo = .next t) : t.ctx.flags = s.ctx.flags :=
  State.flags_of_next h (State.popAndGo_completes (State.popAndGo_next h)) rfl

theorem State.addPacked_flags {s t : State} {i : Instr} {p : Pfx} {r : Reg} {x : RM}
    (h : s.addPacked i p r x = .next t) : t.ctx.flags = s.ctx.flags := by
  obtain ⟨u, hs, e⟩ := State.addPacked_completes (State.addPacked_next h)
  exact State.flags_of_next h e hs.flags

theorem State.shiftBy_flags {s t : State} {i : Instr} {p : Pfx} {kind : ShiftKind} {L : Nat} {r : Reg} {x : RM}
    (h : s.shiftBy i p kind L r x = .next t) : t.ctx.flags = s.ctx.flags := by
  obtain ⟨u, hs, e⟩ := State.shiftBy_completes (State.shiftBy_next h)
  exact State.flags_of_next h e hs.flags

theorem State.shiftImm_flags {s t : State} {i : Instr} {kind : ShiftKind} {L : Nat} {r : Reg} {v : BitVec 8}
    (h : s.shiftImm i kind L r v = .next t) : t.ctx.flags = s.ctx.flags := by
  obtain ⟨u, hs, e⟩ := s.shiftImm_completes i kind L r v
  exact State.flags_of_next h e hs.flags

theorem State.vload_flags {s t : State} {i : Instr} {p : Pfx} {r : Reg} {x : RM} {n : Nat}
    {read : VReg → BitVec (8 * n) × VReg} {write : VReg → BitVec (8 * n) → VReg}
    (hf : ∀ r, (read r).1 = r.val.setWidth (8 * n)) (hv : ∀ r, (read r).2.val = r.val)
    (h : s.vload i p r x n read write = .next t) : t.ctx.flags = s.ctx.flags := by
  obtain ⟨u, hs, e⟩ := State.vload_completes (write := write) hf hv (State.vload_next h)
  refine State.flags_of_next h e ?_
  split <;> exact hs.flags

theorem State.vstore_flags {s t : State} {i : Instr} {p : Pfx} {d : RM} {r : Reg} {n : Nat}
    {read : VReg → BitVec (8 * n) × VReg} {write : VReg → BitVec (8 * n) → VReg}
    (hf : ∀ r, (read r).1 = r.val.setWidth (8 * n)) (hv : ∀ r, (read r).2.val = r.val)
    (h : s.vstore i p d r n read write = .next t) : t.ctx.flags = s.ctx.flags := by
  obtain ⟨u, hs, e⟩ := State.vstore_completes (write := write) hf hv (State.vstore_next h)
  refine State.flags_of_next h e ?_
  split <;> exact hs.flags

/-! ## INC and DEC -/

/-- R180, R181: CF is kept. -/
theorem State.aluStep_cf {s t : State} {i : Instr} {p : Pfx} {op : AluOp} {w : Width} {d : RM}
    (h : s.aluStep i p op w d = .next t) : t.ctx.flags.cf = s.ctx.flags.cf := by
  obtain ⟨h1, h3⟩ := State.aluStep_next h
  rw [State.aluStep_completes h1 h3] at h
  cases h
  simp [AluOp.flagsKeepCarry]

/-! ## Every instruction -/

/-- What instruction `i` may do to the flags on the way from `s` to `t`. -/
def State.FlagsBy (s : State) (i : Instr) (t : State) : Prop :=
  (i.writesFlags = false → t.ctx.flags = s.ctx.flags) ∧
  (i.incForm.isSome = true ∨ i.decForm.isSome = true → t.ctx.flags.cf = s.ctx.flags.cf)

theorem State.flagsBy_of_kept {s t : State} {i : Instr} (h : t.ctx.flags = s.ctx.flags) : s.FlagsBy i t :=
  ⟨fun _ => h, fun _ => congrArg Flags.cf h⟩

/-- A row that writes flags and is no INC or DEC may change all of them. -/
theorem State.flagsBy_of_writer {i : Instr} (flags : i.writesFlags = true)
    (cf : i.incForm = none ∧ i.decForm = none) (s t : State) : s.FlagsBy i t := by
  simp [State.FlagsBy, flags, cf]

theorem State.Shape.flagsBy {s t : State} {i : Instr} {r : Result} (shape : s.Shape i r) (h : r = .next t) :
    s.FlagsBy i t := by
  cases shape with
  | aluStore p op w d src st flags cf => exact State.flagsBy_of_writer flags cf s t
  | aluCompare p w d src flags cf => exact State.flagsBy_of_writer flags cf s t
  | compareScalar p r x flags cf => exact State.flagsBy_of_writer flags cf s t
  | aluStep p op w d st flags =>
    exact ⟨fun silent => absurd (flags.symm.trans silent) nofun, fun _ => State.aluStep_cf h⟩
  | move => exact State.flagsBy_of_kept (State.move_flags h)
  | nop => cases h; exact State.flagsBy_of_kept rfl
  | jump => cases h; exact State.flagsBy_of_kept rfl
  | jumpTo => exact State.flagsBy_of_kept (State.jumpTo_flags h)
  | callRel => exact State.flagsBy_of_kept (State.callRel_flags h)
  | callTo => exact State.flagsBy_of_kept (State.callTo_flags h)
  | popAndGo => exact State.flagsBy_of_kept (State.popAndGo_flags h)
  | addPacked => exact State.flagsBy_of_kept (State.addPacked_flags h)
  | shiftBy => exact State.flagsBy_of_kept (State.shiftBy_flags h)
  | shiftImm => exact State.flagsBy_of_kept (State.shiftImm_flags h)
  | vload p r x n read write hf hv => exact State.flagsBy_of_kept (State.vload_flags hf hv h)
  | vstore p d r n read write hf hv => exact State.flagsBy_of_kept (State.vstore_flags hf hv h)

/-- Settles O48, by the shared operation that each row is. -/
theorem flagWriters : Obligations.FlagWriters :=
  fun s _ i h => (s.exec_shape i).flagsBy h

end Sys2Proof.Machine
end

section
/-! SUPPORT. The state after reset (10_state.md R58), and the statement O45. -/

namespace Sys2Proof.Machine

/-- No segment and no byte: nothing is out of order. -/
theorem Vmm.reset_wf : Vmm.reset.wf := by decide

/-- R58: every vector register starts with tag RAW. -/
theorem Context.reset_vreg (k : Reg) : Context.reset.vreg k = VReg.reset := by
  simp [Context.vreg, Context.reset]

/-- Every context of the block after reset is the context after reset. -/
theorem State.resetWith_context {n : Nat} {c : Context}
    (h : c = (State.resetWith n).ctx ∨ c ∈ (State.resetWith n).parked) : c = Context.reset :=
  h.elim id List.eq_of_mem_replicate

/-- Settles O45. -/
theorem resetState : Obligations.ResetState := by
  intro n
  refine ⟨Vmm.reset_wf, rfl, List.length_replicate, fun c hc k => ?_, rfl⟩
  rw [State.resetWith_context hc, Context.reset_vreg]
  rfl

end Sys2Proof.Machine
end

section
/-! SUPPORT. What a store does to the manager: the invariant (20_memory.md R61, R65), which bytes change (R70, R71,
R85), and the statements O44 and O47. -/

namespace Sys2Proof.Machine

/-! ## Cells of storage after a store -/

theorem Memory.mem_write {m : Memory} {a : Nat} {b : Byte} {c : Host.Cell} (h : c ∈ Memory.write m a b) :
    c = (a, b) ∨ c ∈ m := by
  unfold Memory.write at h
  split at h
  · exact .inr (List.mem_of_mem_filter h)
  · exact ((Memory.mem_insert _ _ _ _).1 h).imp_right List.mem_of_mem_filter

theorem Memory.mem_writeBytes {m : Memory} {a : Nat} {f : Nat → Byte} {n : Nat} {c : Host.Cell}
    (h : c ∈ Memory.writeBytes m a f n) : (a ≤ c.1 ∧ c.1 < a + n) ∨ c ∈ m := by
  induction n with
  | zero => exact .inr h
  | succ n ih =>
    obtain rfl | hc := Memory.mem_write h
    · exact .inl ⟨Nat.le_add_right .., Nat.lt_succ_self _⟩
    · exact (ih hc).imp_left fun ⟨hlo, hhi⟩ => ⟨hlo, Nat.lt_succ_of_lt hhi⟩

/-- A permitted store lists bytes of its segment only. -/
theorem Vmm.wf_stored {m : Vmm} (h : m.wf) {a : Word} {n : Nat} {v : BitVec (8 * n)}
    (hp : m.permits a n .write = true) : (m.stored a n v).wf := by
  obtain ⟨htable, hmem, hcov⟩ := h
  obtain ⟨g, hg, hstart, -, hstop, -, -⟩ := Vmm.permits_segment hp
  refine ⟨htable, Memory.wf_writeBytes hmem .., fun c hc => ?_⟩
  obtain ⟨hlo, hhi⟩ | hold := Memory.mem_writeBytes hc
  · exact ⟨g, hg, Nat.le_trans hstart hlo, Nat.lt_of_lt_of_le hhi hstop⟩
  · exact hcov c hold

/-! ## Every instruction -/

/-- Whatever its shape, an instruction that advances changes the manager at most by the store of its row. -/
theorem State.Shape.quiet {s t : State} {i : Instr} {r : Result} (shape : s.Shape i r) (h : r = .next t) :
    s.Quiet i t := by
  cases shape with
  | aluStore p op w d src st => exact State.aluStore_quiet h st
  | aluCompare => exact State.aluCompare_quiet h
  | aluStep p op w d st => exact State.aluStep_quiet h st
  | move p w d src st => exact State.move_quiet h st
  | nop => cases h; exact s.quiet_setPc i _
  | jump => cases h; exact s.quiet_setPc i _
  | jumpTo => exact State.jumpTo_quiet h
  | callRel off st => exact State.callRel_quiet h st
  | callTo p x st => exact State.callTo_quiet h st
  | popAndGo => exact State.popAndGo_quiet i h
  | compareScalar => exact State.compareScalar_quiet h
  | addPacked => exact State.addPacked_quiet h
  | shiftBy => exact State.shiftBy_quiet h
  | shiftImm => exact State.shiftImm_quiet h
  | vload p r x n read write hf hv hw hn => exact State.vload_quiet hf hv hw hn h
  | vstore p d r n read write hf hv hw hn st => exact State.vstore_quiet hf hv hw hn h st

/-- All that an instruction that advances does besides its flags, its pc and the low bits of vector registers. -/
theorem exec_quiet {s t : State} {i : Instr} (h : exec i s = .next t) : s.Quiet i t :=
  (s.exec_shape i).quiet h

/-- A step that advances is the instruction it decodes. -/
theorem step_next {s t : State} (h : step s = .next t) : ∃ i, exec i s = .next t := by
  unfold step at h
  split at h
  · exact ⟨_, h⟩
  · cases h

/-- Settles O44: the only change of the manager is a permitted store. -/
theorem stepKeepsInvariant : Obligations.StepKeepsInvariant := by
  intro s t hs h
  obtain ⟨i, hi⟩ := step_next h
  unfold State.Inv
  obtain hsame | ⟨a, n, v, -, hp, hstored⟩ := (exec_quiet hi).vmm
  · rwa [hsame]
  · rw [hstored]
    exact Vmm.wf_stored hs hp

/-! ## Which bytes change -/

/-- A byte that an instruction changes is one that its row stores to, and was permitted to store to. -/
theorem exec_changed_byte {s t : State} {i : Instr} {a : Word} (h : exec i s = .next t)
    (hne : t.byteAt a ≠ s.byteAt a) :
    ∃ b n, s.storeOf i = some (b, n) ∧ s.vmm.permits b n .write = true ∧ (a - b).toNat < n := by
  obtain hsame | ⟨b, n, v, hst, hp, hstored⟩ := (exec_quiet h).vmm
  · exact absurd (by rw [State.byteAt, hsame, State.byteAt]) hne
  · refine ⟨b, n, hst, hp, Decidable.of_not_not fun hout => hne ?_⟩
    have hb : t.byteAt a = (s.setVmm (s.vmm.stored b n v)).byteAt a := by
      rw [State.byteAt, hstored, State.byteAt, State.setVmm_vmm]
    rw [hb, State.storedAt_stored v hp a, if_neg hout]

/-- The bytes of a permitted access lie in a segment that allows it. -/
theorem Vmm.permits_contains {m : Vmm} {a b : Word} {n : Nat} {k : Access} (h : m.permits b n k = true)
    (hin : (a - b).toNat < n) : ∃ g ∈ m.segs, g.contains a = true ∧ g.perm.allows k = true := by
  obtain ⟨g, hg, hstart, -, hstop, hperm, -⟩ := Vmm.permits_segment h
  refine ⟨g, hg, ?_, hperm⟩
  rw [BitVec.toNat_sub] at hin
  have hlt := Vmm.permits_lt h
  have := a.isLt
  simp only [Segment.contains, Bool.and_eq_true, decide_eq_true_eq]
  omega

/-- Settles O47. -/
theorem onlyWritableBytesChange : Obligations.OnlyWritableBytesChange := by
  refine ⟨fun s t i a h hne => ?_, fun s t a h hne => ?_⟩
  · obtain ⟨b, n, hst, -, hin⟩ := exec_changed_byte h hne
    exact ⟨b, n, hst, hin⟩
  · obtain ⟨i, hi⟩ := step_next h
    obtain ⟨b, n, -, hp, hin⟩ := exec_changed_byte hi hne
    exact Vmm.permits_contains hp hin

end Sys2Proof.Machine
end

section
/-! SUPPORT. Two managers that differ at most in bytes no segment lets a program read or execute (20_memory.md R70, R71):
every access answers alike, so every instruction does, and the statement O51. -/

namespace Sys2Proof.Machine

/-! ## Managers that look alike -/

/-- A program may learn the byte at `a`: some segment lets it be read or executed. -/
def Vmm.Readable (m : Vmm) (a : Word) : Prop :=
  ∃ g ∈ m.segs, g.contains a = true ∧ (g.perm.read = true ∨ g.perm.execute = true)

/-- The part of `State.Agree` that is about the manager. -/
structure Vmm.Alike (m m' : Vmm) : Prop where
  segs : m'.segs = m.segs
  fills : m'.fills = m.fills
  bytes : ∀ a : Word, m.Readable a → Memory.read m'.bytes a.toNat = Memory.read m.bytes a.toNat

theorem State.agree_iff {s t : State} : s.Agree t ↔ t.ctx = s.ctx ∧ t.parked = s.parked ∧ s.vmm.Alike t.vmm := by
  constructor
  · rintro ⟨hctx, hparked, hsegs, hfills, hbytes⟩
    exact ⟨hctx, hparked, hsegs, hfills, hbytes⟩
  · rintro ⟨hctx, hparked, hsegs, hfills, hbytes⟩
    exact ⟨hctx, hparked, hsegs, hfills, hbytes⟩

/-- The two answers of one access or of several: the same fault, or the same value and managers alike. -/
def AnswerAlike {α : Type} : Except Fault (α × Vmm) → Except Fault (α × Vmm) → Prop
  | .error f, r => r = .error f
  | .ok (x, m), r => ∃ m', r = .ok (x, m') ∧ m.Alike m'

/-! ## Accesses -/

/-- The bytes of a successful read or fetch are readable. -/
theorem Vmm.readable_of_translate {m : Vmm} {a : Word} {n : Nat} {k : Access} {p : Segment × Nat}
    (h : m.translate a n k = .ok p) (hk : k ≠ .write) {j : Nat} (hj : j < n) :
    m.Readable (a + BitVec.ofNat 64 j) ∧ (a + BitVec.ofNat 64 j).toNat = a.toNat + j := by
  obtain ⟨-, hg, hstart, -, hstop, hperm, -⟩ := Vmm.translate_ok h
  have hlt := p.1.stop.isLt
  have hnat : (a + BitVec.ofNat 64 j).toNat = a.toNat + j := by
    rw [BitVec.toNat_add, BitVec.toNat_ofNat]
    omega
  refine ⟨⟨p.1, hg, ?_, ?_⟩, hnat⟩
  · simp only [Segment.contains, hnat, Bool.and_eq_true, decide_eq_true_eq]
    omega
  · cases k with
    | read => exact .inl hperm
    | write => exact absurd rfl hk
    | fetch => exact .inr hperm

theorem Vmm.Alike.memRead {m m' : Vmm} (h : m.Alike m') (a : Word) (n : Nat) : m'.memRead a n = m.memRead a n := by
  rw [Vmm.memRead_eq, Vmm.memRead_eq, Vmm.translate_congr h.segs]
  cases ht : m.translate a n .read with
  | error f => rfl
  | ok p =>
    refine congrArg Except.ok (littleEndian_congr fun j hj => ?_)
    obtain ⟨hread, hnat⟩ := Vmm.readable_of_translate ht nofun hj
    rw [← hnat, h.bytes _ hread]

theorem Vmm.Alike.memFetch {m m' : Vmm} (h : m.Alike m') (a : Word) : m'.memFetch a = m.memFetch a := by
  rw [Vmm.memFetch_eq, Vmm.memFetch_eq, Vmm.translate_congr h.segs]
  cases ht : m.translate a 1 .fetch with
  | error f => rfl
  | ok p =>
    obtain ⟨hread, -⟩ := Vmm.readable_of_translate ht nofun Nat.zero_lt_one
    rw [BitVec.add_zero] at hread
    exact congrArg Except.ok (h.bytes a hread)

theorem Vmm.Alike.fetchWindow {m m' : Vmm} (h : m.Alike m') (n : Nat) (a : Word) :
    m'.fetchWindow n a = m.fetchWindow n a := by
  induction n generalizing a with
  | zero => rfl
  | succ n ih => rw [Vmm.fetchWindow, Vmm.fetchWindow, h.memFetch, ih]

/-- The same store into both changes the same bytes. -/
theorem Vmm.Alike.stored {m m' : Vmm} (h : m.Alike m') (a : Word) (n : Nat) (v : BitVec (8 * n)) :
    (m.stored a n v).Alike (m'.stored a n v) := by
  refine ⟨h.segs, h.fills, fun b hb => ?_⟩
  simp only [Vmm.stored, Memory.read_writeBytes]
  rw [h.bytes b hb]

theorem Vmm.memWrite_permits (m : Vmm) (a : Word) (n : Nat) (v : BitVec (8 * n)) :
    m.memWrite a n v = if m.permits a n .write then .ok (m.stored a n v) else .error (m.denied a n .write) := by
  rw [Vmm.memWrite_eq]
  cases hp : m.permits a n .write with
  | false => rw [Vmm.translate_denied hp]; rfl
  | true =>
    obtain ⟨g, -, -, -, -, -, ht⟩ := Vmm.permits_segment hp
    rw [ht]
    rfl

/-! ## Instructions and steps -/

/-- The accesses of an instruction answer alike, by induction on them. -/
theorem Act.run_alike (x : Act) {m m' : Vmm} (h : m.Alike m') : AnswerAlike (x.run m) (x.run m') := by
  induction x generalizing m m' with
  | done c => exact ⟨m', rfl, h⟩
  | read a n rest ih =>
    simp only [Act.run, h.memRead]
    cases m.memRead a n with
    | error f => rfl
    | ok v => exact ih v h
  | write a n v rest ih =>
    simp only [Act.run, Vmm.memWrite_permits, Vmm.permits_congr h.segs, Vmm.denied_congr h.segs]
    cases m.permits a n .write with
    | false => rfl
    | true => exact ih (h.stored a n v)

theorem State.perform_agree {s t : State} (h : s.Agree t) (x : Act) :
    (∀ f, s.perform x = .fault f → t.perform x = .fault f) ∧
    ∀ s', s.perform x = .next s' → ∃ t', t.perform x = .next t' ∧ s'.Agree t' := by
  obtain ⟨-, hparked, hvmm⟩ := State.agree_iff.1 h
  have hrun := x.run_alike hvmm
  unfold State.perform State.attempt
  cases hs : x.run s.vmm with
  | error f =>
    rw [hs] at hrun
    have ht : x.run t.vmm = .error f := hrun
    rw [ht]
    exact ⟨fun _ => id, fun _ h => by cases h⟩
  | ok y =>
    rw [hs] at hrun
    obtain ⟨m', ht, hm⟩ := hrun
    rw [ht]
    refine ⟨nofun, ?_⟩
    rintro _ ⟨⟩
    exact ⟨_, rfl, State.agree_iff.2 ⟨rfl, hparked, hm⟩⟩

theorem State.Agree.fetchDecode {s t : State} (h : s.Agree t) : t.fetchDecode = s.fetchDecode := by
  obtain ⟨hctx, -, hvmm⟩ := State.agree_iff.1 h
  rw [State.fetchDecode, State.fetchDecode, hctx, hvmm.fetchWindow]

/-- Settles O51: both states decode one instruction, and its accesses answer alike. -/
theorem unreadableBytesAreSecret : Obligations.UnreadableBytesAreSecret := by
  intro s t h
  unfold step
  rw [h.fetchDecode]
  cases s.fetchDecode with
  | error f => exact ⟨fun _ => id, fun _ h => by cases h⟩
  | ok d =>
    simp only [exec_eq_perform, h.ctx]
    exact State.perform_agree h _

end Sys2Proof.Machine
end

section
/-! SUPPORT. A step made one access at a time (20_memory.md R101, R105): the bytes fetched one by one decide as the whole
window does, the accesses after them are `Block.goOn_settle`, and the statement O59. -/

namespace Sys2Proof.Machine

/-- What the instruction in a window does with the manager, or the fault of the fetch. -/
def stepAnswer (c : Context) (m : Vmm) (w : List Byte × Option Fault) : Except Fault (Context × Vmm) :=
  match decodeWindow c.pc w with
  | .error f => .error f
  | .ok d => (actOf d.instr c).run m

theorem stepAnswer_ok {c : Context} {m : Vmm} {w : List Byte × Option Fault} {i : Instr} {rest : List Byte}
    (h : decode w.1 = .ok i rest) : stepAnswer c m w = (actOf i c).run m := by
  simp only [stepAnswer, decodeWindow, h]

theorem stepAnswer_bad {c : Context} {m : Vmm} {w : List Byte × Option Fault} {rest : List Byte}
    (h : decode w.1 = .bad rest) :
    stepAnswer c m w = .error (.decodeError c.pc (w.1.take (w.1.length - rest.length))) := by
  simp only [stepAnswer, decodeWindow, h]

theorem stepAnswer_short {c : Context} {m : Vmm} {w : List Byte × Option Fault} (h : decode w.1 = .short) :
    stepAnswer c m w = .error (w.2.getD (.decodeError c.pc w.1)) := by
  simp only [stepAnswer, decodeWindow, h]

/-- The whole step is that answer on the window at the pc. -/
theorem step_eq_stepAnswer (s : State) :
    step s = finish (match stepAnswer s.ctx s.vmm (s.vmm.fetchWindow Config.maxIlen s.ctx.pc) with
      | .error f => .error f
      | .ok (c, m) => .ok { s with ctx := c, vmm := m }) := by
  unfold step State.fetchDecode stepAnswer
  cases decodeWindow s.ctx.pc (s.vmm.fetchWindow Config.maxIlen s.ctx.pc) with
  | error f => rfl
  | ok d => exact exec_eq_perform d.instr s

/-! ## Fetch, a byte at a time -/

/-- What the decoder answers on some bytes it answers whatever bytes follow, once it has enough. -/
theorem decode_append_ok {bs rest : List Byte} {i : Instr} (h : decode bs = .ok i rest) (more : List Byte) :
    decode (bs ++ more) = .ok i (rest ++ more) := by
  have hreads := online_decode bs
  rw [h] at hreads
  obtain ⟨u, rfl, hok, -⟩ := hreads
  rw [List.append_assoc, hok]

theorem decode_append_bad {bs rest : List Byte} (h : decode bs = .bad rest) (more : List Byte) :
    decode (bs ++ more) = .bad (rest ++ more) ∧
      (bs ++ more).take ((bs ++ more).length - (rest ++ more).length) = bs.take (bs.length - rest.length) := by
  have hreads := online_decode bs
  rw [h] at hreads
  obtain ⟨u, rfl, hbad, -⟩ := hreads
  rw [List.append_assoc, hbad]
  simp

/-- The bytes after `raw` as a window from the pc sees them, at most `n` of them. -/
def Vmm.windowAfter (m : Vmm) (c : Context) (raw : List Byte) (n : Nat) : List Byte × Option Fault :=
  (raw ++ (m.fetchWindow n (c.pc + BitVec.ofNat 64 raw.length)).1,
    (m.fetchWindow n (c.pc + BitVec.ofNat 64 raw.length)).2)

theorem Vmm.windowAfter_nil (m : Vmm) (c : Context) (n : Nat) : m.windowAfter c [] n = m.fetchWindow n c.pc := by
  simp [Vmm.windowAfter]

theorem Vmm.windowAfter_error {m : Vmm} {c : Context} {raw : List Byte} {f : Fault} (n : Nat)
    (h : m.memFetch (c.pc + BitVec.ofNat 64 raw.length) = .error f) :
    m.windowAfter c raw (n + 1) = (raw, some f) := by
  simp [Vmm.windowAfter, Vmm.fetchWindow, h]

theorem Vmm.windowAfter_ok {m : Vmm} {c : Context} {raw : List Byte} {b : Byte} (n : Nat)
    (h : m.memFetch (c.pc + BitVec.ofNat 64 raw.length) = .ok b) :
    m.windowAfter c raw (n + 1) = m.windowAfter c (raw ++ [b]) n := by
  have hpc : c.pc + BitVec.ofNat 64 raw.length + 1#64 = c.pc + BitVec.ofNat 64 (raw.length + 1) := by
    rw [BitVec.add_assoc, BitVec.ofNat_add]
  simp [Vmm.windowAfter, Vmm.fetchWindow, h, hpc]

theorem Vmm.windowAfter_zero (m : Vmm) (c : Context) (raw : List Byte) : m.windowAfter c raw 0 = (raw, none) := by
  simp [Vmm.windowAfter, Vmm.fetchWindow]

/-- Where the bytes fetched decide, the bytes after them do not matter. -/
theorem Block.goOn_decided_enough {c : Context} {b : Block} {k : Nat} (hk : k < b.cpus.length) {n : Nat}
    {raw : List Byte} (hd : decode raw ≠ .short) :
    Block.goOn k (n + 2) (b.turn k c (decided c raw, b.vmm))
      = b.ended k c (stepAnswer c b.vmm (b.vmm.windowAfter c raw n)) := by
  cases hraw : decode raw with
  | ok i rest =>
    rw [stepAnswer_ok (decode_append_ok hraw _), decided, hraw]
    exact Block.goOn_settle ((actOf_orderly c i).mono (Nat.le_add_left 2 n)) (fun _ => rfl) hk
  | bad rest =>
    obtain ⟨hbad, htake⟩ := decode_append_bad hraw (b.vmm.fetchWindow n (c.pc + BitVec.ofNat 64 raw.length)).1
    rw [stepAnswer_bad hbad, Vmm.windowAfter, htake, decided, hraw]
    rfl
  | short => exact absurd hraw hd

/-- Fetch and what follows it: with `raw` fetched and at most `n` bytes still to come, the accesses that are left end the
step as the whole window says. By induction on `n`: another byte is fetched only while the decoder asks for one. -/
theorem Block.goOn_decided {c : Context} {b : Block} {k : Nat} (hk : k < b.cpus.length) {n : Nat} {raw : List Byte}
    (hn : raw.length + n = Config.maxIlen) :
    Block.goOn k (n + 2) (b.turn k c (decided c raw, b.vmm))
      = b.ended k c (stepAnswer c b.vmm (b.vmm.windowAfter c raw n)) := by
  induction n generalizing raw with
  | zero =>
    by_cases hd : decode raw = .short
    · have hlast : decided c raw = .fault (.decodeError c.pc raw) := by
        simp only [decided, hd]
        exact if_neg (by omega)
      rw [hlast, Vmm.windowAfter_zero, stepAnswer_short hd]
      rfl
    · exact Block.goOn_decided_enough hk hd
  | succ n ih =>
    by_cases hd : decode raw = .short
    · have hmore : decided c raw = .going (.fetch raw) := by
        simp only [decided, hd]
        exact if_pos (by omega)
      rw [hmore, Block.turn, Block.goOn, Block.finishStep_succ, Block.access_going hk, Stage.next]
      cases hf : b.vmm.memFetch (c.pc + BitVec.ofNat 64 raw.length) with
      | error f =>
        rw [Vmm.windowAfter_error n hf, stepAnswer_short hd]
        rfl
      | ok x =>
        rw [Vmm.windowAfter_ok n hf]
        refine ih ?_
        rw [List.length_append, List.length_singleton]
        omega
    · exact Block.goOn_decided_enough hk hd

/-! ## The block of a state -/

/-- The first access of a step is the one that a context in Fetch with no byte yet makes. -/
theorem State.block_access (s : State) :
    s.block.access 0 = s.block.turn 0 s.ctx (Stage.next s.ctx s.vmm (.fetch [])) := rfl

/-- A step from between steps, one access at a time, ends as its window says. -/
theorem State.block_finishStep (s : State) :
    s.block.finishStep 0 17
      = s.block.ended 0 s.ctx (stepAnswer s.ctx s.vmm (s.vmm.fetchWindow Config.maxIlen s.ctx.pc)) := by
  have hk : 0 < s.block.cpus.length := Nat.succ_pos _
  have hgo := Block.goOn_decided (c := s.ctx) hk (n := 15) (raw := []) rfl
  rw [Vmm.windowAfter_nil] at hgo
  have hfirst : decided s.ctx [] = .going (.fetch []) := rfl
  rw [hfirst, Block.turn, Block.goOn, Block.finishStep_succ, Block.access_going hk] at hgo
  rw [Block.finishStep_succ, State.block_access]
  exact hgo

/-- Settles O59. -/
theorem stepIsItsAccesses : Obligations.StepIsItsAccesses := by
  intro s
  rw [State.block_finishStep, step_eq_stepAnswer]
  cases stepAnswer s.ctx s.vmm (s.vmm.fetchWindow Config.maxIlen s.ctx.pc) with
  | error f => rfl
  | ok y => rfl

end Sys2Proof.Machine
end

section
/-! SUPPORT. Translation on a table as 20_memory.md R61 has it: an address lies in at most one segment, so lookup answers
the segment it lies in. Data accesses from there (R70, R74, R80, R83, R87), and the statements O34, O35 and O36. -/

namespace Sys2Proof.Machine

/-! ## The segment of an address -/

theorem Segment.contains_iff {g : Segment} {a : Word} :
    g.contains a = true ↔ g.start.toNat ≤ a.toNat ∧ a.toNat < g.stop.toNat := by
  simp [Segment.contains]

theorem Vmm.lookup_some {m : Vmm} {a : Word} {g : Segment} (h : m.lookup a = some g) :
    g ∈ m.segs ∧ g.contains a = true := by
  have hcontains := List.find?_some h
  exact ⟨List.mem_of_find?_eq_some h, hcontains⟩

theorem Vmm.lookup_none {m : Vmm} {a : Word} : m.lookup a = none ↔ ∀ g ∈ m.segs, ¬ g.contains a = true :=
  List.find?_eq_none

/-- Segments of the table that share an address are one. -/
theorem Vmm.segment_unique {m : Vmm} (h : m.tableWf) {g g' : Segment} (hg : g ∈ m.segs) (hg' : g' ∈ m.segs) {x : Nat}
    (hx : g.start.toNat ≤ x ∧ x < g.stop.toNat) (hx' : g'.start.toNat ≤ x ∧ x < g'.stop.toNat) : g = g' := by
  have hapart : ∀ {s t : Segment}, s.stop.toNat ≤ t.start.toNat → s.start.toNat ≤ x ∧ x < s.stop.toNat →
      t.start.toNat ≤ x ∧ x < t.stop.toNat → False := by omega
  exact List.Pairwise.forall_of_forall_of_flip
    (R := fun s t => s.start.toNat ≤ x ∧ x < s.stop.toNat → t.start.toNat ≤ x ∧ x < t.stop.toNat → s = t)
    (fun _ _ _ _ => rfl) (h.2.imp fun hst hs ht => (hapart hst hs ht).elim)
    (h.2.imp fun hst ht hs => (hapart hst hs ht).elim) hg hg' hx hx'

/-- Lookup answers the segment the address lies in (R63). -/
theorem Vmm.lookup_eq_some {m : Vmm} (h : m.tableWf) {g : Segment} {a : Word} :
    m.lookup a = some g ↔ g ∈ m.segs ∧ g.contains a = true := by
  refine ⟨Vmm.lookup_some, fun ⟨hg, ha⟩ => ?_⟩
  cases hl : m.lookup a with
  | none => exact absurd ha (Vmm.lookup_none.1 hl g hg)
  | some g' =>
    obtain ⟨hg', ha'⟩ := Vmm.lookup_some hl
    rw [Vmm.segment_unique h hg hg' (Segment.contains_iff.1 ha) (Segment.contains_iff.1 ha')]

/-- Translation, by the segment the address lies in (R70, R74). -/
theorem Vmm.translate_of_contains {m : Vmm} (h : m.tableWf) {g : Segment} (hg : g ∈ m.segs) {a : Word}
    (ha : g.contains a = true) (n : Nat) (k : Access) :
    m.translate a n k = if g.stop.toNat < a.toNat + n then .error (.segmentationFault a n k)
      else if g.perm.allows k then .ok (g, a.toNat - g.start.toNat) else .error (.accessViolation a n k) := by
  simp only [Vmm.translate, (Vmm.lookup_eq_some h).2 ⟨hg, ha⟩]

theorem Vmm.translate_of_unmapped {m : Vmm} {a : Word} (h : ∀ g ∈ m.segs, ¬ g.contains a = true) (n : Nat)
    (k : Access) : m.translate a n k = .error (.segmentationFault a n k) := by
  simp only [Vmm.translate, Vmm.lookup_none.2 h]

/-- An access that no segment covers is a `SegmentationFault`, whatever the permissions (R70, R72, R74). -/
theorem Vmm.translate_uncovered {m : Vmm} (h : m.tableWf) {a : Word} {n : Nat} (k : Access)
    (hno : ∀ g ∈ m.segs, g.contains a = true → g.stop.toNat < a.toNat + n) :
    m.translate a n k = .error (.segmentationFault a n k) := by
  by_cases hex : ∃ g ∈ m.segs, g.contains a = true
  · obtain ⟨g, hg, ha⟩ := hex
    rw [Vmm.translate_of_contains h hg ha, if_pos (hno g hg ha)]
  · exact Vmm.translate_of_unmapped (fun g hg ha => hex ⟨g, hg, ha⟩) n k

theorem Vmm.translate_violation {m : Vmm} (h : m.tableWf) {g : Segment} (hg : g ∈ m.segs) {a : Word} {n : Nat}
    {k : Access} (ha : g.contains a = true) (hstop : a.toNat + n ≤ g.stop.toNat) (hperm : g.perm.allows k = false) :
    m.translate a n k = .error (.accessViolation a n k) := by
  rw [Vmm.translate_of_contains h hg ha, if_neg (Nat.not_lt.2 hstop), hperm]
  rfl

/-- Settles O34. -/
theorem translation : Obligations.Translation := by
  intro m a n k h
  refine ⟨fun g o => ⟨fun ht => ?_, ?_⟩, fun hno => ?_, ?_, ?_, fun hbig => ?_⟩
  · obtain ⟨-, hg, hstart, ha, hstop, hperm, ho⟩ := Vmm.translate_ok ht
    exact ⟨hg, ⟨hstart, ha, hstop⟩, hperm, by omega⟩
  · rintro ⟨hg, ⟨hstart, ha, hstop⟩, hperm, rfl⟩
    rw [Vmm.translate_of_contains h hg (Segment.contains_iff.2 ⟨hstart, ha⟩), if_neg (Nat.not_lt.2 hstop),
      if_pos hperm]
  · refine Vmm.translate_uncovered h k fun g hg ha => ?_
    obtain ⟨hstart, ha⟩ := Segment.contains_iff.1 ha
    exact Nat.lt_of_not_le fun hstop => hno g hg ⟨hstart, ha, hstop⟩
  · rintro g hg ⟨hstart, ha, hstop⟩ hperm
    exact Vmm.translate_violation h hg (Segment.contains_iff.2 ⟨hstart, ha⟩) hstop hperm
  · intro g hg hstart ha hstop
    rw [Vmm.translate_of_contains h hg (Segment.contains_iff.2 ⟨hstart, ha⟩), if_pos hstop]
  · exact Vmm.translate_uncovered h k fun g _ _ => Nat.lt_of_lt_of_le g.stop.isLt hbig

/-! ## Read after write (R87) -/

theorem Vmm.permits_of_contains {m : Vmm} (h : m.tableWf) {g : Segment} (hg : g ∈ m.segs) {a : Word} {n : Nat}
    {k : Access} (ha : g.contains a = true) (hstop : a.toNat + n ≤ g.stop.toNat) (hperm : g.perm.allows k = true) :
    m.permits a n k = true := by
  simp only [Vmm.permits, (Vmm.lookup_eq_some h).2 ⟨hg, ha⟩, hperm, hstop, decide_true, Bool.and_self]

/-- A store reads back. -/
theorem State.bytesAt_stored {s t : State} {a : Word} {n : Nat} {v : BitVec (8 * n)} (h : s.StoredAt t a n v)
    (hn : n ≤ 2 ^ 64) : t.bytesAt a n = v := by
  rw [State.bytesAt, ← littleEndian_byteOf v]
  refine littleEndian_congr fun j hj => ?_
  have hj64 : (a + BitVec.ofNat 64 j - a).toNat = j := by
    rw [BitVec.add_comm, BitVec.add_sub_cancel, BitVec.toNat_ofNat]
    omega
  rw [h, hj64, if_pos hj]

theorem State.memWrite_memRead {s : State} {a : Word} {n : Nat} (v : BitVec (8 * n))
    (hw : s.vmm.permits a n .write = true) (hr : s.vmm.permits a n .read = true) :
    ∃ t, s.memWrite a n v = .ok t ∧ t.memRead a n = .ok v := by
  refine ⟨_, State.memWrite_permitted hw, ?_⟩
  have hread : (s.setVmm (s.vmm.stored a n v)).vmm.permits a n .read = true :=
    (Vmm.permits_congr (Vmm.stored_segs ..) a n .read).trans hr
  have hlt := Vmm.permits_lt hw
  rw [State.memRead_permitted hread, State.bytesAt_stored (State.storedAt_stored v hw) (by omega)]

/-- Settles O35. -/
theorem roundTrip : Obligations.RoundTrip := by
  intro s g a n v h hwidth hg hstart hstop
  have hpos : 0 < n := by
    simp only [List.mem_cons, List.not_mem_nil, or_false] at hwidth
    omega
  have ha : g.contains a = true := Segment.contains_iff.2 ⟨hstart, by omega⟩
  refine ⟨fun hw hr => ?_, fun hw => ?_, fun hr => ?_⟩
  · exact State.memWrite_memRead v (Vmm.permits_of_contains h hg ha hstop hw) (Vmm.permits_of_contains h hg ha hstop hr)
  · rw [State.memWrite, Vmm.memWrite_eq, Vmm.translate_violation h (k := .write) hg ha hstop hw]
  · rw [State.memRead, Vmm.memRead_eq, Vmm.translate_violation h (k := .read) hg ha hstop hr]

/-! ## Reads within reads (R83) -/

/-- Bytes `j` to `j + m - 1` of a little-endian number. -/
theorem extractLsb'_littleEndian (f : Nat → Byte) {n j m : Nat} (h : j + m ≤ n) :
    (littleEndian f n).extractLsb' (8 * j) (8 * m) = littleEndian (fun k => f (j + k)) m := by
  refine BitVec.eq_of_getLsbD_eq fun i hi => ?_
  have hdiv : (8 * j + i) / 8 = j + i / 8 := by omega
  have hmod : (8 * j + i) % 8 = i % 8 := by omega
  rw [BitVec.getLsbD_extractLsb', getLsbD_littleEndian _ _ _ (by omega), getLsbD_littleEndian _ _ _ hi, hdiv, hmod]
  simp [hi]

/-- Settles O36. -/
theorem narrowRead : Obligations.NarrowRead := by
  intro s a n j m v h hread hm hj
  obtain ⟨hp, rfl⟩ := State.memRead_ok hread
  obtain ⟨g, hg, hstart, -, hstop, hperm, -⟩ := Vmm.permits_segment hp
  have hnat : (a + BitVec.ofNat 64 j).toNat = a.toNat + j := by
    have := Vmm.permits_lt hp
    rw [BitVec.toNat_add, BitVec.toNat_ofNat]
    omega
  have hin : g.contains (a + BitVec.ofNat 64 j) = true := Segment.contains_iff.2 (by omega)
  rw [State.memRead_permitted (Vmm.permits_of_contains h hg hin (by omega) hperm), State.bytesAt, State.bytesAt,
    extractLsb'_littleEndian _ hj]
  simp only [BitVec.add_assoc, BitVec.ofNat_add]

end Sys2Proof.Machine
end

section
/-! SUPPORT. Page arithmetic (20_memory.md R91, R98, R99), and the statement O56. -/

namespace Sys2Proof.Machine

/-- The page boundaries next to a number are the multiples less than a page away from it. -/
theorem roundUp_eq_iff {n r : Nat} : roundUp n = r ↔ r % 4096 = 0 ∧ n ≤ r ∧ r < n + 4096 := by
  simp only [roundUp, Config.pageSize]
  omega

theorem roundDown_eq_iff {n r : Nat} : roundDown n = r ↔ r % 4096 = 0 ∧ r ≤ n ∧ n < r + 4096 := by
  simp only [roundDown, Config.pageSize]
  omega

theorem pageStart_toNat (a : Word) : (pageStart a).toNat = roundDown a.toNat := by
  obtain ⟨-, hle, -⟩ := roundDown_eq_iff.1 (rfl : roundDown a.toNat = _)
  rw [pageStart, BitVec.toNat_ofNat, Nat.mod_eq_of_lt (Nat.lt_of_le_of_lt hle a.isLt)]

/-- R98: the low 12 bits go. -/
theorem getLsbD_pageStart (a : Word) (j : Nat) : (pageStart a).getLsbD j = (decide (12 ≤ j) && a.getLsbD j) := by
  have hpage : roundDown a.toNat = a.toNat / 2 ^ 12 * 2 ^ 12 := rfl
  rw [BitVec.getLsbD, pageStart_toNat, hpage, Nat.testBit_mul_two_pow, Nat.testBit_div_two_pow, BitVec.getLsbD]
  by_cases h : 12 ≤ j
  · simp [h]
  · simp [h]

/-- Settles O56. -/
theorem pageArithmetic : Obligations.PageArithmetic := by
  refine fun a => ⟨getLsbD_pageStart a, (a.toNat + 4095) / 4096, by omega, fun q' hq' => by omega, ?_⟩
  exact BitVec.toNat_ofNat ..

end Sys2Proof.Machine
end

section
/-! SUPPORT. `allocate`, `map` and `unmap` (20_memory.md R92 to R94): the table and the bytes after a segment is inserted
or dropped, where a range is found, and the statements O52 and O53. -/

namespace Sys2Proof.Machine

/-! ## Storage after a fill -/

theorem Memory.read_unlisted {m : Memory} {k : Nat} (h : ∀ c ∈ m, c.1 ≠ k) : Memory.read m k = Memory.unlisted := by
  induction m with
  | nil => rfl
  | cons c m ih =>
    obtain ⟨j, b⟩ := c
    obtain ⟨hj, hm⟩ := List.forall_mem_cons.1 h
    rw [Memory.read, if_neg hj, ih hm]

theorem Memory.read_append_left {m m' : Memory} {k : Nat} (h : ∀ c ∈ m', c.1 ≠ k) :
    Memory.read (m ++ m') k = Memory.read m k := by
  induction m with
  | nil => exact Memory.read_unlisted h
  | cons c m ih => rw [List.cons_append, Memory.read, Memory.read, ih]

theorem Memory.read_append_right {m m' : Memory} {k : Nat} (h : ∀ c ∈ m, c.1 ≠ k) :
    Memory.read (m ++ m') k = Memory.read m' k := by
  induction m with
  | nil => rfl
  | cons c m ih =>
    obtain ⟨hj, hm⟩ := List.forall_mem_cons.1 h
    rw [List.cons_append, Memory.read, if_neg hj, ih hm]

/-- The cells that `Memory.fill` puts in for the addresses `[lo, lo + n)`. -/
def filled (lo n : Nat) (f : Nat → Byte) : Memory :=
  (List.range' lo n).filterMap fun a => if f a = Memory.unlisted then none else some (a, f a)

theorem Memory.fill_eq (m : Memory) (lo n : Nat) (f : Nat → Byte) :
    Memory.fill m lo n f = (m.filter fun c => decide (c.1 < lo)) ++ filled lo n f
      ++ m.filter fun c => decide (lo + n ≤ c.1) := rfl

theorem mem_filled {lo n : Nat} {f : Nat → Byte} {c : Host.Cell} (h : c ∈ filled lo n f) :
    lo ≤ c.1 ∧ c.1 < lo + n := by
  obtain ⟨a, ha, hc⟩ := List.mem_filterMap.1 h
  split at hc
  · cases hc
  · cases hc
    exact List.mem_range'_1.1 ha

theorem read_filled {lo n k : Nat} (f : Nat → Byte) (hlo : lo ≤ k) (hhi : k < lo + n) :
    Memory.read (filled lo n f) k = f k := by
  induction n generalizing lo with
  | zero => omega
  | succ n ih =>
    have hcons : filled lo (n + 1) f
        = (if f lo = Memory.unlisted then [] else [(lo, f lo)]) ++ filled (lo + 1) n f := by
      simp only [filled, List.range'_succ, List.filterMap_cons]
      split <;> simp_all
    obtain rfl | hlt := Nat.eq_or_lt_of_le hlo
    · rw [hcons, Memory.read_append_left fun c hc => by have := mem_filled hc; omega]
      split <;> simp_all [Memory.read]
    · rw [hcons, Memory.read_append_right ?_, ih hlt (by omega)]
      intro c hc
      split at hc
      · cases hc
      · obtain rfl := List.mem_singleton.1 hc
        exact Nat.ne_of_lt hlt

/-- Reading after new storage got its contents. -/
theorem Memory.read_fill (m : Memory) (lo n : Nat) (f : Nat → Byte) (k : Nat) :
    Memory.read (Memory.fill m lo n f) k = if lo ≤ k ∧ k < lo + n then f k else Memory.read m k := by
  have hlow : ∀ c ∈ m.filter fun c => decide (c.1 < lo), c.1 < lo := fun c hc => by
    simpa using (List.mem_filter.1 hc).2
  have hhigh : ∀ c ∈ m.filter fun c => decide (lo + n ≤ c.1), lo + n ≤ c.1 := fun c hc => by
    simpa using (List.mem_filter.1 hc).2
  have hreadLow := Memory.read_filter m k fun j => decide (j < lo)
  have hreadHigh := Memory.read_filter m k fun j => decide (lo + n ≤ j)
  rw [Memory.fill_eq]
  by_cases hk : k < lo
  · rw [Memory.read_append_left fun c hc => by have := hhigh c hc; omega,
      Memory.read_append_left fun c hc => by have := mem_filled hc; omega, hreadLow, if_pos (by simpa using hk),
      if_neg (by omega)]
  · rw [List.append_assoc, Memory.read_append_right fun c hc => by have := hlow c hc; omega]
    by_cases hk' : k < lo + n
    · rw [Memory.read_append_left fun c hc => by have := hhigh c hc; omega, read_filled f (by omega) hk',
        if_pos (by omega)]
    · rw [Memory.read_append_right fun c hc => by have := mem_filled hc; omega, hreadHigh,
        if_pos (by simpa using hk'), if_neg (by omega)]

/-- Reading after the bytes of `[lo, hi)` were dropped. -/
theorem Memory.read_erase_outside (m : Memory) {lo hi k : Nat} (h : k < lo ∨ hi ≤ k) :
    Memory.read (Memory.erase m lo hi) k = Memory.read m k := by
  rw [Memory.erase, Memory.read_filter m k fun j => decide (j < lo) || decide (hi ≤ j), if_pos (by simpa using h)]

/-! ## The table after an insertion -/

theorem mem_insertSegment {g h : Segment} {gs : List Segment} : h ∈ insertSegment g gs ↔ h = g ∨ h ∈ gs := by
  induction gs with
  | nil => simp [insertSegment]
  | cons t ts ih =>
    rw [insertSegment]
    split
    · simp
    · simp only [List.mem_cons, ih]
      tauto

/-- `[lo, hi)` shares no address with a segment of the table (R61, R64). -/
def Vmm.Free (m : Vmm) (lo hi : Nat) : Prop := ∀ g ∈ m.segs, g.stop.toNat ≤ lo ∨ hi ≤ g.start.toNat

theorem Vmm.isFree_iff {m : Vmm} {lo hi : Nat} : m.isFree lo hi = true ↔ m.Free lo hi := by
  simp only [Vmm.isFree, Vmm.Free, List.all_eq_true, Segment.meets, Bool.not_eq_true', Bool.and_eq_false_iff,
    decide_eq_false_iff_not, Nat.not_lt]
  exact forall₂_congr fun _ _ => Or.comm

/-- A segment put where its start belongs keeps the table in order. -/
theorem pairwise_insertSegment {g : Segment} {gs : List Segment} (hwf : ∀ t ∈ gs, t.wf) (hg : g.wf)
    (hp : gs.Pairwise fun s t => s.stop.toNat ≤ t.start.toNat)
    (hfree : ∀ t ∈ gs, t.stop.toNat ≤ g.start.toNat ∨ g.stop.toNat ≤ t.start.toNat) :
    (insertSegment g gs).Pairwise fun s t => s.stop.toNat ≤ t.start.toNat := by
  induction gs with
  | nil => exact List.pairwise_singleton ..
  | cons t ts ih =>
    obtain ⟨ht, hts⟩ := List.pairwise_cons.1 hp
    obtain ⟨hwt, hwts⟩ := List.forall_mem_cons.1 hwf
    obtain ⟨hft, hfts⟩ := List.forall_mem_cons.1 hfree
    have ⟨hgne, _, _⟩ := hg
    have ⟨htne, _, _⟩ := hwt
    rw [insertSegment]
    split
    · refine List.pairwise_cons.2 ⟨List.forall_mem_cons.2 ⟨by omega, fun u hu => ?_⟩, hp⟩
      have := ht u hu
      omega
    · refine List.pairwise_cons.2 ⟨fun u hu => ?_, ih hwts hts hfts⟩
      obtain rfl | hu := mem_insertSegment.1 hu
      · omega
      · exact ht u hu

/-- New storage and its segment keep the invariant of the manager. -/
theorem Vmm.wf_insert {m : Vmm} (h : m.wf) {g : Segment} (hg : g.wf) (hfree : m.Free g.start.toNat g.stop.toNat)
    (f : Nat → Byte) : (m.insert g f).wf := by
  obtain ⟨⟨hwf, hp⟩, hmem, hcov⟩ := h
  have ⟨hne, _, _⟩ := hg
  refine ⟨⟨fun t ht => ?_, pairwise_insertSegment hwf hg hp hfree⟩, Memory.wf_fill hmem .., fun c hc => ?_⟩
  · obtain rfl | ht := mem_insertSegment.1 ht
    · exact hg
    · exact hwf t ht
  · obtain ⟨hold, -⟩ | ⟨hlo, hhi, -, -⟩ := (Memory.mem_fill _ _ _ _ _).1 hc
    · obtain ⟨t, ht, hin⟩ := hcov c hold
      exact ⟨t, mem_insertSegment.2 (.inr ht), hin⟩
    · exact ⟨g, mem_insertSegment.2 (.inl rfl), hlo, by omega⟩

theorem Vmm.read_insert {m : Vmm} {g : Segment} (hg : g.start.toNat ≤ g.stop.toNat) (f : Nat → Byte) (a : Word) :
    Memory.read (m.insert g f).bytes a.toNat = if g.contains a then f a.toNat else Memory.read m.bytes a.toNat := by
  have hin : g.start.toNat ≤ a.toNat ∧ a.toNat < g.start.toNat + (g.stop.toNat - g.start.toNat)
      ↔ g.contains a = true := by
    rw [Segment.contains_iff]
    omega
  rw [Vmm.insert, Memory.read_fill]
  simp only [hin]

/-! ## `allocate` (R92) -/

theorem Vmm.mayPlace_iff {m : Vmm} {sz b : Nat} : m.mayPlace sz b = true ↔ m.Fits sz b := by
  simp only [Vmm.mayPlace, Vmm.Fits, Bool.and_eq_true, decide_eq_true_eq, Vmm.isFree_iff, Vmm.Free, and_assoc]
  rfl

/-- Where any range fits, one fits at 0 or at the end of a segment: the highest end below the range that fits. -/
theorem Vmm.fits_at_end {m : Vmm} {sz b : Nat} (hwf : ∀ g ∈ m.segs, g.wf) (h : m.Fits sz b) :
    m.Fits sz 0 ∨ ∃ g ∈ m.segs, m.Fits sz g.stop.toNat := by
  obtain ⟨-, hlimit, hfree⟩ := h
  by_cases hbelow : ∃ g ∈ m.segs, g.stop.toNat ≤ b
  · obtain ⟨g, hg, hmax⟩ := Finset.exists_max_image (m.segs.toFinset.filter fun g => g.stop.toNat ≤ b)
      (fun g => g.stop.toNat) (by simpa [Finset.Nonempty] using hbelow)
    simp only [Finset.mem_filter, List.mem_toFinset] at hg hmax
    refine .inr ⟨g, hg.1, (hwf g hg.1).2.2, by omega, fun t ht => ?_⟩
    obtain hstop | hstart := hfree t ht
    · exact .inl (hmax t ⟨ht, hstop⟩)
    · exact .inr (by omega)
  · refine .inl ⟨rfl, by omega, fun t ht => .inr ?_⟩
    obtain hstop | hstart := hfree t ht
    · exact absurd ⟨t, ht, hstop⟩ hbelow
    · omega

/-- The first range found fits. -/
theorem Vmm.place_some {m : Vmm} {policy : List (Nat × Nat) → Nat → Nat} {sz b : Nat}
    (h : m.place policy sz = some b) : m.Fits sz b :=
  Vmm.mayPlace_iff.1 (List.find?_some h)

/-- Whatever the policy proposes, a range is found where one fits. -/
theorem Vmm.place_isSome {m : Vmm} (policy : List (Nat × Nat) → Nat → Nat) {sz b : Nat} (hwf : ∀ g ∈ m.segs, g.wf)
    (h : m.Fits sz b) : ∃ b', m.place policy sz = some b' := by
  rw [← Option.isSome_iff_exists, Vmm.place, List.find?_isSome]
  obtain hzero | ⟨g, hg, hend⟩ := Vmm.fits_at_end hwf h
  · exact ⟨0, by simp, Vmm.mayPlace_iff.2 hzero⟩
  · obtain ⟨-, -, hstop⟩ := hwf g hg
    have hround : roundUp g.stop.toNat = g.stop.toNat := roundUp_eq_iff.2 ⟨hstop, Nat.le_refl _, by omega⟩
    refine ⟨g.stop.toNat, ?_, Vmm.mayPlace_iff.2 hend⟩
    refine List.mem_cons_of_mem _ (List.mem_cons_of_mem _ (List.mem_map.2 ⟨g, hg, hround⟩))

/-- The segment that `allocate` inserts at `b`. -/
def freshSegment (sz b : Nat) (name : String) : Segment where
  start := BitVec.ofNat 64 b
  stop := BitVec.ofNat 64 (b + sz)
  perm := { read := true, write := true, execute := false }
  offset := 0
  name := name

theorem Vmm.Fits.freshSegment_bounds {m : Vmm} {sz b : Nat} (h : m.Fits sz b) (name : String) :
    (freshSegment sz b name).start.toNat = b ∧ (freshSegment sz b name).stop.toNat = b + sz := by
  obtain ⟨-, hlimit, -⟩ := h
  simp only [freshSegment, BitVec.toNat_ofNat]
  omega

/-- All that `allocate` does, whatever the policy and the fill. -/
theorem Vmm.allocateWith_eq (policy : List (Nat × Nat) → Nat → Nat) (fill : Nat → Nat → Byte) (m : Vmm) (size : Word)
    (name : String) :
    m.allocateWith policy fill size name = if size = 0 then .error .outOfAddressSpace
      else match m.place policy (roundUp size.toNat) with
        | none => .error .outOfAddressSpace
        | some b => .ok (freshSegment (roundUp size.toNat) b name,
            m.insert (freshSegment (roundUp size.toNat) b name) (fill m.fills)) := rfl

/-- Settles O52. -/
theorem allocateOutcome : Obligations.AllocateOutcome := by
  intro policy fill m size name sz h hmod hle hlt
  have hsz : roundUp size.toNat = sz := roundUp_eq_iff.2 ⟨hmod, hle, hlt⟩
  obtain ⟨⟨hwf, -⟩, -, -⟩ := h
  rw [Vmm.allocateWith_eq, hsz]
  refine ⟨?_, fun hne ⟨b, hb⟩ => ?_⟩
  · rintro (hzero | hno)
    · exact if_pos hzero
    · have hnone : m.place policy sz = none :=
        Option.eq_none_iff_forall_ne_some.2 fun b hb => hno b (Vmm.place_some hb)
      rw [hnone]
      exact ite_self _
  · obtain ⟨b', hb'⟩ := Vmm.place_isSome policy hwf hb
    have hfits := Vmm.place_some hb'
    obtain ⟨hstart, hstop⟩ := hfits.freshSegment_bounds name
    rw [if_neg hne, hb']
    refine ⟨_, _, rfl, hstart.symm ▸ hfits, by rw [hstart, hstop], rfl, rfl, rfl, fun t => mem_insertSegment,
      Vmm.read_insert (by omega) _⟩

/-! ## `map` and `unmap` (R93, R94) -/

theorem Vmm.map_ok {m : Vmm} {g : Segment} (hg : g.wf) (hfree : m.Free g.start.toNat g.stop.toNat) (data : List Byte) :
    m.map g data = .ok (m.insert g (suppliedByte data g.start.toNat m.fills)) := by
  obtain ⟨hne, hstart, hstop⟩ := hg
  have hisFree := Vmm.isFree_iff.2 hfree
  rw [Vmm.map, if_neg]
  rintro (hempty | hstart' | hstop' | hmeet)
  · omega
  · exact hstart' hstart
  · exact hstop' hstop
  · exact absurd (hisFree.symm.trans hmeet) nofun

theorem Vmm.map_error {m : Vmm} {g : Segment} (h : ¬ (g.wf ∧ m.Free g.start.toNat g.stop.toNat)) (data : List Byte) :
    m.map g data = .error .outOfAddressSpace := by
  rw [Vmm.map, if_pos]
  by_contra hno
  simp only [not_or, Nat.not_le, not_not, Bool.not_eq_false] at hno
  obtain ⟨hne, hstart, hstop, hfree⟩ := hno
  exact h ⟨⟨hne, hstart, hstop⟩, Vmm.isFree_iff.1 hfree⟩

/-- R93: `map`, where it refuses and what it inserts. -/
theorem Vmm.map_outcome (m : Vmm) (g : Segment) (data : List Byte) :
    (¬ g.wf ∨ (∃ h ∈ m.segs, h.start.toNat < g.stop.toNat ∧ g.start.toNat < h.stop.toNat) →
      m.map g data = .error .outOfAddressSpace) ∧
    (g.wf → (∀ h ∈ m.segs, h.stop.toNat ≤ g.start.toNat ∨ g.stop.toNat ≤ h.start.toNat) →
      ∃ m', m.map g data = .ok m' ∧ (∀ h, h ∈ m'.segs ↔ h = g ∨ h ∈ m.segs) ∧
        (∀ j, (hj : j < data.length) → g.start.toNat + j < g.stop.toNat →
          Memory.read m'.bytes (g.start.toNat + j) = data[j]) ∧
        ∀ a : Word, g.contains a = false → Memory.read m'.bytes a.toNat = Memory.read m.bytes a.toNat) := by
  refine ⟨fun hbad => Vmm.map_error ?_ data, fun hg hfree => ⟨_, Vmm.map_ok hg hfree data, fun t => mem_insertSegment,
    fun j hj hin => ?_, fun a ha => ?_⟩⟩
  · rintro ⟨hg, hfree⟩
    obtain hnot | ⟨t, ht, hlt, hlt'⟩ := hbad
    · exact hnot hg
    · have := hfree t ht
      omega
  · rw [Vmm.insert, Memory.read_fill, if_pos (by omega), suppliedByte, Nat.add_sub_cancel_left]
    exact List.getD_eq_getElem _ _ hj
  · obtain ⟨hne, -, -⟩ := hg
    rw [Vmm.read_insert (by omega), if_neg (by simp [ha])]

/-- The manager after segment `g` is dropped with its bytes. -/
def Vmm.dropped (m : Vmm) (g : Segment) : Vmm :=
  { m with
    segs := m.segs.filter fun t => t.start != g.start
    bytes := Memory.erase m.bytes g.start.toNat g.stop.toNat }

theorem Vmm.mem_dropped {m : Vmm} (h : m.tableWf) {g t : Segment} (hg : g ∈ m.segs) :
    t ∈ (m.dropped g).segs ↔ t ∈ m.segs ∧ t ≠ g := by
  simp only [Vmm.dropped, List.mem_filter, bne_iff_ne, ne_eq, and_congr_right_iff, not_iff_not]
  intro ht
  refine ⟨fun hstart => ?_, congrArg Segment.start⟩
  obtain ⟨hgne, -, -⟩ := h.1 g hg
  obtain ⟨htne, -, -⟩ := h.1 t ht
  rw [hstart] at htne
  exact Vmm.segment_unique h ht hg ⟨Nat.le_of_eq (congrArg BitVec.toNat hstart), htne⟩ ⟨Nat.le_refl _, hgne⟩

/-- All that `unmap` does: the first segment that starts at the address is the only one. -/
theorem Vmm.unmap_eq (m : Vmm) (a : Word) :
    m.unmap a = .error .notMapped ∧ (∀ g ∈ m.segs, g.start ≠ a) ∨
    ∃ g ∈ m.segs, g.start = a ∧ m.unmap a = .ok (m.dropped g) := by
  rw [Vmm.unmap]
  cases hf : m.segs.find? fun s => s.start == a with
  | none => exact .inl ⟨rfl, fun g hg => by simpa using List.find?_eq_none.1 hf g hg⟩
  | some g =>
    have hstart : g.start = a := by simpa using List.find?_some hf
    exact .inr ⟨g, List.mem_of_find?_eq_some hf, hstart, by subst hstart; rfl⟩

/-- R94: `unmap`, where it refuses and what it drops. -/
theorem Vmm.unmap_outcome {m : Vmm} (h : m.tableWf) (a : Word) :
    ((∀ g ∈ m.segs, g.start ≠ a) → m.unmap a = .error .notMapped) ∧
    (∀ g ∈ m.segs, g.start = a → ∃ m', m.unmap a = .ok m' ∧
      (∀ t, t ∈ m'.segs ↔ t ∈ m.segs ∧ t ≠ g) ∧
      ∀ b : Word, g.contains b = false → Memory.read m'.bytes b.toNat = Memory.read m.bytes b.toNat) := by
  obtain ⟨herr, hno⟩ | ⟨g, hg, hstart, hok⟩ := m.unmap_eq a
  · exact ⟨fun _ => herr, fun g hg hstart => absurd hstart (hno g hg)⟩
  · refine ⟨fun hno => absurd hstart (hno g hg), fun g' hg' hstart' => ?_⟩
    obtain rfl : g' = g := by
      by_contra hne
      have hin : g' ∈ (m.dropped g).segs := (Vmm.mem_dropped h hg).2 ⟨hg', hne⟩
      simp [Vmm.dropped, hstart, hstart'] at hin
    refine ⟨_, hok, fun t => Vmm.mem_dropped h hg, fun b hb => Memory.read_erase_outside _ ?_⟩
    rw [← Bool.not_eq_true, Segment.contains_iff] at hb
    omega

/-- Settles O53. -/
theorem mapUnmapOutcome : Obligations.MapUnmapOutcome :=
  fun m ⟨htable, _⟩ => ⟨fun g data => m.map_outcome g data, fun a => Vmm.unmap_outcome htable a⟩

end Sys2Proof.Machine
end

section
/-! SUPPORT. `protect` (20_memory.md R95, R96): when a range is mapped throughout, the pieces a segment is cut into, the
table of the pieces, and the statement O54. -/

namespace Sys2Proof.Machine

/-! ## Mapped ranges -/

/-- Walking the table in its order finds out whether every address of `[a, hi)` is mapped. -/
theorem covered_iff {hi : Nat} {gs : List Segment} (hwf : ∀ g ∈ gs, g.wf)
    (hp : gs.Pairwise fun s t => s.stop.toNat ≤ t.start.toNat) (a : Nat) :
    covered hi gs a = true ↔ ∀ x, a ≤ x → x < hi → ∃ g ∈ gs, g.start.toNat ≤ x ∧ x < g.stop.toNat := by
  induction gs generalizing a with
  | nil =>
    simp only [covered, decide_eq_true_eq, List.not_mem_nil, false_and, exists_false]
    exact ⟨fun h x hx hx' => by omega, fun h => Nat.le_of_not_lt fun hlt => h a (Nat.le_refl a) hlt⟩
  | cons s ss ih =>
    obtain ⟨hs, hss⟩ := List.pairwise_cons.1 hp
    obtain ⟨⟨hne, -, -⟩, hwss⟩ := List.forall_mem_cons.1 hwf
    simp only [List.exists_mem_cons_iff]
    rw [covered]
    by_cases hdone : hi ≤ a
    · rw [if_pos hdone]
      exact ⟨fun _ x hx hx' => by omega, fun _ => rfl⟩
    · rw [if_neg hdone]
      by_cases hbelow : s.stop.toNat ≤ a
      · rw [if_pos hbelow, ih hwss hss]
        exact forall₃_congr fun x hx hx' => ⟨.inr, fun h => h.resolve_left (by omega)⟩
      · rw [if_neg hbelow]
        by_cases hin : s.start.toNat ≤ a
        · rw [if_pos hin, ih hwss hss]
          refine ⟨fun h x hx hx' => ?_, fun h x hx hx' => (h x (by omega) hx').resolve_left (by omega)⟩
          by_cases hxs : x < s.stop.toNat
          · exact .inl ⟨by omega, hxs⟩
          · exact .inr (h x (by omega) hx')
        · rw [if_neg hin]
          refine ⟨nofun, fun h => ?_⟩
          obtain hfirst | ⟨g, hg, hlo, -⟩ := h a (Nat.le_refl a) (by omega)
          · omega
          · have := hs g hg
            omega

/-! ## Pieces -/

/-- `q` is what `protect` leaves of segment `g` below, within or above the range `[lo, hi)` that `g` meets (R96). -/
def Segment.PieceOf (q g : Segment) (lo hi : Nat) (p : Perm) : Prop :=
  q.name = g.name ∧ q.offset = g.offset + (q.start - g.start) ∧
    (g.start.toNat < lo ∧ q.start = g.start ∧ q.stop.toNat = lo ∧ q.perm = g.perm ∨
      q.start.toNat = max g.start.toNat lo ∧ q.stop.toNat = min g.stop.toNat hi ∧ q.perm = p ∨
      hi < g.stop.toNat ∧ q.start.toNat = hi ∧ q.stop = g.stop ∧ q.perm = g.perm)

/-- `q` is what `protect` leaves of segment `g`: `g` itself where the range does not meet it, or a piece. -/
def Segment.LeftOf (q g : Segment) (lo hi : Nat) (p : Perm) : Prop :=
  (g.stop.toNat ≤ lo ∨ hi ≤ g.start.toNat) ∧ q = g ∨
    (g.start.toNat < hi ∧ lo < g.stop.toNat) ∧ q.PieceOf g lo hi p

/-- The parts that `protect` cuts a segment into. -/
def Segment.parts (g : Segment) (lo hi : Nat) (p : Perm) : List Segment :=
  g.cut lo hi fun t => [{ t with perm := p }]

theorem ofNat_eq_iff {n : Nat} {a : Word} (h : n < 2 ^ 64) : a = BitVec.ofNat 64 n ↔ a.toNat = n := by
  rw [← BitVec.toNat_inj, BitVec.toNat_ofNat, Nat.mod_eq_of_lt h]

theorem Segment.piece_bounds (g : Segment) {lo hi : Nat} (hlo : lo < 2 ^ 64) (hhi : hi < 2 ^ 64) :
    (g.piece lo hi).start.toNat = lo ∧ (g.piece lo hi).stop.toNat = hi :=
  ⟨BitVec.toNat_ofNat lo 64 |>.trans (Nat.mod_eq_of_lt hlo), BitVec.toNat_ofNat hi 64 |>.trans (Nat.mod_eq_of_lt hhi)⟩

/-- The pieces of the model are those of R96. -/
theorem Segment.eq_piece_iff {q g : Segment} {lo hi : Nat} {p : Perm} (hlo : lo < 2 ^ 64) (hhi : hi < 2 ^ 64) :
    q = { g.piece lo hi with perm := p } ↔
      q.name = g.name ∧ q.offset = g.offset + (q.start - g.start) ∧ q.start.toNat = lo ∧ q.stop.toNat = hi ∧
        q.perm = p := by
  obtain ⟨start, stop, perm, offset, name⟩ := q
  simp only [Segment.piece, Segment.mk.injEq, ofNat_eq_iff hlo, ofNat_eq_iff hhi]
  constructor
  · rintro ⟨rfl, rfl, rfl, rfl, rfl⟩
    simp
  · rintro ⟨rfl, rfl, rfl, rfl, rfl⟩
    simp

/-- Cutting a segment leaves what R96 says. -/
theorem Segment.mem_parts {q g : Segment} {lo hi : Nat} {p : Perm} (hlo : lo < 2 ^ 64) (hhi : hi < 2 ^ 64) :
    q ∈ g.parts lo hi p ↔ q.LeftOf g lo hi p := by
  have hstart := g.start.isLt
  have hstop := g.stop.isLt
  have hlow := Segment.eq_piece_iff (q := q) (g := g) (p := g.perm) hstart hlo
  have hmid := Segment.eq_piece_iff (q := q) (g := g) (p := p) (max_lt hstart hlo)
    (Nat.lt_of_le_of_lt (Nat.min_le_left g.stop.toNat hi) hstop)
  have hhigh := Segment.eq_piece_iff (q := q) (g := g) (p := g.perm) hhi hstop
  simp only [Segment.parts, Segment.cut, Segment.meets, Bool.and_eq_true, decide_eq_true_eq, Segment.LeftOf]
  split
  · rename_i hmeets
    have hout : ¬ (g.stop.toNat ≤ lo ∨ hi ≤ g.start.toNat) := by omega
    simp only [List.mem_append, List.mem_ite_nil_right, List.mem_singleton, hout, hmeets, false_and, true_and,
      false_or, and_self, Segment.PieceOf]
    constructor
    · rintro (⟨hcut, hq⟩ | hq | ⟨hcut, hq⟩)
      · obtain ⟨hname, hoff, hs, ht, hperm⟩ := hlow.1 hq
        exact ⟨hname, hoff, .inl ⟨hcut, BitVec.eq_of_toNat_eq hs, ht, hperm⟩⟩
      · obtain ⟨hname, hoff, hs, ht, hperm⟩ := hmid.1 hq
        exact ⟨hname, hoff, .inr (.inl ⟨hs, ht, hperm⟩)⟩
      · obtain ⟨hname, hoff, hs, ht, hperm⟩ := hhigh.1 hq
        exact ⟨hname, hoff, .inr (.inr ⟨hcut, hs, BitVec.eq_of_toNat_eq ht, hperm⟩)⟩
    · rintro ⟨hname, hoff, ⟨hcut, hs, ht, hperm⟩ | ⟨hs, ht, hperm⟩ | ⟨hcut, hs, ht, hperm⟩⟩
      · exact .inl ⟨hcut, hlow.2 ⟨hname, hoff, congrArg BitVec.toNat hs, ht, hperm⟩⟩
      · exact .inr (.inl (hmid.2 ⟨hname, hoff, hs, ht, hperm⟩))
      · exact .inr (.inr ⟨hcut, hhigh.2 ⟨hname, hoff, hs, congrArg BitVec.toNat ht, hperm⟩⟩)
  · rename_i hmeets
    have hout : g.stop.toNat ≤ lo ∨ hi ≤ g.start.toNat := by omega
    simp only [List.mem_singleton, hout, hmeets, true_and, false_and, or_false]

/-- What is left of a segment lies in it and is a segment. -/
theorem Segment.LeftOf.within {q g : Segment} {lo hi : Nat} {p : Perm} (h : q.LeftOf g lo hi p) (hg : g.wf)
    (hlo : lo % 4096 = 0) (hhi : hi % 4096 = 0) (hlt : lo < hi) :
    q.wf ∧ g.start.toNat ≤ q.start.toNat ∧ q.stop.toNat ≤ g.stop.toNat := by
  have ⟨hne, hstart, hstop⟩ := hg
  simp only [Config.pageSize] at hstart hstop
  obtain ⟨-, rfl⟩ | ⟨⟨hm, hm'⟩, -, -, hpiece⟩ := h
  · exact ⟨hg, Nat.le_refl _, Nat.le_refl _⟩
  · simp only [Segment.wf, Config.pageSize]
    obtain ⟨hcut, hs, ht, -⟩ | ⟨hs, ht, -⟩ | ⟨hcut, hs, ht, -⟩ := hpiece <;> rw [hs, ht] <;> omega

/-- The parts of a segment stand in order. -/
theorem Segment.pairwise_parts (g : Segment) {lo hi : Nat} (p : Perm) (hhi : hi < 2 ^ 64) (hlt : lo < hi) :
    (g.parts lo hi p).Pairwise fun s t => s.stop.toNat ≤ t.start.toNat := by
  have hstart := g.start.isLt
  have hstop := g.stop.isLt
  have hlow := g.piece_bounds hstart (Nat.lt_trans hlt hhi)
  have hmid := g.piece_bounds (max_lt hstart (Nat.lt_trans hlt hhi))
    (Nat.lt_of_le_of_lt (Nat.min_le_left g.stop.toNat hi) hstop)
  have hhigh := g.piece_bounds hhi hstop
  have hone : ∀ (c : Prop) [Decidable c] (t : Segment),
      (if c then [t] else []).Pairwise fun s t => s.stop.toNat ≤ t.start.toNat := fun c _ t => by split <;> simp
  rw [Segment.parts, Segment.cut]
  split
  · refine List.pairwise_append.2 ⟨hone _ _, List.pairwise_append.2 ⟨List.pairwise_singleton .., hone _ _, ?_⟩, ?_⟩
    · simp only [List.mem_singleton, List.mem_ite_nil_right]
      rintro _ rfl _ ⟨-, rfl⟩
      dsimp only
      omega
    · simp only [List.mem_append, List.mem_singleton, List.mem_ite_nil_right]
      rintro _ ⟨-, rfl⟩ _ (rfl | ⟨-, rfl⟩)
      · dsimp only
        omega
      · omega
  · exact List.pairwise_singleton ..

/-- Each address of a segment lies in one of its parts, with the permissions of the command exactly within its range. -/
theorem Segment.exists_part {g : Segment} {lo hi x : Nat} (p : Perm) (hlo : lo < 2 ^ 64) (hhi : hi < 2 ^ 64)
    (hx : g.start.toNat ≤ x ∧ x < g.stop.toNat) :
    ∃ q : Segment, q.LeftOf g lo hi p ∧ (q.start.toNat ≤ x ∧ x < q.stop.toNat) ∧
      q.perm = if lo ≤ x ∧ x < hi then p else g.perm := by
  have hstart := g.start.isLt
  have hstop := g.stop.isLt
  by_cases hm : g.start.toNat < hi ∧ lo < g.stop.toNat
  · by_cases hbelow : x < lo
    · obtain ⟨hname, hoff, hs, ht, hperm⟩ := (Segment.eq_piece_iff (g := g) (p := g.perm) hstart hlo).1 rfl
      refine ⟨_, .inr ⟨hm, hname, hoff, .inl ⟨by omega, BitVec.eq_of_toNat_eq hs, ht, hperm⟩⟩, by omega, ?_⟩
      rw [hperm, if_neg (by omega)]
    · by_cases habove : hi ≤ x
      · obtain ⟨hname, hoff, hs, ht, hperm⟩ := (Segment.eq_piece_iff (g := g) (p := g.perm) hhi hstop).1 rfl
        refine ⟨_, .inr ⟨hm, hname, hoff, .inr (.inr ⟨by omega, hs, BitVec.eq_of_toNat_eq ht, hperm⟩)⟩, by omega, ?_⟩
        rw [hperm, if_neg (by omega)]
      · obtain ⟨hname, hoff, hs, ht, hperm⟩ := (Segment.eq_piece_iff (g := g) (p := p) (max_lt hstart hlo)
          (Nat.lt_of_le_of_lt (Nat.min_le_left g.stop.toNat hi) hstop)).1 rfl
        refine ⟨_, .inr ⟨hm, hname, hoff, .inr (.inl ⟨hs, ht, hperm⟩)⟩, by omega, ?_⟩
        rw [hperm, if_pos (by omega)]
  · refine ⟨g, .inl ⟨by omega, rfl⟩, hx, ?_⟩
    rw [if_neg (by omega)]

/-! ## The table of the pieces -/

/-- The manager after `protect` of the mapped pages `[lo, hi)`. -/
def Vmm.reprotected (m : Vmm) (lo hi : Nat) (p : Perm) : Vmm :=
  { m with segs := m.segs.flatMap fun g => g.parts lo hi p }

/-- All that `protect` does (R95), by the pages of its range. -/
theorem Vmm.protect_eq (m : Vmm) (a len : Word) (p : Perm) :
    m.protect a len p = if len = 0 then .ok m
      else if addressLimit < roundUp (a.toNat + len.toNat) ∨
          covered (roundUp (a.toNat + len.toNat)) m.segs (roundDown a.toNat) = false then .error (.accessViolation a len)
      else .ok (m.reprotected (roundDown a.toNat) (roundUp (a.toNat + len.toNat)) p) := rfl

section
variable {m : Vmm} {lo hi : Nat} {p : Perm}

theorem Vmm.mem_reprotected (hlt : lo < hi) (hhi : hi < 2 ^ 64) {q : Segment} :
    q ∈ (m.reprotected lo hi p).segs ↔ ∃ g ∈ m.segs, q.LeftOf g lo hi p := by
  simp only [Vmm.reprotected, List.mem_flatMap, Segment.mem_parts (Nat.lt_trans hlt hhi) hhi]

theorem Vmm.tableWf_reprotected (h : m.tableWf) (hlo : lo % 4096 = 0) (hhi : hi % 4096 = 0) (hlt : lo < hi)
    (hbound : hi < 2 ^ 64) : (m.reprotected lo hi p).tableWf := by
  obtain ⟨hwf, hp⟩ := h
  refine ⟨fun q hq => ?_, List.pairwise_flatMap.2 ⟨fun g _ => g.pairwise_parts p hbound hlt, ?_⟩⟩
  · obtain ⟨g, hg, hleft⟩ := (Vmm.mem_reprotected hlt hbound).1 hq
    exact (hleft.within (hwf g hg) hlo hhi hlt).1
  · refine hp.imp_of_mem fun {g t} hg ht hgt q hq r hr => ?_
    rw [Segment.mem_parts (Nat.lt_trans hlt hbound) hbound] at hq hr
    obtain ⟨-, -, hqstop⟩ := hq.within (hwf g hg) hlo hhi hlt
    obtain ⟨-, hrstart, -⟩ := hr.within (hwf t ht) hlo hhi hlt
    omega

/-- The pages of the range get the permissions, and no other address does (R95). -/
theorem Vmm.lookup_reprotected (h : m.tableWf) (hlo : lo % 4096 = 0) (hhi : hi % 4096 = 0) (hlt : lo < hi)
    (hbound : hi < 2 ^ 64) (hmapped : ∀ x, lo ≤ x → x < hi → ∃ g ∈ m.segs, g.start.toNat ≤ x ∧ x < g.stop.toNat)
    (x : Word) :
    ((m.reprotected lo hi p).lookup x).map Segment.perm
      = if lo ≤ x.toNat ∧ x.toNat < hi then some p else (m.lookup x).map Segment.perm := by
  cases hl : m.lookup x with
  | some g =>
    obtain ⟨hg, hx⟩ := Vmm.lookup_some hl
    obtain ⟨q, hleft, hqx, hperm⟩ := Segment.exists_part p (Nat.lt_trans hlt hbound) hbound
      (Segment.contains_iff.1 hx)
    have hq : (m.reprotected lo hi p).lookup x = some q :=
      (Vmm.lookup_eq_some (Vmm.tableWf_reprotected h hlo hhi hlt hbound)).2
        ⟨(Vmm.mem_reprotected hlt hbound).2 ⟨g, hg, hleft⟩, Segment.contains_iff.2 hqx⟩
    rw [hq, Option.map_some, Option.map_some, hperm]
    split <;> rfl
  | none =>
    have hno := Vmm.lookup_none.1 hl
    have hout : ¬ (lo ≤ x.toNat ∧ x.toNat < hi) := by
      rintro ⟨hlox, hxhi⟩
      obtain ⟨g, hg, hx⟩ := hmapped _ hlox hxhi
      exact hno g hg (Segment.contains_iff.2 hx)
    have hq : (m.reprotected lo hi p).lookup x = none := by
      refine Vmm.lookup_none.2 fun q hq hqx => ?_
      obtain ⟨g, hg, hleft⟩ := (Vmm.mem_reprotected hlt hbound).1 hq
      obtain ⟨-, hstart, hstop⟩ := hleft.within (h.1 g hg) hlo hhi hlt
      rw [Segment.contains_iff] at hqx
      exact hno g hg (Segment.contains_iff.2 (by omega))
    rw [hq, if_neg hout]

end

/-- Settles O54. -/
theorem protectOutcome : Obligations.ProtectOutcome := by
  rintro m a len p lo hi ⟨⟨hwf, hp⟩, -, -⟩ hlo hloa halo hhi hahi hhia
  have hdown : roundDown a.toNat = lo := roundDown_eq_iff.2 ⟨hlo, hloa, halo⟩
  have hup : roundUp (a.toNat + len.toNat) = hi := roundUp_eq_iff.2 ⟨hhi, hahi, hhia⟩
  have hcovered := covered_iff (hi := hi) hwf hp lo
  have hlimit : addressLimit = 2 ^ 64 - 4096 := rfl
  rw [Vmm.protect_eq, hdown, hup]
  refine ⟨fun hzero => if_pos hzero, fun hne hbad => ⟨a, len, ?_⟩, fun hne hle hmapped => ?_⟩
  · rw [if_neg hne, if_pos]
    refine hbad.imp id fun ⟨x, hlox, hxhi, hno⟩ => ?_
    rw [← Bool.not_eq_true, hcovered]
    intro hall
    obtain ⟨g, hg, hx⟩ := hall x hlox hxhi
    exact hno g hg hx
  · have hpos : len.toNat ≠ 0 := fun hzero => hne (BitVec.eq_of_toNat_eq hzero)
    have hlt : lo < hi := by omega
    rw [if_neg hne, if_neg]
    · exact ⟨_, rfl, rfl, Vmm.lookup_reprotected ⟨hwf, hp⟩ hlo hhi hlt (by omega) hmapped,
        fun q => Vmm.mem_reprotected hlt (by omega)⟩
    · rintro (hlast | hgap)
      · omega
      · exact absurd ((hcovered.2 hmapped).symm.trans hgap) nofun

end Sys2Proof.Machine
end

section
/-! SUPPORT. Every command and every event of the block keeps the invariant of the manager (20_memory.md R61, R65,
60_exceptions.md R323): the statement O55. -/

namespace Sys2Proof.Machine

/-! ## Commands (R92 to R96) -/

theorem Vmm.wf_allocateWith {m m' : Vmm} (h : m.wf) {policy : List (Nat × Nat) → Nat → Nat} {fill : Nat → Nat → Byte}
    {size : Word} {name : String} {g : Segment} (ha : m.allocateWith policy fill size name = .ok (g, m')) : m'.wf := by
  rw [Vmm.allocateWith_eq] at ha
  split at ha
  · cases ha
  · rename_i hne
    split at ha
    · cases ha
    · rename_i b hb
      cases ha
      have hfits := Vmm.place_some hb
      have ⟨hb0, _, hfree⟩ := hfits
      obtain ⟨hstart, hstop⟩ := hfits.freshSegment_bounds name
      obtain ⟨hsz, hle, -⟩ := roundUp_eq_iff.1 (rfl : roundUp size.toNat = _)
      have hpos : size.toNat ≠ 0 := fun hzero => hne (BitVec.eq_of_toNat_eq hzero)
      refine Vmm.wf_insert h ⟨?_, ?_, ?_⟩ ?_ _
      · omega
      · rw [hstart]
        exact hb0
      · rw [hstop, Config.pageSize]
        omega
      · rw [hstart, hstop]
        exact hfree

theorem Vmm.wf_map {m m' : Vmm} (h : m.wf) {g : Segment} {data : List Byte} (hm : m.map g data = .ok m') : m'.wf := by
  by_cases hgood : g.wf ∧ m.Free g.start.toNat g.stop.toNat
  · obtain ⟨hg, hfree⟩ := hgood
    rw [Vmm.map_ok hg hfree] at hm
    cases hm
    exact Vmm.wf_insert h hg hfree _
  · rw [Vmm.map_error hgood] at hm
    cases hm

/-- The bytes of the other segments stay listed, those of the dropped one do not. -/
theorem Vmm.wf_dropped {m : Vmm} (h : m.wf) {g : Segment} (hg : g ∈ m.segs) : (m.dropped g).wf := by
  have ⟨htable, hmem, hcov⟩ := h
  have ⟨hwf, hp⟩ := htable
  refine ⟨⟨fun t ht => hwf t (List.mem_of_mem_filter ht), hp.filter _⟩, Memory.wf_erase hmem .., fun c hc => ?_⟩
  obtain ⟨hold, hout⟩ := List.mem_filter.1 hc
  obtain ⟨t, ht, hin⟩ := hcov c hold
  refine ⟨t, (Vmm.mem_dropped htable hg).2 ⟨ht, ?_⟩, hin⟩
  rintro rfl
  simp only [Bool.or_eq_true, decide_eq_true_eq] at hout
  omega

theorem Vmm.wf_unmap {m m' : Vmm} (h : m.wf) {a : Word} (hu : m.unmap a = .ok m') : m'.wf := by
  obtain ⟨herr, -⟩ | ⟨g, hg, -, hok⟩ := m.unmap_eq a
  · rw [herr] at hu
    cases hu
  · rw [hok] at hu
    cases hu
    exact Vmm.wf_dropped h hg

/-- Each byte lies in a part of the segment it lay in. -/
theorem Vmm.wf_reprotected {m : Vmm} (h : m.wf) {lo hi : Nat} {p : Perm} (hlo : lo % 4096 = 0) (hhi : hi % 4096 = 0)
    (hlt : lo < hi) (hbound : hi < 2 ^ 64) : (m.reprotected lo hi p).wf := by
  obtain ⟨htable, hmem, hcov⟩ := h
  refine ⟨Vmm.tableWf_reprotected htable hlo hhi hlt hbound, hmem, fun c hc => ?_⟩
  obtain ⟨g, hg, hin⟩ := hcov c hc
  obtain ⟨q, hleft, hq, -⟩ := Segment.exists_part p (Nat.lt_trans hlt hbound) hbound hin
  exact ⟨q, (Vmm.mem_reprotected hlt hbound).2 ⟨g, hg, hleft⟩, hq⟩

theorem Vmm.wf_protect {m m' : Vmm} (h : m.wf) {a len : Word} {p : Perm} (hp : m.protect a len p = .ok m') :
    m'.wf := by
  rw [Vmm.protect_eq] at hp
  split at hp
  · cases hp
    exact h
  · rename_i hne
    split at hp
    · cases hp
    · rename_i hgood
      cases hp
      have hpos : len.toNat ≠ 0 := fun hzero => hne (BitVec.eq_of_toNat_eq hzero)
      obtain ⟨hlo, hloa, -⟩ := roundDown_eq_iff.1 (rfl : roundDown a.toNat = _)
      obtain ⟨hhi, hhia, -⟩ := roundUp_eq_iff.1 (rfl : roundUp (a.toNat + len.toNat) = _)
      have hlimit : addressLimit = 2 ^ 64 - 4096 := rfl
      obtain ⟨hle, -⟩ := not_or.1 hgood
      exact Vmm.wf_reprotected h hlo hhi (by omega) (by omega)

theorem Vmm.wf_command {m m' : Vmm} (h : m.wf) {x : Command} {g : Option Segment} (hx : m.command x = .ok (g, m')) :
    m'.wf := by
  cases x with
  | allocate size name =>
    rw [Vmm.command] at hx
    split at hx <;> cases hx
    exact Vmm.wf_allocateWith h ‹_›
  | map g data =>
    rw [Vmm.command] at hx
    split at hx <;> cases hx
    exact Vmm.wf_map h ‹_›
  | unmap a =>
    rw [Vmm.command] at hx
    split at hx <;> cases hx
    exact Vmm.wf_unmap h ‹_›
  | protect a len p =>
    rw [Vmm.command] at hx
    split at hx <;> cases hx
    exact Vmm.wf_protect h ‹_›

/-! ## Events (R323) -/

theorem Block.wf_access {b : Block} (h : b.vmm.wf) (k : Nat) : (b.access k).1.vmm.wf := by
  unfold Block.access
  split
  · exact h
  · rename_i q _
    rw [Block.turn_vmm]
    obtain hsame | ⟨a, n, v, hp, hstored⟩ := Stage.next_vmm q.ctx b.vmm (q.stage.getD (.fetch []))
    · rwa [hsame]
    · rw [hstored]
      exact Vmm.wf_stored h hp

/-- An event changes the manager by an access, a command or a store of the memory data interface, or not at all. -/
theorem Block.wf_on {b : Block} (h : b.vmm.wf) (e : Event) : (b.on e).1.vmm.wf := by
  cases e with
  | access k => exact Block.wf_access h k
  | command x =>
    simp only [Block.on]
    split
    · exact h
    · rename_i hx
      exact Vmm.wf_command h hx
    · rename_i hx
      exact Vmm.wf_command h hx
  | read a n => simp only [Block.on]; split <;> exact h
  | write a n v =>
    simp only [Block.on]
    split
    · exact h
    · rename_i hw
      obtain ⟨hp, rfl⟩ := Vmm.memWrite_stored hw
      exact Vmm.wf_stored h hp
  | registers k c => simp only [Block.on]; split <;> exact h
  | snapshot k => simp only [Block.on]; split <;> exact h
  | create => exact h

/-- Settles O55. -/
theorem commandsKeepInvariant : Obligations.CommandsKeepInvariant :=
  ⟨fun _ h => ⟨fun _ _ _ _ _ _ => Vmm.wf_allocateWith h, fun _ _ _ => Vmm.wf_map h, fun _ _ => Vmm.wf_unmap h,
    fun _ _ _ _ => Vmm.wf_protect h⟩, fun _ e h => Block.wf_on h e⟩

end Sys2Proof.Machine
end

section
/-! SUPPORT. Read-modify-write in two accesses (20_memory.md R102, 70_reset_and_hazards.md R335): ADD, SUB, INC and DEC
on memory read, and then store a function of the value read; the statement O60. -/

namespace Sys2Proof.Machine

/-! ## The rows of ADD, SUB, INC and DEC

The case split is over all rows; in those that have not the form, the hypothesis has no case. -/

theorem actOf_addForm {i : Instr} {p : Pfx} {w : Width} {d : RM} {src : Source w}
    (h : i.addForm = some ⟨p, w, d, src⟩) (c : Context) : actOf i c = c.aluStore i p .add w d src := by
  cases i <;> cases h <;> rfl

theorem actOf_subForm {i : Instr} {p : Pfx} {w : Width} {d : RM} {src : Source w}
    (h : i.subForm = some ⟨p, w, d, src⟩) (c : Context) : actOf i c = c.aluStore i p .sub w d src := by
  cases i <;> cases h <;> rfl

theorem actOf_incForm {i : Instr} {p : Pfx} {w : Width} {d : RM} (h : i.incForm = some (p, w, d)) (c : Context) :
    actOf i c = c.aluStep i p .add w d := by
  cases i <;> cases h <;> rfl

theorem actOf_decForm {i : Instr} {p : Pfx} {w : Width} {d : RM} (h : i.decForm = some (p, w, d)) (c : Context) :
    actOf i c = c.aluStep i p .sub w d := by
  cases i <;> cases h <;> rfl

/-- The source is no memory operand: reading it is no access. -/
def Source.AccessFree {w : Width} (src : Source w) : Prop := (∃ v, src = .imm v) ∨ ∃ r, src = .rm (.reg r)

/-- Of the two operands at most one is in memory (30_encoding.md R147). -/
theorem addForm_accessFree {i : Instr} {p : Pfx} {w : Width} {m : MemOp} {src : Source w}
    (h : i.addForm = some ⟨p, w, .mem m, src⟩) : src.AccessFree := by
  cases i <;> cases h <;> simp [Source.AccessFree]

theorem subForm_accessFree {i : Instr} {p : Pfx} {w : Width} {m : MemOp} {src : Source w}
    (h : i.subForm = some ⟨p, w, .mem m, src⟩) : src.AccessFree := by
  cases i <;> cases h <;> simp [Source.AccessFree]

theorem Source.AccessFree.rdSource {w : Width} {src : Source w} (h : src.AccessFree) (s : State) (i : Instr) (p : Pfx)
    (rest : BitVec w.bits → Act) : s.ctx.rdSource i w p src rest = rest (s.sourceValue i p src) := by
  obtain ⟨v, rfl⟩ | ⟨r, rfl⟩ := h
  · rfl
  · rfl

theorem Context.bind_mem {c : Context} {i : Instr} {p : Pfx} {d : RM} {ea : Word} (h : c.bind i p d = .mem ea) :
    ∃ m, d = .mem m := by
  cases d with
  | reg n => cases h
  | mem m => exact ⟨m, rfl⟩

/-! ## The two accesses -/

/-- The accesses of a read-modify-write: read `a` at `ea`, store `result a` there, and advance with `flags a`. -/
def Context.readModifyWrite (c : Context) (i : Instr) (w : Width) (ea : Word) (result : BitVec w.bits → BitVec w.bits)
    (flags : BitVec w.bits → Flags) : Act :=
  .read ea w.bytes fun a => .write ea w.bytes (result a) (.done ((c.setFlags (flags a)).setPc (c.npc i)))

theorem Context.aluStore_mem {s : State} {i : Instr} {p : Pfx} {op : AluOp} {w : Width} {d : RM} {src : Source w}
    {ea : Word} (hd : s.ctx.bind i p d = .mem ea) (hsrc : src.AccessFree) :
    s.ctx.aluStore i p op w d src = s.ctx.readModifyWrite i w ea (fun a => op.result a (s.sourceValue i p src))
      fun a => op.flags a (s.sourceValue i p src) s.ctx.flags := by
  simp only [Context.aluStore, hsrc.rdSource s, hd]
  rfl

theorem Context.aluStep_mem {c : Context} {i : Instr} {p : Pfx} {op : AluOp} {w : Width} {d : RM} {ea : Word}
    (hd : c.bind i p d = .mem ea) :
    c.aluStep i p op w d = c.readModifyWrite i w ea (fun a => op.result a 1) fun a => op.flagsKeepCarry a c.flags := by
  simp only [Context.aluStep, hd]
  rfl

section
variable {c : Context} {i : Instr} {w : Width} {ea : Word} {result : BitVec w.bits → BitVec w.bits}
  {flags : BitVec w.bits → Flags} {b : Block} {k : Nat}

/-- The context has read `a` and is about to store. -/
def Cpu.paused (c : Context) (i : Instr) {w : Width} (a : BitVec w.bits) : Cpu :=
  ⟨c, some (.execute i [.value (a.setWidth 128)])⟩

/-- After the read of `a`, the store of `result a` is what is left. -/
theorem Act.resume_readModifyWrite (h : actOf i c = c.readModifyWrite i w ea result flags) (a : BitVec w.bits)
    (more : List Answer) :
    (actOf i c).resume (.value (a.setWidth 128) :: more)
      = (Act.write ea w.bytes (result a) (.done ((c.setFlags (flags a)).setPc (c.npc i)))).resume more := by
  have hwidth : 8 * w.bytes ≤ 128 := Nat.mul_le_mul_left 8 (width_bytes_le w)
  have ha : (a.setWidth 128).setWidth (8 * w.bytes) = a := by
    rw [BitVec.setWidth_setWidth_of_le _ hwidth]
    exact BitVec.setWidth_eq a
  rw [h, Context.readModifyWrite, Act.resume, ha]

/-- The first access reads, and changes nothing else. -/
theorem Block.access_read (h : actOf i c = c.readModifyWrite i w ea result flags)
    (hk : b.cpus[k]? = some ⟨c, some (.execute i [])⟩) (hp : b.vmm.permits ea w.bytes .read = true) :
    b.access k = ({ b with cpus := b.cpus.set k (.paused c i (w := w) ((b.seenBy c).bytesAt ea w.bytes)) },
      .done) := by
  have hread : b.vmm.memRead ea w.bytes = .ok ((b.seenBy c).bytesAt ea w.bytes) :=
    State.memRead_permitted (s := b.seenBy c) hp
  have hleft := Act.resume_readModifyWrite h ((b.seenBy c).bytesAt ea w.bytes) []
  have hfirst : (actOf i c).resume [] = c.readModifyWrite i w ea result flags := by
    rw [h]
    rfl
  simp only [Block.access, hk, Option.getD_some, Stage.next, hfirst, Context.readModifyWrite, hread, settle,
    List.nil_append]
  rw [hleft]
  rfl

/-- The second access stores where the table of its moment permits it, and advances. -/
theorem Block.access_store (h : actOf i c = c.readModifyWrite i w ea result flags) {a : BitVec w.bits}
    (hk : b.cpus[k]? = some (.paused c i a)) (hp : b.vmm.permits ea w.bytes .write = true) :
    b.access k = ({ vmm := b.vmm.stored ea w.bytes (result a),
                    cpus := b.cpus.set k ⟨(c.setFlags (flags a)).setPc (c.npc i), none⟩ }, .advanced) := by
  have hwrite : b.vmm.memWrite ea w.bytes (result a) = .ok (b.vmm.stored ea w.bytes (result a)) := by
    rw [Vmm.memWrite_permits, hp]
    rfl
  have hleft := Act.resume_readModifyWrite h a []
  have hdone := Act.resume_readModifyWrite h a [.stored]
  simp only [Act.resume] at hleft hdone
  simp only [Block.access, hk, Cpu.paused, Option.getD_some, Stage.next, hleft, hwrite, settle, List.singleton_append,
    hdone, Block.turn]

/-- Where that table does not permit the store, the step ends with its fault and nothing changes. -/
theorem Block.access_store_denied (h : actOf i c = c.readModifyWrite i w ea result flags) {a : BitVec w.bits}
    (hk : b.cpus[k]? = some (.paused c i a)) (hp : b.vmm.permits ea w.bytes .write = false) :
    b.access k = ({ b with cpus := b.cpus.set k ⟨c, none⟩ }, .fault (b.vmm.denied ea w.bytes .write)) := by
  have hwrite : b.vmm.memWrite ea w.bytes (result a) = .error (b.vmm.denied ea w.bytes .write) := by
    rw [Vmm.memWrite_permits, hp]
    rfl
  have hleft := Act.resume_readModifyWrite h a []
  simp only [Act.resume] at hleft
  simp only [Block.access, hk, Cpu.paused, Option.getD_some, Stage.next, hleft, hwrite, Block.turn]

end

/-- Settles O60: each of the four forms is a read-modify-write, whose two accesses are `Block.access_read` and
`Block.access_store`. -/
theorem readThenWrite : Obligations.ReadThenWrite := by
  intro b b' k c i p w d ea r fl hk hd hread a hform
  have hrmw : ∃ result flags, actOf i c = c.readModifyWrite i w ea result flags ∧ result a = r ∧ flags a = fl := by
    obtain ⟨m, rfl⟩ := Context.bind_mem hd
    obtain ⟨src, hi, rfl, rfl⟩ | ⟨src, hi, rfl, rfl⟩ | ⟨hi, rfl, rfl⟩ | ⟨hi, rfl, rfl⟩ := hform
    · exact ⟨_, _, (actOf_addForm hi c).trans (Context.aluStore_mem (s := b.seenBy c) hd (addForm_accessFree hi)),
        rfl, rfl⟩
    · exact ⟨_, _, (actOf_subForm hi c).trans (Context.aluStore_mem (s := b.seenBy c) hd (subForm_accessFree hi)),
        rfl, rfl⟩
    · exact ⟨_, _, (actOf_incForm hi c).trans (Context.aluStep_mem hd), rfl, rfl⟩
    · exact ⟨_, _, (actOf_decForm hi c).trans (Context.aluStep_mem hd), rfl, rfl⟩
  obtain ⟨result, flags, hact, rfl, rfl⟩ := hrmw
  refine ⟨Block.access_read hact hk hread, fun hk' => ⟨fun hw => ?_, fun hw => Block.access_store_denied hact hk' hw⟩⟩
  exact ⟨_, Block.access_store hact hk' hw, rfl, rfl, State.storedAt_stored (s := b'.seenBy c) _ hw⟩

end Sys2Proof.Machine
end

section
/-! SUPPORT. The rows of the opcode table and the layouts of the encoder (30_encoding.md R147, R150 to R153): each row's
constructor is laid out as the row says, every instruction is of some row, and an opcode with its ModRM byte chooses at
most one row. -/

namespace Sys2Proof

/-! ## What a row stands for -/

/-- The instructions of a row's body under prefixes `p`, each with what stands after its opcode, its immediate, and
whether its operands have an encoding. `k` is the row's `/digit`. -/
inductive Body.Form (k : BitVec 3) (p : Pfx) : Body → Instr → Tail → List Byte → Bool → Prop
  | modrm (mk : Pfx → Reg → RM → Instr) (r : Reg) (x : RM) :
    Form k p (.modrm mk) (mk p r x) (.regRm r x) [] (p.reaches r && x.wf p)
  | rm (mk : Pfx → RM → Instr) (x : RM) : Form k p (.rm mk) (mk p x) (.digitRm k x) [] (x.wf p)
  | rmI8 (mk : Pfx → RM → BitVec 8 → Instr) (x : RM) (v : BitVec 8) :
    Form k p (.rmI8 mk) (mk p x v) (.digitRm k x) [v] (x.wf p)
  | rmIz (mk : Pfx → RM → Iz → Instr) (x : RM) (v : Iz) :
    Form k p (.rmIz mk) (mk p x v) (.digitRm k x) v.bytes (x.wf p && v.fits p)
  | vmi (mk : Pfx → Reg → BitVec 8 → Instr) (r : Reg) (v : BitVec 8) :
    Form k p (.vmi mk) (mk p r v) (.digitRm k (.reg r)) [v] (p.reaches r)
  | i8 (mk : Pfx → BitVec 8 → Instr) (v : BitVec 8) : Form k p (.i8 mk) (mk p v) .plain [v] true
  | iz (mk : Pfx → Iz → Instr) (v : Iz) : Form k p (.iz mk) (mk p v) .plain v.bytes (v.fits p)
  | i32 (mk : Pfx → BitVec 32 → Instr) (v : BitVec 32) : Form k p (.i32 mk) (mk p v) .plain (le32 v) true
  | opI8 (mk : Pfx → Reg → BitVec 8 → Instr) (r : Reg) (v : BitVec 8) :
    Form k p (.opI8 mk) (mk p r v) (.inOpcode r) [v] (p.reaches r)
  | opIv (mk : Pfx → Reg → Iv → Instr) (r : Reg) (v : Iv) :
    Form k p (.opIv mk) (mk p r v) (.inOpcode r) v.bytes (p.reaches r && v.fits p)
  | none (mk : Pfx → Instr) : Form k p (.none mk) (mk p) .plain [] true

/-- The mandatory `F3` or `F2` of a class (R116). -/
def Cls.rep : Cls → Option Rep
  | .f3 => some .f3
  | .f2 => some .f2
  | _ => Option.none

/-- The legacy bytes of an instruction of class `c` with prefixes `p`. -/
def Cls.legacy (c : Cls) (p : Pfx) : Legacy := ⟨p.opsize, p.seg, c.rep⟩

/-- The opcode bytes of a map and an opcode (R123). -/
def opcodeBytes (map2 : Bool) (op : Byte) : List Byte := if map2 then [0x0F, op] else [op]

/-- The prefixes that a row takes (R116, R135). -/
def Row.allows (row : Row) (p : Pfx) : Bool := row.cls.admits (row.cls.legacy p) && !(row.no66 && p.opsize)

/-- The `/digit` of a row, 0 where it has none. -/
def Row.digitBits (row : Row) : BitVec 3 := row.digit.getD 0

/-- An instruction of a row, laid out as the row says, under the conditions that the row sets. -/
def Row.LaysOut (row : Row) (p : Pfx) (i : Instr) (t : Tail) (imm : List Byte) (ok : Bool) : Prop :=
  i.layout = { pfx := p, rep := row.cls.rep, opcode := opcodeBytes row.map2 row.op, tail := t, imm := imm } ∧
    i.wf = (row.allows p && ok)

/-- The table and the encoder agree, row by row. -/
theorem form_laysOut : ∀ row ∈ opcodeTable, ∀ p i t imm ok, row.body.Form row.digitBits p i t imm ok →
    row.LaysOut p i t imm ok := by
  simp only [opcodeTable, tableArith, tableMove, tableJump8, tableJump32, tableVector, List.forall_mem_append,
    List.forall_mem_cons, List.not_mem_nil, false_imp_iff, implies_true, and_true]
  and_intros
  all_goals
    rintro p i t imm ok ⟨⟩
    exact ⟨rfl, by simp [Instr.wf, Row.allows, Cls.admits, Cls.legacy, Cls.rep, Pfx.no66, Pfx.has66, Bool.and_assoc,
      Bool.and_comm, Bool.and_left_comm]⟩

/-- Every instruction is of a row: the constructors stand in the order of the table. -/
theorem instr_form (i : Instr) : ∃ row, opcodeTable[i.ctorIdx]? = some row ∧
    ∃ p t imm ok, row.body.Form row.digitBits p i t imm ok := by
  cases i <;> exact ⟨_, rfl, _, _, _, _, by constructor⟩

/-! ## Facts of the table -/

/-- Does the body begin with a ModRM byte whose reg field is a `/digit` (R152)? -/
def Body.hasDigit : Body → Bool
  | .rm _ => true
  | .rmI8 _ => true
  | .rmIz _ => true
  | .vmi _ => true
  | _ => false

/-- Does the opcode hold a register in its low three bits (R153)? -/
def Body.regInOpcode : Body → Bool
  | .opI8 _ => true
  | .opIv _ => true
  | _ => false

/-- Does nothing follow the opcode? -/
def Body.isNone : Body → Bool
  | .none _ => true
  | _ => false

theorem digit_isSome_iff : ∀ row ∈ opcodeTable, row.digit.isSome = row.body.hasDigit := by decide

theorem opMask_eq : ∀ row ∈ opcodeTable, row.opMask = if row.body.regInOpcode then 0xF8 else 0xFF := by decide

theorem map2_regInOpcode : ∀ row ∈ opcodeTable, row.map2 = true → row.body.regInOpcode = false := by decide

theorem op_low_clear : ∀ row ∈ opcodeTable, row.body.regInOpcode = true → row.op &&& 0xF8 = row.op := by decide

theorem noB_isNone : ∀ row ∈ opcodeTable, row.noB = true → row.body.isNone = true := by decide

theorem map1_cls : ∀ row ∈ opcodeTable, row.map2 = false → row.cls = .any := by decide

theorem map2_cls : ∀ row ∈ opcodeTable, row.map2 = true → row.cls ≠ .any := by decide

theorem regInOpcode_op : ∀ row ∈ opcodeTable, row.body.regInOpcode = true → row.op ∈ [0xB0, 0xB8] := by decide

/-- Where no register stands in the opcode byte, it is the row's own. -/
theorem row_op_eq {row : Row} {op : Byte} (hr : row ∈ opcodeTable) (hop : row.op = op &&& row.opMask)
    (h : row.map2 = true ∨ op &&& 0xF8 ∉ [0xB0, 0xB8]) : row.op = op := by
  cases hreg : row.body.regInOpcode with
  | false =>
    rw [hop, opMask_eq row hr, hreg]
    exact BitVec.and_allOnes
  | true =>
    rw [opMask_eq row hr, hreg, if_pos rfl] at hop
    obtain hmap | hop' := h
    · simp [map2_regInOpcode row hr hmap] at hreg
    · exact absurd (hop ▸ regInOpcode_op row hr hreg) hop'

/-- A byte that a row of map 1 hits is one of its opcodes (R150). -/
theorem map1_op_mem {row : Row} {op : Byte} (hr : row ∈ opcodeTable) (hmap : row.map2 = false)
    (hop : row.op = op &&& row.opMask) : op ∈ mapOneOpcodes := by
  have hmem : ∀ row ∈ opcodeTable, row.map2 = false → row.op ∈ mapOneOpcodes := by decide
  have hreg : ∀ op : Byte, op &&& 0xF8 ∈ [0xB0, 0xB8] → op ∈ mapOneOpcodes := by decide
  by_cases h : op &&& 0xF8 ∈ [0xB0, 0xB8]
  · exact hreg op h
  · exact row_op_eq hr hop (.inr h) ▸ hmem row hr hmap

/-- Two rows that some map, opcode and class have in common. -/
def Row.meets (row row' : Row) : Bool :=
  row.map2 == row'.map2 && row.op &&& row'.opMask == row'.op &&& row.opMask && row.cls == row'.cls

/-- Such rows are rows of one group, with different `/digit`s (R152). -/
theorem table_apart : opcodeTable.Pairwise fun row row' => row.meets row' = true →
    row.digit.isSome = true ∧ row'.digit.isSome = true ∧ row.digit ≠ row'.digit := by
  decide

/-! ## The row chosen (R116, R152, R153) -/

theorem Row.hits_iff {map2 : Bool} {op : Byte} {l : Legacy} {row : Row} :
    row.hits map2 op l = true ↔ row.map2 = map2 ∧ row.op = op &&& row.opMask ∧ row.cls.admits l = true := by
  simp [Row.hits, and_assoc]

theorem Cls.admits_inj {c c' : Cls} {l : Legacy} (h : c.admits l = true) (h' : c'.admits l = true)
    (hc : c ≠ .any) (hc' : c' ≠ .any) : c = c' := by
  obtain ⟨opsize, seg, rep⟩ := l
  cases c <;> cases c' <;> simp_all [Cls.admits]

theorem Row.meets_of_hits {row row' : Row} {map2 : Bool} {op : Byte} {l : Legacy} (hr : row ∈ opcodeTable)
    (hr' : row' ∈ opcodeTable) (h : row.hits map2 op l = true) (h' : row'.hits map2 op l = true) :
    row.meets row' = true := by
  obtain ⟨hmap, hop, hcls⟩ := Row.hits_iff.1 h
  obtain ⟨hmap', hop', hcls'⟩ := Row.hits_iff.1 h'
  have hsame : row.cls = row'.cls := by
    cases map2 with
    | false => rw [map1_cls row hr hmap, map1_cls row' hr' hmap']
    | true => exact Cls.admits_inj hcls hcls' (map2_cls row hr hmap) (map2_cls row' hr' hmap')
  have hops : row.op &&& row'.opMask = row'.op &&& row.opMask := by
    rw [hop, hop', BitVec.and_assoc, BitVec.and_assoc, BitVec.and_comm row.opMask]
  simp [Row.meets, hmap, hmap', hops, hsame]

/-- The same row, or two rows of one group. -/
def Row.SameOrGroup (row row' : Row) : Prop :=
  row = row' ∨ row.digit.isSome = true ∧ row'.digit.isSome = true ∧ row.digit ≠ row'.digit

theorem Row.SameOrGroup.symm {row row' : Row} (h : row.SameOrGroup row') : row'.SameOrGroup row :=
  h.imp Eq.symm fun ⟨hd, hd', hne⟩ => ⟨hd', hd, hne.symm⟩

/-- So it is with two rows that one map, opcode and legacy bytes hit. -/
theorem Row.sameOrGroup_of_hits {row row' : Row} {map2 : Bool} {op : Byte} {l : Legacy} (hr : row ∈ opcodeTable)
    (hr' : row' ∈ opcodeTable) (h : row.hits map2 op l = true) (h' : row'.hits map2 op l = true) :
    row.SameOrGroup row' := by
  have hpair : opcodeTable.Pairwise fun row row' =>
      row.meets row' = true ∧ row'.meets row = true → row.SameOrGroup row' :=
    table_apart.imp fun hap hm => .inr (hap hm.1)
  have hflip := hpair.imp fun {row row'} hap (hm : row'.meets row = true ∧ row.meets row' = true) =>
    (hap hm.symm).symm
  exact hpair.forall_of_forall_of_flip (fun _ _ _ => .inl rfl) hflip hr hr'
    ⟨meets_of_hits hr hr' h h', meets_of_hits hr' hr h' h⟩

theorem Row.mem_filter {row : Row} {map2 : Bool} {op : Byte} {l : Legacy} :
    row ∈ opcodeTable.filter (Row.hits map2 op l) ↔ row ∈ opcodeTable ∧ row.hits map2 op l = true :=
  List.mem_filter

/-- A row that is not of a group is chosen by the opcode alone. -/
theorem takeRow_plain {row : Row} {map2 : Bool} {op : Byte} {l : Legacy} (hr : row ∈ opcodeTable)
    (h : row.hits map2 op l = true) (hd : row.digit = none) (p : Pfx) (rx : Rex) (bs : List Byte) :
    takeRow (opcodeTable.filter (Row.hits map2 op l)) p rx op bs = row.take p rx op none bs := by
  have hmem := Row.mem_filter.2 ⟨hr, h⟩
  cases hf : opcodeTable.filter (Row.hits map2 op l) with
  | nil => rw [hf] at hmem; cases hmem
  | cons first rows =>
    obtain ⟨hr', h'⟩ := Row.mem_filter.1 (hf ▸ List.mem_cons_self)
    obtain rfl | ⟨hsome, -, -⟩ := Row.sameOrGroup_of_hits hr hr' h h'
    · simp [takeRow, hd]
    · simp [hd] at hsome

theorem digit_of_hitsDigit {row : Row} {m : Byte} (h : row.hitsDigit m = true) : row.digit = some (midOf m) := by
  simp only [Row.hitsDigit, Bool.and_eq_true, beq_iff_eq] at h
  exact h.1

/-- A row of a group is chosen by the ModRM byte after the opcode. -/
theorem takeRow_group {row : Row} {map2 : Bool} {op m : Byte} {l : Legacy} (hr : row ∈ opcodeTable)
    (h : row.hits map2 op l = true) (hm : row.hitsDigit m = true) (p : Pfx) (rx : Rex) (bs : List Byte) :
    takeRow (opcodeTable.filter (Row.hits map2 op l)) p rx op (m :: bs) = row.take p rx op (some m) bs := by
  have hmem := Row.mem_filter.2 ⟨hr, h⟩
  have hd := digit_of_hitsDigit hm
  have hfind : (opcodeTable.filter (Row.hits map2 op l)).find? (Row.hitsDigit m) = some row := by
    cases hfind : (opcodeTable.filter (Row.hits map2 op l)).find? (Row.hitsDigit m) with
    | none => exact absurd hm (List.find?_eq_none.1 hfind row hmem)
    | some found =>
      obtain ⟨hr', h'⟩ := Row.mem_filter.1 (List.mem_of_find?_eq_some hfind)
      obtain rfl | ⟨-, -, hne⟩ := Row.sameOrGroup_of_hits hr hr' h h'
      · rfl
      · exact absurd (hd.trans (digit_of_hitsDigit (List.find?_some hfind)).symm) hne
  cases hf : opcodeTable.filter (Row.hits map2 op l) with
  | nil => rw [hf] at hmem; cases hmem
  | cons first rows =>
    obtain ⟨hr', h'⟩ := Row.mem_filter.1 (hf ▸ List.mem_cons_self)
    have hsome : first.digit.isSome = true := by
      obtain rfl | ⟨-, hsome, -⟩ := Row.sameOrGroup_of_hits hr hr' h h'
      · rw [hd]; rfl
      · exact hsome
    rw [hf] at hfind
    rw [takeRow, if_pos hsome, take8, Dec.bind_ok, hfind]

end Sys2Proof
end

section
/-! SUPPORT. The prefixes (30_encoding.md R111 to R121): the legacy bytes as marks that each may stand once, the REX
byte, and what is left of `decode` after them. -/

namespace Sys2Proof

/-! ## Legacy bytes as marks (R112, R113) -/

/-- What one legacy byte stands for. -/
inductive Mark
  | opsize
  | seg (g : Seg)
  | rep (r : Rep)

/-- The byte of a mark. -/
def Mark.byte : Mark → Byte
  | .opsize => 0x66
  | .seg g => g.byte
  | .rep r => r.byte

/-- The mark of a byte, if it is a legacy byte that may stand. -/
def markOf (b : Byte) : Option Mark :=
  if b = 0x66 then some .opsize
  else match segOf b with
    | some g => some (.seg g)
    | none => (repOf b).map .rep

/-- Record a mark, once for each kind. -/
def Legacy.mark (l : Legacy) : Mark → Option Legacy
  | .opsize => if l.opsize then none else some { l with opsize := true }
  | .seg g => if l.seg.isSome then none else some { l with seg := some g }
  | .rep r => if l.rep.isSome then none else some { l with rep := some r }

/-- Record marks in order. -/
def Legacy.marks (l : Legacy) : List Mark → Option Legacy
  | [] => some l
  | k :: ks => (l.mark k).bind fun l' => l'.marks ks

/-- No legacy byte seen. -/
def Legacy.start : Legacy := ⟨false, none, none⟩

theorem markOf_byte (k : Mark) : markOf k.byte = some k := by
  cases k with
  | opsize => rfl
  | seg g => cases g <;> rfl
  | rep r => cases r <;> rfl

theorem segOf_eq_some {b : Byte} {g : Seg} (h : segOf b = some g) : b = g.byte := by
  unfold segOf at h
  split_ifs at h <;> cases h <;> assumption

theorem repOf_eq_some {b : Byte} {r : Rep} (h : repOf b = some r) : b = r.byte := by
  unfold repOf at h
  split_ifs at h <;> cases h <;> assumption

theorem markOf_eq_some {b : Byte} {k : Mark} (h : markOf b = some k) : b = k.byte := by
  unfold markOf at h
  split at h
  · cases h; assumption
  · split at h
    · cases h; exact segOf_eq_some ‹_›
    · obtain ⟨r, hr, rfl⟩ := Option.map_eq_some_iff.1 h
      exact repOf_eq_some hr

theorem isLegacy_eq (b : Byte) : isLegacy b = ((markOf b).isSome || refusedLegacy b) := by
  unfold isLegacy markOf
  by_cases h66 : b = 0x66
  · simp [h66]
  · rw [if_neg h66, beq_false_of_ne h66]
    cases segOf b <;> simp

/-- One byte of `takeLegacy`. -/
theorem takeLegacy_cons (l : Legacy) (b : Byte) (bs : List Byte) : takeLegacy l (b :: bs) =
    match markOf b with
    | some k => match l.mark k with
      | some l' => takeLegacy l' bs
      | none => .bad bs
    | none => if refusedLegacy b then .bad bs else .ok (l, b) bs := by
  rw [takeLegacy, markOf]
  by_cases h66 : b = 0x66
  · rw [if_pos h66, if_pos h66]
    by_cases ho : l.opsize = true <;> simp [ho, Legacy.mark]
  · rw [if_neg h66, if_neg h66]
    cases segOf b with
    | some g => by_cases ho : l.seg.isSome = true <;> simp [ho, Legacy.mark]
    | none =>
      cases repOf b with
      | some r => by_cases ho : l.rep.isSome = true <;> simp [ho, Legacy.mark]
      | none => rfl

theorem takeLegacy_mark {l l' : Legacy} {k : Mark} (h : l.mark k = some l') (bs : List Byte) :
    takeLegacy l (k.byte :: bs) = takeLegacy l' bs := by
  simp only [takeLegacy_cons, markOf_byte, h]

theorem takeLegacy_mark_none {l : Legacy} {k : Mark} (h : l.mark k = none) (bs : List Byte) :
    takeLegacy l (k.byte :: bs) = .bad bs := by
  simp only [takeLegacy_cons, markOf_byte, h]

/-- The first byte that is no legacy byte ends them. -/
theorem takeLegacy_end (l : Legacy) {b : Byte} (h : isLegacy b = false) (bs : List Byte) :
    takeLegacy l (b :: bs) = .ok (l, b) bs := by
  rw [isLegacy_eq, Bool.or_eq_false_iff, Option.isSome_eq_false_iff, Option.isNone_iff_eq_none] at h
  simp [takeLegacy_cons, h.1, h.2]

theorem takeLegacy_marks {l l' : Legacy} {ks : List Mark} (h : l.marks ks = some l') (bs : List Byte) :
    takeLegacy l (ks.map Mark.byte ++ bs) = takeLegacy l' bs := by
  induction ks generalizing l with
  | nil => cases h; rfl
  | cons k ks ih =>
    obtain ⟨l₁, h₁, h₂⟩ := Option.bind_eq_some_iff.1 h
    rw [List.map_cons, List.cons_append, takeLegacy_mark h₁, ih h₂]

theorem takeLegacy_marks_none {l : Legacy} {ks : List Mark} (h : l.marks ks = none) (bs : List Byte) :
    ∃ rest, takeLegacy l (ks.map Mark.byte ++ bs) = .bad rest := by
  induction ks generalizing l with
  | nil => cases h
  | cons k ks ih =>
    rw [List.map_cons, List.cons_append]
    cases h₁ : l.mark k with
    | none => exact ⟨_, takeLegacy_mark_none h₁ _⟩
    | some l₁ =>
      rw [takeLegacy_mark h₁]
      exact ih (by simpa [Legacy.marks, h₁] using h)

/-- What `takeLegacy` answers, it answers after marks that it could record and a byte that is no legacy byte. -/
theorem takeLegacy_ok {l l' : Legacy} {b : Byte} {bs rest : List Byte} (h : takeLegacy l bs = .ok (l', b) rest) :
    ∃ ks : List Mark, bs = ks.map Mark.byte ++ b :: rest ∧ l.marks ks = some l' ∧ isLegacy b = false := by
  induction bs generalizing l with
  | nil => cases h
  | cons c bs ih =>
    rw [takeLegacy_cons] at h
    cases hk : markOf c with
    | some k =>
      simp only [hk] at h
      cases hl : l.mark k with
      | none => simp [hl] at h
      | some l₁ =>
        simp only [hl] at h
        obtain ⟨ks, rfl, hks, hb⟩ := ih h
        exact ⟨k :: ks, by rw [markOf_eq_some hk]; rfl, by simp [Legacy.marks, hl, hks], hb⟩
    | none =>
      simp only [hk] at h
      split at h
      · cases h
      · cases h
        exact ⟨[], rfl, rfl, by simp_all [isLegacy_eq]⟩

/-! ## What the marks leave (R113) -/

/-- The legacy bytes seen are those of `l` and of the marks. -/
theorem Legacy.mark_iff {l l' : Legacy} {k : Mark} (h : l.mark k = some l') :
    (l'.opsize = true ↔ k = .opsize ∨ l.opsize = true) ∧ (∀ g, l'.seg = some g ↔ k = .seg g ∨ l.seg = some g) ∧
      ∀ r, l'.rep = some r ↔ k = .rep r ∨ l.rep = some r := by
  cases k with
  | opsize => simp only [Legacy.mark] at h; split at h <;> cases h; simp
  | seg g => simp only [Legacy.mark] at h; split at h <;> cases h; simp_all
  | rep r => simp only [Legacy.mark] at h; split at h <;> cases h; simp_all

theorem Legacy.marks_iff {l l' : Legacy} {ks : List Mark} (h : l.marks ks = some l') :
    (l'.opsize = true ↔ .opsize ∈ ks ∨ l.opsize = true) ∧ (∀ g, l'.seg = some g ↔ .seg g ∈ ks ∨ l.seg = some g) ∧
      ∀ r, l'.rep = some r ↔ .rep r ∈ ks ∨ l.rep = some r := by
  induction ks generalizing l with
  | nil => cases h; simp
  | cons k ks ih =>
    obtain ⟨l₁, h₁, h₂⟩ := Option.bind_eq_some_iff.1 h
    obtain ⟨ho, hs, hr⟩ := Legacy.mark_iff h₁
    obtain ⟨ho', hs', hr'⟩ := ih h₂
    simp only [ho', hs', hr', ho, hs, hr, List.mem_cons, eq_comm (a := k)]
    exact ⟨by tauto, fun g => by tauto, fun r => by tauto⟩

/-- Two marks are recorded in either order: what `mark` answers is decided by which fields are there already. -/
theorem Legacy.mark_comm (l : Legacy) (j k : Mark) :
    ((l.mark j).bind fun l' => l'.mark k) = (l.mark k).bind fun l' => l'.mark j := by
  obtain ⟨opsize, seg, rep⟩ := l
  cases opsize <;> cases seg <;> cases rep <;> cases j <;> cases k <;> rfl

/-- The order of the marks does not matter. -/
theorem Legacy.marks_perm {ks ks' : List Mark} (h : ks.Perm ks') (l : Legacy) : l.marks ks = l.marks ks' := by
  induction h generalizing l with
  | nil => rfl
  | cons k _ ih => exact congrArg (Option.bind (l.mark k)) (funext ih)
  | swap j k ks =>
    have hcomm := congrArg (fun o => Option.bind o fun l' => l'.marks ks) (l.mark_comm j k)
    simpa [Legacy.marks, Option.bind_assoc] using hcomm.symm
  | trans _ _ ih ih' => exact (ih l).trans (ih' l)

/-! ## The legacy bytes of the statements -/

/-- `pre` is made of the legacy bytes that may stand, and `l` says which of them it has. -/
structure Tracks (pre : List Byte) (l : Legacy) : Prop where
  opsize : l.opsize = true ↔ 0x66 ∈ pre
  seg (g : Seg) : l.seg = some g ↔ g.byte ∈ pre
  rep (r : Rep) : l.rep = some r ↔ r.byte ∈ pre

theorem mark_mem_iff {b : Byte} : b ∈ legacyKinds.flatten ↔ ∃ k : Mark, b = k.byte := by
  constructor
  · intro h
    have hsome : ∀ b ∈ legacyKinds.flatten, (markOf b).isSome = true := by decide
    obtain ⟨k, hk⟩ := Option.isSome_iff_exists.1 (hsome b h)
    exact ⟨k, markOf_eq_some hk⟩
  · rintro ⟨k, rfl⟩
    cases k with
    | opsize => decide
    | seg g => cases g <;> decide
    | rep r => cases r <;> decide

theorem markOf_eq_none {b : Byte} (h : b ∉ legacyKinds.flatten) : markOf b = none := by
  cases hk : markOf b with
  | none => rfl
  | some k => exact absurd (mark_mem_iff.2 ⟨k, markOf_eq_some hk⟩) h

theorem AllLegacy.exists_marks {pre : List Byte} (h : AllLegacy pre) : ∃ ks : List Mark, pre = ks.map Mark.byte := by
  induction pre with
  | nil => exact ⟨[], rfl⟩
  | cons b pre ih =>
    obtain ⟨k, rfl⟩ := mark_mem_iff.1 (h b List.mem_cons_self)
    obtain ⟨ks, rfl⟩ := ih fun b hb => h b (List.mem_cons_of_mem _ hb)
    exact ⟨k :: ks, rfl⟩

theorem Mark.byte_inj {j k : Mark} (h : j.byte = k.byte) : j = k := by
  have hk := markOf_byte k
  rw [← h, markOf_byte] at hk
  exact Option.some.inj hk

theorem Mark.byte_mem_iff {k : Mark} {ks : List Mark} : k.byte ∈ ks.map Mark.byte ↔ k ∈ ks :=
  ⟨fun h => by obtain ⟨j, hj, he⟩ := List.mem_map.1 h; exact Mark.byte_inj he ▸ hj, List.mem_map_of_mem⟩

theorem tracks_marks {ks : List Mark} {l : Legacy} (h : Legacy.start.marks ks = some l) :
    Tracks (ks.map Mark.byte) l := by
  obtain ⟨ho, hs, hr⟩ := Legacy.marks_iff h
  have at_start (k : Mark) {P : Prop} (hP : ¬P) : k ∈ ks ∨ P ↔ k.byte ∈ ks.map Mark.byte :=
    (or_iff_left hP).trans Mark.byte_mem_iff.symm
  exact ⟨ho.trans (at_start .opsize Bool.false_ne_true), fun g => (hs g).trans (at_start (.seg g) nofun),
    fun r => (hr r).trans (at_start (.rep r) nofun)⟩

/-! ## The REX byte (R120, R121) -/

theorem isRex_iff {b : Byte} : IsRex b ↔ (rexOf b).isSome = true := by
  have hnibble : b.extractLsb' 4 4 = 4#4 ↔ IsRex b := by
    rw [IsRex, ← BitVec.toNat_inj, BitVec.extractLsb'_toNat, Nat.shiftRight_eq_div_pow, BitVec.toNat_ofNat]
    have hlt := b.isLt
    omega
  rw [← hnibble, rexOf]
  by_cases h : b.extractLsb' 4 4 = 4#4 <;> simp [h]

/-- No REX byte is a legacy byte. -/
theorem isLegacy_of_rex {b : Byte} (h : (rexOf b).isSome = true) : isLegacy b = false := by
  rw [isLegacy_eq, Bool.or_eq_false_iff]
  constructor
  · cases hk : markOf b with
    | none => rfl
    | some k =>
      have hno : ∀ b ∈ legacyKinds.flatten, (rexOf b).isSome = false := by decide
      rw [hno b (mark_mem_iff.2 ⟨k, markOf_eq_some hk⟩)] at h
      cases h
  · by_contra hr
    simp only [refusedLegacy, Bool.not_eq_false, Bool.or_eq_true, beq_iff_eq] at hr
    obtain rfl | rfl := hr <;> cases h

/-! ## The decoder after the legacy bytes -/

/-- The decoder with its prefixes read, at the byte `b` (R111 steps 3 to 6). -/
def decodeOpcode (l : Legacy) (rx : Option Rex) (b : Byte) (bs : List Byte) : Dec Instr :=
  (takeOpcode b bs).bind fun mo bs =>
    takeRow (opcodeTable.filter (Row.hits mo.1 mo.2 l)) ⟨l.opsize, l.seg, rx.map Rex.w⟩ (rx.getD Rex.none) mo.2 bs

/-- The decoder with the legacy bytes `l` read. -/
def decodeAfter (l : Legacy) (bs : List Byte) : Dec Instr :=
  (takeLegacy l bs).bind fun lb bs => (takeRex lb.2 bs).bind fun rb bs => decodeOpcode lb.1 rb.1 rb.2 bs

theorem decode_eq (bs : List Byte) : decode bs = decodeAfter Legacy.start bs := rfl

theorem decode_marks {ks : List Mark} {l : Legacy} (h : Legacy.start.marks ks = some l) (bs : List Byte) :
    decode (ks.map Mark.byte ++ bs) = decodeAfter l bs := by
  rw [decode_eq, decodeAfter, takeLegacy_marks h, decodeAfter]

theorem decode_marks_none {ks : List Mark} (h : Legacy.start.marks ks = none) (bs : List Byte) :
    DecodeRefuses (ks.map Mark.byte ++ bs) := by
  obtain ⟨rest, hrest⟩ := takeLegacy_marks_none h bs
  exact ⟨rest, by rw [decode_eq, decodeAfter, hrest, Dec.bind_bad]⟩

/-- After legacy bytes the decoder refuses wherever it does with the prefixes they leave. -/
theorem refuses_after {pre bs : List Byte} (h : AllLegacy pre)
    (hl : ∀ l, Tracks pre l → ∃ rest, decodeAfter l bs = .bad rest) : DecodeRefuses (pre ++ bs) := by
  obtain ⟨ks, rfl⟩ := h.exists_marks
  cases hm : Legacy.start.marks ks with
  | none => exact decode_marks_none hm bs
  | some l =>
    obtain ⟨rest, hrest⟩ := hl l (tracks_marks hm)
    exact ⟨rest, (decode_marks hm bs).trans hrest⟩

/-- A byte that begins an opcode: no legacy byte and no REX byte. -/
def BeginsOpcode (b : Byte) : Prop := isLegacy b = false ∧ rexOf b = none

/-- At most one REX byte, by its bits. -/
inductive RexIs : List Byte → Option Rex → Prop
  | absent : RexIs [] none
  | present {x : Byte} {rx : Rex} (h : rexOf x = some rx) : RexIs [x] (some rx)

theorem decodeAfter_rex {rex : List Byte} {rx : Option Rex} {b : Byte} (hrex : RexIs rex rx) (hb : BeginsOpcode b)
    (l : Legacy) (bs : List Byte) : decodeAfter l (rex ++ b :: bs) = decodeOpcode l rx b bs := by
  obtain ⟨hleg, hno⟩ := hb
  cases hrex with
  | absent => simp [decodeAfter, takeLegacy_end l hleg, Dec.bind_ok, takeRex, hno]
  | present h =>
    simp [decodeAfter, takeLegacy_end l (isLegacy_of_rex (Option.isSome_of_eq_some h)), Dec.bind_ok, takeRex, h, hleg,
      hno, take8]

/-- The bytes VEX and EVEX (R124) and the escape `0F` (R123), which are no opcodes of map 1. -/
def escapes : List Byte := [0xC4, 0xC5, 0x62, 0x0F]

/-- The decoder from an opcode on, after the prefixes. -/
theorem decodeAfter_opcode {rex : List Byte} {rx : Option Rex} {map2 : Bool} {op : Byte} (hrex : RexIs rex rx)
    (hop : map2 = false → BeginsOpcode op ∧ op ∉ escapes) (l : Legacy) (bs : List Byte) :
    decodeAfter l (rex ++ (opcodeBytes map2 op ++ bs)) = takeRow (opcodeTable.filter (Row.hits map2 op l))
      ⟨l.opsize, l.seg, rx.map Rex.w⟩ (rx.getD Rex.none) op bs := by
  cases map2 with
  | true =>
    have h0F : BeginsOpcode 0x0F := ⟨by decide, by decide⟩
    exact decodeAfter_rex hrex h0F l (op :: bs)
  | false =>
    obtain ⟨hb, hesc⟩ := hop rfl
    have htake : takeOpcode op bs = .ok (false, op) bs := by
      simp only [escapes, List.mem_cons, List.not_mem_nil, or_false, not_or] at hesc
      obtain ⟨hC4, hC5, h62, h0F⟩ := hesc
      rw [takeOpcode, if_neg (not_or.2 ⟨hC4, not_or.2 ⟨hC5, h62⟩⟩), if_neg h0F]
    exact (decodeAfter_rex hrex hb l bs).trans (by rw [decodeOpcode, htake, Dec.bind_ok])

end Sys2Proof
end

section
/-! SUPPORT. The encoder against the decoder (30_encoding.md R110 to R133): each part of an encoding reads back as the
operand it was written for, whatever follows; and the statements O1 and O3. -/

namespace Sys2Proof

/-! ## Fields (R83, R125, R128, R132) -/

theorem take16_le16 (v : BitVec 16) (rest : List Byte) : take16 (le16 v ++ rest) = .ok v rest := by
  have hjoin : v.extractLsb' 8 8 ++ v.extractLsb' 0 8 = v := by
    simp only [BitVec.extractLsb'_append_extractLsb'_eq_extractLsb', BitVec.extractLsb'_eq_self]
  exact congrArg (Dec.ok · rest) hjoin

theorem take32_le32 (v : BitVec 32) (rest : List Byte) : take32 (le32 v ++ rest) = .ok v rest := by
  have hjoin : v.extractLsb' 24 8 ++ v.extractLsb' 16 8 ++ v.extractLsb' 8 8 ++ v.extractLsb' 0 8 = v := by
    simp only [BitVec.extractLsb'_append_extractLsb'_eq_extractLsb', BitVec.extractLsb'_eq_self]
  exact congrArg (Dec.ok · rest) hjoin

theorem take64_le64 (v : BitVec 64) (rest : List Byte) : take64 (le64 v ++ rest) = .ok v rest := by
  have hjoin : v.extractLsb' 56 8 ++ v.extractLsb' 48 8 ++ v.extractLsb' 40 8 ++ v.extractLsb' 32 8
      ++ v.extractLsb' 24 8 ++ v.extractLsb' 16 8 ++ v.extractLsb' 8 8 ++ v.extractLsb' 0 8 = v := by
    simp only [BitVec.extractLsb'_append_extractLsb'_eq_extractLsb', BitVec.extractLsb'_eq_self]
  exact congrArg (Dec.ok · rest) hjoin

@[simp] theorem modOf_packByte (top : BitVec 2) (mid low : BitVec 3) : modOf (packByte top mid low) = top := by
  show BitVec.extractLsb' (3 + 3) 2 (top ++ mid ++ low) = top
  rw [BitVec.append_assoc]
  exact BitVec.extractLsb'_append_eq_left (a := top) (b := mid ++ low)

@[simp] theorem midOf_packByte (top : BitVec 2) (mid low : BitVec 3) : midOf (packByte top mid low) = mid :=
  (BitVec.extractLsb'_append_eq_ite (xhi := top ++ mid) (xlo := low)).trans BitVec.extractLsb'_append_eq_right

@[simp] theorem lowOf_packByte (top : BitVec 2) (mid low : BitVec 3) : lowOf (packByte top mid low) = low :=
  BitVec.extractLsb'_append_eq_right

@[simp] theorem regNum_hi1_lo3 (n : Reg) : regNum (hi1 n) (lo3 n) = n := by
  revert n
  decide

theorem lo3_eq_setWidth (n : Reg) : lo3 n = n.setWidth 3 := by
  simp [lo3, BitVec.setWidth_eq_extractLsb']

/-- Without a REX byte no number needs one (R128). -/
theorem hi1_of_reaches {p : Pfx} {n : Reg} (hp : p.rex = none) (h : p.reaches n = true) : hi1 n = false := by
  have hlow : ∀ n : Reg, n.toNat < 8 → hi1 n = false := by decide
  refine hlow n ?_
  simpa [Pfx.reaches, hp] using h

/-! ## The r/m operand (R126, R127, R130, R131) -/

theorem takeDisp_dispBytes (d : Option Disp) (rest : List Byte) :
    takeDisp (dispMod d) (dispBytes d ++ rest) = .ok d rest := by
  match d with
  | none => rfl
  | some (.d8 v) => rfl
  | some (.d32 v) => simp [takeDisp, dispMod, dispBytes, take32_le32, Dec.bind_ok]

theorem dispMod_ne_three (d : Option Disp) : dispMod d ≠ 3#2 := by
  match d with
  | none => decide
  | some (.d8 v) => simp [dispMod]
  | some (.d32 v) => simp [dispMod]

/-- With `mod` 0 a base has low bits other than 5 (R127, R130). -/
theorem lo3_ne_five {d : Option Disp} {b : Reg} (h : Disp.fitsBase d b = true) : ¬(dispMod d = 0#2 ∧ lo3 b = 5#3) := by
  rintro ⟨hd, hb⟩
  match d with
  | none => simp_all [Disp.fitsBase, lo3_eq_setWidth]
  | some (.d8 v) => simp [dispMod] at hd
  | some (.d32 v) => simp [dispMod] at hd

theorem sibIndex_packByte {p : Pfx} {rx : Rex} {idx : Option Reg} (h : p.reachesIndex idx = true)
    (hx : rx.x = hi1 (idx.getD 4#4)) (sc : BitVec 2) (low : BitVec 3) :
    sibIndex rx (packByte sc (lo3 (idx.getD 4#4)) low) = idx := by
  rw [sibIndex, midOf_packByte, hx, regNum_hi1_lo3]
  cases idx with
  | none => rfl
  | some i =>
    simp only [Pfx.reachesIndex, Bool.and_eq_true, bne_iff_ne] at h
    exact if_neg h.2

/-- An r/m operand reads back from its bytes. -/
theorem takeRM_bytes {p : Pfx} {rx : Rex} {x : RM} (h : x.wf p = true) (hx : rx.x = x.rexX) (hb : rx.b = x.rexB)
    (mid : BitVec 3) (rest : List Byte) :
    ∃ m tl, x.bytes mid = m :: tl ∧ midOf m = mid ∧ takeRM rx m (tl ++ rest) = .ok x rest := by
  match x with
  | .reg n => exact ⟨_, _, rfl, midOf_packByte .., by simp [takeRM, hb, RM.rexB]⟩
  | .mem (.base b d) =>
    simp only [RM.wf, MemOp.wf, Bool.and_eq_true, bne_iff_ne, ← lo3_eq_setWidth] at h
    obtain ⟨⟨-, (hfour : lo3 b ≠ 4#3)⟩, hfive⟩ := h
    refine ⟨_, _, rfl, midOf_packByte .., ?_⟩
    simp [takeRM, dispMod_ne_three, hfour, lo3_ne_five hfive, takeDisp_dispBytes, Dec.bind_ok, hb, RM.rexB]
  | .mem (.sib b idx sc d) =>
    simp only [RM.wf, MemOp.wf, Bool.and_eq_true] at h
    obtain ⟨⟨-, hidx⟩, hfive⟩ := h
    refine ⟨_, _, rfl, midOf_packByte .., ?_⟩
    simp [takeRM, takeSib, take8, dispMod_ne_three, lo3_ne_five hfive, takeDisp_dispBytes, Dec.bind_ok, hb, RM.rexB,
      sibIndex_packByte hidx hx]
  | .mem (.sibNoBase idx sc d) =>
    refine ⟨_, _, rfl, midOf_packByte .., ?_⟩
    simp [takeRM, takeSib, take8, take32_le32, Dec.bind_ok, sibIndex_packByte h hx]
  | .mem (.npcRel d) =>
    refine ⟨_, _, rfl, midOf_packByte .., ?_⟩
    simp [takeRM, take32_le32, Dec.bind_ok]

theorem RM.rexX_of_no_rex {p : Pfx} {x : RM} (hp : p.rex = none) (h : x.wf p = true) : x.rexX = false := by
  have hindex (idx : Option Reg) (h : p.reachesIndex idx = true) : hi1 (idx.getD 4) = false := by
    cases idx with
    | none => rfl
    | some i => exact hi1_of_reaches hp (Bool.and_eq_true_iff.1 h).1
  match x with
  | .reg n => rfl
  | .mem (.base b d) => rfl
  | .mem (.sib b idx sc d) =>
    simp only [RM.wf, MemOp.wf, Bool.and_eq_true] at h
    exact hindex idx h.1.2
  | .mem (.sibNoBase idx sc d) => exact hindex idx h
  | .mem (.npcRel d) => rfl

theorem RM.rexB_of_no_rex {p : Pfx} {x : RM} (hp : p.rex = none) (h : x.wf p = true) : x.rexB = false := by
  match x with
  | .reg n => exact hi1_of_reaches hp h
  | .mem (.base b d) =>
    simp only [RM.wf, MemOp.wf, Bool.and_eq_true] at h
    exact hi1_of_reaches hp h.1.1
  | .mem (.sib b idx sc d) =>
    simp only [RM.wf, MemOp.wf, Bool.and_eq_true] at h
    exact hi1_of_reaches hp h.1.1
  | .mem (.sibNoBase idx sc d) => rfl
  | .mem (.npcRel d) => rfl

/-! ## Immediates (R132, R133) -/

theorem Pfx.width_eq_w16_iff {p : Pfx} : p.width = .w16 ↔ p.is16 = true := by
  unfold Pfx.width Pfx.is16
  split <;> simp_all

theorem Pfx.width_eq_w64_iff {p : Pfx} : p.width = .w64 ↔ p.rex = some true := by
  unfold Pfx.width
  split
  · simp [*]
  · split <;> simp [*]

theorem takeIz_bytes {p : Pfx} {v : Iz} (h : v.fits p = true) (rest : List Byte) :
    takeIz p (v.bytes ++ rest) = .ok v rest := by
  cases v with
  | i16 v =>
    rw [takeIz, Pfx.width_eq_w16_iff.2 h]
    exact congrArg (Dec.bind · _) (take16_le16 v rest)
  | i32 v =>
    have hw : p.width ≠ .w16 := fun hw => by simp [Iz.fits, Pfx.width_eq_w16_iff.1 hw] at h
    have htake := congrArg (Dec.bind · fun v rest => .ok (Iz.i32 v) rest) (take32_le32 v rest)
    unfold takeIz
    split
    · exact absurd ‹_› hw
    · exact htake

theorem takeIv_bytes {p : Pfx} {v : Iv} (h : v.fits p = true) (rest : List Byte) :
    takeIv p (v.bytes ++ rest) = .ok v rest := by
  cases v with
  | i16 v =>
    rw [takeIv, Pfx.width_eq_w16_iff.2 h]
    exact congrArg (Dec.bind · _) (take16_le16 v rest)
  | i64 v =>
    rw [takeIv, Pfx.width_eq_w64_iff.2 (by simpa [Iv.fits] using h)]
    exact congrArg (Dec.bind · _) (take64_le64 v rest)
  | i32 v =>
    have hw : p.width ≠ .w16 := fun hw => by simp [Iv.fits, Pfx.width_eq_w16_iff.1 hw] at h
    have hw' : p.width ≠ .w64 := fun hw => by simp [Iv.fits, Pfx.width_eq_w64_iff.1 hw] at h
    have htake := congrArg (Dec.bind · fun v rest => .ok (Iv.i32 v) rest) (take32_le32 v rest)
    unfold takeIv
    split
    · exact absurd ‹_› hw
    · exact absurd ‹_› hw'
    · exact htake

/-! ## The opcode byte (R153) -/

/-- The opcode byte of a row whose own byte is `op`: the low three bits may hold a register. -/
def Tail.opcode (op : Byte) : Tail → Byte
  | .inOpcode r => op ||| (lo3 r).setWidth 8
  | _ => op

theorem opcode_inOpcode_and {op : Byte} (h : op &&& 0xF8 = op) (r : Reg) :
    Tail.opcode op (.inOpcode r) &&& 0xF8 = op := by
  have hlow : ∀ lo : BitVec 3, lo.setWidth 8 &&& (0xF8 : Byte) = 0 := by decide
  rw [Tail.opcode, BitVec.and_comm, BitVec.and_or_distrib_left, BitVec.and_comm, h, BitVec.and_comm, hlow]
  exact BitVec.or_zero

theorem lowOf_opcode_inOpcode {op : Byte} (h : op &&& 0xF8 = op) (r : Reg) :
    lowOf (Tail.opcode op (.inOpcode r)) = lo3 r := by
  have hop : lowOf op = 0 := by
    rw [← h, lowOf, BitVec.extractLsb'_and]
    exact BitVec.and_zero
  have hlow : ∀ lo : BitVec 3, lowOf (lo.setWidth 8) = lo := by decide
  rw [Tail.opcode, lowOf, BitVec.extractLsb'_or, ← lowOf, ← lowOf, hop, hlow]
  exact BitVec.zero_or

/-- Does the tail stand in the opcode? -/
def Tail.regInOpcode : Tail → Bool
  | .inOpcode _ => true
  | _ => false

theorem Tail.opcode_of_not_reg {t : Tail} (h : t.regInOpcode = false) (op : Byte) : t.opcode op = op := by
  cases t with
  | inOpcode r => cases h
  | plain => rfl
  | regRm r x => rfl
  | digitRm k x => rfl

/-- The opcode bytes of a tail, and what follows them. -/
theorem Tail.bytes_eq {t : Tail} {map2 : Bool} (h : map2 = true → t.regInOpcode = false) (op : Byte) :
    t.bytes (opcodeBytes map2 op) = opcodeBytes map2 (t.opcode op) ++ t.bytes [] := by
  cases t with
  | inOpcode r =>
    cases map2 with
    | true => cases h rfl
    | false => rfl
  | plain => exact (List.append_nil _).symm
  | regRm r x => rfl
  | digitRm k x => rfl

section
variable {k : BitVec 3} {p : Pfx} {body : Body} {i : Instr} {t : Tail} {imm : List Byte}

theorem Body.Form.regInOpcode_eq {ok : Bool} (h : body.Form k p i t imm ok) :
    body.regInOpcode = t.regInOpcode := by
  cases h <;> rfl

/-- The opcode byte written is one that the row hits. -/
theorem Row.opcode_and_opMask {row : Row} {ok : Bool} (hr : row ∈ opcodeTable) (h : row.body.Form k p i t imm ok) :
    row.op = t.opcode row.op &&& row.opMask := by
  rw [opMask_eq row hr, h.regInOpcode_eq]
  cases ht : t.regInOpcode with
  | false => rw [Tail.opcode_of_not_reg ht]; exact BitVec.and_allOnes.symm
  | true =>
    have hop := op_low_clear row hr (h.regInOpcode_eq.trans ht)
    cases t with
    | inOpcode r => exact (opcode_inOpcode_and hop r).symm
    | plain => cases ht
    | regRm r x => cases ht
    | digitRm k x => cases ht

/-! ## REX (R120) -/

/-- The REX bits that a tail is written with. -/
def Rex.Serves (rx : Rex) (t : Tail) : Prop :=
  rx.r = t.rexBits.1 ∧ rx.x = t.rexBits.2.1 ∧ rx.b = t.rexBits.2.2

/-- The REX byte of an instruction, by its bits. -/
def rexFor (p : Pfx) (t : Tail) : Option Rex :=
  p.rex.map fun w => ⟨w, t.rexBits.1, t.rexBits.2.1, t.rexBits.2.2⟩

theorem rexFor_w (p : Pfx) (t : Tail) : (rexFor p t).map Rex.w = p.rex := by
  cases h : p.rex <;> simp [rexFor, h]

theorem rexOf_bits (w r x b : Bool) :
    rexOf (4#4 ++ (BitVec.ofBool w ++ (BitVec.ofBool r ++ (BitVec.ofBool x ++ BitVec.ofBool b))))
      = some ⟨w, r, x, b⟩ := by
  revert w r x b
  decide

theorem rexIs_rexBytes (p : Pfx) (t : Tail) : RexIs (rexBytes p.rex t) (rexFor p t) := by
  unfold rexBytes rexFor
  cases p.rex with
  | none => exact .absent
  | some w => exact .present (rexOf_bits ..)

/-- Without a REX byte an instruction needs none of its bits. -/
theorem Body.Form.serves {ok : Bool} (h : body.Form k p i t imm ok) (hok : ok = true) :
    ((rexFor p t).getD Rex.none).Serves t := by
  cases hp : p.rex with
  | some w => simp [rexFor, hp, Rex.Serves]
  | none =>
    have hbits : t.rexBits = (false, false, false) := by
      cases h with
      | modrm mk r x =>
        obtain ⟨hr, hx⟩ := Bool.and_eq_true_iff.1 hok
        simp [Tail.rexBits, hi1_of_reaches hp hr, RM.rexX_of_no_rex hp hx, RM.rexB_of_no_rex hp hx]
      | rm mk x => simp [Tail.rexBits, RM.rexX_of_no_rex hp hok, RM.rexB_of_no_rex hp hok]
      | rmI8 mk x v => simp [Tail.rexBits, RM.rexX_of_no_rex hp hok, RM.rexB_of_no_rex hp hok]
      | rmIz mk x v =>
        obtain ⟨hx, -⟩ := Bool.and_eq_true_iff.1 hok
        simp [Tail.rexBits, RM.rexX_of_no_rex hp hx, RM.rexB_of_no_rex hp hx]
      | vmi mk r v => simp [Tail.rexBits, RM.rexX, RM.rexB, hi1_of_reaches hp hok]
      | opI8 mk r v => simp [Tail.rexBits, hi1_of_reaches hp hok]
      | opIv mk r v => simp [Tail.rexBits, hi1_of_reaches hp (Bool.and_eq_true_iff.1 hok).1]
      | i8 | iz | i32 | none => rfl
    simp [rexFor, hp, Rex.none, Rex.Serves, hbits]

theorem Body.Form.rexB_of_isNone {ok : Bool} (h : body.Form k p i t imm ok) (hn : body.isNone = true) :
    t.rexBits.2.2 = false := by
  cases h with
  | none mk => rfl
  | modrm | rm | rmI8 | rmIz | vmi | i8 | iz | i32 | opI8 | opIv => cases hn

/-! ## The operands of a row (R147) -/

/-- A form without a `/digit` reads back from what follows its opcode. -/
theorem Body.Form.take_plain {ok : Bool} (h : body.Form k p i t imm ok) (hok : ok = true) (hd : body.hasDigit = false)
    {rx : Rex} (hrx : rx.Serves t) {op : Byte} (hop : body.regInOpcode = true → op &&& 0xF8 = op)
    (rest : List Byte) : body.take p rx (t.opcode op) Option.none (t.bytes [] ++ (imm ++ rest)) = .ok i rest := by
  obtain ⟨hr, hx, hb⟩ := hrx
  cases h with
  | modrm mk r x =>
    obtain ⟨-, hwf⟩ := Bool.and_eq_true_iff.1 hok
    obtain ⟨m, tl, hm, hmid, htake⟩ := takeRM_bytes hwf hx hb (lo3 r) rest
    simp [Body.take, Tail.bytes, hm, takeModRM, take8, Dec.bind_ok, htake, hmid, hr, Tail.rexBits]
  | i8 mk v => rfl
  | iz mk v => simp [Body.take, Tail.bytes, takeIz_bytes hok, Dec.bind_ok]
  | i32 mk v => simp [Body.take, Tail.bytes, take32_le32, Dec.bind_ok]
  | opI8 mk r v =>
    have hlow := lowOf_opcode_inOpcode (hop rfl) r
    simp [Body.take, Tail.bytes, take8, Dec.bind_ok, hlow, hb, Tail.rexBits]
  | opIv mk r v =>
    have hlow := lowOf_opcode_inOpcode (hop rfl) r
    obtain ⟨-, hfits⟩ := Bool.and_eq_true_iff.1 hok
    simp [Body.take, Tail.bytes, takeIv_bytes hfits, Dec.bind_ok, hlow, hb, Tail.rexBits]
  | none mk => rfl
  | rm | rmI8 | rmIz | vmi => cases hd

/-- A form with a `/digit` reads back from its ModRM byte, which holds the digit, and what follows. -/
theorem Body.Form.take_group {ok : Bool} (h : body.Form k p i t imm ok) (hok : ok = true) (hd : body.hasDigit = true)
    {rx : Rex} (hrx : rx.Serves t) (op : Byte) (rest : List Byte) :
    ∃ m tl, t.bytes [] = m :: tl ∧ midOf m = k ∧ (body.isVmi = true → modOf m = 3) ∧
      body.take p rx op (some m) (tl ++ (imm ++ rest)) = .ok i rest := by
  obtain ⟨-, hx, hb⟩ := hrx
  cases h with
  | rm mk x =>
    obtain ⟨m, tl, hm, hmid, htake⟩ := takeRM_bytes hok hx hb k rest
    exact ⟨m, tl, hm, hmid, nofun, by simp [Body.take, takeModRM, Dec.bind_ok, htake]⟩
  | rmI8 mk x v =>
    obtain ⟨m, tl, hm, hmid, htake⟩ := takeRM_bytes hok hx hb k (v :: rest)
    exact ⟨m, tl, hm, hmid, nofun, by simp [Body.take, takeModRM, take8, Dec.bind_ok, htake]⟩
  | rmIz mk x v =>
    obtain ⟨hwf, hfits⟩ := Bool.and_eq_true_iff.1 hok
    obtain ⟨m, tl, hm, hmid, htake⟩ := takeRM_bytes hwf hx hb k (v.bytes ++ rest)
    exact ⟨m, tl, hm, hmid, nofun, by simp [Body.take, takeModRM, takeIz_bytes hfits, Dec.bind_ok, htake]⟩
  | vmi mk r v =>
    refine ⟨_, _, rfl, midOf_packByte .., fun _ => modOf_packByte .., ?_⟩
    simp [Body.take, takeModRM, take8, Dec.bind_ok, hb, Tail.rexBits, RM.rexB]
  | modrm | i8 | iz | i32 | opI8 | opIv | none => cases hd

end

/-! ## The legacy bytes of an encoding (R110) -/

/-- The legacy bytes in the order of the encoder. -/
def Pfx.marks (p : Pfx) (rep : Option Rep) : List Mark :=
  (if p.opsize then [.opsize] else []) ++ ((p.seg.map .seg).toList ++ (rep.map .rep).toList)

theorem marks_pfx (p : Pfx) (c : Cls) : Legacy.start.marks (p.marks c.rep) = some (c.legacy p) := by
  obtain ⟨opsize, seg, rex⟩ := p
  rw [Cls.legacy]
  cases opsize <;> cases seg <;> cases c.rep <;> rfl

theorem layout_bytes (l : Layout) (rest : List Byte) : l.bytes ++ rest = (l.pfx.marks l.rep).map Mark.byte
    ++ (rexBytes l.pfx.rex l.tail ++ (l.tail.bytes l.opcode ++ (l.imm ++ rest))) := by
  obtain ⟨⟨opsize, seg, rex⟩, rep, opcode, tail, imm⟩ := l
  cases opsize <;> cases seg <;> cases rep <;> simp [Layout.bytes, Pfx.marks, Mark.byte]

/-! ## Decode after encode -/

/-- Every opcode of map 1 begins an opcode, and is no escape. -/
theorem mapOne_beginsOpcode : ∀ op ∈ mapOneOpcodes, BeginsOpcode op ∧ op ∉ escapes := by
  unfold BeginsOpcode
  decide

/-- The prefixes and the opcode of an encoding read back, and its row is looked up with what follows. -/
theorem decode_encode_prefixes {row : Row} {p : Pfx} {i : Instr} {t : Tail} {imm : List Byte} {ok : Bool}
    (hr : row ∈ opcodeTable) (h : row.body.Form row.digitBits p i t imm ok) (rest : List Byte) :
    decode (encode i ++ rest)
      = takeRow (opcodeTable.filter (Row.hits row.map2 (t.opcode row.op) (row.cls.legacy p))) p
        ((rexFor p t).getD Rex.none) (t.opcode row.op) (t.bytes [] ++ (imm ++ rest)) := by
  obtain ⟨hlayout, -⟩ := form_laysOut row hr p i t imm ok h
  have hbegins (hmap : row.map2 = false) := mapOne_beginsOpcode _ (map1_op_mem hr hmap (row.opcode_and_opMask hr h))
  have hreg (hmap : row.map2 = true) : t.regInOpcode = false :=
    h.regInOpcode_eq ▸ map2_regInOpcode row hr hmap
  rw [encode, hlayout, layout_bytes, decode_marks (marks_pfx p row.cls), Tail.bytes_eq hreg, List.append_assoc,
    decodeAfter_opcode (rexIs_rexBytes p t) hbegins, rexFor_w]
  rfl

/-- A well-formed instruction of a row reads back from its bytes. -/
theorem decode_encode_form {row : Row} {p : Pfx} {i : Instr} {t : Tail} {imm : List Byte} {ok : Bool}
    (hr : row ∈ opcodeTable) (h : row.body.Form row.digitBits p i t imm ok) (hok : ok = true)
    (hp : row.allows p = true) (rest : List Byte) : decode (encode i ++ rest) = .ok i rest := by
  obtain ⟨hadmits, hno66⟩ := Bool.and_eq_true_iff.1 hp
  have hrx := h.serves hok
  have hhits : row.hits row.map2 (t.opcode row.op) (row.cls.legacy p) = true :=
    Row.hits_iff.2 ⟨rfl, row.opcode_and_opMask hr h, hadmits⟩
  have htake (m : Option Byte) (bs : List Byte) : row.take p ((rexFor p t).getD Rex.none) (t.opcode row.op) m bs
      = row.body.take p ((rexFor p t).getD Rex.none) (t.opcode row.op) m bs := by
    have hnoB : (row.noB && ((rexFor p t).getD Rex.none).b) = false := by
      cases hB : row.noB with
      | false => rfl
      | true => rw [hrx.2.2, h.rexB_of_isNone (noB_isNone row hr hB)]; rfl
    rw [Row.take, Row.refuses, hnoB, Bool.or_false, (Bool.not_eq_true' _).mp hno66, if_neg Bool.false_ne_true]
  rw [decode_encode_prefixes hr h]
  cases hd : row.body.hasDigit with
  | false =>
    have hnone : row.digit = none := by simpa [hd] using digit_isSome_iff row hr
    rw [takeRow_plain hr hhits hnone, htake, h.take_plain hok hd hrx (op_low_clear row hr)]
  | true =>
    obtain ⟨m, tl, hm, hmid, hvmi, hbody⟩ := h.take_group hok hd hrx (t.opcode row.op) rest
    obtain ⟨k, hk⟩ := Option.isSome_iff_exists.1 ((digit_isSome_iff row hr).trans hd)
    have hdigit : row.hitsDigit m = true := by
      have hkm : row.digit = some (midOf m) := by rw [hmid, Row.digitBits, hk]; rfl
      cases hv : row.body.isVmi with
      | false => simp [Row.hitsDigit, hkm, hv]
      | true => simp [Row.hitsDigit, hkm, hvmi hv]
    rw [hm, List.cons_append, takeRow_group hr hhits hdigit, htake, hbody]

/-- Settles O1: the instruction is of a row, and what each part of that row's encoding reads back as is above. -/
theorem decodeEncode : Obligations.DecodeEncode := by
  intro i rest hwf
  obtain ⟨row, hrow, p, t, imm, ok, hform⟩ := instr_form i
  have hr := List.mem_of_getElem? hrow
  obtain ⟨-, hwf_eq⟩ := form_laysOut row hr p i t imm ok hform
  obtain ⟨hp, hok⟩ := Bool.and_eq_true_iff.1 (hwf_eq.symm.trans hwf)
  exact decode_encode_form hr hform hok hp rest

/-- Settles O3: the bytes of each decode are those of the instruction that it answers. -/
theorem workedDecodes : Obligations.WorkedDecodes := fun rest =>
  ⟨decodeEncode (.comiss ⟨false, none, none⟩ 0 (.reg 1)) rest rfl,
    decodeEncode (.paddq ⟨true, none, some false⟩ 9 (.reg 1)) rest rfl,
    decodeEncode (.addRmR ⟨false, none, some true⟩ (.reg 0) 3) rest rfl,
    decodeEncode (.addRmI8 ⟨true, none, none⟩ (.reg 1) 0xFF) rest rfl,
    decodeEncode (.movRRm ⟨false, none, none⟩ 0 (.mem (.sib 3 (some 1) 2 (some (.d8 0x10))))) rest rfl,
    decodeEncode (.movRRm ⟨false, none, some true⟩ 0 (.mem (.npcRel 0x10))) rest rfl,
    decodeEncode (.movR8Rm8 ⟨false, none, some false⟩ 0 (.mem (.sib 12 none 0 none))) rest rfl⟩

end Sys2Proof
end

section
/-! SUPPORT. What the decoder answers (30_encoding.md R110, R157): each part answers operands that have an encoding and
consumes as many bytes as they are written with, and no part needs more bytes than its size; and the statement O2. -/

namespace Sys2Proof

theorem Dec.bind_eq_ok {α β : Type} {d : Dec α} {f : α → List Byte → Dec β} {b : β} {rest : List Byte} :
    d.bind f = .ok b rest ↔ ∃ a mid, d = .ok a mid ∧ f a mid = .ok b rest := by
  cases d <;> simp [Dec.bind]

theorem Dec.bind_assoc {α β γ : Type} (d : Dec α) (f : α → List Byte → Dec β) (g : β → List Byte → Dec γ) :
    (d.bind f).bind g = d.bind fun a rest => (f a rest).bind g := by
  cases d <;> rfl

/-! ## Fields -/

theorem take8_ok {bs rest : List Byte} {v : Byte} (h : take8 bs = .ok v rest) : bs = v :: rest := by
  cases bs with
  | nil => cases h
  | cons b bs => cases h; rfl

theorem take16_length {bs rest : List Byte} {v : BitVec 16} (h : take16 bs = .ok v rest) :
    bs.length = 2 + rest.length := by
  simp only [take16_eq, Dec.bind_eq_ok] at h
  obtain ⟨_, _, h0, _, _, h1, h⟩ := h
  cases h
  simp [take8_ok h0, take8_ok h1]
  omega

theorem take32_length {bs rest : List Byte} {v : BitVec 32} (h : take32 bs = .ok v rest) :
    bs.length = 4 + rest.length := by
  simp only [take32_eq, Dec.bind_eq_ok] at h
  obtain ⟨_, _, h0, _, _, h1, _, _, h2, _, _, h3, h⟩ := h
  cases h
  simp [take8_ok h0, take8_ok h1, take8_ok h2, take8_ok h3]
  omega

theorem take64_length {bs rest : List Byte} {v : BitVec 64} (h : take64 bs = .ok v rest) :
    bs.length = 8 + rest.length := by
  simp only [take64_eq, Dec.bind_eq_ok] at h
  obtain ⟨_, _, h0, _, _, h1, _, _, h2, _, _, h3, _, _, h4, _, _, h5, _, _, h6, _, _, h7, h⟩ := h
  cases h
  simp [take8_ok h0, take8_ok h1, take8_ok h2, take8_ok h3, take8_ok h4, take8_ok h5, take8_ok h6, take8_ok h7]
  omega

theorem takeModRM_ok {m : Option Byte} {b : Byte} {bs rest : List Byte} (h : takeModRM m bs = .ok b rest) :
    m.toList.length + bs.length = 1 + rest.length := by
  cases m with
  | some c => cases h; rfl
  | none => rw [take8_ok h]; simp; omega

/-- A number made of a REX bit needs a REX byte only where there is one (R128). -/
theorem reaches_regNum {p : Pfx} {hi : Bool} (h : p.rex = none → hi = false) (lo : BitVec 3) :
    p.reaches (regNum hi lo) = true := by
  have hlow : ∀ lo : BitVec 3, (regNum false lo).toNat < 8 := by decide
  cases hp : p.rex with
  | none => simp [Pfx.reaches, h hp, hlow]
  | some w => simp [Pfx.reaches, hp]

theorem setWidth_regNum (hi : Bool) (lo : BitVec 3) : (regNum hi lo).setWidth 3 = lo := by
  revert hi lo
  decide

/-! ## Operands -/

/-- A displacement is absent for `mod` 0 alone, where it is not 3 (R131). -/
theorem takeDisp_ok {mod : BitVec 2} {d : Option Disp} {bs rest : List Byte} (h : takeDisp mod bs = .ok d rest) :
    bs.length = (dispBytes d).length + rest.length ∧ (mod ≠ 3 → mod ≠ 0 → d.isSome = true) := by
  unfold takeDisp at h
  split at h
  · obtain ⟨v, mid, hv, hd⟩ := Dec.bind_eq_ok.1 h
    cases hd
    exact ⟨by rw [take8_ok hv]; simp [dispBytes]; omega, fun _ _ => rfl⟩
  · split at h
    · obtain ⟨v, mid, hv, hd⟩ := Dec.bind_eq_ok.1 h
      cases hd
      exact ⟨by rw [take32_length hv]; rfl, fun _ _ => rfl⟩
    · cases h
      have hfour : ∀ mod : BitVec 2, mod ≠ 1 → mod ≠ 2 → mod ≠ 3 → mod = 0 := by decide
      exact ⟨by simp [dispBytes], fun h3 h0 => absurd (hfour mod ‹_› ‹_› h3) h0⟩

/-- The displacement read fits the base read (R127, R130). -/
theorem fitsBase_of_takeDisp {mod : BitVec 2} {d : Option Disp} {bs rest : List Byte} {lo : BitVec 3} {hi : Bool}
    (h : takeDisp mod bs = .ok d rest) (h3 : mod ≠ 3) (h5 : ¬(mod = 0 ∧ lo = 5)) :
    Disp.fitsBase d (regNum hi lo) = true := by
  rw [Disp.fitsBase, setWidth_regNum, Bool.or_eq_true, bne_iff_ne]
  by_cases h0 : mod = 0
  · exact .inr fun hlo => h5 ⟨h0, hlo⟩
  · exact .inl ((takeDisp_ok h).2 h3 h0)

theorem reachesIndex_sibIndex {p : Pfx} {rx : Rex} (h : p.rex = none → rx = Rex.none) (sib : Byte) :
    p.reachesIndex (sibIndex rx sib) = true := by
  rw [sibIndex]
  split
  · rfl
  · rw [Pfx.reachesIndex, reaches_regNum fun hp => by rw [h hp]; rfl]
    simpa using ‹_›

/-- A SIB form has an encoding, of as many bytes as were consumed (R130). -/
theorem takeSib_ok {p : Pfx} {rx : Rex} (hp : p.rex = none → rx = Rex.none) {mod : BitVec 2} (h3 : mod ≠ 3)
    {a : MemOp} {bs rest : List Byte} (h : takeSib rx mod bs = .ok a rest) (mid : BitVec 3) :
    a.wf p = true ∧ 1 + bs.length = ((RM.mem a).bytes mid).length + rest.length := by
  obtain ⟨sib, bs', hsib, h⟩ := Dec.bind_eq_ok.1 h
  rw [take8_ok hsib]
  have hidx := reachesIndex_sibIndex hp sib
  split at h
  · obtain ⟨d, bs'', hd, h⟩ := Dec.bind_eq_ok.1 h
    cases h
    refine ⟨hidx, ?_⟩
    simp [take32_length hd, RM.bytes, le32]
    omega
  · rename_i h5
    obtain ⟨d, bs'', hd, h⟩ := Dec.bind_eq_ok.1 h
    cases h
    have hb := reaches_regNum (fun hp' => by rw [hp hp']; rfl : p.rex = none → rx.b = false) (lowOf sib)
    refine ⟨by simp [MemOp.wf, hb, hidx, fitsBase_of_takeDisp hd h3 h5], ?_⟩
    simp [(takeDisp_ok hd).1, RM.bytes]
    omega

/-- An r/m operand has an encoding, of as many bytes as were consumed with its ModRM byte (R126, R127). -/
theorem takeRM_ok {p : Pfx} {rx : Rex} (hp : p.rex = none → rx = Rex.none) {m : Byte} {x : RM} {bs rest : List Byte}
    (h : takeRM rx m bs = .ok x rest) (mid : BitVec 3) :
    x.wf p = true ∧ 1 + bs.length = (x.bytes mid).length + rest.length := by
  have hb := reaches_regNum (fun hp' => by rw [hp hp']; rfl : p.rex = none → rx.b = false) (lowOf m)
  unfold takeRM at h
  split at h
  · cases h
    exact ⟨hb, rfl⟩
  · rename_i h3
    split at h
    · obtain ⟨a, bs', ha, h⟩ := Dec.bind_eq_ok.1 h
      cases h
      exact takeSib_ok hp h3 ha mid
    · rename_i h4
      replace h4 : lowOf m ≠ 4#3 := h4
      split at h
      · obtain ⟨d, bs', hd, h⟩ := Dec.bind_eq_ok.1 h
        cases h
        refine ⟨rfl, ?_⟩
        simp [take32_length hd, RM.bytes, le32]
        omega
      · rename_i h5
        obtain ⟨d, bs', hd, h⟩ := Dec.bind_eq_ok.1 h
        cases h
        refine ⟨by simp [RM.wf, MemOp.wf, hb, setWidth_regNum, h4, fitsBase_of_takeDisp hd h3 h5], ?_⟩
        simp [(takeDisp_ok hd).1, RM.bytes]
        omega

theorem takeIz_ok {p : Pfx} {v : Iz} {bs rest : List Byte} (h : takeIz p bs = .ok v rest) :
    v.fits p = true ∧ bs.length = v.bytes.length + rest.length := by
  unfold takeIz at h
  split at h
  · obtain ⟨u, mid, hu, h⟩ := Dec.bind_eq_ok.1 h
    cases h
    exact ⟨Pfx.width_eq_w16_iff.1 ‹_›, take16_length hu⟩
  · rename_i hw
    obtain ⟨u, mid, hu, h⟩ := Dec.bind_eq_ok.1 h
    cases h
    exact ⟨by simpa [Iz.fits] using fun h16 => hw (Pfx.width_eq_w16_iff.2 h16), take32_length hu⟩

theorem takeIv_ok {p : Pfx} {v : Iv} {bs rest : List Byte} (h : takeIv p bs = .ok v rest) :
    v.fits p = true ∧ bs.length = v.bytes.length + rest.length := by
  unfold takeIv at h
  split at h
  · obtain ⟨u, mid, hu, h⟩ := Dec.bind_eq_ok.1 h
    cases h
    exact ⟨Pfx.width_eq_w16_iff.1 ‹_›, take16_length hu⟩
  · obtain ⟨u, mid, hu, h⟩ := Dec.bind_eq_ok.1 h
    cases h
    exact ⟨by simp [Iv.fits, Pfx.width_eq_w64_iff.1 ‹_›], take64_length hu⟩
  · rename_i hw hw'
    obtain ⟨u, mid, hu, h⟩ := Dec.bind_eq_ok.1 h
    cases h
    have h16 : p.is16 = false := by simpa using fun h16 => hw (Pfx.width_eq_w16_iff.2 h16)
    have h64 : p.rex ≠ some true := fun h64 => hw' (Pfx.width_eq_w64_iff.2 h64)
    exact ⟨by simp [Iv.fits, h16, h64], take32_length hu⟩

/-- What a body answers is a form of it with operands that have an encoding, of as many bytes as were consumed after
the opcode. -/
theorem Body.take_ok {body : Body} {p : Pfx} {rx : Rex} {op : Byte} {m : Option Byte} {bs rest : List Byte} {i : Instr}
    (hp : p.rex = Option.none → rx = Rex.none) (hm : m.isSome = true → body.hasDigit = true)
    (h : body.take p rx op m bs = .ok i rest) (k : BitVec 3) :
    ∃ t imm ok, body.Form k p i t imm ok ∧ ok = true ∧
      m.toList.length + bs.length = (t.bytes []).length + imm.length + rest.length := by
  have hr (hi : Rex → Bool) (h0 : hi Rex.none = false) (lo : BitVec 3) : p.reaches (regNum (hi rx) lo) = true :=
    reaches_regNum (fun hp' => by rw [hp hp', h0]) lo
  have hm0 (hd : body.hasDigit = false) : m.toList.length = 0 := by
    cases m with
    | none => rfl
    | some b => exact absurd (hm rfl) (by simp [hd])
  cases body with
  | modrm mk =>
    simp only [Body.take, Dec.bind_eq_ok] at h
    obtain ⟨b, bs₁, h₁, x, bs₂, h₂, h⟩ := h
    cases h
    obtain ⟨hwf, hlen⟩ := takeRM_ok hp h₂ (lo3 (regNum rx.r (midOf b)))
    refine ⟨_, _, _, .modrm mk _ x, by simp [hwf, hr Rex.r rfl], ?_⟩
    rw [takeModRM_ok h₁, hlen]
    rfl
  | rm mk =>
    simp only [Body.take, Dec.bind_eq_ok] at h
    obtain ⟨b, bs₁, h₁, x, bs₂, h₂, h⟩ := h
    cases h
    obtain ⟨hwf, hlen⟩ := takeRM_ok hp h₂ k
    exact ⟨_, _, _, .rm mk x, hwf, by rw [takeModRM_ok h₁, hlen]; rfl⟩
  | rmI8 mk =>
    simp only [Body.take, Dec.bind_eq_ok] at h
    obtain ⟨b, bs₁, h₁, x, bs₂, h₂, v, bs₃, h₃, h⟩ := h
    cases h
    obtain ⟨hwf, hlen⟩ := takeRM_ok hp h₂ k
    refine ⟨_, _, _, .rmI8 mk x v, hwf, ?_⟩
    rw [takeModRM_ok h₁, hlen, take8_ok h₃]
    simp [Tail.bytes]
    omega
  | rmIz mk =>
    simp only [Body.take, Dec.bind_eq_ok] at h
    obtain ⟨b, bs₁, h₁, x, bs₂, h₂, v, bs₃, h₃, h⟩ := h
    cases h
    obtain ⟨hwf, hlen⟩ := takeRM_ok hp h₂ k
    obtain ⟨hfits, hlen'⟩ := takeIz_ok h₃
    refine ⟨_, _, _, .rmIz mk x v, by simp [hwf, hfits], ?_⟩
    rw [takeModRM_ok h₁, hlen, hlen', Nat.add_assoc]
    rfl
  | vmi mk =>
    simp only [Body.take, Dec.bind_eq_ok] at h
    obtain ⟨b, bs₁, h₁, v, bs₂, h₂, h⟩ := h
    cases h
    refine ⟨_, _, _, .vmi mk _ v, hr Rex.b rfl _, ?_⟩
    rw [takeModRM_ok h₁, take8_ok h₂]
    simp [Tail.bytes, RM.bytes]
    omega
  | i8 mk =>
    obtain ⟨v, bs₁, h₁, h⟩ := Dec.bind_eq_ok.1 h
    cases h
    refine ⟨_, _, _, .i8 mk v, rfl, ?_⟩
    simp [hm0 rfl, take8_ok h₁, Tail.bytes]
    omega
  | iz mk =>
    obtain ⟨v, bs₁, h₁, h⟩ := Dec.bind_eq_ok.1 h
    cases h
    obtain ⟨hfits, hlen⟩ := takeIz_ok h₁
    exact ⟨_, _, _, .iz mk v, hfits, by simp [hm0 rfl, hlen, Tail.bytes]⟩
  | i32 mk =>
    obtain ⟨v, bs₁, h₁, h⟩ := Dec.bind_eq_ok.1 h
    cases h
    exact ⟨_, _, _, .i32 mk v, rfl, by simp [hm0 rfl, take32_length h₁, Tail.bytes, le32]⟩
  | opI8 mk =>
    obtain ⟨v, bs₁, h₁, h⟩ := Dec.bind_eq_ok.1 h
    cases h
    refine ⟨_, _, _, .opI8 mk _ v, hr Rex.b rfl _, ?_⟩
    simp [hm0 rfl, take8_ok h₁, Tail.bytes]
    omega
  | opIv mk =>
    obtain ⟨v, bs₁, h₁, h⟩ := Dec.bind_eq_ok.1 h
    cases h
    obtain ⟨hfits, hlen⟩ := takeIv_ok h₁
    exact ⟨_, _, _, .opIv mk _ v, by simp [hfits, hr Rex.b rfl], by simp [hm0 rfl, hlen, Tail.bytes]⟩
  | none mk =>
    cases h
    exact ⟨_, _, _, .none mk, rfl, by simp [hm0 rfl, Tail.bytes]⟩

/-! ## The row and the prefixes -/

/-- An answer after the opcode is one of a row, with its ModRM byte read first where the row is of a group. -/
theorem takeRow_ok {rows : List Row} {p : Pfx} {rx : Rex} {op : Byte} {bs rest : List Byte} {i : Instr}
    (h : takeRow rows p rx op bs = .ok i rest) :
    ∃ row ∈ rows, ∃ m bs', bs = m.toList ++ bs' ∧ (m.isSome = true → row.digit.isSome = true) ∧
      row.refuses p rx = false ∧ row.body.take p rx op m bs' = .ok i rest := by
  have of_take {row : Row} {m : Option Byte} {bs : List Byte} (h : row.take p rx op m bs = .ok i rest) :
      row.refuses p rx = false ∧ row.body.take p rx op m bs = .ok i rest := by
    unfold Row.take at h
    split at h
    · cases h
    · exact ⟨Bool.eq_false_iff.2 ‹_›, h⟩
  cases rows with
  | nil => cases h
  | cons first rows =>
    by_cases hd : first.digit.isSome = true
    · rw [takeRow, if_pos hd] at h
      obtain ⟨m, bs', hm, h⟩ := Dec.bind_eq_ok.1 h
      split at h
      · cases h
      · rename_i row hfind
        have hdigit := digit_of_hitsDigit (List.find?_some hfind)
        exact ⟨row, List.mem_of_find?_eq_some hfind, some m, bs', take8_ok hm, fun _ => by simp [hdigit], of_take h⟩
    · rw [takeRow, if_neg hd] at h
      exact ⟨first, List.mem_cons_self, none, bs, rfl, nofun, of_take h⟩

theorem takeRex_ok {b b' : Byte} {rx : Option Rex} {bs rest : List Byte} (h : takeRex b bs = .ok (rx, b') rest) :
    bs.length = rx.toList.length + rest.length := by
  unfold takeRex at h
  split at h
  · cases h
    simp
  · obtain ⟨c, bs', hc, h⟩ := Dec.bind_eq_ok.1 h
    split at h
    · cases h
    · cases h
      rw [take8_ok hc]
      simp
      omega

theorem takeOpcode_ok {b op : Byte} {map2 : Bool} {bs rest : List Byte} (h : takeOpcode b bs = .ok (map2, op) rest) :
    1 + bs.length = (opcodeBytes map2 op).length + rest.length := by
  unfold takeOpcode at h
  split at h
  · cases h
  · split at h
    · obtain ⟨c, bs', hc, h⟩ := Dec.bind_eq_ok.1 h
      cases h
      rw [take8_ok hc]
      simp [opcodeBytes]
      omega
    · cases h
      rfl

/-- How many legacy bytes were seen. -/
def Legacy.count (l : Legacy) : Nat := l.opsize.toNat + l.seg.toList.length + l.rep.toList.length

theorem Legacy.count_mark {l l' : Legacy} {k : Mark} (h : l.mark k = some l') : l'.count = l.count + 1 := by
  obtain ⟨opsize, seg, rep⟩ := l
  cases k with
  | opsize => cases opsize <;> cases h; simp [Legacy.count]; omega
  | seg g => cases seg <;> cases h; simp [Legacy.count]; omega
  | rep r => cases rep <;> cases h; rfl

theorem Legacy.count_marks {l l' : Legacy} {ks : List Mark} (h : l.marks ks = some l') :
    l'.count = l.count + ks.length := by
  induction ks generalizing l with
  | nil => cases h; rfl
  | cons k ks ih =>
    obtain ⟨l₁, h₁, h₂⟩ := Option.bind_eq_some_iff.1 h
    rw [ih h₂, Legacy.count_mark h₁, List.length_cons, Nat.add_assoc, Nat.add_comm 1]

/-- What the decoder answers is an instruction of a row, under the legacy bytes that were read and operands that have an
encoding; after the legacy bytes it consumed what the encoding of the row has there. -/
theorem decode_ok {bs rest : List Byte} {i : Instr} (h : decode bs = .ok i rest) :
    ∃ l b bs', takeLegacy Legacy.start bs = .ok (l, b) bs' ∧ ∃ row ∈ opcodeTable, ∃ rex t imm ok,
      l.rep = row.cls.rep ∧ row.allows ⟨l.opsize, l.seg, rex⟩ = true ∧
      row.body.Form row.digitBits ⟨l.opsize, l.seg, rex⟩ i t imm ok ∧ ok = true ∧
      1 + bs'.length = rex.toList.length + (opcodeBytes row.map2 row.op).length + (t.bytes []).length + imm.length
        + rest.length := by
  rw [decode_eq] at h
  obtain ⟨⟨l, b⟩, bs₁, h₁, h⟩ := Dec.bind_eq_ok.1 h
  obtain ⟨⟨rx, b'⟩, bs₂, h₂, h⟩ := Dec.bind_eq_ok.1 h
  obtain ⟨⟨map2, op⟩, bs₃, h₃, h⟩ := Dec.bind_eq_ok.1 h
  obtain ⟨row, hrow, m, bs₄, hbs, hm, hrefuses, h⟩ := takeRow_ok h
  obtain ⟨hr, hhits⟩ := Row.mem_filter.1 hrow
  obtain ⟨hmap, -, hadmits⟩ := Row.hits_iff.1 hhits
  have hrep : l.rep = row.cls.rep := by
    revert hadmits
    cases row.cls <;> simp +contextual [Cls.admits, Cls.rep]
  have hnone (hp : rx.map Rex.w = none) : rx.getD Rex.none = Rex.none := by
    rw [Option.map_eq_none_iff.1 hp]
    rfl
  obtain ⟨t, imm, ok, hform, hok, hlen⟩ :=
    Body.take_ok hnone (fun hsome => digit_isSome_iff row hr ▸ hm hsome) h row.digitBits
  refine ⟨l, b, bs₁, h₁, row, hr, rx.map Rex.w, t, imm, ok, hrep, ?_, hform, hok, ?_⟩
  · have hallows : row.allows ⟨l.opsize, l.seg, rx.map Rex.w⟩ = (row.cls.admits l && !(row.no66 && l.opsize)) := by
      rw [Row.allows, Cls.legacy, ← hrep]
    simp only [Row.refuses, Bool.or_eq_false_iff] at hrefuses
    rw [hallows, hadmits, hrefuses.1]
    rfl
  · have h₂' := takeRex_ok h₂
    have h₃' := takeOpcode_ok h₃
    have hop : (opcodeBytes map2 op).length = (opcodeBytes row.map2 row.op).length := by rw [hmap]; cases map2 <;> rfl
    rw [hbs, List.length_append] at h₃'
    simp only [Option.length_toList, Option.isSome_map]
    simp only [Option.length_toList] at h₂' h₃' hlen
    omega

/-! ## The number of bytes (R110) -/

/-- `ilen` of an instruction of a row, part by part. -/
theorem length_form {row : Row} {p : Pfx} {i : Instr} {t : Tail} {imm : List Byte} {ok : Bool}
    (hr : row ∈ opcodeTable) (h : row.body.Form row.digitBits p i t imm ok) :
    i.length = (row.cls.legacy p).count + p.rex.toList.length + (opcodeBytes row.map2 row.op).length
      + (t.bytes []).length + imm.length := by
  obtain ⟨hlayout, -⟩ := form_laysOut row hr p i t imm ok h
  have hreg (hmap : row.map2 = true) : t.regInOpcode = false :=
    h.regInOpcode_eq ▸ map2_regInOpcode row hr hmap
  have hbytes := layout_bytes i.layout []
  rw [List.append_nil, hlayout] at hbytes
  have hmarks := Legacy.count_marks (marks_pfx p row.cls)
  have hrex : (rexBytes p.rex t).length = p.rex.toList.length := by unfold rexBytes; cases p.rex <;> rfl
  have hop : (opcodeBytes row.map2 (t.opcode row.op)).length = (opcodeBytes row.map2 row.op).length := by
    cases row.map2 <;> rfl
  have hstart : Legacy.start.count = 0 := rfl
  rw [Instr.length, encode, hlayout, hbytes, Tail.bytes_eq hreg]
  simp only [List.length_append, List.length_map, List.length_nil, hrex, hop]
  omega

/-- The decoder consumes as many bytes as the encoder writes. -/
theorem decode_length {bs rest : List Byte} {i : Instr} (h : decode bs = .ok i rest) :
    bs.length = i.length + rest.length := by
  obtain ⟨l, b, bs', hlegacy, row, hr, rex, t, imm, ok, hrep, -, hform, -, hlen⟩ := decode_ok h
  obtain ⟨ks, rfl, hks, -⟩ := takeLegacy_ok hlegacy
  have hcount := Legacy.count_marks hks
  have hl : row.cls.legacy ⟨l.opsize, l.seg, rex⟩ = l := by rw [Cls.legacy, ← hrep]
  have hstart : Legacy.start.count = 0 := rfl
  rw [length_form hr hform, hl]
  simp only [List.length_append, List.length_map, List.length_cons]
  omega

/-! ## At most 14 bytes (R157) -/

/-- On `bs` a part of the decoder consumes at most `n` bytes, and asks for another only where there are fewer. -/
def Bounded {α : Type} (n : Nat) (bs : List Byte) : Dec α → Prop
  | .ok _ rest => bs.length ≤ n + rest.length
  | .bad _ => True
  | .short => bs.length < n

theorem Bounded.mono {α : Type} {m n : Nat} {bs : List Byte} {d : Dec α} (h : Bounded m bs d) (hmn : m ≤ n) :
    Bounded n bs d := by
  cases d with
  | ok a rest => exact Nat.le_trans h (Nat.add_le_add_right hmn _)
  | bad rest => trivial
  | short => exact Nat.lt_of_lt_of_le h hmn

/-- One byte more. -/
theorem Bounded.cons {α : Type} {n : Nat} {bs : List Byte} {d : Dec α} (h : Bounded n bs d) (b : Byte) :
    Bounded (1 + n) (b :: bs) d := by
  cases d with
  | ok a rest =>
    have hlen : bs.length ≤ n + rest.length := h
    show bs.length + 1 ≤ 1 + n + rest.length
    omega
  | bad rest => trivial
  | short =>
    have hlen : bs.length < n := h
    show bs.length + 1 < 1 + n
    omega

/-- A part of the decoder that never needs more than `n` bytes. -/
def Within {α : Type} (n : Nat) (P : List Byte → Dec α) : Prop := ∀ bs, Bounded n bs (P bs)

theorem Within.mono {α : Type} {m n : Nat} {P : List Byte → Dec α} (h : Within m P) (hmn : m ≤ n) : Within n P :=
  fun bs => (h bs).mono hmn

theorem within_ok {α : Type} (a : α) : Within 0 fun bs => Dec.ok a bs := fun bs => (Nat.zero_add bs.length).ge

theorem Bounded.bind {α β : Type} {m n : Nat} {bs : List Byte} {d : Dec α} {f : α → List Byte → Dec β}
    (hd : Bounded m bs d) (hf : ∀ a, Within n (f a)) : Bounded (m + n) bs (d.bind f) := by
  cases d with
  | bad rest => trivial
  | short => exact Nat.lt_of_lt_of_le hd (Nat.le_add_right m n)
  | ok a rest =>
    have hlen : bs.length ≤ m + rest.length := hd
    have hrest := hf a rest
    rw [Dec.bind_ok]
    revert hrest
    cases f a rest with
    | bad => exact fun _ => trivial
    | short => intro (h : rest.length < n); show bs.length < m + n; omega
    | ok b rest' =>
      intro (h : rest.length ≤ n + rest'.length)
      show bs.length ≤ m + n + rest'.length
      omega

theorem Within.bind {α β : Type} {m n : Nat} {P : List Byte → Dec α} {f : α → List Byte → Dec β} (hP : Within m P)
    (hf : ∀ a, Within n (f a)) : Within (m + n) fun bs => (P bs).bind f := fun bs => (hP bs).bind hf

theorem within_take8 : Within 1 take8 := by
  intro bs
  cases bs with
  | nil => exact Nat.one_pos
  | cons b bs => exact (Nat.add_comm bs.length 1).le

theorem within_take16 : Within 2 take16 := by
  intro bs
  rw [take16_eq]
  exact (within_take8 bs).bind fun _ => within_take8.bind fun _ => within_ok _

theorem within_take32 : Within 4 take32 := by
  intro bs
  rw [take32_eq]
  exact (within_take8 bs).bind fun _ => within_take8.bind fun _ => within_take8.bind fun _ =>
    within_take8.bind fun _ => within_ok _

theorem within_take64 : Within 8 take64 := by
  intro bs
  rw [take64_eq]
  exact (within_take8 bs).bind fun _ => within_take8.bind fun _ => within_take8.bind fun _ =>
    within_take8.bind fun _ => within_take8.bind fun _ => within_take8.bind fun _ =>
    within_take8.bind fun _ => within_take8.bind fun _ => within_ok _

theorem within_takeDisp (mod : BitVec 2) : Within 4 (takeDisp mod) := by
  intro bs
  unfold takeDisp
  split
  · exact ((within_take8.bind fun _ => within_ok _).mono (by decide)) bs
  · split
    · exact (within_take32.bind fun _ => within_ok _) bs
    · exact ((within_ok _).mono (by decide)) bs

theorem within_takeSib (rx : Rex) (mod : BitVec 2) : Within 5 (takeSib rx mod) := by
  refine within_take8.bind (n := 4) fun sib bs => ?_
  split
  · exact (within_take32.bind fun _ => within_ok _) bs
  · exact ((within_takeDisp mod).bind fun _ => within_ok _) bs

theorem within_takeRM (rx : Rex) (m : Byte) : Within 5 (takeRM rx m) := by
  intro bs
  unfold takeRM
  split
  · exact ((within_ok _).mono (by decide)) bs
  · split
    · exact ((within_takeSib rx _).bind fun _ => within_ok _) bs
    · split
      · exact ((within_take32.bind fun _ => within_ok _).mono (by decide)) bs
      · exact (((within_takeDisp _).bind fun _ => within_ok _).mono (by decide)) bs

theorem within_takeIz (p : Pfx) : Within 4 (takeIz p) := by
  intro bs
  unfold takeIz
  split
  · exact ((within_take16.bind fun _ => within_ok _).mono (by decide)) bs
  · exact (within_take32.bind fun _ => within_ok _) bs

theorem within_takeIv (p : Pfx) : Within 8 (takeIv p) := by
  intro bs
  unfold takeIv
  split
  · exact ((within_take16.bind fun _ => within_ok _).mono (by decide)) bs
  · exact (within_take64.bind fun _ => within_ok _) bs
  · exact ((within_take32.bind fun _ => within_ok _).mono (by decide)) bs

/-- The bytes that a body may need after the ModRM byte, or after the opcode where it has none. -/
def Body.room : Body → Nat
  | .modrm _ => 5
  | .rm _ => 5
  | .rmI8 _ => 6
  | .rmIz _ => 9
  | .vmi _ => 1
  | .i8 _ => 1
  | .iz _ => 4
  | .i32 _ => 4
  | .opI8 _ => 1
  | .opIv _ => 8
  | .none _ => 0

/-- The bytes that a body may need, with the ModRM byte unless it was read. -/
def Body.need (body : Body) (m : Option Byte) : Nat := (if m.isSome then 0 else 1) + body.room

theorem within_takeModRM (m : Option Byte) : Within (if m.isSome then 0 else 1) (takeModRM m) := by
  cases m with
  | none => exact within_take8
  | some b => exact within_ok b

theorem within_bodyTake (body : Body) (p : Pfx) (rx : Rex) (op : Byte) (m : Option Byte) :
    Within (body.need m) (body.take p rx op m) := by
  have hm := within_takeModRM m
  have hrm := within_takeRM rx
  cases body with
  | modrm mk => exact hm.bind fun m => (hrm m).bind fun x => within_ok _
  | rm mk => exact hm.bind fun m => (hrm m).bind fun x => within_ok _
  | rmI8 mk => exact hm.bind fun m => (hrm m).bind fun x => within_take8.bind fun v => within_ok _
  | rmIz mk => exact hm.bind fun m => (hrm m).bind fun x => (within_takeIz p).bind fun v => within_ok _
  | vmi mk => exact hm.bind fun m => within_take8.bind fun v => within_ok _
  | i8 mk => exact (within_take8.bind fun v => within_ok _).mono (Nat.le_add_left _ _)
  | iz mk => exact ((within_takeIz p).bind fun v => within_ok _).mono (Nat.le_add_left _ _)
  | i32 mk => exact (within_take32.bind fun v => within_ok _).mono (Nat.le_add_left _ _)
  | opI8 mk => exact (within_take8.bind fun v => within_ok _).mono (Nat.le_add_left _ _)
  | opIv mk => exact ((within_takeIv p).bind fun v => within_ok _).mono (Nat.le_add_left _ _)
  | none mk => exact (within_ok _).mono (Nat.zero_le _)

theorem within_rowTake (row : Row) (p : Pfx) (rx : Rex) (op : Byte) (m : Option Byte) :
    Within (row.body.need m) (row.take p rx op m) := by
  intro bs
  unfold Row.take
  split
  · trivial
  · exact within_bodyTake _ _ _ _ _ bs

theorem within_takeRow {rows : List Row} {n : Nat} (h : ∀ row ∈ rows, row.body.room ≤ n) (p : Pfx) (rx : Rex)
    (op : Byte) : Within (1 + n) (takeRow rows p rx op) := by
  intro bs
  cases rows with
  | nil => trivial
  | cons first rows =>
    by_cases hd : first.digit.isSome = true
    · rw [takeRow, if_pos hd]
      refine (within_take8 bs).bind fun m bs' => ?_
      split
      · trivial
      · rename_i row hfind
        refine ((within_rowTake row p rx op (some m)).mono ?_) bs'
        simpa [Body.need] using h row (List.mem_of_find?_eq_some hfind)
    · rw [takeRow, if_neg hd]
      exact ((within_rowTake first p rx op none).mono (Nat.add_le_add_left (h first List.mem_cons_self) 1)) bs

/-- No row needs more than 11 bytes from its opcode on. -/
theorem room_le : ∀ row ∈ opcodeTable, (opcodeBytes row.map2 row.op).length + (1 + row.body.room) ≤ 11 := by decide

theorem Legacy.count_le (l : Legacy) : l.count ≤ 3 :=
  Nat.add_le_add (Nat.add_le_add l.opsize.toNat_le Option.length_toList_le) Option.length_toList_le

/-- A row takes at most two of the three kinds of legacy bytes (R116). -/
theorem count_le_of_admits {c : Cls} {l : Legacy} (h : c.admits l = true) : l.count ≤ 2 := by
  have hone : l.rep = none ∨ l.opsize = false := by cases c <;> simp_all [Cls.admits]
  have hop := l.opsize.toNat_le
  have hseg := Option.length_toList_le (o := l.seg)
  have hrep := Option.length_toList_le (o := l.rep)
  obtain hno | hno := hone
  · simp only [Legacy.count, hno, Option.toList_none, List.length_nil]
    omega
  · simp only [Legacy.count, hno, Bool.toNat_false]
    omega

/-- The more legacy bytes there are, the less can follow. -/
theorem within_takeRow_hits (map2 : Bool) (l : Legacy) (p : Pfx) (rx : Rex) (op : Byte) :
    Within (1 + (12 - l.count - (opcodeBytes map2 op).length))
      (takeRow (opcodeTable.filter (Row.hits map2 op l)) p rx op) := by
  refine within_takeRow (fun row hrow => ?_) p rx op
  obtain ⟨hr, hhits⟩ := Row.mem_filter.1 hrow
  obtain ⟨rfl, -, hadmits⟩ := Row.hits_iff.1 hhits
  have hroom := room_le row hr
  have hcount := count_le_of_admits hadmits
  have hlen : (opcodeBytes row.map2 op).length = (opcodeBytes row.map2 row.op).length := by cases row.map2 <;> rfl
  omega

theorem within_decodeOpcode (l : Legacy) (rx : Option Rex) (b : Byte) :
    Within (12 - l.count) (decodeOpcode l rx b) := by
  intro bs
  have hcount := l.count_le
  have hmap1 := within_takeRow_hits false l ⟨l.opsize, l.seg, rx.map Rex.w⟩ (rx.getD Rex.none)
  have hmap2 := within_takeRow_hits true l ⟨l.opsize, l.seg, rx.map Rex.w⟩ (rx.getD Rex.none)
  unfold decodeOpcode takeOpcode
  split
  · trivial
  · split
    · rw [Dec.bind_assoc]
      refine ((within_take8 bs).bind (n := 1 + (12 - l.count - 2)) hmap2).mono ?_
      show 1 + (1 + (12 - l.count - 2)) ≤ 12 - l.count
      omega
    · refine (hmap1 b bs).mono ?_
      show 1 + (12 - l.count - 1) ≤ 12 - l.count
      omega

theorem within_takeRex (b : Byte) : Within 1 (takeRex b) := by
  intro bs
  unfold takeRex
  split
  · exact ((within_ok _).mono (by decide)) bs
  · refine (within_take8 bs).bind (n := 0) fun b' => ?_
    intro bs
    split
    · trivial
    · exact (within_ok _) bs

/-- The decoder after the legacy bytes `l`. By induction on the bytes: each legacy byte is one more of `l`, and the
first other byte begins what `within_decodeOpcode` bounds. -/
theorem within_decodeAfter (l : Legacy) : Within (14 - l.count) (decodeAfter l) := by
  intro bs
  induction bs generalizing l with
  | nil =>
    have hcount := l.count_le
    show 0 < 14 - l.count
    omega
  | cons b bs ih =>
    have hcount := l.count_le
    rw [decodeAfter, takeLegacy_cons]
    cases hk : markOf b with
    | none =>
      cases refusedLegacy b with
      | true => trivial
      | false =>
        have hrest := (within_takeRex b bs).bind fun rb => within_decodeOpcode l rb.1 rb.2
        exact (hrest.cons b).mono (by omega)
    | some k =>
      cases hl : l.mark k with
      | none => simp only [hl, Dec.bind_bad, Bounded]
      | some l' =>
        have hcount' := Legacy.count_mark hl
        have hle := l'.count_le
        simp only [hl]
        exact ((ih l').cons b).mono (by omega)

/-- No instruction has more than 14 bytes, and 14 bytes are always enough to decide (R157). -/
theorem within_decode : Within 14 decode := within_decodeAfter Legacy.start

/-- Settles O2: the answer is of a row, under the row's conditions, and `ilen` is what was consumed. -/
theorem decodeWellFormed : Obligations.DecodeWellFormed := by
  intro bs i rest h
  have hlen := decode_length h
  have hwithin := within_decode bs
  rw [h] at hwithin
  obtain ⟨l, b, bs', -, row, hr, rex, t, imm, ok, -, hallows, hform, hok, -⟩ := decode_ok h
  obtain ⟨-, hwf⟩ := form_laysOut row hr _ i t imm ok hform
  have hone : 1 ≤ i.length := by
    have hop : 1 ≤ (opcodeBytes row.map2 row.op).length := by
      cases row.map2 <;> exact Nat.succ_le_succ (Nat.zero_le _)
    rw [length_form hr hform]
    omega
  have hmost : bs.length ≤ 14 + rest.length := hwithin
  refine ⟨by rw [hwf, hallows, hok]; rfl, hone, by omega, by omega, ?_⟩
  obtain ⟨u, rfl⟩ : ∃ u, bs = u ++ rest := by
    have hreads := online_decode bs
    rw [h] at hreads
    obtain ⟨u, hu, -⟩ := hreads
    exact ⟨u, hu⟩
  rw [List.length_append] at hlen
  exact (List.drop_left' (by omega)).symm

end Sys2Proof
end

section
/-! SUPPORT. What the decoder refuses (30_encoding.md R113, R116 to R121, R135, R150 to R155), and the statements O4, O5
and O6. -/

namespace Sys2Proof

/-! ## Prefixes (R113, R117, R119, R121) -/

/-- Settles O4: no legacy byte that may stand is `67` or `F0`, and only an opcode may follow a REX byte. -/
theorem refusedPrefixes : Obligations.RefusedPrefixes := by
  intro pre rest hpre
  constructor
  · intro b hb
    refine refuses_after hpre fun l _ => ⟨rest, ?_⟩
    have hbad : takeLegacy l (b :: rest) = .bad rest := by obtain rfl | rfl := hb <;> rfl
    rw [decodeAfter, hbad, Dec.bind_bad]
  · intro x b hx hb
    refine refuses_after hpre fun l _ => ⟨rest, ?_⟩
    have hstop : (isLegacy b || (rexOf b).isSome) = true := by
      obtain hb | rfl | rfl | hb := hb
      · obtain ⟨k, rfl⟩ := mark_mem_iff.1 hb
        rw [isLegacy_eq, markOf_byte]
        rfl
      · rfl
      · rfl
      · rw [isRex_iff.1 hb, Bool.or_true]
    obtain ⟨rx, hrx⟩ := Option.isSome_iff_exists.1 (isRex_iff.1 hx)
    have hbad : takeRex x (b :: rest) = .bad rest := by
      simp only [takeRex, hrx, take8, Dec.bind_ok, hstop, if_true]
    rw [decodeAfter, takeLegacy_end l (isLegacy_of_rex (isRex_iff.1 hx)), Dec.bind_ok, hbad, Dec.bind_bad]

/-- The bytes of a mark's kind. -/
def Mark.kind : Mark → List Byte
  | .opsize => [0x66]
  | .seg _ => [0x26, 0x2E, 0x36, 0x3E, 0x64, 0x65]
  | .rep _ => [0xF3, 0xF2]

theorem Mark.kind_eq (k : Mark) : ∀ kind ∈ legacyKinds, k.byte ∈ kind → k.kind = kind := by
  cases k with
  | opsize => decide
  | seg g => cases g <;> decide
  | rep r => cases r <;> decide

/-- Two marks of one kind are never both recorded. -/
theorem Legacy.mark_mark_none (l : Legacy) {j k : Mark} (h : j.kind = k.kind) :
    ((l.mark j).bind fun l' => l'.mark k) = none := by
  cases j with
  | opsize =>
    cases k with
    | opsize => cases ho : l.opsize <;> simp [Legacy.mark, ho]
    | seg | rep => simp [Mark.kind] at h
  | seg g =>
    cases k with
    | seg g' => cases hs : l.seg <;> simp [Legacy.mark, hs]
    | opsize | rep => simp [Mark.kind] at h
  | rep r =>
    cases k with
    | rep r' => cases hr : l.rep <;> simp [Legacy.mark, hr]
    | opsize | seg => simp [Mark.kind] at h

theorem Legacy.marks_append (l : Legacy) (ks ks' : List Mark) :
    l.marks (ks ++ ks') = (l.marks ks).bind fun l' => l'.marks ks' := by
  induction ks generalizing l with
  | nil => rfl
  | cons k ks ih =>
    simp only [List.cons_append, Legacy.marks, Option.bind_assoc, ih]

/-- Wherever the two stand. -/
theorem Legacy.marks_none (l : Legacy) {j k : Mark} (h : j.kind = k.kind) (pre mid : List Mark) :
    l.marks (pre ++ j :: (mid ++ [k])) = none := by
  have hperm : (pre ++ j :: (mid ++ [k])).Perm ([j, k] ++ (pre ++ mid)) := by
    refine List.perm_middle.trans (.cons j ?_)
    rw [← List.append_assoc]
    exact List.perm_append_singleton k (pre ++ mid)
  have htwo : l.marks [j, k] = none := by
    have hnone := l.mark_mark_none h
    simpa [Legacy.marks, Option.bind_assoc] using hnone
  rw [Legacy.marks_perm hperm, Legacy.marks_append, htwo]
  rfl

/-- Settles O5: the legacy bytes are marks, two of one kind are not both recorded, and the order of the marks does not
matter. -/
theorem prefixDiscipline : Obligations.PrefixDiscipline := by
  constructor
  · intro kind pre mid rest x y hkind hx hy hpre hmid
    obtain ⟨j, rfl⟩ := mark_mem_iff.1 (List.mem_flatten.2 ⟨kind, hkind, hx⟩)
    obtain ⟨k, rfl⟩ := mark_mem_iff.1 (List.mem_flatten.2 ⟨kind, hkind, hy⟩)
    obtain ⟨ks, rfl⟩ := hpre.exists_marks
    obtain ⟨ks', rfl⟩ := hmid.exists_marks
    have hnone := Legacy.start.marks_none ((j.kind_eq kind hkind hx).trans (k.kind_eq kind hkind hy).symm) ks ks'
    simpa using decode_marks_none hnone rest
  · intro pre pre' bs i rest hpre hperm
    obtain ⟨ks, rfl⟩ := hpre.exists_marks
    have hpre' : AllLegacy pre' := fun b hb => hpre b (hperm.mem_iff.2 hb)
    obtain ⟨ks', rfl⟩ := hpre'.exists_marks
    have hmarks : ks.Perm ks' := (List.map_perm_map_iff fun _ _ => Mark.byte_inj).1 hperm
    have hsame := Legacy.marks_perm hmarks Legacy.start
    cases hl : Legacy.start.marks ks with
    | some l => rw [decode_marks hl, decode_marks (hsame.symm.trans hl)]
    | none =>
      obtain ⟨r, hr⟩ := decode_marks_none hl bs
      obtain ⟨r', hr'⟩ := decode_marks_none (hsame.symm.trans hl) bs
      rw [hr, hr']
      exact ⟨nofun, nofun⟩

/-! ## Opcodes with no row, and rows that refuse (R116, R135, R150 to R152) -/

theorem exists_rexIs {rex : List Byte} (h : rex = [] ∨ ∃ x, IsRex x ∧ rex = [x]) : ∃ rx, RexIs rex rx := by
  obtain rfl | ⟨x, hx, rfl⟩ := h
  · exact ⟨_, .absent⟩
  · obtain ⟨rx, hrx⟩ := Option.isSome_iff_exists.1 (isRex_iff.1 hx)
    exact ⟨_, .present hrx⟩

/-- Rows that are of no group and refuse. -/
theorem takeRow_bad_plain {rows : List Row} {p : Pfx} {rx : Rex}
    (h : ∀ row ∈ rows, row.digit = none ∧ row.refuses p rx = true) (op : Byte) (bs : List Byte) :
    ∃ rest, takeRow rows p rx op bs = .bad rest := by
  cases rows with
  | nil => exact ⟨bs, rfl⟩
  | cons first rows =>
    obtain ⟨hd, hrefuses⟩ := h first List.mem_cons_self
    exact ⟨bs, by simp [takeRow, hd, Row.take, hrefuses]⟩

/-- Rows of a group that refuse wherever the ModRM byte chooses them. -/
theorem takeRow_bad_group {rows : List Row} {p : Pfx} {rx : Rex} {m : Byte}
    (h : ∀ row ∈ rows, row.digit.isSome = true ∧ (row.hitsDigit m = true → row.refuses p rx = true)) (op : Byte)
    (bs : List Byte) : ∃ rest, takeRow rows p rx op (m :: bs) = .bad rest := by
  cases rows with
  | nil => exact ⟨m :: bs, rfl⟩
  | cons first rows =>
    rw [takeRow, if_pos (h first List.mem_cons_self).1, take8, Dec.bind_ok]
    cases hfind : (first :: rows).find? (Row.hitsDigit m) with
    | none => exact ⟨bs, rfl⟩
    | some row =>
      obtain ⟨-, hrefuses⟩ := h row (List.mem_of_find?_eq_some hfind)
      exact ⟨bs, if_pos (hrefuses (List.find?_some hfind))⟩

section
variable {pre rex : List Byte} {rx : Option Rex} {map2 : Bool} {op : Byte}

/-- After the prefixes the decoder refuses where the rows that the opcode hits do. -/
theorem refuses_opcode (hpre : AllLegacy pre) (hrex : RexIs rex rx)
    (hop : map2 = false → BeginsOpcode op ∧ op ∉ escapes) (bs : List Byte)
    (h : ∀ l, Tracks pre l → ∃ rest, takeRow (opcodeTable.filter (Row.hits map2 op l))
      ⟨l.opsize, l.seg, rx.map Rex.w⟩ (rx.getD Rex.none) op bs = .bad rest) :
    DecodeRefuses (pre ++ (rex ++ (opcodeBytes map2 op ++ bs))) := by
  refine refuses_after hpre fun l hl => ?_
  obtain ⟨rest, hrest⟩ := h l hl
  exact ⟨rest, (decodeAfter_opcode hrex hop l bs).trans hrest⟩

/-- It does where no row is hit. -/
theorem refuses_no_row (hpre : AllLegacy pre) (hrex : RexIs rex rx)
    (hop : map2 = false → BeginsOpcode op ∧ op ∉ escapes) (bs : List Byte)
    (h : ∀ l, Tracks pre l → ∀ row ∈ opcodeTable, ¬row.hits map2 op l = true) :
    DecodeRefuses (pre ++ (rex ++ (opcodeBytes map2 op ++ bs))) := by
  refine refuses_opcode hpre hrex hop bs fun l hl => ⟨bs, ?_⟩
  rw [List.filter_eq_nil_iff.2 (h l hl)]
  rfl

/-- VEX and EVEX (R124). -/
theorem refuses_escape (hpre : AllLegacy pre) (hrex : RexIs rex rx) (hb : BeginsOpcode op) (hop : op ∈ escapes)
    (h0F : op ≠ 0x0F) (bs : List Byte) : DecodeRefuses (pre ++ (rex ++ (op :: bs))) := by
  refine refuses_after hpre fun l _ => ⟨bs, ?_⟩
  have hbad : takeOpcode op bs = .bad bs := by
    simp only [escapes, List.mem_cons, List.not_mem_nil, or_false] at hop
    exact if_pos (by tauto)
  rw [decodeAfter_rex hrex hb, decodeOpcode, hbad, Dec.bind_bad]

/-- A one-byte opcode with no row, or with `F3` or `F2` (R116, R150). -/
theorem refuses_mapOne (hpre : AllLegacy pre) (hrex : RexIs rex rx) (hleg : op ∉ legacyKinds.flatten)
    (hnot : ¬IsRex op) (h0F : op ≠ 0x0F) (h : op ∉ mapOneOpcodes ∨ 0xF3 ∈ pre ∨ 0xF2 ∈ pre) (bs : List Byte) :
    DecodeRefuses (pre ++ (rex ++ (op :: bs))) := by
  obtain ⟨hpfx, hafter⟩ := refusedPrefixes pre bs hpre
  by_cases hr : op = 0x67 ∨ op = 0xF0
  · cases hrex with
    | absent => exact hpfx op hr
    | present hx => exact hafter _ op (isRex_iff.2 (Option.isSome_of_eq_some hx)) (.inr (or_assoc.1 (.inl hr)))
  have hb : BeginsOpcode op := by
    refine ⟨?_, Option.not_isSome_iff_eq_none.1 fun hsome => hnot (isRex_iff.2 hsome)⟩
    simp only [isLegacy_eq, markOf_eq_none hleg, refusedLegacy, Option.isSome_none, Bool.false_or, Bool.or_eq_false_iff,
      beq_eq_false_iff_ne]
    exact ⟨fun h => hr (.inr h), fun h => hr (.inl h)⟩
  by_cases hesc : op ∈ escapes
  · exact refuses_escape hpre hrex hb hesc h0F bs
  refine refuses_no_row (map2 := false) hpre hrex (fun _ => ⟨hb, hesc⟩) bs fun l hl row hrow hhits => ?_
  obtain ⟨hmap, hop, hadmits⟩ := Row.hits_iff.1 hhits
  have hrep : l.rep = none := by simpa [map1_cls row hrow hmap, Cls.admits] using hadmits
  obtain h | h | h := h
  · exact h (map1_op_mem hrow hmap hop)
  · exact absurd ((hl.rep .f3).2 h) (by simp [hrep])
  · exact absurd ((hl.rep .f2).2 h) (by simp [hrep])

/-- The byte that a class stands under in the table of R151. -/
def Cls.byte : Cls → Option Byte
  | .p66 => some 0x66
  | .f3 => some 0xF3
  | .f2 => some 0xF2
  | _ => none

theorem classIs_of_admits {c : Cls} {l : Legacy} (hl : Tracks pre l) (hc : c ≠ .any) (h : c.admits l = true) :
    ClassIs pre c.byte := by
  have h66 : (0x66 : Byte) ∈ pre ↔ c.byte = some 0x66 := by
    rw [← hl.opsize]
    cases c <;> simp_all [Cls.admits, Cls.byte]
  have hrep (r : Rep) : r.byte ∈ pre ↔ c.byte = some r.byte := by
    rw [← hl.rep r]
    cases c <;> cases r <;> simp_all [Cls.admits, Cls.byte, Rep.byte]
  simp only [ClassIs, List.forall_mem_cons]
  exact ⟨h66, hrep .f3, hrep .f2, nofun⟩

/-- A class and opcode after `0F` with no row (R151). -/
theorem refuses_mapTwo (hpre : AllLegacy pre) (hrex : RexIs rex rx)
    (h : ∀ c ops, (c, ops) ∈ mapTwoOpcodes → op ∈ ops → ¬ClassIs pre c) (bs : List Byte) :
    DecodeRefuses (pre ++ (rex ++ (0x0F :: op :: bs))) := by
  refine refuses_no_row (map2 := true) hpre hrex nofun bs fun l hl row hrow hhits => ?_
  obtain ⟨hmap, hop, hadmits⟩ := Row.hits_iff.1 hhits
  have hlisted : ∀ row ∈ opcodeTable, row.map2 = true →
      ∃ e ∈ mapTwoOpcodes, e.1 = row.cls.byte ∧ row.op ∈ e.2 := by decide
  obtain ⟨⟨c, ops⟩, hmem, rfl, hin⟩ := hlisted row hrow hmap
  exact h _ ops hmem (row_op_eq hrow hop (.inl hmap) ▸ hin) (classIs_of_admits hl (map2_cls row hrow hmap) hadmits)

/-! ## The cases that need the bytes after the opcode, or REX.B -/

theorem midOf_toNat (m : Byte) : (midOf m).toNat = m.toNat / 8 % 8 := by
  rw [midOf, BitVec.extractLsb'_toNat, Nat.shiftRight_eq_div_pow]

theorem modOf_toNat (m : Byte) : (modOf m).toNat = m.toNat / 64 := by
  have hlt := m.isLt
  rw [modOf, BitVec.extractLsb'_toNat, Nat.shiftRight_eq_div_pow]
  omega

/-- A one-byte opcode without a register in it, all of whose rows refuse. -/
theorem refuses_plain_rows (hpre : AllLegacy pre) (hrex : RexIs rex rx)
    (hop : op ∈ mapOneOpcodes ∧ op &&& 0xF8 ∉ [0xB0, 0xB8])
    (h : ∀ l, Tracks pre l → ∀ row ∈ opcodeTable, row.map2 = false → row.op = op →
      row.digit = none ∧ row.refuses ⟨l.opsize, l.seg, rx.map Rex.w⟩ (rx.getD Rex.none) = true) (bs : List Byte) :
    DecodeRefuses (pre ++ (rex ++ (op :: bs))) := by
  refine refuses_opcode (map2 := false) hpre hrex (fun _ => mapOne_beginsOpcode op hop.1) bs fun l hl =>
    takeRow_bad_plain (fun row hrow => ?_) op bs
  obtain ⟨hr, hhits⟩ := Row.mem_filter.1 hrow
  obtain ⟨hmap, hop', -⟩ := Row.hits_iff.1 hhits
  exact h l hl row hr hmap (row_op_eq hr hop' (.inr hop.2))

/-- A group opcode with a ModRM byte that no row takes. -/
theorem refuses_group (hpre : AllLegacy pre) (hrex : RexIs rex rx) {m : Byte}
    (hop : map2 = false → op ∈ mapOneOpcodes ∧ op &&& 0xF8 ∉ [0xB0, 0xB8])
    (h : ∀ l, Tracks pre l → ∀ row ∈ opcodeTable, row.map2 = map2 → row.op = op →
      row.digit.isSome = true ∧ (row.hitsDigit m = true →
        row.refuses ⟨l.opsize, l.seg, rx.map Rex.w⟩ (rx.getD Rex.none) = true)) (bs : List Byte) :
    DecodeRefuses (pre ++ (rex ++ (opcodeBytes map2 op ++ m :: bs))) := by
  refine refuses_opcode hpre hrex (fun hmap => mapOne_beginsOpcode op (hop hmap).1) (m :: bs) fun l hl =>
    takeRow_bad_group (fun row hrow => ?_) op bs
  obtain ⟨hr, hhits⟩ := Row.mem_filter.1 hrow
  obtain ⟨hmap, hop', -⟩ := Row.hits_iff.1 hhits
  have hfull : row.map2 = true ∨ op &&& 0xF8 ∉ [0xB0, 0xB8] := by
    cases map2 with
    | true => exact .inl hmap
    | false => exact .inr (hop rfl).2
  exact h l hl row hr hmap (row_op_eq hr hop' hfull)

/-- The opcodes that have no row whatever the prefixes (R150, R151, R155). -/
theorem refuses_refusedOpcodes (hpre : AllLegacy pre) (hrex : RexIs rex rx) (bs : List Byte) :
    ∀ op ∈ refusedOpcodes, DecodeRefuses (pre ++ (rex ++ (op ++ bs))) := by
  have hcases : ∀ op ∈ refusedOpcodes,
      (op = [op.getLastD 0] ∧ op.getLastD 0 ∉ legacyKinds.flatten ∧ rexOf (op.getLastD 0) = none ∧
        op.getLastD 0 ≠ 0x0F ∧ op.getLastD 0 ∉ mapOneOpcodes) ∨
      (op = [0x0F, op.getLastD 0] ∧ ∀ e ∈ mapTwoOpcodes, op.getLastD 0 ∉ e.2) := by decide
  intro op hop
  obtain ⟨hone, hleg, hnone, h0F, hmap⟩ | ⟨htwo, hmap⟩ := hcases op hop
  · rw [hone]
    refine refuses_mapOne hpre hrex hleg (fun hr => ?_) h0F (.inl hmap) bs
    rw [isRex_iff, hnone] at hr
    cases hr
  · rw [htwo]
    exact refuses_mapTwo hpre hrex (fun c ops hmem hin => absurd hin (hmap (c, ops) hmem)) bs

/-- `66` on a one-byte control transfer (R135). -/
theorem refuses_transfer (hpre : AllLegacy pre) (hrex : RexIs rex rx) (h66 : 0x66 ∈ pre) (hop : op ∈ transferOpcodes)
    (bs : List Byte) : DecodeRefuses (pre ++ (rex ++ (op :: bs))) := by
  have hmapOne : ∀ op ∈ transferOpcodes, op ∈ mapOneOpcodes ∧ op &&& 0xF8 ∉ [0xB0, 0xB8] := by decide
  have hrows : ∀ row ∈ opcodeTable, row.map2 = false → row.op ∈ transferOpcodes →
      row.digit = none ∧ row.no66 = true := by decide
  refine refuses_plain_rows hpre hrex (hmapOne op hop) (fun l hl row hrow hmap hrowop => ?_) bs
  obtain ⟨hd, hno66⟩ := hrows row hrow hmap (hrowop ▸ hop)
  exact ⟨hd, by simp [Row.refuses, hno66, hl.opsize.2 h66]⟩

/-- `90` with REX.B (R150). -/
theorem refuses_nop {rx : Rex} (hpre : AllLegacy pre) (hrex : RexIs rex (some rx)) (hb : rx.b = true) (bs : List Byte) :
    DecodeRefuses (pre ++ (rex ++ (0x90 :: bs))) := by
  have hrows : ∀ row ∈ opcodeTable, row.map2 = false → row.op = 0x90 →
      row.digit = none ∧ row.noB = true := by decide
  refine refuses_plain_rows hpre hrex (by decide) (fun l _ row hrow hmap hrowop => ?_) bs
  obtain ⟨hd, hnoB⟩ := hrows row hrow hmap hrowop
  exact ⟨hd, by simp [Row.refuses, hnoB, hb]⟩

/-- `66` on `FF /2` and `FF /4` (R135). -/
theorem refuses_indirect (hpre : AllLegacy pre) (hrex : RexIs rex rx) (h66 : 0x66 ∈ pre) {m : Byte}
    (hm : m.toNat / 8 % 8 = 2 ∨ m.toNat / 8 % 8 = 4) (bs : List Byte) :
    DecodeRefuses (pre ++ (rex ++ (0xFF :: m :: bs))) := by
  have hrows : ∀ row ∈ opcodeTable, row.map2 = false → row.op = 0xFF →
      row.digit.isSome = true ∧ (row.digit ∈ [some 2, some 4] → row.no66 = true) := by decide
  refine refuses_group (map2 := false) hpre hrex (fun _ => by decide) (fun l hl row hrow hmap hrowop => ?_) bs
  obtain ⟨hd, hno66⟩ := hrows row hrow hmap hrowop
  refine ⟨hd, fun hhits => ?_⟩
  have hdigit : row.digit ∈ [some 2, some 4] := by
    rw [← midOf_toNat] at hm
    rw [digit_of_hitsDigit hhits]
    obtain h2 | h4 := hm
    · rw [show midOf m = 2 from BitVec.eq_of_toNat_eq h2]
      exact List.mem_cons_self
    · rw [show midOf m = 4 from BitVec.eq_of_toNat_eq h4]
      exact List.mem_cons_of_mem _ List.mem_cons_self
  simp [Row.refuses, hno66 hdigit, hl.opsize.2 h66]

theorem digit_mem_groupDigits : ∀ row ∈ opcodeTable, ∀ e ∈ groupDigits, opcodeBytes row.map2 row.op = e.1 →
    row.digit.isSome = true ∧ ∀ k ∈ row.digit, k.toNat ∈ e.2 := by
  decide +kernel

/-- A `/digit` with no row (R152). -/
theorem refuses_digit (hpre : AllLegacy pre) (hrex : RexIs rex rx) {ops : List Byte} {digits : List Nat}
    (hops : (ops, digits) ∈ groupDigits) {m : Byte} (hm : m.toNat / 8 % 8 ∉ digits) (bs : List Byte) :
    DecodeRefuses (pre ++ (rex ++ (ops ++ [m] ++ bs))) := by
  have hgroups : ∀ e ∈ groupDigits, e.1 = opcodeBytes (e.1.length == 2) (e.1.getLastD 0) ∧
      ((e.1.length == 2) = false →
        e.1.getLastD 0 ∈ mapOneOpcodes ∧ e.1.getLastD 0 &&& 0xF8 ∉ [0xB0, 0xB8]) := by decide
  obtain ⟨(heq : ops = _), hmapOne⟩ := hgroups (ops, digits) hops
  rw [heq, List.append_assoc]
  refine refuses_group hpre hrex hmapOne (fun l _ row hrow hmap hrowop => ?_) bs
  obtain ⟨hd, hdigits⟩ := digit_mem_groupDigits row hrow (ops, digits) hops (by rw [hmap, hrowop]; exact heq.symm)
  refine ⟨hd, fun hhits => absurd (hdigits _ (digit_of_hitsDigit hhits)) ?_⟩
  rw [midOf_toNat]
  exact hm

/-- A vector shift group with `mod` other than 3 (R152). -/
theorem refuses_vector_group (hpre : AllLegacy pre) (hrex : RexIs rex rx) (hop : op ∈ [0x71, 0x72, 0x73]) {m : Byte}
    (hm : m.toNat / 64 ≠ 3) (bs : List Byte) : DecodeRefuses (pre ++ (rex ++ (0x0F :: op :: m :: bs))) := by
  have hrows : ∀ row ∈ opcodeTable, row.map2 = true → row.op ∈ [0x71, 0x72, 0x73] →
      row.digit.isSome = true ∧ row.body.isVmi = true := by decide
  refine refuses_group (map2 := true) hpre hrex nofun (fun l _ row hrow hmap hrowop => ?_) bs
  obtain ⟨hd, hvmi⟩ := hrows row hrow hmap (hrowop ▸ hop)
  refine ⟨hd, fun hhits => absurd hm (not_not.2 ?_)⟩
  simp only [Row.hitsDigit, hvmi, Bool.and_eq_true, Bool.not_true, Bool.false_or, beq_iff_eq] at hhits
  rw [← modOf_toNat, hhits.2]
  rfl

end

/-- Settles O6: one lemma above for each of its clauses. -/
theorem refusedInstructions : Obligations.RefusedInstructions := by
  intro pre rex rest hpre hrex_or
  obtain ⟨rx, hrex⟩ := exists_rexIs hrex_or
  refine ⟨refuses_refusedOpcodes hpre hrex rest,
    fun op hleg hnot h0F h => refuses_mapOne hpre hrex hleg hnot h0F h rest,
    fun op h => refuses_mapTwo hpre hrex h rest,
    fun h66 op hop => refuses_transfer hpre hrex h66 hop rest,
    fun h66 m hm => refuses_indirect hpre hrex h66 hm rest,
    fun ops digits hops m hm => refuses_digit hpre hrex hops hm rest,
    fun op hop m hm => refuses_vector_group hpre hrex hop hm rest, ?nop⟩
  case nop =>
    rintro x rfl hbit
    cases hrex with
    | present hx =>
      refine refuses_nop hpre (.present hx) ?_ rest
      unfold rexOf at hx
      split at hx <;> cases hx
      exact hbit

end Sys2Proof
end

section
/-! SUPPORT. The `DecodeError` of a step (30_encoding.md R158, 60_exceptions.md R301): no access raises one, the window
at the pc is of bytes that can be fetched, and the statement O8. -/

namespace Sys2Proof.Machine

/-! ## Accesses raise no `DecodeError` (20_memory.md R75) -/

/-- The fault is a `DecodeError` (60_exceptions.md R301). -/
def Fault.isDecodeError : Fault → Bool
  | .decodeError _ _ => true
  | _ => false

theorem Vmm.isDecodeError_of_translate {m : Vmm} {a : Word} {n : Nat} {k : Access} {f : Fault}
    (h : m.translate a n k = .error f) : f.isDecodeError = false := by
  unfold Vmm.translate at h
  split at h
  · cases h
    rfl
  · split at h
    · cases h
      rfl
    · split at h
      · cases h
      · cases h
        rfl

theorem Vmm.isDecodeError_of_memFetch {m : Vmm} {a : Word} {f : Fault} (h : m.memFetch a = .error f) :
    f.isDecodeError = false := by
  rw [Vmm.memFetch_eq] at h
  split at h
  · cases h
    exact Vmm.isDecodeError_of_translate ‹_›
  · cases h

theorem Vmm.isDecodeError_of_memRead {m : Vmm} {a : Word} {n : Nat} {f : Fault} (h : m.memRead a n = .error f) :
    f.isDecodeError = false := by
  rw [Vmm.memRead_eq] at h
  split at h
  · cases h
    exact Vmm.isDecodeError_of_translate ‹_›
  · cases h

theorem Vmm.isDecodeError_of_memWrite {m : Vmm} {a : Word} {n : Nat} {v : BitVec (8 * n)} {f : Fault}
    (h : m.memWrite a n v = .error f) : f.isDecodeError = false := by
  rw [Vmm.memWrite_eq] at h
  split at h
  · cases h
    exact Vmm.isDecodeError_of_translate ‹_›
  · cases h

/-- The accesses of an instruction, by induction on them. -/
theorem Act.isDecodeError_of_run (x : Act) {m : Vmm} {f : Fault} (h : x.run m = .error f) :
    f.isDecodeError = false := by
  induction x generalizing m with
  | done c => cases h
  | read a n rest ih =>
    rw [Act.run] at h
    split at h
    · cases h
      exact Vmm.isDecodeError_of_memRead ‹_›
    · exact ih _ h
  | write a n v rest ih =>
    rw [Act.run] at h
    split at h
    · cases h
      exact Vmm.isDecodeError_of_memWrite ‹_›
    · exact ih h

/-! ## The window (30_encoding.md R111) -/

theorem State.Fetches.append_left {s : State} {bs more : List Byte} (h : s.Fetches (bs ++ more)) : s.Fetches bs := by
  intro j hj
  rw [h j (by rw [List.length_append]; omega), List.getElem_append_left hj]

theorem State.Fetches.next {s : State} {raw more : List Byte} {b : Byte} (h : s.Fetches (raw ++ b :: more)) :
    s.vmm.memFetch (s.ctx.pc + BitVec.ofNat 64 raw.length) = .ok b := by
  rw [h raw.length (by simp)]
  simp

theorem State.Fetches.snoc {s : State} {raw : List Byte} {b : Byte} (h : s.Fetches raw)
    (hb : s.vmm.memFetch (s.ctx.pc + BitVec.ofNat 64 raw.length) = .ok b) : s.Fetches (raw ++ [b]) := by
  intro j hj
  by_cases hlt : j < raw.length
  · rw [h j hlt, List.getElem_append_left hlt]
  · obtain rfl : j = raw.length := by
      rw [List.length_append, List.length_singleton] at hj
      omega
    rw [hb]
    simp

/-- Bytes that can be fetched begin the window. -/
theorem State.windowAfter_fetches {s : State} {raw todo : List Byte} {n : Nat} (h : s.Fetches (raw ++ todo))
    (hn : todo.length ≤ n) :
    s.vmm.windowAfter s.ctx raw n = s.vmm.windowAfter s.ctx (raw ++ todo) (n - todo.length) := by
  induction todo generalizing raw n with
  | nil => simp
  | cons b todo ih =>
    obtain ⟨n, rfl⟩ : ∃ k, n = k + 1 := Nat.exists_eq_add_one.2 (Nat.lt_of_lt_of_le (Nat.succ_pos _) hn)
    have happ : raw ++ b :: todo = raw ++ [b] ++ todo := by simp
    rw [Vmm.windowAfter_ok n h.next, ih (happ ▸ h) (Nat.le_of_succ_le_succ hn), happ, List.length_cons,
      Nat.add_sub_add_right]

/-- A window holds bytes that can be fetched, and is shorter than asked for only where the next one faults. -/
structure State.IsWindow (s : State) (n : Nat) (w : List Byte × Option Fault) : Prop where
  fetches : s.Fetches w.1
  length_le : w.1.length ≤ n
  full : w.2 = none → w.1.length = n
  fault : ∀ f, w.2 = some f → f.isDecodeError = false

theorem State.isWindow_windowAfter {s : State} {raw : List Byte} (h : s.Fetches raw) (n : Nat) :
    s.IsWindow (raw.length + n) (s.vmm.windowAfter s.ctx raw n) := by
  induction n generalizing raw with
  | zero =>
    rw [Vmm.windowAfter_zero]
    exact ⟨h, Nat.le_refl _, fun _ => rfl, nofun⟩
  | succ n ih =>
    cases hf : s.vmm.memFetch (s.ctx.pc + BitVec.ofNat 64 raw.length) with
    | error f =>
      rw [Vmm.windowAfter_error n hf]
      refine ⟨h, Nat.le_add_right _ _, nofun, ?_⟩
      rintro _ ⟨⟩
      exact Vmm.isDecodeError_of_memFetch hf
    | ok b =>
      rw [Vmm.windowAfter_ok n hf, ← Nat.succ_add_eq_add_succ]
      simpa using ih (h.snoc hf)

/-- The window of a step. -/
theorem State.isWindow_step (s : State) :
    s.IsWindow Config.maxIlen (s.vmm.fetchWindow Config.maxIlen s.ctx.pc) := by
  have hnil : s.Fetches [] := nofun
  simpa [Vmm.windowAfter_nil] using State.isWindow_windowAfter hnil Config.maxIlen

/-! ## The step -/

theorem step_fault_iff (s : State) (f : Fault) :
    step s = .fault f ↔ stepAnswer s.ctx s.vmm (s.vmm.fetchWindow Config.maxIlen s.ctx.pc) = .error f := by
  rw [step_eq_stepAnswer]
  cases stepAnswer s.ctx s.vmm (s.vmm.fetchWindow Config.maxIlen s.ctx.pc) with
  | error g => simp [finish]
  | ok y => simp [finish]

/-- Where the decoder gives up at the last of some bytes that can be fetched, the step reports these. -/
theorem step_decodeError {s : State} {bs : List Byte} (hlen : bs.length ≤ 15) (h : s.Fetches bs)
    (hbad : decode bs = .bad []) : step s = .fault (.decodeError s.ctx.pc bs) := by
  have hwindow := State.windowAfter_fetches (raw := []) h hlen
  rw [Vmm.windowAfter_nil, List.nil_append] at hwindow
  obtain ⟨hdecode, htake⟩ := decode_append_bad hbad
    (s.vmm.fetchWindow (15 - bs.length) (s.ctx.pc + BitVec.ofNat 64 bs.length)).1
  rw [step_fault_iff, hwindow, stepAnswer_bad hdecode, Vmm.windowAfter, htake]
  simp

/-- A `DecodeError` of a window: the fault is of no access and no fetch, and the window is not too short to decide, so
the decoder refused it; what is reported is the part that it read in order. -/
theorem decodeError_of_window {s : State} {w : List Byte × Option Fault} (hw : s.IsWindow Config.maxIlen w) {a : Word}
    {bs : List Byte} (h : stepAnswer s.ctx s.vmm w = .error (.decodeError a bs)) :
    a = s.ctx.pc ∧ bs.length ≤ 15 ∧ s.Fetches bs ∧ decode bs = .bad [] ∧
      ∀ k < bs.length, decode (bs.take k) = .short := by
  cases hdecode : decode w.1 with
  | ok i rest =>
    rw [stepAnswer_ok hdecode] at h
    cases Act.isDecodeError_of_run _ h
  | short =>
    rw [stepAnswer_short hdecode] at h
    cases hfault : w.2 with
    | some f =>
      rw [hfault] at h
      cases h
      cases hw.fault _ hfault
    | none =>
      have hwithin := within_decode w.1
      rw [hdecode] at hwithin
      have hlt : w.1.length < 14 := hwithin
      rw [hw.full hfault] at hlt
      exact absurd hlt (by decide)
  | bad rest =>
    have hreads := online_decode w.1
    rw [hdecode] at hreads
    obtain ⟨u, hu, hbad, hshort⟩ := hreads
    have htake : w.1.take (w.1.length - rest.length) = u := by rw [hu]; simp
    rw [stepAnswer_bad hdecode, htake] at h
    cases h
    have hlen : (bs ++ rest).length ≤ 15 := hu ▸ hw.length_le
    rw [List.length_append] at hlen
    have hfetches : s.Fetches (bs ++ rest) := hu ▸ hw.fetches
    exact ⟨rfl, by omega, hfetches.append_left, by simpa using hbad [], hshort⟩

/-- Settles O8. -/
theorem decodeErrorReport : Obligations.DecodeErrorReport := fun s =>
  ⟨fun _ hlen h hbad => step_decodeError hlen h hbad,
    fun a bs hstep => decodeError_of_window s.isWindow_step ((step_fault_iff s (.decodeError a bs)).1 hstep)⟩

end Sys2Proof.Machine
end

section
/-! SUPPORT. Effective addresses, widths and immediates (30_encoding.md R132, R133, R140 to R142), and the statements
O37 and O38. -/

namespace Sys2Proof.Machine

/-! ## Sums of words from integers (R140) -/

theorem word_eq_ofInt (x : Word) : x = BitVec.ofInt 64 x.toNat := by
  rw [BitVec.ofInt_natCast, BitVec.ofNat_toNat, BitVec.setWidth_eq]

/-- The displacement as an integer (R131). -/
def dispInt : Option Disp → Int
  | none => 0
  | some (.d8 v) => v.toInt
  | some (.d32 v) => v.toInt

/-- The scaled index as an integer (R130). -/
def indexInt (c : Context) (scale : BitVec 2) : Option Reg → Int
  | none => 0
  | some i => (c.reg i).toNat * 2 ^ scale.toNat

theorem dispWord_eq_ofInt (d : Option Disp) : dispWord d = BitVec.ofInt 64 (dispInt d) := by
  match d with
  | none => rfl
  | some (.d8 v) => rfl
  | some (.d32 v) => rfl

theorem indexTerm_eq_ofInt (c : Context) (idx : Option Reg) (scale : BitVec 2) :
    indexTerm c idx scale = BitVec.ofInt 64 (indexInt c scale idx) := by
  cases idx with
  | none => rfl
  | some i =>
    have hcast : ((c.reg i).toNat : Int) * 2 ^ scale.toNat = ((c.reg i).toNat * 2 ^ scale.toNat : Nat) := by
      push_cast
      rfl
    rw [indexTerm, indexInt, hcast, BitVec.ofInt_natCast]
    apply BitVec.eq_of_toNat_eq
    rw [BitVec.toNat_shiftLeft, BitVec.toNat_ofNat, Nat.shiftLeft_eq]

/-! ## The segment base (R115, R142) -/

theorem segBase_eq (p : Pfx) : p.segBase
    = if p.seg = some .fs then Config.fsBase else if p.seg = some .gs then Config.gsBase else 0 := by
  unfold Pfx.segBase
  split
  · simp [*]
  · simp [*]
  · rename_i hfs hgs
    rw [if_neg hfs, if_neg hgs]

/-- The legacy bytes that a decode read are those in front of the first other byte. -/
theorem tracks_of_takeLegacy {pre bs bs' : List Byte} {b b' : Byte} {l : Legacy} (hpre : AllLegacy pre)
    (hb : b ∉ legacyKinds.flatten) (h : takeLegacy Legacy.start (pre ++ b :: bs) = .ok (l, b') bs') : Tracks pre l := by
  obtain ⟨ks, rfl⟩ := hpre.exists_marks
  cases hm : Legacy.start.marks ks with
  | none =>
    obtain ⟨rest, hrest⟩ := takeLegacy_marks_none hm (b :: bs)
    rw [hrest] at h
    cases h
  | some l' =>
    rw [takeLegacy_marks hm, takeLegacy_cons] at h
    simp only [markOf_eq_none hb] at h
    split at h
    · cases h
    · cases h
      exact tracks_marks hm

/-- An instruction decoded has the segment override that was read. -/
theorem seg_of_decode {pre bs rest : List Byte} {b : Byte} {i : Instr} (hpre : AllLegacy pre)
    (hb : b ∉ legacyKinds.flatten) (h : decode (pre ++ b :: bs) = .ok i rest) (g : Seg) :
    i.layout.pfx.seg = some g ↔ g.byte ∈ pre := by
  obtain ⟨l, b', bs', hlegacy, row, hr, rex, t, imm, ok, -, -, hform, -⟩ := decode_ok h
  obtain ⟨hlayout, -⟩ := form_laysOut row hr _ i t imm ok hform
  rw [hlayout]
  exact (tracks_of_takeLegacy hpre hb hlegacy).seg g

/-- Settles O37: each form is a sum of words that are those of the integers of the rule. -/
theorem effectiveAddress_eq_ofInt : Obligations.EffectiveAddress := by
  intro c npc p disp index
  have hdisp (d : Option Disp) : disp d = dispInt d := by
    match d with
    | none => rfl
    | some (.d8 v) => rfl
    | some (.d32 v) => rfl
  have hindex (idx : Option Reg) (sc : BitVec 2) : index idx sc = indexInt c sc idx := by cases idx <;> rfl
  refine ⟨fun b d => ?base, fun b idx sc d => ?sib, fun idx sc d => ?sibNoBase, fun d => ?npcRel, fun hfs => ?fs,
    fun hgs => ?gs, fun hfs hgs => ?other, fun pre bs b i rest hpre hb h => ?decoded⟩
  case base =>
    rw [hdisp, BitVec.ofInt_add, BitVec.ofInt_add, ← word_eq_ofInt, ← word_eq_ofInt, ← dispWord_eq_ofInt,
      BitVec.add_assoc]
    rfl
  case sib =>
    rw [hdisp, hindex, BitVec.ofInt_add, BitVec.ofInt_add, BitVec.ofInt_add, ← word_eq_ofInt, ← word_eq_ofInt,
      ← dispWord_eq_ofInt, ← indexTerm_eq_ofInt, BitVec.add_assoc, BitVec.add_assoc, ← BitVec.add_assoc (c.reg b)]
    rfl
  case sibNoBase =>
    rw [hindex, BitVec.ofInt_add, BitVec.ofInt_add, ← word_eq_ofInt, ← indexTerm_eq_ofInt, BitVec.add_assoc]
    rfl
  case npcRel =>
    rw [BitVec.ofInt_add, BitVec.ofInt_add, ← word_eq_ofInt, ← word_eq_ofInt, BitVec.add_assoc]
    rfl
  case fs => rw [segBase_eq, if_pos hfs]
  case gs => simp [segBase_eq, hgs]
  case other => rw [segBase_eq, if_neg hfs, if_neg hgs]
  case decoded =>
    simp only [segBase_eq, seg_of_decode hpre hb h]
    rfl

/-! ## Widths and immediates (R132, R133) -/

/-- Settles O38, by the cases of the width and of the immediate. -/
theorem widthsAndImmediates : Obligations.WidthsAndImmediates := by
  constructor
  · intro seg opsize
    refine ⟨Pfx.width_eq_w64_iff.2 rfl, fun rex hrex => ⟨?with66, ?without⟩⟩
    case with66 => exact Pfx.width_eq_w16_iff.2 (by simpa [Pfx.is16] using hrex)
    case without => rw [Pfx.width, if_neg hrex]; rfl
  · intro v u x
    exact ⟨BitVec.signExtend_eq v, BitVec.signExtend_eq u, rfl, BitVec.setWidth_eq v, BitVec.setWidth_eq u,
      BitVec.setWidth_eq x⟩

end Sys2Proof.Machine
end

section
/-! SUPPORT. The six status flags of a sum and of a difference from integers (40_integer_alu.md R171 to R175, R180,
R181), and the statement O12. -/

namespace Sys2Proof.Machine

/-! ## OF (R172) -/

/-- The sign rule for sums is signed overflow in the integers. -/
theorem AluOp.overflow_add {w : Nat} (a b : BitVec w) :
    AluOp.add.overflow a b
      = decide (a.toInt + b.toInt < -(2 ^ (w - 1)) ∨ 2 ^ (w - 1) ≤ a.toInt + b.toInt) := by
  calc AluOp.add.overflow a b
      = a.saddOverflow b := (BitVec.saddOverflow_eq a b).symm
    _ = decide (a.toInt + b.toInt < -(2 ^ (w - 1)) ∨ 2 ^ (w - 1) ≤ a.toInt + b.toInt) := by
      rw [BitVec.saddOverflow, ← Bool.decide_or, decide_eq_decide]
      exact or_comm

/-- The sign rule for differences is signed overflow in the integers. -/
theorem AluOp.overflow_sub {w : Nat} (a b : BitVec w) :
    AluOp.sub.overflow a b
      = decide (a.toInt - b.toInt < -(2 ^ (w - 1)) ∨ 2 ^ (w - 1) ≤ a.toInt - b.toInt) := by
  calc AluOp.sub.overflow a b
      = a.ssubOverflow b := by
        rw [BitVec.ssubOverflow_eq, AluOp.overflow, AluOp.result]
        cases a.msb <;> cases b.msb <;> simp
    _ = decide (a.toInt - b.toInt < -(2 ^ (w - 1)) ∨ 2 ^ (w - 1) ≤ a.toInt - b.toInt) := by
      rw [BitVec.ssubOverflow, ← Bool.decide_or, decide_eq_decide]
      exact or_comm

/-! ## ZF, PF (R173, R174) -/

theorem beq_zero_eq_toNat {w : Nat} (r : BitVec w) : (r == 0) = decide (r.toNat = 0) := by
  rw [Bool.beq_eq_decide_eq, decide_eq_decide]
  exact ⟨fun h => by simp [h], fun h => BitVec.eq_of_toNat_eq (by simpa using h)⟩

theorem parity_eq_evenOnes {w : Nat} (r : BitVec w) : parity r = evenOnes r := by
  rw [parity, evenOnes, List.countP_eq_length_filter]

/-! ## AF (R175) -/

/-- Bit 4 of `a xor b xor (a + b)` is what bit 4 of the sum got from below. -/
theorem xor_add_getLsbD_four {w : Nat} (hw : 4 < w) (a b : BitVec w) :
    (a ^^^ b ^^^ (a + b)).getLsbD 4 = decide (16 ≤ a.toNat % 16 + b.toNat % 16) := by
  rw [BitVec.getLsbD_xor, BitVec.getLsbD_xor, BitVec.getLsbD_add hw]
  have hcarry : BitVec.carry 4 a b false = decide (16 ≤ a.toNat % 16 + b.toNat % 16) := rfl
  rw [hcarry]
  cases a.getLsbD 4 <;> cases b.getLsbD 4 <;> simp

/-- The low nibble of a difference, with the subtrahend's, makes up the minuend's. -/
theorem toNat_sub_mod_sixteen {w : Nat} (hw : 4 ≤ w) (a b : BitVec w) :
    ((a - b).toNat % 16 + b.toNat % 16) % 16 = a.toNat % 16 := by
  have hdvd : 16 ∣ 2 ^ w := Nat.pow_dvd_pow 2 hw
  calc ((a - b).toNat % 16 + b.toNat % 16) % 16
      = ((a - b).toNat + b.toNat) % 16 := (Nat.add_mod _ _ _).symm
    _ = ((a - b).toNat + b.toNat) % 2 ^ w % 16 := (Nat.mod_mod_of_dvd _ hdvd).symm
    _ = (a - b + b).toNat % 16 := by rw [BitVec.toNat_add]
    _ = a.toNat % 16 := by rw [BitVec.sub_add_cancel]

/-- The borrow of `a - b` into the low nibble is the carry of `(a - b) + b` out of it. -/
theorem xor_sub_getLsbD_four {w : Nat} (hw : 4 < w) (a b : BitVec w) :
    (a ^^^ b ^^^ (a - b)).getLsbD 4 = decide (a.toNat % 16 < b.toNat % 16) := by
  calc (a ^^^ b ^^^ (a - b)).getLsbD 4
      = ((a - b) ^^^ b ^^^ (a - b + b)).getLsbD 4 := by
        rw [BitVec.sub_add_cancel, BitVec.xor_comm (a - b), BitVec.xor_comm a, BitVec.xor_assoc, BitVec.xor_assoc,
          BitVec.xor_comm a]
    _ = decide (16 ≤ (a - b).toNat % 16 + b.toNat % 16) := xor_add_getLsbD_four hw (a - b) b
    _ = decide (a.toNat % 16 < b.toNat % 16) := by
        have := toNat_sub_mod_sixteen hw.le a b
        rw [decide_eq_decide]
        omega

/-! ## All six -/

theorem AluOp.sumFlags {w : Nat} (hw : 8 ≤ w) (a b : BitVec w) (f : Flags) :
    SumFlags a b (decide (2 ^ w ≤ a.toNat + b.toNat)) f (AluOp.add.flags a b f) :=
  ⟨rfl, AluOp.overflow_add a b, rfl, beq_zero_eq_toNat (a + b), parity_eq_evenOnes (a + b),
    xor_add_getLsbD_four (by omega) a b, rfl⟩

theorem AluOp.differenceFlags {w : Nat} (hw : 8 ≤ w) (a b : BitVec w) (f : Flags) :
    DifferenceFlags a b (decide (a.toNat < b.toNat)) f (AluOp.sub.flags a b f) :=
  ⟨rfl, AluOp.overflow_sub a b, rfl, beq_zero_eq_toNat (a - b), parity_eq_evenOnes (a - b),
    xor_sub_getLsbD_four (by omega) a b, rfl⟩

/-- R180: INC has the flags of adding 1 with the old CF for carry. -/
theorem AluOp.sumFlags_keepCarry {w : Nat} (hw : 8 ≤ w) (a : BitVec w) (f : Flags) :
    SumFlags a 1 f.cf f (AluOp.add.flagsKeepCarry a f) :=
  ⟨rfl, (AluOp.sumFlags hw a 1 f).2⟩

/-- R181: DEC has the flags of subtracting 1 with the old CF for borrow. -/
theorem AluOp.differenceFlags_keepCarry {w : Nat} (hw : 8 ≤ w) (a : BitVec w) (f : Flags) :
    DifferenceFlags a 1 f.cf f (AluOp.sub.flagsKeepCarry a f) :=
  ⟨rfl, (AluOp.differenceFlags hw a 1 f).2⟩

/-- Settles O12: OF is the library's signed overflow, and AF is the carry into bit 4. -/
theorem flagFunctions : Obligations.FlagFunctions := by
  intro w a b f hw
  refine ⟨AluOp.sumFlags hw a b f, AluOp.differenceFlags hw a b f, ?ofAdd, ?ofSub, rfl, rfl⟩
  case ofAdd => simp [AluOp.flags, AluOp.overflow, AluOp.result]
  case ofSub => simp [AluOp.flags, AluOp.overflow, AluOp.result]

end Sys2Proof.Machine
end

section
/-! SUPPORT. ADD, SUB, CMP, INC and DEC where their accesses are permitted (40_integer_alu.md R176 to R181): result,
flags and frame of each shared operation, and the statements O14, O15, O16 and O17. -/

namespace Sys2Proof.Machine

/-! ## The rows as shared operations -/

theorem exec_addForm {i : Instr} {f : IntForm} (h : i.addForm = some f) (s : State) :
    exec i s = s.aluStore i f.pfx .add f.w f.dst f.src := by
  rw [exec_eq_perform, actOf_addForm h]; rfl

theorem exec_subForm {i : Instr} {f : IntForm} (h : i.subForm = some f) (s : State) :
    exec i s = s.aluStore i f.pfx .sub f.w f.dst f.src := by
  rw [exec_eq_perform, actOf_subForm h]; rfl

theorem exec_incForm {i : Instr} {p : Pfx} {w : Width} {d : RM} (h : i.incForm = some (p, w, d)) (s : State) :
    exec i s = s.aluStep i p .add w d := by
  rw [exec_eq_perform, actOf_incForm h]; rfl

theorem exec_decForm {i : Instr} {p : Pfx} {w : Width} {d : RM} (h : i.decForm = some (p, w, d)) (s : State) :
    exec i s = s.aluStep i p .sub w d := by
  rw [exec_eq_perform, actOf_decForm h]; rfl

/-- The rows of CMP; in the others the hypothesis has no case. -/
theorem exec_cmpForm {i : Instr} {f : IntForm} (h : i.cmpForm = some f) (s : State) :
    exec i s = s.aluCompare i f.pfx f.w f.dst f.src := by
  cases i <;> cases h <;> rfl

/-- The rows of MOV; in the others the hypothesis has no case. -/
theorem exec_movForm {i : Instr} {f : IntForm} (h : i.movForm = some f) (s : State) :
    exec i s = s.move i f.pfx f.w f.dst f.src := by
  cases i <;> cases h <;> rfl

/-! ## What the shared operations leave -/

/-- From `s` to `t` instruction `i` wrote `v` to operand `l`, set the flags to `f`, advanced, and changed nothing
else. -/
structure State.Produced (s t : State) (i : Instr) (w : Width) (p : Pfx) (v : BitVec w.bits) (l : Loc) (f : Flags) :
    Prop where
  wrote : s.Wrote t w p v l
  flags : t.ctx.flags = f
  pc : t.ctx.pc = s.npc i
  vregs : s.SameVregs t
  block : s.SameBlock t

/-- A write of flags and pc touches no register and no byte. -/
theorem State.Wrote.setFlags_setPc {s t : State} {w : Width} {p : Pfx} {v : BitVec w.bits} {l : Loc}
    (h : s.Wrote t w p v l) (f : Flags) (pc : Word) : s.Wrote ((t.setFlags f).setPc pc) w p v l := by
  cases l with
  | reg n => exact h
  | mem ea => exact h

theorem State.produced_written {s : State} {w : Width} {p : Pfx} {l : Loc} (v : BitVec w.bits)
    (h : l.writable s w = true) (i : Instr) (f : Flags) :
    s.Produced (((s.written w p v l).setFlags f).setPc (s.npc i)) i w p v l f where
  wrote := (State.wrote_written v h).setFlags_setPc f (s.npc i)
  flags := rfl
  pc := rfl
  vregs := fun k => State.written_vreg s w p v l k
  block := ⟨State.written_segs s w p v l, State.written_fills s w p v l, State.written_parked s w p v l⟩

theorem State.aluStore_produces {s : State} {i : Instr} {p : Pfx} (op : AluOp) {w : Width} {d : RM} {src : Source w}
    (hread : (s.bind i p d).readable s w = true) (hsrc : src.readable s i p = true)
    (hwrite : (s.bind i p d).writable s w = true) :
    ∃ t, s.aluStore i p op w d src = .next t ∧
      s.Produced t i w p (op.result (s.valueOf w p (s.bind i p d)) (s.sourceValue i p src)) (s.bind i p d)
        (op.flags (s.valueOf w p (s.bind i p d)) (s.sourceValue i p src) s.ctx.flags) :=
  ⟨_, State.aluStore_completes hread hsrc hwrite, State.produced_written _ hwrite i _⟩

theorem State.aluStep_produces {s : State} {i : Instr} {p : Pfx} (op : AluOp) {w : Width} {d : RM}
    (hread : (s.bind i p d).readable s w = true) (hwrite : (s.bind i p d).writable s w = true) :
    ∃ t, s.aluStep i p op w d = .next t ∧
      s.Produced t i w p (op.result (s.valueOf w p (s.bind i p d)) 1) (s.bind i p d)
        (op.flagsKeepCarry (s.valueOf w p (s.bind i p d)) s.ctx.flags) :=
  ⟨_, State.aluStep_completes hread hwrite, State.produced_written _ hwrite i _⟩

/-! ## The statements -/

theorem eight_le_bits (w : Width) : 8 ≤ w.bits := by cases w <;> decide

/-- Settles O14, by the shared operation that each row is. -/
theorem addResult : Obligations.AddResult := by
  intro s i f hform hread hsrc hwrite a b
  obtain ⟨t, ht, hprod⟩ := State.aluStore_produces .add hread hsrc hwrite
  refine ⟨t, (exec_addForm hform s).trans ht, hprod.wrote, ?flags, hprod.pc, hprod.vregs, hprod.block⟩
  case flags => exact hprod.flags ▸ AluOp.sumFlags (eight_le_bits f.w) a b s.ctx.flags

/-- Settles O15, by the shared operation that each row is. -/
theorem subResult : Obligations.SubResult := by
  intro s i f hform hread hsrc hwrite a b
  obtain ⟨t, ht, hprod⟩ := State.aluStore_produces .sub hread hsrc hwrite
  refine ⟨t, (exec_subForm hform s).trans ht, hprod.wrote, ?flags, hprod.pc, hprod.vregs, hprod.block⟩
  case flags => exact hprod.flags ▸ AluOp.differenceFlags (eight_le_bits f.w) a b s.ctx.flags

/-- Settles O16: CMP completes on its two reads, with a state that differs in flags and pc alone. -/
theorem cmpResult : Obligations.CmpResult := by
  intro s i f hform hread hsrc a b
  refine ⟨_, (exec_cmpForm hform s).trans (State.aluCompare_completes hread hsrc), ?flags, rfl, fun _ => rfl,
    fun _ => rfl, fun _ => rfl, rfl, rfl, rfl⟩
  case flags => exact AluOp.differenceFlags (eight_le_bits f.w) a b s.ctx.flags

/-- Settles O17, by the shared operation that each row is. -/
theorem incDecResult : Obligations.IncDecResult := by
  intro s i p w d hread hwrite a
  refine ⟨fun hinc => ?inc, fun hdec => ?dec⟩
  case inc =>
    obtain ⟨t, ht, hprod⟩ := State.aluStep_produces .add hread hwrite
    exact ⟨t, (exec_incForm hinc s).trans ht, hprod.wrote,
      hprod.flags ▸ AluOp.sumFlags_keepCarry (eight_le_bits w) a s.ctx.flags, hprod.pc, hprod.vregs, hprod.block⟩
  case dec =>
    obtain ⟨t, ht, hprod⟩ := State.aluStep_produces .sub hread hwrite
    exact ⟨t, (exec_decForm hdec s).trans ht, hprod.wrote,
      hprod.flags ▸ AluOp.differenceFlags_keepCarry (eight_le_bits w) a s.ctx.flags, hprod.pc, hprod.vregs,
      hprod.block⟩

end Sys2Proof.Machine
end

section
/-! SUPPORT. The first access that is not permitted, in the shared integer operations (60_exceptions.md R302, R303,
R309), and the statements O30 and O31. -/

namespace Sys2Proof.Machine

/-! ## Denied operands -/

theorem State.rd_mem_denied {s : State} {i : Instr} {w : Width} {p : Pfx} {x : RM} {ea : Word}
    (hmem : s.bind i p x = .mem ea) (h : s.vmm.permits ea w.bytes .read = false) :
    s.rd w p (s.bind i p x) = .error (s.vmm.denied ea w.bytes .read) := by
  rw [hmem]; exact State.memRead_denied h

theorem State.rdSource_mem_denied {s : State} {i : Instr} {w : Width} {p : Pfx} {src : Source w} {x : RM} {ea : Word}
    (hsrc : src = .rm x) (hmem : s.bind i p x = .mem ea) (h : s.vmm.permits ea w.bytes .read = false) :
    s.rdSource i w p src = .error (s.vmm.denied ea w.bytes .read) := by
  rw [hsrc]; exact State.rd_mem_denied hmem h

theorem State.wr_mem_denied {s : State} {i : Instr} {w : Width} {p : Pfx} {d : RM} {ea : Word}
    (hmem : s.bind i p d = .mem ea) (h : s.vmm.permits ea w.bytes .write = false) (v : BitVec w.bits) :
    s.wr w p (s.bind i p d) v = .error (s.vmm.denied ea w.bytes .write) := by
  rw [hmem]; exact State.memWrite_denied h

theorem Loc.readable_of_permits {s : State} {w : Width} {l : Loc} {ea : Word} (hmem : l = .mem ea)
    (h : s.vmm.permits ea w.bytes .read = true) : l.readable s w = true := by
  rw [hmem]; exact h

/-! ## The shared operations, access by access -/

section
variable {s : State} {i : Instr} {p : Pfx} {op : AluOp} {w : Width} {d : RM} {src : Source w} {e : Fault}

theorem State.aluStore_dst_fault (h : s.rd w p (s.bind i p d) = .error e) :
    s.aluStore i p op w d src = .fault e := by
  rw [State.aluStore_eq, h]; rfl

theorem State.aluStore_src_fault (hread : (s.bind i p d).readable s w = true)
    (h : s.rdSource i w p src = .error e) : s.aluStore i p op w d src = .fault e := by
  rw [State.aluStore_eq, State.rd_readable hread, ok_bind, h]; rfl

theorem State.aluStore_write_fault (hread : (s.bind i p d).readable s w = true) (hsrc : src.readable s i p = true)
    (h : ∀ v, s.wr w p (s.bind i p d) v = .error e) : s.aluStore i p op w d src = .fault e := by
  rw [State.aluStore_eq, State.rd_readable hread, ok_bind, State.rdSource_readable hsrc, ok_bind, h]; rfl

theorem State.aluStep_read_fault (h : s.rd w p (s.bind i p d) = .error e) :
    s.aluStep i p op w d = .fault e := by
  rw [State.aluStep_eq, h]; rfl

theorem State.aluStep_write_fault (hread : (s.bind i p d).readable s w = true)
    (h : ∀ v, s.wr w p (s.bind i p d) v = .error e) : s.aluStep i p op w d = .fault e := by
  rw [State.aluStep_eq, State.rd_readable hread, ok_bind, h]; rfl

theorem State.aluCompare_dst_fault (h : s.rd w p (s.bind i p d) = .error e) :
    s.aluCompare i p w d src = .fault e := by
  rw [State.aluCompare_eq, h]; rfl

theorem State.aluCompare_src_fault (hread : (s.bind i p d).readable s w = true)
    (h : s.rdSource i w p src = .error e) : s.aluCompare i p w d src = .fault e := by
  rw [State.aluCompare_eq, State.rd_readable hread, ok_bind, h]; rfl

theorem State.move_src_fault (h : s.rdSource i w p src = .error e) : s.move i p w d src = .fault e := by
  rw [State.move_eq, h]; rfl

theorem State.move_write_fault (hsrc : src.readable s i p = true)
    (h : ∀ v, s.wr w p (s.bind i p d) v = .error e) : s.move i p w d src = .fault e := by
  rw [State.move_eq, State.rdSource_readable hsrc, ok_bind, h]; rfl

end

/-! ## The rows -/

/-- ADD and SUB are one shared operation. -/
theorem exec_storeForm {i : Instr} {f : IntForm} (h : i.addForm = some f ∨ i.subForm = some f) (s : State) :
    ∃ op, exec i s = s.aluStore i f.pfx op f.w f.dst f.src :=
  h.elim (fun h => ⟨.add, exec_addForm h s⟩) fun h => ⟨.sub, exec_subForm h s⟩

/-- INC and DEC are one shared operation. -/
theorem exec_stepForm {i : Instr} {p : Pfx} {w : Width} {d : RM}
    (h : i.incForm = some (p, w, d) ∨ i.decForm = some (p, w, d)) (s : State) :
    ∃ op, exec i s = s.aluStep i p op w d :=
  h.elim (fun h => ⟨.add, exec_incForm h s⟩) fun h => ⟨.sub, exec_decForm h s⟩

/-- Settles O30: the accesses of the two shared operations, in their order. -/
theorem arithmeticFaults : Obligations.ArithmeticFaults := by
  intro s i
  refine ⟨fun f hform => ?store, fun p w d ea hform hmem => ?step⟩
  case store =>
    obtain ⟨op, hexec⟩ := exec_storeForm hform s
    rw [hexec]
    refine ⟨fun ea hmem hno => ?dst, fun x ea hread hsrc hmem hno => ?src, fun ea hmem hread hsrc hno => ?write⟩
    case dst => exact State.aluStore_dst_fault (State.rd_mem_denied hmem hno)
    case src => exact State.aluStore_src_fault hread (State.rdSource_mem_denied hsrc hmem hno)
    case write =>
      exact State.aluStore_write_fault (Loc.readable_of_permits hmem hread) hsrc (State.wr_mem_denied hmem hno)
  case step =>
    obtain ⟨op, hexec⟩ := exec_stepForm hform s
    rw [hexec]
    refine ⟨fun hno => ?read, fun hread hno => ?write⟩
    case read => exact State.aluStep_read_fault (State.rd_mem_denied hmem hno)
    case write => exact State.aluStep_write_fault (Loc.readable_of_permits hmem hread) (State.wr_mem_denied hmem hno)

/-- Settles O31: CMP has two accesses, MOV the read of its source and the write of its destination. -/
theorem compareMoveFaults : Obligations.CompareMoveFaults := by
  intro s i f
  refine ⟨fun hform => ?cmp, fun hform => ?mov⟩
  case cmp =>
    rw [exec_cmpForm hform]
    refine ⟨fun ea hmem hno => ?dst, fun x ea hread hsrc hmem hno => ?src⟩
    case dst => exact State.aluCompare_dst_fault (State.rd_mem_denied hmem hno)
    case src => exact State.aluCompare_src_fault hread (State.rdSource_mem_denied hsrc hmem hno)
  case mov =>
    rw [exec_movForm hform]
    refine ⟨fun x ea hsrc hmem hno => ?src, fun ea hmem hsrc hno => ?write⟩
    case src => exact State.move_src_fault (State.rdSource_mem_denied hsrc hmem hno)
    case write => exact State.move_write_fault hsrc (State.wr_mem_denied hmem hno)

end Sys2Proof.Machine
end

section
/-! SUPPORT. MOV and NOP where their accesses are permitted (41_data_movement.md R200 to R204), and the statements O18
and O19. -/

namespace Sys2Proof.Machine

/-- Setting the flags to what they are changes nothing. -/
theorem State.setFlags_of_eq {s : State} {f : Flags} (h : s.ctx.flags = f) : s.setFlags f = s := by
  rw [← h]; rfl

/-- R200 to R202: a move writes its source to its destination and keeps the flags; of the destination it needs
permission to write alone. -/
theorem State.move_produces {s : State} {i : Instr} {p : Pfx} {w : Width} {d : RM} {src : Source w}
    (hsrc : src.readable s i p = true) (hwrite : (s.bind i p d).writable s w = true) :
    ∃ t, s.move i p w d src = .next t ∧
      s.Produced t i w p (s.sourceValue i p src) (s.bind i p d) s.ctx.flags := by
  have hprod := State.produced_written (p := p) (s.sourceValue i p src) hwrite i s.ctx.flags
  rw [State.setFlags_of_eq (State.written_flags ..)] at hprod
  exact ⟨_, State.move_completes hsrc hwrite, hprod⟩

/-- NOP has no access: it is its advance of the pc. -/
theorem exec_nop (p : Pfx) (s : State) : exec (.nop p) s = .next (s.setPc (s.npc (.nop p))) := by
  rw [exec_eq_perform]; rfl

/-- Settles O18, by the shared operation that each row is. -/
theorem movResult : Obligations.MovResult := by
  intro s i f hform hsrc hwrite
  obtain ⟨t, ht, hprod⟩ := State.move_produces hsrc hwrite
  exact ⟨t, (exec_movForm hform s).trans ht, hprod.wrote, hprod.flags, hprod.pc, hprod.vregs, hprod.block⟩

/-- Settles O19. -/
theorem nopResult : Obligations.NopResult := fun s p => exec_nop p s

end Sys2Proof.Machine
end

section
/-! SUPPORT. The control transfers (42_control_transfer.md R230 to R238): the shared operation that each row is, what it
leaves where its accesses are permitted, the fault of the first that is not, and the statements O20, O21, O22, O23 and
O32. -/

namespace Sys2Proof.Machine

/-! ## The rows as shared operations -/

/-- The relative rows of JMP; in the others the hypothesis has no case. -/
theorem exec_jmpForm {i : Instr} {off : Word} (h : i.jmpForm = some off) (s : State) :
    exec i s = .next (s.setPc (s.npc i + off)) := by
  cases i <;> cases h <;> rfl

/-- The rows of Jcc; in the others the hypothesis has no case. -/
theorem exec_jccForm {i : Instr} {cc : Cond} {off : Word} (h : i.jccForm = some (cc, off)) (s : State) :
    exec i s = .next (s.setPc (if s.ctx.flags.holds cc then s.npc i + off else s.npc i)) := by
  cases i <;> cases h <;> rfl

theorem exec_jmpRm (p : Pfx) (x : RM) (s : State) : exec (.jmpRm p x) s = s.jumpTo (.jmpRm p x) p x := by
  rw [exec_eq_perform]; rfl

theorem exec_callRel32 (p : Pfx) (v : BitVec 32) (s : State) :
    exec (.callRel32 p v) s = s.callRel (.callRel32 p v) (v.signExtend 64) := by
  rw [exec_eq_perform]; rfl

theorem exec_callRm (p : Pfx) (x : RM) (s : State) : exec (.callRm p x) s = s.callTo (.callRm p x) p x := by
  rw [exec_eq_perform]; rfl

theorem exec_ret (p : Pfx) (s : State) : exec (.ret p) s = s.popAndGo := by
  rw [exec_eq_perform]; rfl

/-! ## Completion -/

/-- Settles O20: a relative jump has no access, it is its write of the pc. -/
theorem relativeJumps : Obligations.RelativeJumps := fun s _ =>
  ⟨fun _ hform => exec_jmpForm hform s, fun _ _ hform => exec_jccForm hform s⟩

/-- Settles O21. -/
theorem indirectJump : Obligations.IndirectJump := fun s p x hread =>
  (exec_jmpRm p x s).trans (State.jumpTo_completes hread)

/-- Settles O22: both rows are one push, and differ in where the target comes from. -/
theorem callResult : Obligations.CallResult := by
  intro s hpush pushed
  have hcalled (i : Instr) (target : Word) : pushed i target (s.called i target) :=
    ⟨s.called_reg i target, State.called_byteAt i target hpush, rfl, rfl, s.called_vreg i target, rfl, rfl, rfl⟩
  refine ⟨fun p v => ⟨_, ?rel, hcalled _ _⟩, fun p x hread => ⟨_, ?rm, hcalled _ _⟩⟩
  case rel => exact (exec_callRel32 p v s).trans (State.callRel_completes hpush)
  case rm => exact (exec_callRm p x s).trans (State.callTo_completes hread hpush)

/-- Settles O23: the state after the pop is `s` with another RSP and another pc. -/
theorem retResult : Obligations.RetResult := by
  intro s p hpop
  refine ⟨_, (exec_ret p s).trans (State.popAndGo_completes hpop), rfl, ?regs, rfl, fun _ => rfl, fun _ => rfl, rfl,
    rfl, rfl⟩
  case regs => exact fun k => s.reg_setReg rsp k (s.reg rsp + 8)

/-! ## Faults (60_exceptions.md R302, R303, R309) -/

section
variable {s : State} {i : Instr} {p : Pfx} {x : RM}

theorem State.jumpTo_read_fault {e : Fault} (h : s.rd .w64 p (s.bind i p x) = .error e) :
    s.jumpTo i p x = .fault e := by
  rw [State.jumpTo_eq, h]; rfl

theorem State.callTo_read_fault {e : Fault} (h : s.rd .w64 p (s.bind i p x) = .error e) :
    s.callTo i p x = .fault e := by
  rw [State.callTo_eq, h]; rfl

theorem State.pushAndGo_denied (h : s.vmm.permits (s.reg rsp - 8) 8 .write = false) (target : Word) :
    s.pushAndGo i target = .error (s.vmm.denied (s.reg rsp - 8) 8 .write) := by
  rw [State.pushAndGo, State.memWrite_denied h]; rfl

theorem State.callRel_push_fault (h : s.vmm.permits (s.reg rsp - 8) 8 .write = false) (off : Word) :
    s.callRel i off = .fault (s.vmm.denied (s.reg rsp - 8) 8 .write) := by
  rw [State.callRel_eq, State.pushAndGo_denied h]; rfl

theorem State.callTo_push_fault (hread : (s.bind i p x).readable s .w64 = true)
    (h : s.vmm.permits (s.reg rsp - 8) 8 .write = false) :
    s.callTo i p x = .fault (s.vmm.denied (s.reg rsp - 8) 8 .write) := by
  rw [State.callTo_eq, State.rd_readable hread, ok_bind, State.pushAndGo_denied h]; rfl

theorem State.popAndGo_fault (h : s.vmm.permits (s.reg rsp) 8 .read = false) :
    s.popAndGo = .fault (s.vmm.denied (s.reg rsp) 8 .read) := by
  rw [State.popAndGo_eq, State.memRead_denied h]; rfl

end

/-- Settles O32: the accesses of the four rows, in their order. -/
theorem transferFaults : Obligations.TransferFaults := by
  intro s p
  refine ⟨fun x ea hmem hno => ?jmp, fun x ea hmem hno => ?callRead,
    fun hno => ⟨fun v => ?callRel, fun x hread => ?callRm⟩, fun hno => ?ret⟩
  case jmp => exact (exec_jmpRm p x s).trans (State.jumpTo_read_fault (State.rd_mem_denied hmem hno))
  case callRead => exact (exec_callRm p x s).trans (State.callTo_read_fault (State.rd_mem_denied hmem hno))
  case callRel => exact (exec_callRel32 p v s).trans (State.callRel_push_fault hno _)
  case callRm => exact (exec_callRm p x s).trans (State.callTo_push_fault hread hno)
  case ret => exact (exec_ret p s).trans (State.popAndGo_fault hno)

end Sys2Proof.Machine
end

section
/-! SUPPORT. The sixteen conditions (42_control_transfer.md R233) as propositions about the flags, the flags of a
difference as comparisons of its operands, and the statement O13. -/

namespace Sys2Proof.Machine

/-! ## The table -/

section
variable (f : Flags)

theorem Flags.holds_o : f.holds .o ↔ f.of = true := Iff.rfl
theorem Flags.holds_no : f.holds .no ↔ f.of = false := by simp [Flags.holds]
theorem Flags.holds_b : f.holds .b ↔ f.cf = true := Iff.rfl
theorem Flags.holds_ae : f.holds .ae ↔ f.cf = false := by simp [Flags.holds]
theorem Flags.holds_e : f.holds .e ↔ f.zf = true := Iff.rfl
theorem Flags.holds_ne : f.holds .ne ↔ f.zf = false := by simp [Flags.holds]
theorem Flags.holds_be : f.holds .be ↔ f.cf = true ∨ f.zf = true := Bool.or_eq_true_iff
theorem Flags.holds_a : f.holds .a ↔ f.cf = false ∧ f.zf = false := by simp [Flags.holds]
theorem Flags.holds_s : f.holds .s ↔ f.sf = true := Iff.rfl
theorem Flags.holds_ns : f.holds .ns ↔ f.sf = false := by simp [Flags.holds]
theorem Flags.holds_p : f.holds .p ↔ f.pf = true := Iff.rfl
theorem Flags.holds_np : f.holds .np ↔ f.pf = false := by simp [Flags.holds]
theorem Flags.holds_l : f.holds .l ↔ f.sf ≠ f.of := bne_iff_ne
theorem Flags.holds_ge : f.holds .ge ↔ f.sf = f.of := beq_iff_eq
theorem Flags.holds_le : f.holds .le ↔ f.zf = true ∨ f.sf ≠ f.of := by simp [Flags.holds]
theorem Flags.holds_g : f.holds .g ↔ f.zf = false ∧ f.sf = f.of := by simp [Flags.holds]

end

/-! ## The flags of a difference -/

section
variable {w : Nat} (a b : BitVec w) (old : Flags)

/-- R171: CF is the unsigned comparison. -/
theorem AluOp.sub_cf_iff : (AluOp.sub.flags a b old).cf = true ↔ a.toNat < b.toNat := decide_eq_true_iff

/-- R173: ZF is equality. -/
theorem AluOp.sub_zf_iff : (AluOp.sub.flags a b old).zf = true ↔ a = b :=
  beq_iff_eq.trans sub_eq_zero

/-- SF and OF together are the signed comparison: without signed overflow the difference has the sign of
`a.toInt - b.toInt`, and with it the operands have different signs and the difference has that of `b`. -/
theorem AluOp.sub_sf_ne_of_iff :
    (AluOp.sub.flags a b old).sf ≠ (AluOp.sub.flags a b old).of ↔ a.toInt < b.toInt := by
  show (a - b).msb ≠ AluOp.sub.overflow a b ↔ a.toInt < b.toInt
  cases hover : AluOp.sub.overflow a b with
  | false =>
    have hfits : ¬ a.ssubOverflow b := by
      rw [AluOp.overflow_sub, decide_eq_false_iff_not, or_comm] at hover
      simpa [BitVec.ssubOverflow] using hover
    rw [BitVec.msb_eq_toInt, BitVec.toInt_sub_of_not_ssubOverflow hfits]
    simp
  | true =>
    obtain ⟨hsigns, hflip⟩ : a.msb ≠ b.msb ∧ (a - b).msb ≠ a.msb := by
      simpa [AluOp.overflow, AluOp.result] using hover
    have hdiff : (a - b).msb = b.msb := by rw [Bool.eq_not_of_ne hflip, Bool.eq_not_of_ne hsigns, Bool.not_not]
    rw [hdiff, BitVec.msb_eq_toInt]
    rw [BitVec.msb_eq_toInt, BitVec.msb_eq_toInt, Ne, decide_eq_decide] at hsigns
    simp only [ne_eq, decide_eq_true_eq]
    omega

end

/-- Settles O13: CF, ZF and the pair SF, OF of a difference are `<`, `=` and signed `<`. -/
theorem conditions : Obligations.Conditions := by
  refine ⟨fun f => ⟨f.holds_o, f.holds_no, f.holds_b, f.holds_ae, f.holds_e, f.holds_ne, f.holds_be, f.holds_a,
    f.holds_s, f.holds_ns, f.holds_p, f.holds_np, f.holds_l, f.holds_ge, f.holds_le, f.holds_g⟩, ?compare⟩
  intro w a b old _ f
  have hlt : f.cf = true ↔ a.toNat < b.toNat := AluOp.sub_cf_iff a b old
  have heq : f.zf = true ↔ a = b := AluOp.sub_zf_iff a b old
  have hslt : f.sf ≠ f.of ↔ a.toInt < b.toInt := AluOp.sub_sf_ne_of_iff a b old
  have hle : f.cf = false ↔ b.toNat ≤ a.toNat := by rw [← Bool.not_eq_true, hlt, not_lt]
  have hne : f.zf = false ↔ a ≠ b := by rw [← Bool.not_eq_true, heq]
  have hsle : f.sf = f.of ↔ b.toInt ≤ a.toInt := by rw [← not_ne_iff, hslt, not_lt]
  refine ⟨f.holds_b.trans hlt, f.holds_ae.trans hle, ?be, ?a, f.holds_l.trans hslt, f.holds_ge.trans hsle, ?le, ?g,
    f.holds_e.trans heq, f.holds_ne.trans hne⟩
  case be => rw [f.holds_be, hlt, heq, ← BitVec.toNat_inj]; omega
  case a => rw [f.holds_a, hle, hne, ne_eq, ← BitVec.toNat_inj]; omega
  case le => rw [f.holds_le, hslt, heq, ← BitVec.toInt_inj]; omega
  case g => rw [f.holds_g, hsle, hne, ne_eq, ← BitVec.toInt_inj]; omega

end Sys2Proof.Machine
end

section
/-! SUPPORT. The instruction cycle (42_control_transfer.md R220, R222, R224): every outcome is an advance or a fault,
the pc after a row that ends no basic block, the step on bytes that can be fetched, and the statements O50, O49 and
O7. -/

namespace Sys2Proof.Machine

/-! ## No refusal (R220) -/

/-- An instruction is its accesses, and these advance or fault. -/
theorem exec_not_refused (i : Instr) (s : State) (r : Refusal) : exec i s ≠ .refused r := by
  rw [exec_eq_perform]
  exact finish_not_refused _ r

theorem step_not_refused (s : State) (r : Refusal) : step s ≠ .refused r := by
  rw [step_eq_stepAnswer]
  exact finish_not_refused _ r

/-- Settles O50. -/
theorem neverRefused : Obligations.NeverRefused :=
  ⟨fun s i r => exec_not_refused i s r, step_not_refused⟩

/-! ## The next sequential address (R222, R224) -/

/-- An operation answers one next state, so the pc of `u` is that of `t`. -/
theorem State.pc_of_next {t u : State} {r : Result} {a : Word} (h : r = .next t) (e : r = .next u)
    (hu : u.ctx.pc = a) : t.ctx.pc = a := by
  cases h.symm.trans e
  exact hu

/-- Every shared operation but the control transfers has `pc <- npc` for its last write. -/
theorem State.Shape.pc {s t : State} {i : Instr} {r : Result} (shape : s.Shape i r) (h : r = .next t)
    (hseq : i.endsBlock = false) : t.ctx.pc = s.npc i := by
  have hends : i.endsBlock ≠ true := by simp [hseq]
  cases shape with
  | jump _ ends => exact absurd ends hends
  | jumpTo _ _ ends => exact absurd ends hends
  | callRel _ _ ends => exact absurd ends hends
  | callTo _ _ _ ends => exact absurd ends hends
  | popAndGo ends => exact absurd ends hends
  | nop => cases h; rfl
  | aluStore =>
    obtain ⟨hread, hsrc, hwrite⟩ := State.aluStore_next h
    exact State.pc_of_next h (State.aluStore_completes hread hsrc hwrite) rfl
  | aluCompare =>
    obtain ⟨hread, hsrc⟩ := State.aluCompare_next h
    exact State.pc_of_next h (State.aluCompare_completes hread hsrc) rfl
  | aluStep =>
    obtain ⟨hread, hwrite⟩ := State.aluStep_next h
    exact State.pc_of_next h (State.aluStep_completes hread hwrite) rfl
  | move =>
    obtain ⟨hsrc, hwrite⟩ := State.move_next h
    exact State.pc_of_next h (State.move_completes hsrc hwrite) rfl
  | compareScalar =>
    obtain ⟨u, -, e⟩ := State.compareScalar_completes (State.compareScalar_next h)
    exact State.pc_of_next h e rfl
  | addPacked =>
    obtain ⟨u, -, e⟩ := State.addPacked_completes (State.addPacked_next h)
    exact State.pc_of_next h e rfl
  | shiftBy =>
    obtain ⟨u, -, e⟩ := State.shiftBy_completes (State.shiftBy_next h)
    exact State.pc_of_next h e rfl
  | shiftImm kind L r v =>
    exact State.pc_of_next h (s.shiftImm_eq i kind L r v) rfl
  | vload p r x n read write hf hv =>
    obtain ⟨u, -, e⟩ := State.vload_completes (write := write) hf hv (State.vload_next h)
    refine State.pc_of_next h e ?_
    split <;> rfl
  | vstore p d r n read write hf hv =>
    obtain ⟨u, -, e⟩ := State.vstore_completes (write := write) hf hv (State.vstore_next h)
    refine State.pc_of_next h e ?_
    split <;> rfl

/-- Settles O49, by the shared operation that each row is. -/
theorem sequentialPc : Obligations.SequentialPc :=
  fun s _ i h hseq => (s.exec_shape i).pc h hseq

/-! ## The step on the bytes of an instruction (30_encoding.md R111) -/

/-- The window at the pc begins with the bytes that can be fetched, and the decoder reads no more than it needs. -/
theorem decode_fetchWindow {s : State} {bs : List Byte} {i : Instr} (hlen : bs.length ≤ 15) (h : s.Fetches bs)
    (hdecode : decode bs = .ok i []) :
    ∃ rest, decode (s.vmm.fetchWindow Config.maxIlen s.ctx.pc).1 = .ok i rest := by
  have hwindow := State.windowAfter_fetches (raw := []) h hlen
  rw [Vmm.windowAfter_nil, List.nil_append] at hwindow
  rw [hwindow]
  exact ⟨_, decode_append_ok hdecode _⟩

theorem step_of_decode {s : State} {i : Instr} {rest : List Byte}
    (h : decode (s.vmm.fetchWindow Config.maxIlen s.ctx.pc).1 = .ok i rest) : step s = exec i s := by
  rw [step_eq_stepAnswer, stepAnswer_ok h, exec_eq_perform]
  rfl

/-- Settles O7. -/
theorem stepRunsDecoded : Obligations.StepRunsDecoded := by
  intro s i bs hlen hfetch hdecode
  obtain ⟨rest, hwindow⟩ := decode_fetchWindow hlen hfetch hdecode
  refine ⟨step_of_decode hwindow, ?npc⟩
  case npc =>
    have hlength : bs.length = i.length := decode_length hdecode
    rw [hlength]
    rfl

end Sys2Proof.Machine
end

section
/-! SUPPORT. The shift kinds on one lane from integers, and the packed operations lane by lane (43_vector.md R254, R255,
R257), with the statements O41 and O42. -/

namespace Sys2Proof.Machine

/-! ## One lane (R257) -/

section
variable {L : Nat} (x : BitVec L) (c : BitVec 32)

theorem ShiftKind.sll_toNat :
    (ShiftKind.sll.apply x c).toNat = if L ≤ c.toNat then 0 else x.toNat * 2 ^ c.toNat % 2 ^ L := by
  simp only [ShiftKind.apply]
  split
  case isTrue => rfl
  case isFalse => rw [BitVec.toNat_shiftLeft, Nat.shiftLeft_eq]

theorem ShiftKind.srl_toNat :
    (ShiftKind.srl.apply x c).toNat = if L ≤ c.toNat then 0 else x.toNat / 2 ^ c.toNat := by
  simp only [ShiftKind.apply]
  split
  case isTrue => rfl
  case isFalse => rw [BitVec.toNat_ushiftRight, Nat.shiftRight_eq_div_pow]

/-- The arithmetic shift is the floor of the signed quotient, put back modulo `2^L`. -/
theorem ShiftKind.sra_toNat :
    (ShiftKind.sra.apply x c).toNat = if L ≤ c.toNat then (if x.msb then 2 ^ L - 1 else 0)
      else ((x.toInt / (2 : Int) ^ c.toNat) % (2 : Int) ^ L).toNat := by
  simp only [ShiftKind.apply]
  split
  case isTrue =>
    split
    · exact BitVec.toNat_allOnes
    · rfl
  case isFalse =>
    rw [BitVec.sshiftRight, BitVec.toNat_ofInt, Int.shiftRight_eq_div_pow, Nat.cast_pow, Nat.cast_pow, Nat.cast_ofNat]

/-- A count of 0 is below every lane width. -/
theorem ShiftKind.apply_zero (hL : 1 ≤ L) (kind : ShiftKind) : kind.apply x 0 = x := by
  have hlt : ¬ L ≤ (0 : BitVec 32).toNat := Nat.not_le.2 hL
  cases kind with
  | sll => exact (if_neg hlt).trans (BitVec.shiftLeft_zero x)
  | srl => exact (if_neg hlt).trans (BitVec.ushiftRight_zero x)
  | sra => exact (if_neg hlt).trans BitVec.sshiftRight_zero

end

/-- Settles O41, kind by kind. -/
theorem shiftKinds : Obligations.ShiftKinds := fun _ x c hL =>
  ⟨ShiftKind.sll_toNat x c, ShiftKind.srl_toNat x c, ShiftKind.sra_toNat x c, ShiftKind.apply_zero x hL⟩

/-! ## Lane by lane (R254, R255) -/

/-- Lane `k` of a packed shift, at any lane width. -/
theorem packedShift_lane {L k : Nat} (hk : k < 128 / L) (kind : ShiftKind) (a : BitVec 128) (c : BitVec 32) :
    (packedShift kind L a c).extractLsb' (L * k) L = kind.apply (a.extractLsb' (L * k) L) c :=
  lane_ofLanes (fun k => kind.apply (lane L a k) c) (128 / L) k hk (Nat.mul_div_le 128 L)

/-- Settles O42: the lanes of a value put together from lanes are those lanes. -/
theorem packedLanes : Obligations.PackedLanes := fun kind _ a c _ _ hk => packedShift_lane hk kind a c

/-- Two lanes of 64 bits, put together, are the high one above the low one. -/
theorem ofLanes_two (g : Nat → BitVec 64) : ofLanes 64 g 2 = g 1 ++ g 0 := by
  apply BitVec.eq_of_getLsbD_eq
  intro j hj
  rw [getLsbD_ofLanes g 2 j (by omega) (by omega), BitVec.getLsbD_append]
  by_cases hlow : j < 64
  · have hq : j / 64 = 0 := by omega
    have hr : j % 64 = j := by omega
    simp [hlow, hq, hr, hj]
  · have hq : j / 64 = 1 := by omega
    have hr : j % 64 = j - 64 := by omega
    simp [hlow, hq, hr, hj]

/-- R254: each half of a packed sum is the sum of the halves. -/
theorem packedAdd64_eq (a b : BitVec 128) :
    packedAdd64 a b
      = (a.extractLsb' 64 64 + b.extractLsb' 64 64) ++ (a.extractLsb' 0 64 + b.extractLsb' 0 64) :=
  ofLanes_two fun k => lane 64 a k + lane 64 b k

end Sys2Proof.Machine
end

section
/-! SUPPORT. The comparison of two binary32 patterns (43_vector.md R253): the model compares integers in units of
`2^-149`, and these lie in the order of the values, infinities included. With the statement O43. -/

namespace Sys2Proof.Machine

/-! ## From units of `2^-149` to values -/

/-- The integer that stands for `+∞` among the scaled values. -/
def infinity32 : Int := 2 ^ 23 * 2 ^ 254

/-- The value of a scaled integer: the bounds are the infinities, and what lies between them is exact. -/
def unscaled32 (z : Int) : WithBot (WithTop ℚ) :=
  if z ≤ -infinity32 then ⊥
  else if infinity32 ≤ z then ((⊤ : WithTop ℚ) : WithBot (WithTop ℚ))
  else (((z : ℚ) * 2 ^ (-149 : ℤ) : ℚ) : WithTop ℚ)

theorem unscaled32_strictMono : StrictMonoOn unscaled32 (Set.Icc (-infinity32) infinity32) := by
  rintro y ⟨hy, -⟩ z ⟨-, hz⟩ hyz
  have hz' : ¬ z ≤ -infinity32 := by omega
  have hy' : ¬ infinity32 ≤ y := by omega
  rw [unscaled32, unscaled32, if_neg hz', if_neg hy']
  split
  case isTrue =>
    split
    · exact WithBot.bot_lt_coe _
    · exact WithBot.bot_lt_coe _
  case isFalse =>
    split
    · exact WithBot.coe_lt_coe.2 (WithTop.coe_lt_top _)
    · have hlt : (y : ℚ) < z := by exact_mod_cast hyz
      have hunit : (0 : ℚ) < 2 ^ (-149 : ℤ) := by positivity
      exact WithBot.coe_lt_coe.2 (WithTop.coe_lt_coe.2 (mul_lt_mul_of_pos_right hlt hunit))

/-! ## Patterns as scaled integers -/

theorem isNaN32_iff (v : BitVec 32) : isNaN32 v = true ↔ nan32 v := by
  simp [isNaN32, nan32, exponent32, fraction32]

theorem exponent32_lt (v : BitVec 32) : exponent32 v < 256 := (v.extractLsb' 23 8).isLt

theorem fraction32_lt (v : BitVec 32) : fraction32 v < 2 ^ 23 := (v.extractLsb' 0 23).isLt

theorem fraction32_of_infinite {v : BitVec 32} (hv : ¬ nan32 v) (he : exponent32 v = 255) : fraction32 v = 0 :=
  not_not.1 fun hf => hv ⟨he, hf⟩

theorem magnitude32_of_infinite {v : BitVec 32} (hv : ¬ nan32 v) (he : exponent32 v = 255) :
    (magnitude32 v : Int) = infinity32 := by
  rw [magnitude32, he, fraction32_of_infinite hv he]
  rfl

/-- A finite pattern has exponent at most 254 and fraction below `2^23`. -/
theorem magnitude32_of_finite {v : BitVec 32} (he : exponent32 v ≠ 255) : (magnitude32 v : Int) < infinity32 := by
  have hf := fraction32_lt v
  have hlt := exponent32_lt v
  have hbound : magnitude32 v < 2 ^ 23 * 2 ^ 254 := by
    unfold magnitude32
    split
    case isTrue => omega
    case isFalse =>
      calc (2 ^ 23 + fraction32 v) * 2 ^ (exponent32 v - 1)
          < 2 ^ 24 * 2 ^ (exponent32 v - 1) := Nat.mul_lt_mul_of_pos_right (by omega) (by positivity)
        _ ≤ 2 ^ 24 * 2 ^ 253 := Nat.mul_le_mul_left _ (Nat.pow_le_pow_right (by omega) (by omega))
        _ = 2 ^ 23 * 2 ^ 254 := by norm_num
  rw [infinity32]
  exact_mod_cast hbound

theorem magnitude32_le {v : BitVec 32} (hv : ¬ nan32 v) : (magnitude32 v : Int) ≤ infinity32 := by
  by_cases he : exponent32 v = 255
  · exact (magnitude32_of_infinite hv he).le
  · exact (magnitude32_of_finite he).le

/-- The sign bit `v[31]` is the top bit of the pattern. -/
theorem scaled32_eq (v : BitVec 32) : scaled32 v = if v.msb then -(magnitude32 v : Int) else magnitude32 v := by
  rw [scaled32, BitVec.msb_eq_getLsbD_last]

theorem scaled32_mem {v : BitVec 32} (hv : ¬ nan32 v) : scaled32 v ∈ Set.Icc (-infinity32) infinity32 := by
  have hle := magnitude32_le hv
  rw [Set.mem_Icc, scaled32_eq]
  split
  all_goals omega

/-- The sign of R253. -/
def sign32 (v : BitVec 32) : ℚ := if v.msb then -1 else 1

theorem cast_scaled32 (v : BitVec 32) : (scaled32 v : ℚ) = sign32 v * magnitude32 v := by
  rw [scaled32_eq, sign32]
  split
  · push_cast; ring
  · push_cast; ring

theorem unscaled32_of_infinite {v : BitVec 32} (hv : ¬ nan32 v) (he : exponent32 v = 255) :
    unscaled32 (scaled32 v) = if v.msb then ⊥ else ((⊤ : WithTop ℚ) : WithBot (WithTop ℚ)) := by
  rw [scaled32_eq, magnitude32_of_infinite hv he]
  split
  · rfl
  · rfl

theorem unscaled32_of_finite {v : BitVec 32} (he : exponent32 v ≠ 255) :
    unscaled32 (scaled32 v) = ((sign32 v * magnitude32 v * 2 ^ (-149 : ℤ) : ℚ) : WithTop ℚ) := by
  have hlt := magnitude32_of_finite he
  have hin : -infinity32 < scaled32 v ∧ scaled32 v < infinity32 := by
    rw [scaled32_eq]
    split
    all_goals omega
  rw [unscaled32, if_neg (not_le.2 hin.1), if_neg (not_le.2 hin.2), cast_scaled32]

/-- The exponent of a normal pattern, counted in units of `2^-149`. -/
theorem two_zpow_of_normal {v : BitVec 32} (h : exponent32 v ≠ 0) :
    (2 : ℚ) ^ ((exponent32 v : ℤ) - 150) = 2 ^ (exponent32 v - 1) * 2 ^ (-149 : ℤ) := by
  have hexp : (exponent32 v : ℤ) - 150 = ((exponent32 v - 1 : ℕ) : ℤ) + (-149) := by omega
  rw [hexp, zpow_add₀ two_ne_zero, zpow_natCast]

/-! ## The three cases of R253 -/

theorem value32_of_infinite {v : BitVec 32} (he : exponent32 v = 255) :
    value32 v = if v.msb then ⊥ else ((⊤ : WithTop ℚ) : WithBot (WithTop ℚ)) :=
  if_pos he

theorem value32_of_subnormal {v : BitVec 32} (he : exponent32 v = 0) :
    value32 v = ((sign32 v * fraction32 v * 2 ^ (-149 : ℤ) : ℚ) : WithTop ℚ) :=
  have hfin : exponent32 v ≠ 255 := by omega
  (if_neg hfin).trans (if_pos he)

theorem value32_of_normal {v : BitVec 32} (hfin : exponent32 v ≠ 255) (he : exponent32 v ≠ 0) :
    value32 v = ((sign32 v * (2 ^ 23 + fraction32 v) * 2 ^ ((exponent32 v : ℤ) - 150) : ℚ) : WithTop ℚ) :=
  (if_neg hfin).trans (if_neg he)

/-- The value of a pattern that is no NaN is that of its scaled integer. -/
theorem value32_eq {v : BitVec 32} (hv : ¬ nan32 v) : value32 v = unscaled32 (scaled32 v) := by
  by_cases hinf : exponent32 v = 255
  · rw [value32_of_infinite hinf, unscaled32_of_infinite hv hinf]
  · rw [unscaled32_of_finite hinf]
    by_cases he : exponent32 v = 0
    · rw [value32_of_subnormal he, magnitude32, if_pos he]
    · rw [value32_of_normal hinf he, two_zpow_of_normal he, magnitude32, if_neg he, ← mul_assoc, mul_assoc (sign32 v)]
      norm_cast

theorem value32_lt_iff {a b : BitVec 32} (ha : ¬ nan32 a) (hb : ¬ nan32 b) :
    value32 a < value32 b ↔ scaled32 a < scaled32 b := by
  rw [value32_eq ha, value32_eq hb, unscaled32_strictMono.lt_iff_lt (scaled32_mem ha) (scaled32_mem hb)]

/-! ## The outcome -/

theorem isNaN32_or_iff (a b : BitVec 32) : (isNaN32 a || isNaN32 b) = true ↔ nan32 a ∨ nan32 b := by
  rw [Bool.or_eq_true, isNaN32_iff, isNaN32_iff]

theorem cmp32_of_nan {a b : BitVec 32} (h : nan32 a ∨ nan32 b) : cmp32 a b = .unordered := by
  rw [cmp32, if_pos ((isNaN32_or_iff a b).2 h)]

theorem cmp32_of_numbers {a b : BitVec 32} (ha : ¬ nan32 a) (hb : ¬ nan32 b) :
    cmp32 a b = if value32 a < value32 b then .less else if value32 b < value32 a then .greater else .equal := by
  have hnan : ¬ (isNaN32 a || isNaN32 b) = true := (isNaN32_or_iff a b).not.2 (not_or.2 ⟨ha, hb⟩)
  simp only [cmp32, if_neg hnan, value32_lt_iff ha hb, value32_lt_iff hb ha]

/-- Settles O43: a NaN decides alone, and without one the values are in one of three orders. -/
theorem compareValues : Obligations.CompareValues := by
  intro a b
  by_cases hnan : nan32 a ∨ nan32 b
  · have hno (order : Prop) : ¬ (¬ nan32 a ∧ ¬ nan32 b ∧ order) := fun ⟨ha, hb, _⟩ => hnan.elim ha hb
    rw [cmp32_of_nan hnan]
    exact ⟨iff_of_true rfl hnan, iff_of_false nofun (hno _), iff_of_false nofun (hno _), iff_of_false nofun (hno _)⟩
  · obtain ⟨ha, hb⟩ := not_or.1 hnan
    rw [cmp32_of_numbers ha hb]
    rcases lt_trichotomy (value32 a) (value32 b) with hlt | heq | hgt
    · simp [ha, hb, hlt, hlt.ne, hlt.not_gt]
    · simp [ha, hb, heq]
    · simp [ha, hb, hgt, hgt.ne', hgt.not_gt]

end Sys2Proof.Machine
end

section
/-! SUPPORT. The vector instructions where their accesses are permitted (43_vector.md R252 to R275): the shared
operation that each row is, what it leaves, and the statements O24, O25, O26, O27, O28 and O29. -/

namespace Sys2Proof.Machine

/-! ## The rows as shared operations -/

theorem exec_comiss (p : Pfx) (r : Reg) (x : RM) (s : State) :
    exec (.comiss p r x) s = s.compareScalar (.comiss p r x) p r x := by
  rw [exec_eq_perform]; rfl

theorem exec_paddq (p : Pfx) (r : Reg) (x : RM) (s : State) :
    exec (.paddq p r x) s = s.addPacked (.paddq p r x) p r x := by
  rw [exec_eq_perform]; rfl

/-- The shifts by a register or memory count; in the other rows the hypothesis has no case. -/
theorem exec_shiftForm {i : Instr} {p : Pfx} {kind : ShiftKind} {L : Nat} {r : Reg} {x : RM}
    (h : i.shiftForm = some (p, kind, L, r, x)) (s : State) : exec i s = s.shiftBy i p kind L r x := by
  cases i <;> cases h <;> rfl

/-- The shifts by an immediate count; in the other rows the hypothesis has no case. -/
theorem exec_shiftImmForm {i : Instr} {kind : ShiftKind} {L : Nat} {r : Reg} {v : BitVec 8}
    (h : i.shiftImmForm = some (kind, L, r, v)) (s : State) : exec i s = s.shiftImm i kind L r v := by
  cases i <;> cases h <;> rfl

/-- A pair of a read and a write that see the low `n` bytes of a vector register's value and no more of it (10_state.md
R45 to R50). -/
structure VReg.Represents (n : Nat) (read : VReg → BitVec (8 * n) × VReg) (write : VReg → BitVec (8 * n) → VReg) :
    Prop where
  read_fst : ∀ r, (read r).1 = r.val.setWidth (8 * n)
  read_val : ∀ r, (read r).2.val = r.val
  write_val : ∀ r v j, (write r v).val.getLsbD j = if j < 8 * n then v.getLsbD j else r.val.getLsbD j

theorem VReg.represents_f32 : VReg.Represents 4 VReg.readF32 VReg.writeF32 :=
  ⟨VReg.readF32_fst, VReg.readF32_val, VReg.getLsbD_writeF32⟩

theorem VReg.represents_f64 : VReg.Represents 8 VReg.readF64 VReg.writeF64 :=
  ⟨VReg.readF64_fst, VReg.readF64_val, VReg.getLsbD_writeF64⟩

theorem VReg.represents_raw : VReg.Represents 16 VReg.readRaw VReg.writeRaw :=
  ⟨VReg.readRaw_fst, VReg.readRaw_val, VReg.getLsbD_writeRaw⟩

/-- The moves to a register, each in its representation (R270, R272, R274). -/
theorem exec_vloadForm {i : Instr} {p : Pfx} {n : Nat} {r : Reg} {x : RM} (h : i.vloadForm = some (p, n, r, x)) :
    ∃ read write, VReg.Represents n read write ∧ ∀ s, exec i s = s.vload i p r x n read write := by
  cases i with
  | movssLoad => cases h; exact ⟨_, _, VReg.represents_f32, fun _ => rfl⟩
  | movsdLoad => cases h; exact ⟨_, _, VReg.represents_f64, fun _ => rfl⟩
  | movdquLoad => cases h; exact ⟨_, _, VReg.represents_raw, fun _ => rfl⟩
  | _ => cases h

/-- The moves from a register, each in its representation (R271, R273, R275). -/
theorem exec_vstoreForm {i : Instr} {p : Pfx} {n : Nat} {d : RM} {r : Reg} (h : i.vstoreForm = some (p, n, d, r)) :
    ∃ read write, VReg.Represents n read write ∧ ∀ s, exec i s = s.vstore i p d r n read write := by
  cases i with
  | movssStore => cases h; exact ⟨_, _, VReg.represents_f32, fun _ => rfl⟩
  | movsdStore => cases h; exact ⟨_, _, VReg.represents_f64, fun _ => rfl⟩
  | movdquStore => cases h; exact ⟨_, _, VReg.represents_raw, fun _ => rfl⟩
  | _ => cases h

/-! ## What the shared operations leave -/

/-- From `s` to `t` instruction `i` set the flags to `f` and advanced, and changed no general register, no segment and
no other context. -/
structure State.VAdvanced (s t : State) (i : Instr) (f : Flags) : Prop where
  flags : t.ctx.flags = f
  pc : t.ctx.pc = s.npc i
  regs : s.SameRegs t
  block : s.SameBlock t

section
variable {s u : State} (h : s.SameButTags u)
include h

theorem State.SameButTags.sameBytes : s.SameBytes u := fun a => by rw [State.byteAt, State.byteAt, h.vmm]

theorem State.SameButTags.sameBlock : s.SameBlock u := ⟨by rw [h.vmm], by rw [h.vmm], h.parked⟩

/-- The write of one vector register after reads that kept every value. -/
theorem State.SameButTags.advanced_setVreg (i : Instr) (r : Reg) (x : VReg) :
    s.VAdvanced ((u.setVreg r x).setPc (s.npc i)) i s.ctx.flags :=
  ⟨h.flags, rfl, h.reg, h.sameBlock⟩

/-- The write of the flags after such reads. -/
theorem State.SameButTags.advanced_setFlags (i : Instr) (f : Flags) :
    s.VAdvanced ((u.setFlags f).setPc (s.npc i)) i f :=
  ⟨rfl, rfl, h.reg, h.sameBlock⟩

/-- A store after such reads. -/
theorem State.SameButTags.advanced_stored (i : Instr) (a : Word) (n : Nat) (v : BitVec (8 * n)) :
    s.VAdvanced ((u.setVmm (u.vmm.stored a n v)).setPc (s.npc i)) i s.ctx.flags :=
  ⟨h.flags, rfl, h.reg, h.sameBlock⟩

theorem State.SameButTags.storedAt {a : Word} {n : Nat} (hp : s.vmm.permits a n .write = true) (v : BitVec (8 * n)) :
    s.StoredAt (u.setVmm (u.vmm.stored a n v)) a n v := by
  rw [h.vmm]
  exact State.storedAt_stored v hp

end

/-- From `s` to `t` instruction `i` wrote `v` to the low bits of vector register `r`, advanced, and changed no other
value. -/
structure State.VProduced (s t : State) (i : Instr) (r : Reg) {n : Nat} (v : BitVec n) : Prop
    extends State.VAdvanced s t i s.ctx.flags where
  wrote : s.VWrote t r v
  bytes : s.SameBytes t

theorem State.SameButTags.produced_write {n : Nat} {read : VReg → BitVec (8 * n) × VReg}
    {write : VReg → BitVec (8 * n) → VReg} (hrep : VReg.Represents n read write) {s u : State} (h : s.SameButTags u)
    (i : Instr) (r : Reg) (v : BitVec (8 * n)) :
    s.VProduced ((u.setVreg r (write (u.vreg r) v)).setPc (s.npc i)) i r v where
  toVAdvanced := h.advanced_setVreg i r _
  wrote := State.vwrote_write hrep.write_val h r v
  bytes := h.sameBytes

theorem State.SameButTags.produced_writeRaw {s u : State} (h : s.SameButTags u) (i : Instr) (r : Reg) (v : BitVec 128) :
    s.VProduced ((u.setVreg r ((u.vreg r).writeRaw v)).setPc (s.npc i)) i r v :=
  h.produced_write VReg.represents_raw i r v

/-- The flags of COMISS as the table of R252 has them. -/
theorem Cmp.flags_eq (c : Cmp) (f : Flags) :
    c.flags f = { cf := c == .unordered || c == .less, pf := c == .unordered, af := false,
                  zf := c == .unordered || c == .equal, sf := false, of := false, df := f.df } := by
  cases c with
  | unordered => rfl
  | less => rfl
  | greater => rfl
  | equal => rfl

/-! ## The statements -/

/-- Settles O24: COMISS reads both operands as binary32, and writes flags and pc. -/
theorem comissResult : Obligations.ComissResult := by
  intro s p r x hread c
  obtain ⟨u, hsame, hnext⟩ := State.compareScalar_completes (r := r) hread
  have hadv := hsame.advanced_setFlags (.comiss p r x) (c.flags s.ctx.flags)
  exact ⟨_, (exec_comiss p r x s).trans hnext, hadv.flags.trans (c.flags_eq s.ctx.flags), hadv.pc, hadv.regs,
    hsame.val, hsame.sameBytes, hadv.block⟩

/-- Settles O25: PADDQ writes the packed sum of the values it read. -/
theorem paddqResult : Obligations.PaddqResult := by
  intro s p r x hread a b
  obtain ⟨u, hsame, hnext⟩ := State.addPacked_completes (r := r) hread
  have hprod := hsame.produced_writeRaw (.paddq p r x) r (packedAdd64 a b)
  exact ⟨_, (exec_paddq p r x s).trans hnext, packedAdd64_eq a b ▸ hprod.wrote, hprod.flags, hprod.pc, hprod.regs,
    hprod.bytes, hprod.block⟩

/-- Settles O26: the count is read before the destination is written, so it is the count from before also where both are
one register. -/
theorem shiftResult : Obligations.ShiftResult := by
  intro s i p kind L r x hform hread a c
  obtain ⟨u, hsame, hnext⟩ := State.shiftBy_completes (kind := kind) (L := L) (r := r) hread
  have hprod := hsame.produced_writeRaw i r (packedShift kind L a c)
  exact ⟨_, _, (exec_shiftForm hform s).trans hnext, hprod.wrote, fun k hk => packedShift_lane hk kind a c,
    hprod.flags, hprod.pc, hprod.regs, hprod.bytes, hprod.block⟩

/-- Settles O27: the same without an access. -/
theorem shiftImmediateResult : Obligations.ShiftImmediateResult := by
  intro s i kind L r imm hform a
  obtain ⟨u, hsame, hnext⟩ := s.shiftImm_completes i kind L r imm
  have hprod := hsame.produced_writeRaw i r (packedShift kind L a (imm.setWidth 32))
  exact ⟨_, _, (exec_shiftImmForm hform s).trans hnext, hprod.wrote, fun k hk => packedShift_lane hk kind a _,
    hprod.flags, hprod.pc, hprod.regs, hprod.bytes, hprod.block⟩

/-- Settles O28, by where the source is: a register is moved in its representation, memory fills the raw 128 bits. -/
theorem vectorLoadResult : Obligations.VectorLoadResult := by
  intro s i p n r x hform hread
  obtain ⟨read, write, hrep, hexec⟩ := exec_vloadForm hform
  obtain ⟨u, hsame, hnext⟩ := State.vload_completes (r := r) (write := write) hrep.read_fst hrep.read_val hread
  rw [hexec]
  cases hloc : s.bind i p x with
  | reg k =>
    rw [hloc] at hnext
    have hprod := hsame.produced_write hrep i r ((s.val k).setWidth (8 * n))
    refine ⟨_, hnext, ?moved, nofun, hprod.flags, hprod.pc, hprod.regs, hprod.bytes, hprod.block⟩
    case moved => rintro _ ⟨⟩; exact hprod.wrote
  | mem ea =>
    rw [hloc] at hnext
    have hprod := hsame.produced_writeRaw i r ((s.bytesAt ea n).setWidth 128)
    refine ⟨_, hnext, nofun, ?bytes, hprod.flags, hprod.pc, hprod.regs, hprod.bytes, hprod.block⟩
    case bytes => rintro _ ⟨⟩; exact hprod.wrote

/-- Settles O29, by where the destination is. -/
theorem vectorStoreResult : Obligations.VectorStoreResult := by
  intro s i p n d r hform hwrite
  obtain ⟨read, write, hrep, hexec⟩ := exec_vstoreForm hform
  obtain ⟨u, hsame, hnext⟩ := State.vstore_completes (r := r) (write := write) hrep.read_fst hrep.read_val hwrite
  rw [hexec]
  cases hloc : s.bind i p d with
  | reg k =>
    rw [hloc] at hnext
    have hprod := hsame.produced_write hrep i k ((s.val r).setWidth (8 * n))
    refine ⟨_, hnext, ?moved, nofun, hprod.flags, hprod.pc, hprod.regs, hprod.block⟩
    case moved => rintro _ ⟨⟩; exact ⟨hprod.wrote, hprod.bytes⟩
  | mem ea =>
    rw [hloc] at hnext hwrite
    have hadv := hsame.advanced_stored i ea n ((s.val r).setWidth (8 * n))
    refine ⟨_, hnext, nofun, ?bytes, hadv.flags, hadv.pc, hadv.regs, hadv.block⟩
    case bytes => rintro _ ⟨⟩; exact ⟨hsame.val, hsame.storedAt hwrite _⟩

end Sys2Proof.Machine
end

section
/-! SUPPORT. The access that is not permitted, in the vector instructions (60_exceptions.md R302, R303; 43_vector.md
R252 to R275), and the statement O33. -/

namespace Sys2Proof.Machine

section
variable {s : State} {i : Instr} {p : Pfx} {r : Reg} {x : RM} {n : Nat} {ea : Word}

/-- A memory source that may not be read faults also after a read of a register, which has no access. -/
theorem State.vsource_after_denied {α : Type} {g : VReg → α × VReg} (hg : ∀ r, (g r).2.val = r.val)
    {f : VReg → BitVec (8 * n) × VReg} (hmem : s.bind i p x = .mem ea) (h : s.vmm.permits ea n .read = false) :
    (s.vread g r).2.vsource i p x n f = .error (s.vmm.denied ea n .read) := by
  have hbind : (s.vread g r).2.bind i p x = .mem ea := ((State.sameButTags_vread (hg _)).bind i p x).trans hmem
  have hread : (s.vread g r).2.memRead ea n = .error (s.vmm.denied ea n .read) := State.memRead_denied h
  simp only [State.vsource, hbind, hread]
  rfl

theorem State.compareScalar_fault (hmem : s.bind i p x = .mem ea) (h : s.vmm.permits ea 4 .read = false) :
    s.compareScalar i p r x = .fault (s.vmm.denied ea 4 .read) := by
  rw [State.compareScalar_eq, State.vsource_after_denied VReg.readF32_val hmem h]; rfl

theorem State.addPacked_fault (hmem : s.bind i p x = .mem ea) (h : s.vmm.permits ea 16 .read = false) :
    s.addPacked i p r x = .fault (s.vmm.denied ea 16 .read) := by
  rw [State.addPacked_eq, State.vsource_after_denied VReg.readRaw_val hmem h]; rfl

theorem State.shiftBy_fault {kind : ShiftKind} {L : Nat} (hmem : s.bind i p x = .mem ea)
    (h : s.vmm.permits ea 4 .read = false) : s.shiftBy i p kind L r x = .fault (s.vmm.denied ea 4 .read) := by
  rw [State.shiftBy_eq, State.vsource_after_denied VReg.readRaw_val hmem h]; rfl

variable {read : VReg → BitVec (8 * n) × VReg} {write : VReg → BitVec (8 * n) → VReg}

theorem State.vload_fault (hmem : s.bind i p x = .mem ea) (h : s.vmm.permits ea n .read = false) :
    s.vload i p r x n read write = .fault (s.vmm.denied ea n .read) := by
  rw [State.vload_eq, hmem]
  simp only [State.memRead_denied h]
  rfl

theorem State.vstore_fault (hmem : s.bind i p x = .mem ea) (h : s.vmm.permits ea n .write = false) :
    s.vstore i p x r n read write = .fault (s.vmm.denied ea n .write) := by
  have hwrite (v : BitVec (8 * n)) : (s.vread read r).2.memWrite ea n v = .error (s.vmm.denied ea n .write) :=
    State.memWrite_denied h
  rw [State.vstore_eq, hmem]
  simp only [hwrite]
  rfl

end

/-- Settles O33: each row has one access to memory. -/
theorem vectorFaults : Obligations.VectorFaults := by
  intro s p x ea
  refine ⟨fun r hmem hno => ?comiss, fun r hmem hno => ?paddq, fun i kind L r hform hmem hno => ?shift,
    fun i n r hform hmem hno => ?load, fun i n r hform hmem hno => ?store⟩
  case comiss => exact (exec_comiss p r x s).trans (State.compareScalar_fault hmem hno)
  case paddq => exact (exec_paddq p r x s).trans (State.addPacked_fault hmem hno)
  case shift => exact (exec_shiftForm hform s).trans (State.shiftBy_fault hmem hno)
  case load =>
    obtain ⟨read, write, -, hexec⟩ := exec_vloadForm hform
    exact (hexec s).trans (State.vload_fault hmem hno)
  case store =>
    obtain ⟨read, write, -, hexec⟩ := exec_vstoreForm hform
    exact (hexec s).trans (State.vstore_fault hmem hno)

end Sys2Proof.Machine
end

section
/-! SUPPORT. What every step leaves alone (60_exceptions.md R314, R322, 10_state.md R31, 43_vector.md R251), by
`State.Quiet`, and the statement O46. -/

namespace Sys2Proof.Machine

/-- A store changes bytes, and neither the table nor the fill counter. -/
theorem State.Quiet.sameBlock {s t : State} {i : Instr} (h : s.Quiet i t) : s.SameBlock t := by
  obtain hsame | ⟨a, n, v, -, -, hstored⟩ := h.vmm
  · exact ⟨by rw [hsame], by rw [hsame], h.parked⟩
  · exact ⟨by rw [hstored, Vmm.stored_segs], by rw [hstored, Vmm.stored_fills], h.parked⟩

/-- Settles O46: a step that advances is an instruction, and every instruction is quiet. -/
theorem stepFrame : Obligations.StepFrame := by
  intro s t h
  obtain ⟨i, hi⟩ := step_next h
  have hquiet := exec_quiet hi
  exact ⟨hquiet.sameBlock, hquiet.df, hquiet.high⟩

end Sys2Proof.Machine
end

section
/-! SUPPORT. A byte that the decoder needs and cannot fetch (60_exceptions.md R302, R303, R309): the statement O9. -/

namespace Sys2Proof.Machine

/-- The faults of a translation (20_memory.md R70), with the address, width and kind of the access (R75). -/
theorem Vmm.translate_error {m : Vmm} {a : Word} {n : Nat} {k : Access} {f : Fault}
    (h : m.translate a n k = .error f) : f = .segmentationFault a n k ∨ f = .accessViolation a n k := by
  unfold Vmm.translate at h
  split at h
  · cases h
    exact .inl rfl
  · split at h
    · cases h
      exact .inl rfl
    · split at h
      · cases h
      · cases h
        exact .inr rfl

/-- The faults of a fetch: one byte, at its own address (R82). -/
theorem Vmm.memFetch_error {m : Vmm} {a : Word} {f : Fault} (h : m.memFetch a = .error f) :
    f = .segmentationFault a 1 .fetch ∨ f = .accessViolation a 1 .fetch := by
  rw [Vmm.memFetch_eq] at h
  split at h
  · cases h
    exact Vmm.translate_error ‹_›
  · cases h

/-- The window at the pc ends before the first byte that cannot be fetched. -/
theorem State.fetchWindow_error {s : State} {bs : List Byte} {f : Fault} {n : Nat} (hlen : bs.length < n)
    (h : s.Fetches bs) (hf : s.vmm.memFetch (s.ctx.pc + BitVec.ofNat 64 bs.length) = .error f) :
    s.vmm.fetchWindow n s.ctx.pc = (bs, some f) := by
  obtain ⟨left, hleft⟩ : ∃ left, n - bs.length = left + 1 := Nat.exists_eq_add_one.2 (Nat.sub_pos_of_lt hlen)
  have hwindow := State.windowAfter_fetches (raw := []) h (Nat.le_of_lt hlen)
  rw [Vmm.windowAfter_nil, List.nil_append, hleft, Vmm.windowAfter_error left hf] at hwindow
  exact hwindow

/-- Settles O9: the window is the bytes so far, on which the decoder asks for the one that faults. -/
theorem fetchFault : Obligations.FetchFault := by
  intro s bs f hlen h hshort hf
  refine ⟨?_, Vmm.memFetch_error hf⟩
  rw [step_fault_iff, State.fetchWindow_error hlen h hf, stepAnswer_short hshort]
  rfl

end Sys2Proof.Machine
end

section
/-! SUPPORT. What an event of the block leaves alone: the other contexts, the segment table, and a context inside a step
(60_exceptions.md R322, R323); the choice of a context; and the statement O58. -/

namespace Sys2Proof.Machine

/-! ## The choice of a context (R322) -/

theorem State.select_none {s : State} {k : Nat} (h : s.parked.length ≤ k) : s.select k = none := by
  rw [State.select, List.getElem?_eq_none h]

theorem State.select_some {s : State} {k : Nat} {c : Context} (h : s.parked[k]? = some c) :
    s.select k = some { s with ctx := c, parked := s.parked.set k s.ctx } := by
  rw [State.select, h]

/-! ## One access -/

theorem Block.access_none {b : Block} {k : Nat} (h : b.cpus[k]? = none) : b.access k = (b, .refused) := by
  rw [Block.access, h]

theorem Block.access_some {b : Block} {k : Nat} {p : Cpu} (h : b.cpus[k]? = some p) :
    b.access k = b.turn k p.ctx ((p.stage.getD (.fetch [])).next p.ctx b.vmm) := by
  rw [Block.access, h]

theorem Vmm.memWrite_segs {m m' : Vmm} {a : Word} {n : Nat} {v : BitVec (8 * n)} (h : m.memWrite a n v = .ok m') :
    m'.segs = m.segs := by
  obtain ⟨-, rfl⟩ := Vmm.memWrite_stored h
  exact m.stored_segs a n v

/-- An access of a step stores at most. -/
theorem Stage.next_segs (c : Context) (m : Vmm) (g : Stage) : (g.next c m).2.segs = m.segs := by
  obtain hsame | ⟨a, n, v, -, hstored⟩ := g.next_vmm c m
  · rw [hsame]
  · rw [hstored, Vmm.stored_segs]

theorem Block.access_other (b : Block) {k j : Nat} (h : k ≠ j) : (b.access k).1.cpus[j]? = b.cpus[j]? := by
  cases hk : b.cpus[k]? with
  | none => rw [Block.access_none hk]
  | some p => rw [Block.access_some hk, Block.turn_other _ _ h]

theorem Block.access_segs (b : Block) (k : Nat) : (b.access k).1.vmm.segs = b.vmm.segs := by
  cases hk : b.cpus[k]? with
  | none => rw [Block.access_none hk]
  | some p => rw [Block.access_some hk, Block.turn_vmm, Stage.next_segs]

/-- Registers change only as the step advances (60_exceptions.md R300). -/
theorem Block.turn_ctx {b : Block} {k : Nat} (hk : k < b.cpus.length) {c : Context} {t : Turn × Vmm}
    (h : (b.turn k c t).2 ≠ .advanced) : ((b.turn k c t).1.cpus[k]?).map Cpu.ctx = some c := by
  obtain ⟨turn, m⟩ := t
  cases turn with
  | going g => simp [Block.turn, List.getElem?_set_self hk]
  | advanced c' => exact absurd rfl h
  | fault f => simp [Block.turn, List.getElem?_set_self hk]

theorem Block.access_ctx {b : Block} {k : Nat} {p : Cpu} (hk : b.cpus[k]? = some p)
    (h : (b.access k).2 ≠ .advanced) : ((b.access k).1.cpus[k]?).map Cpu.ctx = some p.ctx := by
  rw [Block.access_some hk] at h ⊢
  exact Block.turn_ctx (List.getElem?_eq_some_iff.1 hk).1 h

/-! ## Every event (R323) -/

/-- An event changes no context but its subject; a new context comes after those there are. -/
theorem Block.on_other {b : Block} {e : Event} {j : Nat} (hj : j < b.cpus.length) (h : e.subject ≠ some j) :
    (b.on e).1.cpus[j]? = b.cpus[j]? := by
  cases e with
  | access k => exact b.access_other fun hkj => h (congrArg some hkj)
  | command x => simp only [Block.on]; split <;> rfl
  | read a n => simp only [Block.on]; split <;> rfl
  | write a n v => simp only [Block.on]; split <;> rfl
  | registers k c =>
    have hkj : k ≠ j := fun hkj => h (congrArg some hkj)
    simp only [Block.on]
    split
    · rfl
    · exact List.getElem?_set_ne hkj
  | snapshot k =>
    have hkj : k ≠ j := fun hkj => h (congrArg some hkj)
    simp only [Block.on]
    split
    · rfl
    · exact List.getElem?_set_ne hkj
  | create => exact List.getElem?_append_left hj

/-- Only a command changes the segment table. -/
theorem Block.on_segs (b : Block) {e : Event} (h : e.isCommand = false) : (b.on e).1.vmm.segs = b.vmm.segs := by
  cases e with
  | access k => exact b.access_segs k
  | command x => cases h
  | read a n => simp only [Block.on]; split <;> rfl
  | write a n v =>
    simp only [Block.on]
    split
    · rfl
    · exact Vmm.memWrite_segs ‹_›
  | registers k c => simp only [Block.on]; split <;> rfl
  | snapshot k => simp only [Block.on]; split <;> rfl
  | create => rfl

theorem Block.idle_inside {b : Block} {k : Nat} {c : Context} {g : Stage} (hk : b.cpus[k]? = some ⟨c, some g⟩) :
    b.idle k = none := by
  simp only [Block.idle, hk]

/-- Settles O58. -/
theorem contextsAreSeparate : Obligations.ContextsAreSeparate := by
  refine ⟨fun s k => ⟨State.select_none, fun c hc => ?select⟩,
    fun b e => ⟨fun j hj h => Block.on_other hj h, Block.on_segs b, fun k c g hk => ?inside⟩⟩
  case select =>
    have hk : k < s.parked.length := (List.getElem?_eq_some_iff.1 hc).1
    refine ⟨_, State.select_some hc, rfl, rfl, List.length_set, fun j => ?_⟩
    by_cases hj : j = k
    · rw [if_pos hj, hj, List.getElem?_set_self hk]
    · rw [if_neg hj, List.getElem?_set_ne (Ne.symm hj)]
  case inside =>
    have hidle := Block.idle_inside hk
    refine ⟨Block.access_ctx hk, fun c' => ?_, ?_⟩
    · simp only [Block.on, hidle]
    · simp only [Block.on, hidle]

end Sys2Proof.Machine
end

section
/-! SUPPORT. The snapshot (60_exceptions.md R320), and the statement O57. -/

namespace Sys2Proof.Machine

theorem Context.snapshot_v (c : Context) (k : Reg) : c.snapshot.v[k.toNat]'(k.isLt) = (c.vreg k).val := by
  simp [Context.snapshot, Context.vreg]

theorem Context.vreg_materialized (c : Context) (k : Reg) : c.materialized.vreg k = (c.vreg k).materialize := by
  simp [Context.materialized, Context.vreg]

/-- Taking a snapshot materializes each vector register. -/
theorem State.vreg_snapshot (s : State) (k : Reg) : (s.snapshot.2).vreg k = (s.vreg k).materialize :=
  s.ctx.vreg_materialized k

/-- Settles O57. -/
theorem snapshotExport : Obligations.SnapshotExport := by
  intro s
  have htag : ∀ k, (s.snapshot.2.vreg k).tag = .raw := fun k => by rw [s.vreg_snapshot, VReg.materialize_tag]
  have hval : s.SameVals s.snapshot.2 := fun k => by
    rw [State.val, s.vreg_snapshot, VReg.materialize_val, State.val]
  exact ⟨rfl, rfl, rfl, s.ctx.snapshot_v, htag, hval, rfl, rfl, rfl, rfl, rfl⟩

end Sys2Proof.Machine
end

section
/-! SUPPORT. A step with no segment mapped (70_reset_and_hazards.md R330): the statement O10. -/

namespace Sys2Proof.Machine

/-- A fetch from an address in no segment faults at that address (20_memory.md R70, R82). -/
theorem Vmm.memFetch_of_unmapped {m : Vmm} {a : Word} (h : ∀ g ∈ m.segs, ¬ g.contains a = true) :
    m.memFetch a = .error (.segmentationFault a 1 .fetch) := by
  rw [Vmm.memFetch_eq, Vmm.translate_of_unmapped h]

/-- The decoder needs the byte at the pc whatever it is, so a step whose pc lies in no segment faults there. -/
theorem step_of_unmapped_pc {s : State} (h : ∀ g ∈ s.vmm.segs, ¬ g.contains s.ctx.pc = true) :
    step s = .fault (.segmentationFault s.ctx.pc 1 .fetch) := by
  have hfetches : s.Fetches [] := nofun
  have hshort : decode [] = .short := rfl
  have hfetch : s.vmm.memFetch (s.ctx.pc + BitVec.ofNat 64 ([] : List Byte).length)
      = .error (.segmentationFault s.ctx.pc 1 .fetch) := by
    rw [List.length_nil, BitVec.add_zero, Vmm.memFetch_of_unmapped h]
  exact (fetchFault s [] _ (by decide) hfetches hshort hfetch).1

/-- Settles O10: an empty table leaves the pc, like every address, in no segment. -/
theorem unmappedFaults : Obligations.UnmappedFaults := by
  intro s hempty
  have hunmapped : ∀ g ∈ s.vmm.segs, ¬ g.contains s.ctx.pc = true := by simp [hempty]
  exact step_of_unmapped_pc hunmapped

end Sys2Proof.Machine
end
